-- ==== Sys2Proof/Word.lean ====
section
/-! DEFINITION. The machine's words: value registers, time stamps, command words. -/

namespace Sys2Proof

/-- A byte of a serialised command word (`20_memory.md` R64). -/
abbrev Byte := BitVec 8

/-- A value register: a signed 32-bit two's-complement count of micro-units (`00_scope.md` R5, R9). -/
abbrev Val := BitVec 32

/-- A stamp of one of the two 32-bit wrapping time counters (`00_scope.md` R13). -/
abbrev Time := BitVec 32

/-- A command word (`30_encoding.md` R80). -/
abbrev CmdWord := BitVec 64

/-- The value register that holds the integer `i`. -/
abbrev toVal (i : Int) : Val := BitVec.ofInt 32 i

end Sys2Proof
end

