-- ==== Sys2Proof/Machine/Arith.lean ====
section
/-! DEFINITION. The exact arithmetic of `00_scope.md` R10 to R13. `Rat` is the spec's Q (R9). -/

namespace Sys2Proof.Machine

open Sys2Proof

/-- `round_p(v, p)`: the multiple of `p` nearest to `v`, a tie going away from zero (R10). -/
def roundP (v : Rat) (p : Int) : Int :=
  if 0 ≤ v then p * (v / (p : Rat) + 1 / 2).floor else -(p * (-v / (p : Rat) + 1 / 2).floor)

/-- `remap(x, x0, y0, x1, y1)`, the linear rescale (R11). -/
def remap (x x0 y0 x1 y1 : Rat) : Rat := y0 + (x - x0) * (y1 - y0) / (x1 - x0)

/-- `clamp(v, lo, hi)` (R12). -/
def clamp (v lo hi : Int) : Int := if v < lo then lo else if hi < v then hi else v

/-- `sat(v)`: saturation to a value register (R12). -/
def sat (v : Int) : Int := clamp v (-2147483648) 2147483647

/-- `elapsed(a, b)`: the unsigned time from stamp `b` to stamp `a` (R13). -/
def elapsed (a b : Time) : Nat := (a - b).toNat

/-- `sdiff(a, b)`: the signed distance from stamp `b` to stamp `a` (R13). -/
def sdiff (a b : Time) : Int := (a - b).toInt

end Sys2Proof.Machine
end

