-- ==== Sys2Proof/Syntax.lean ====
section
/-! DEFINITION. The enumerations of the command set (`30_encoding.md` R83) and its commands
(`30_encoding.md` R84), one constructor of `Instr` per row of `spec/opcode_table.json`. -/

namespace Sys2Proof

/-- Quantity `q` (R83): voltage or current. -/
inductive Quantity where
  | u | i
  deriving DecidableEq, Repr, Inhabited

/-- Protection kind `k` (R83). -/
inductive Kind where
  | ovp | ocp | opp
  deriving DecidableEq, Repr, Inhabited

/-- Conversion set `s` (R83): voltage, current in the High range, current in the Low range. -/
inductive ConvSet where
  | u | ih | il
  deriving DecidableEq, Repr, Inhabited

/-- List array `a` (R83). -/
inductive ListArray where
  | dwell | volt | curr
  deriving DecidableEq, Repr, Inhabited

/-- Range selection mode (R83, R25). -/
inductive RangeMode where
  | alwaysHigh | alwaysLow | useBoth
  deriving DecidableEq, Repr, Inhabited

/-- Trigger mode of one quantity of a channel (R83, R38). -/
inductive TrigMode where
  | fixed | list | step
  deriving DecidableEq, Repr, Inhabited

/-- Field `f` of a calibration set that `CALPT` writes (R83). -/
inductive CalField where
  | minDac | minVal | minAdc | maxDac | maxVal | maxAdc | rangeMin | rangeMax
  deriving DecidableEq, Repr, Inhabited

/-- Monitor input of the ADC (R83). -/
inductive AdcInput where
  | uMon | iMon | uMonDac | iMonDac
  deriving DecidableEq, Repr, Inhabited

/-- The commands. `c` is a channel number, `k` a list index, `v` a signed immediate, `n` an unsigned
immediate, `b` a Boolean immediate (R81). -/
inductive Instr where
  | fadd (c : Nat) (q : Quantity) (v : Int)
  | faddr (c : Nat) (q : Quantity) (v : Int)
  | frst (c : Nat) (q : Quantity)
  | calpt (c : Nat) (set : ConvSet) (f : CalField) (v : Int)
  | calcommit (c : Nat) (set : ConvSet)
  | calclr (c : Nat) (set : ConvSet)
  | calen (c : Nat) (b : Bool)
  | tophys (c : Nat) (set : ConvSet) (v : Int)
  | toraw (c : Nat) (set : ConvSet) (v : Int)
  | rmode (c : Nat) (m : RangeMode)
  | rauto (c : Nat) (b : Bool)
  | setv (c : Nat) (v : Int)
  | seti (c : Nat) (v : Int)
  | limv (c : Nat) (v : Int)
  | limi (c : Nat) (v : Int)
  | limp (c : Nat) (v : Int)
  | outen (c : Nat) (b : Bool)
  | sense (c : Nat) (b : Bool)
  | rprog (c : Nat) (b : Bool)
  | pstate (c : Nat) (kind : Kind) (b : Bool)
  | pdelay (c : Nat) (kind : Kind) (v : Int)
  | plevel (c : Nat) (kind : Kind) (v : Int)
  | pclr (c : Nat) (b : Bool)
  | pdis (c : Nat)
  | tsrc (src : Nat)
  | tdelay (n : Nat)
  | tcont (b : Bool)
  | tmode (c : Nat) (q : Quantity) (m : TrigMode)
  | tlev (c : Nat) (q : Quantity) (v : Int)
  | tout (c : Nat) (b : Bool)
  | init
  | trg (src : Nat) (b : Bool)
  | tabort
  | llen (c : Nat) (a : ListArray) (len : Nat)
  | lset (c : Nat) (a : ListArray) (k : Nat) (v : Int)
  | lcount (c : Nat) (n : Nat)
  | lget (c : Nat) (a : ListArray) (k : Nat)
  | lstart (c : Nat)
  | labort
  | lsaved (c : Nat)
  | tick
  | rd (c : Nat) (reg : Nat)
  deriving DecidableEq, Repr

end Sys2Proof
end

