-- ==== Sys2Proof/WellFormed.lean ====
section
/-! DEFINITION. Which terms of `Instr` a command word can carry: every operand inside the field that
holds it (`30_encoding.md` R80, R81). A channel number is only bounded by its 4-bit field here; the test
against `N_CH` is the machine's (R82). -/

namespace Sys2Proof

/-- A channel number or trigger source fits a 4-bit field. -/
def fits4 (n : Nat) : Bool := decide (n < 16)

/-- A list index, list length or register number fits the 16-bit `idx` field. -/
def fits16 (n : Nat) : Bool := decide (n < 65536)

/-- A signed immediate fits `imm` as a two's-complement pattern. -/
def fitsS32 (v : Int) : Bool := decide (-2147483648 ≤ v) && decide (v < 2147483648)

/-- An unsigned immediate fits `imm`. -/
def fitsU32 (n : Nat) : Bool := decide (n < 4294967296)

/-- The immediate of `LSET`: unsigned for `DWELL`, signed otherwise (R84, last paragraph). -/
def fitsElem (a : ListArray) (v : Int) : Bool :=
  match a with
  | .dwell => decide (0 ≤ v) && decide (v < 4294967296)
  | .volt => fitsS32 v
  | .curr => fitsS32 v

/-- Every operand of the command is inside its field. -/
def Instr.wf : Instr → Bool
  | .fadd c _ v => fits4 c && fitsS32 v
  | .faddr c _ v => fits4 c && fitsS32 v
  | .frst c _ => fits4 c
  | .calpt c _ _ v => fits4 c && fitsS32 v
  | .calcommit c _ => fits4 c
  | .calclr c _ => fits4 c
  | .calen c _ => fits4 c
  | .tophys c _ v => fits4 c && fitsS32 v
  | .toraw c _ v => fits4 c && fitsS32 v
  | .rmode c _ => fits4 c
  | .rauto c _ => fits4 c
  | .setv c v => fits4 c && fitsS32 v
  | .seti c v => fits4 c && fitsS32 v
  | .limv c v => fits4 c && fitsS32 v
  | .limi c v => fits4 c && fitsS32 v
  | .limp c v => fits4 c && fitsS32 v
  | .outen c _ => fits4 c
  | .sense c _ => fits4 c
  | .rprog c _ => fits4 c
  | .pstate c _ _ => fits4 c
  | .pdelay c _ v => fits4 c && fitsS32 v
  | .plevel c _ v => fits4 c && fitsS32 v
  | .pclr c _ => fits4 c
  | .pdis c => fits4 c
  | .tsrc src => fits4 src
  | .tdelay n => fitsU32 n
  | .tcont _ => true
  | .tmode c _ _ => fits4 c
  | .tlev c _ v => fits4 c && fitsS32 v
  | .tout c _ => fits4 c
  | .init => true
  | .trg src _ => fits4 src
  | .tabort => true
  | .llen c _ len => fits4 c && fits16 len
  | .lset c a k v => fits4 c && fits16 k && fitsElem a v
  | .lcount c n => fits4 c && fitsU32 n
  | .lget c _ k => fits4 c && fits16 k
  | .lstart c => fits4 c
  | .labort => true
  | .lsaved c => fits4 c
  | .tick => true
  | .rd c reg => fits4 c && fits16 reg

end Sys2Proof
end

