-- ==== Sys2Proof/Decode.lean ====
section
/-! DEFINITION. The command word: its fields (`30_encoding.md` R80), the immediates (R81), the reserved
fields (R82), the enumerations (R83), the opcode map (R84), the decoder and, after it, the encoder. -/

namespace Sys2Proof

/-! ### The enumerations of R83 -/

def Quantity.num : Quantity → Nat
  | .u => 0
  | .i => 1

def Quantity.ofNum : Nat → Option Quantity
  | 0 => some .u
  | 1 => some .i
  | _ => none

def Kind.num : Kind → Nat
  | .ovp => 0
  | .ocp => 1
  | .opp => 2

def Kind.ofNum : Nat → Option Kind
  | 0 => some .ovp
  | 1 => some .ocp
  | 2 => some .opp
  | _ => none

def ConvSet.num : ConvSet → Nat
  | .u => 0
  | .ih => 1
  | .il => 2

def ConvSet.ofNum : Nat → Option ConvSet
  | 0 => some .u
  | 1 => some .ih
  | 2 => some .il
  | _ => none

def ListArray.num : ListArray → Nat
  | .dwell => 0
  | .volt => 1
  | .curr => 2

def ListArray.ofNum : Nat → Option ListArray
  | 0 => some .dwell
  | 1 => some .volt
  | 2 => some .curr
  | _ => none

def RangeMode.num : RangeMode → Nat
  | .alwaysHigh => 0
  | .alwaysLow => 1
  | .useBoth => 2

def RangeMode.ofNum : Nat → Option RangeMode
  | 0 => some .alwaysHigh
  | 1 => some .alwaysLow
  | 2 => some .useBoth
  | _ => none

def TrigMode.num : TrigMode → Nat
  | .fixed => 0
  | .list => 1
  | .step => 2

def TrigMode.ofNum : Nat → Option TrigMode
  | 0 => some .fixed
  | 1 => some .list
  | 2 => some .step
  | _ => none

def CalField.num : CalField → Nat
  | .minDac => 0
  | .minVal => 1
  | .minAdc => 2
  | .maxDac => 3
  | .maxVal => 4
  | .maxAdc => 5
  | .rangeMin => 6
  | .rangeMax => 7

def CalField.ofNum : Nat → Option CalField
  | 0 => some .minDac
  | 1 => some .minVal
  | 2 => some .minAdc
  | 3 => some .maxDac
  | 4 => some .maxVal
  | 5 => some .maxAdc
  | 6 => some .rangeMin
  | 7 => some .rangeMax
  | _ => none

def AdcInput.num : AdcInput → Nat
  | .uMon => 0
  | .iMon => 1
  | .uMonDac => 2
  | .iMonDac => 3

/-! ### The fields of a command word -/

/-- The five fields of R80. -/
structure Fields where
  op : BitVec 8
  ch : BitVec 4
  sel : BitVec 4
  idx : BitVec 16
  imm : BitVec 32
  deriving DecidableEq, Repr

/-- The fields of a word: `op` [63:56], `ch` [55:52], `sel` [51:48], `idx` [47:32], `imm` [31:0]. -/
def Fields.ofWord (w : CmdWord) : Fields :=
  { op := w.extractLsb' 56 8
    ch := w.extractLsb' 52 4
    sel := w.extractLsb' 48 4
    idx := w.extractLsb' 32 16
    imm := w.extractLsb' 0 32 }

/-- The word with these fields. -/
def Fields.word (f : Fields) : CmdWord := f.op ++ f.ch ++ f.sel ++ f.idx ++ f.imm

/-! ### The opcode map of R84 -/

/-- The opcodes that R84 lists. -/
inductive Opcode where
  | fadd | faddr | frst
  | calpt | calcommit | calclr | calen | tophys | toraw
  | rmode | rauto
  | setv | seti | limv | limi | limp | outen | sense | rprog
  | pstate | pdelay | plevel | pclr | pdis
  | tsrc | tdelay | tcont | tmode | tlev | tout | init | trg | tabort
  | llen | lset | lcount | lget | lstart | labort | lsaved
  | tick | rd
  deriving DecidableEq, Repr

/-- The `op` column of R84. -/
def Opcode.byte : Opcode → BitVec 8
  | .fadd => 0x10
  | .faddr => 0x11
  | .frst => 0x12
  | .calpt => 0x20
  | .calcommit => 0x21
  | .calclr => 0x22
  | .calen => 0x23
  | .tophys => 0x24
  | .toraw => 0x25
  | .rmode => 0x30
  | .rauto => 0x31
  | .setv => 0x40
  | .seti => 0x41
  | .limv => 0x42
  | .limi => 0x43
  | .limp => 0x44
  | .outen => 0x45
  | .sense => 0x46
  | .rprog => 0x47
  | .pstate => 0x50
  | .pdelay => 0x51
  | .plevel => 0x52
  | .pclr => 0x53
  | .pdis => 0x54
  | .tsrc => 0x60
  | .tdelay => 0x61
  | .tcont => 0x62
  | .tmode => 0x63
  | .tlev => 0x64
  | .tout => 0x65
  | .init => 0x66
  | .trg => 0x67
  | .tabort => 0x68
  | .llen => 0x70
  | .lset => 0x71
  | .lcount => 0x72
  | .lget => 0x73
  | .lstart => 0x74
  | .labort => 0x75
  | .lsaved => 0x76
  | .tick => 0x80
  | .rd => 0x81

/-- All opcodes, in the order of R84. -/
def Opcode.all : List Opcode :=
  [.fadd, .faddr, .frst, .calpt, .calcommit, .calclr, .calen, .tophys, .toraw, .rmode, .rauto,
   .setv, .seti, .limv, .limi, .limp, .outen, .sense, .rprog, .pstate, .pdelay, .plevel, .pclr,
   .pdis, .tsrc, .tdelay, .tcont, .tmode, .tlev, .tout, .init, .trg, .tabort, .llen, .lset,
   .lcount, .lget, .lstart, .labort, .lsaved, .tick, .rd]

/-- The opcode whose `op` byte is `b`, if R84 lists one. -/
def Opcode.ofByte (b : BitVec 8) : Option Opcode := Opcode.all.find? (fun op => op.byte == b)

/-- The use of `imm` in a row of R84: the four ways of R81, and the `s32/u32` of `LSET`. -/
inductive ImmUse where
  | s32 | u32 | bool | unused | elem
  deriving DecidableEq, Repr

/-- Which fields a row of R84 uses; an unused field is reserved-zero. -/
structure Format where
  ch : Bool
  sel : Bool
  idx : Bool
  imm : ImmUse
  deriving DecidableEq, Repr

/-- The `ch`, `sel`, `idx`, `imm` columns of R84. -/
def Opcode.format : Opcode → Format
  | .fadd => ⟨true, true, false, .s32⟩
  | .faddr => ⟨true, true, false, .s32⟩
  | .frst => ⟨true, true, false, .unused⟩
  | .calpt => ⟨true, true, true, .s32⟩
  | .calcommit => ⟨true, true, false, .unused⟩
  | .calclr => ⟨true, true, false, .unused⟩
  | .calen => ⟨true, false, false, .bool⟩
  | .tophys => ⟨true, true, false, .s32⟩
  | .toraw => ⟨true, true, false, .s32⟩
  | .rmode => ⟨true, true, false, .unused⟩
  | .rauto => ⟨true, false, false, .bool⟩
  | .setv => ⟨true, false, false, .s32⟩
  | .seti => ⟨true, false, false, .s32⟩
  | .limv => ⟨true, false, false, .s32⟩
  | .limi => ⟨true, false, false, .s32⟩
  | .limp => ⟨true, false, false, .s32⟩
  | .outen => ⟨true, false, false, .bool⟩
  | .sense => ⟨true, false, false, .bool⟩
  | .rprog => ⟨true, false, false, .bool⟩
  | .pstate => ⟨true, true, false, .bool⟩
  | .pdelay => ⟨true, true, false, .s32⟩
  | .plevel => ⟨true, true, false, .s32⟩
  | .pclr => ⟨true, false, false, .bool⟩
  | .pdis => ⟨true, false, false, .unused⟩
  | .tsrc => ⟨false, true, false, .unused⟩
  | .tdelay => ⟨false, false, false, .u32⟩
  | .tcont => ⟨false, false, false, .bool⟩
  | .tmode => ⟨true, true, true, .unused⟩
  | .tlev => ⟨true, true, false, .s32⟩
  | .tout => ⟨true, false, false, .bool⟩
  | .init => ⟨false, false, false, .unused⟩
  | .trg => ⟨false, true, false, .bool⟩
  | .tabort => ⟨false, false, false, .unused⟩
  | .llen => ⟨true, true, true, .unused⟩
  | .lset => ⟨true, true, true, .elem⟩
  | .lcount => ⟨true, false, false, .u32⟩
  | .lget => ⟨true, true, true, .unused⟩
  | .lstart => ⟨true, false, false, .unused⟩
  | .labort => ⟨false, false, false, .unused⟩
  | .lsaved => ⟨true, false, false, .unused⟩
  | .tick => ⟨false, false, false, .unused⟩
  | .rd => ⟨true, false, true, .unused⟩

/-- Every reserved field is zero, a Boolean immediate counting as reserved in bits [31:1] (R82, R81). -/
def Format.reservedZero (m : Format) (f : Fields) : Bool :=
  (m.ch || decide (f.ch = 0)) && (m.sel || decide (f.sel = 0)) && (m.idx || decide (f.idx = 0)) &&
  (match m.imm with
   | .bool => decide (f.imm.toNat < 2)
   | .unused => decide (f.imm = 0)
   | .s32 => true
   | .u32 => true
   | .elem => true)

/-- `match` of R86: `op` shifted to bits [63:56]. -/
def Opcode.matchWord (op : Opcode) : CmdWord := Fields.word ⟨op.byte, 0, 0, 0, 0⟩

/-- `mask` of R86: ones in `op` and in every reserved-zero field. -/
def Opcode.maskWord (op : Opcode) : CmdWord :=
  Fields.word
    { op := 0xFF
      ch := if op.format.ch then 0 else 0xF
      sel := if op.format.sel then 0 else 0xF
      idx := if op.format.idx then 0 else 0xFFFF
      imm := match op.format.imm with
        | .bool => 0xFFFFFFFE
        | .unused => 0xFFFFFFFF
        | .s32 => 0
        | .u32 => 0
        | .elem => 0 }

/-! ### The decoder -/

/-- Why a word is an illegal command (R82). -/
inductive DecodeError where
  /-- an `op` that R84 does not list -/
  | unknownOpcode
  /-- a non-zero reserved field -/
  | reservedField
  /-- a `sel` outside the enumeration its row names -/
  | badSelector
  /-- an `idx` outside the enumeration its row names -/
  | badIndex
  /-- a serialised command word that is not eight bytes long (R64) -/
  | badLength
  deriving DecidableEq, Repr

/-- The immediate of `LSET`: unsigned for `DWELL`, signed otherwise (R84). -/
def elemOf (a : ListArray) (imm : BitVec 32) : Int :=
  match a with
  | .dwell => (imm.toNat : Int)
  | .volt => imm.toInt
  | .curr => imm.toInt

/-- Continue with an enumerated `sel`. -/
def bySel {α : Type} (x : Option α) (k : α → Except DecodeError Instr) : Except DecodeError Instr :=
  match x with
  | some a => k a
  | none => .error .badSelector

/-- Continue with an enumerated `idx`. -/
def byIdx {α : Type} (x : Option α) (k : α → Except DecodeError Instr) : Except DecodeError Instr :=
  match x with
  | some a => k a
  | none => .error .badIndex

/-- The command of a row of R84, from fields whose reserved parts are zero. -/
def Opcode.build (op : Opcode) (f : Fields) : Except DecodeError Instr :=
  let c := f.ch.toNat
  let sel := f.sel.toNat
  let idx := f.idx.toNat
  let s := f.imm.toInt
  let n := f.imm.toNat
  let b := f.imm.getLsbD 0
  match op with
  | .fadd => bySel (Quantity.ofNum sel) fun q => .ok (.fadd c q s)
  | .faddr => bySel (Quantity.ofNum sel) fun q => .ok (.faddr c q s)
  | .frst => bySel (Quantity.ofNum sel) fun q => .ok (.frst c q)
  | .calpt => bySel (ConvSet.ofNum sel) fun t => byIdx (CalField.ofNum idx) fun g => .ok (.calpt c t g s)
  | .calcommit => bySel (ConvSet.ofNum sel) fun t => .ok (.calcommit c t)
  | .calclr => bySel (ConvSet.ofNum sel) fun t => .ok (.calclr c t)
  | .calen => .ok (.calen c b)
  | .tophys => bySel (ConvSet.ofNum sel) fun t => .ok (.tophys c t s)
  | .toraw => bySel (ConvSet.ofNum sel) fun t => .ok (.toraw c t s)
  | .rmode => bySel (RangeMode.ofNum sel) fun m => .ok (.rmode c m)
  | .rauto => .ok (.rauto c b)
  | .setv => .ok (.setv c s)
  | .seti => .ok (.seti c s)
  | .limv => .ok (.limv c s)
  | .limi => .ok (.limi c s)
  | .limp => .ok (.limp c s)
  | .outen => .ok (.outen c b)
  | .sense => .ok (.sense c b)
  | .rprog => .ok (.rprog c b)
  | .pstate => bySel (Kind.ofNum sel) fun k => .ok (.pstate c k b)
  | .pdelay => bySel (Kind.ofNum sel) fun k => .ok (.pdelay c k s)
  | .plevel => bySel (Kind.ofNum sel) fun k => .ok (.plevel c k s)
  | .pclr => .ok (.pclr c b)
  | .pdis => .ok (.pdis c)
  | .tsrc => .ok (.tsrc sel)
  | .tdelay => .ok (.tdelay n)
  | .tcont => .ok (.tcont b)
  | .tmode => bySel (Quantity.ofNum sel) fun q => byIdx (TrigMode.ofNum idx) fun m => .ok (.tmode c q m)
  | .tlev => bySel (Quantity.ofNum sel) fun q => .ok (.tlev c q s)
  | .tout => .ok (.tout c b)
  | .init => .ok .init
  | .trg => .ok (.trg sel b)
  | .tabort => .ok .tabort
  | .llen => bySel (ListArray.ofNum sel) fun a => .ok (.llen c a idx)
  | .lset => bySel (ListArray.ofNum sel) fun a => .ok (.lset c a idx (elemOf a f.imm))
  | .lcount => .ok (.lcount c n)
  | .lget => bySel (ListArray.ofNum sel) fun a => .ok (.lget c a idx)
  | .lstart => .ok (.lstart c)
  | .labort => .ok .labort
  | .lsaved => .ok (.lsaved c)
  | .tick => .ok .tick
  | .rd => .ok (.rd c idx)

/-- The order of the decode checks is R346 (1), (2): opcode and reserved fields, then enumerations. -/
def Fields.decode (f : Fields) : Except DecodeError Instr :=
  match Opcode.ofByte f.op with
  | none => .error .unknownOpcode
  | some op => if op.format.reservedZero f then op.build f else .error .reservedField

/-- The command of a word, or why it is illegal. -/
def decode (w : CmdWord) : Except DecodeError Instr := (Fields.ofWord w).decode

/-- The word whose little-endian bytes are given (R64): byte 0 is `cmd[7:0]`. -/
def wordOfBytes : List Byte → Option CmdWord
  | [b0, b1, b2, b3, b4, b5, b6, b7] => some (b7 ++ b6 ++ b5 ++ b4 ++ b3 ++ b2 ++ b1 ++ b0)
  | _ => none

/-- Decode a command word carried over a byte-wide transport (R64). -/
def decodeBytes (bytes : List Byte) : Except DecodeError Instr :=
  match wordOfBytes bytes with
  | some w => decode w
  | none => .error .badLength

/-! ### The encoder -/

/-- The bytes of a word in the order of R64. -/
def bytesOfWord (w : CmdWord) : List Byte :=
  [w.extractLsb' 0 8, w.extractLsb' 8 8, w.extractLsb' 16 8, w.extractLsb' 24 8,
   w.extractLsb' 32 8, w.extractLsb' 40 8, w.extractLsb' 48 8, w.extractLsb' 56 8]

/-- Fields from numbers. -/
def Opcode.fields (op : Opcode) (ch sel idx : Nat) (imm : BitVec 32) : Fields :=
  ⟨op.byte, BitVec.ofNat 4 ch, BitVec.ofNat 4 sel, BitVec.ofNat 16 idx, imm⟩

/-- A Boolean immediate. -/
def boolImm (b : Bool) : BitVec 32 := if b then 1 else 0

/-- The fields of a command (R84). -/
def Instr.fields : Instr → Fields
  | .fadd c q v => Opcode.fadd.fields c q.num 0 (BitVec.ofInt 32 v)
  | .faddr c q v => Opcode.faddr.fields c q.num 0 (BitVec.ofInt 32 v)
  | .frst c q => Opcode.frst.fields c q.num 0 0
  | .calpt c t f v => Opcode.calpt.fields c t.num f.num (BitVec.ofInt 32 v)
  | .calcommit c t => Opcode.calcommit.fields c t.num 0 0
  | .calclr c t => Opcode.calclr.fields c t.num 0 0
  | .calen c b => Opcode.calen.fields c 0 0 (boolImm b)
  | .tophys c t v => Opcode.tophys.fields c t.num 0 (BitVec.ofInt 32 v)
  | .toraw c t v => Opcode.toraw.fields c t.num 0 (BitVec.ofInt 32 v)
  | .rmode c m => Opcode.rmode.fields c m.num 0 0
  | .rauto c b => Opcode.rauto.fields c 0 0 (boolImm b)
  | .setv c v => Opcode.setv.fields c 0 0 (BitVec.ofInt 32 v)
  | .seti c v => Opcode.seti.fields c 0 0 (BitVec.ofInt 32 v)
  | .limv c v => Opcode.limv.fields c 0 0 (BitVec.ofInt 32 v)
  | .limi c v => Opcode.limi.fields c 0 0 (BitVec.ofInt 32 v)
  | .limp c v => Opcode.limp.fields c 0 0 (BitVec.ofInt 32 v)
  | .outen c b => Opcode.outen.fields c 0 0 (boolImm b)
  | .sense c b => Opcode.sense.fields c 0 0 (boolImm b)
  | .rprog c b => Opcode.rprog.fields c 0 0 (boolImm b)
  | .pstate c k b => Opcode.pstate.fields c k.num 0 (boolImm b)
  | .pdelay c k v => Opcode.pdelay.fields c k.num 0 (BitVec.ofInt 32 v)
  | .plevel c k v => Opcode.plevel.fields c k.num 0 (BitVec.ofInt 32 v)
  | .pclr c b => Opcode.pclr.fields c 0 0 (boolImm b)
  | .pdis c => Opcode.pdis.fields c 0 0 0
  | .tsrc src => Opcode.tsrc.fields 0 src 0 0
  | .tdelay n => Opcode.tdelay.fields 0 0 0 (BitVec.ofNat 32 n)
  | .tcont b => Opcode.tcont.fields 0 0 0 (boolImm b)
  | .tmode c q m => Opcode.tmode.fields c q.num m.num 0
  | .tlev c q v => Opcode.tlev.fields c q.num 0 (BitVec.ofInt 32 v)
  | .tout c b => Opcode.tout.fields c 0 0 (boolImm b)
  | .init => Opcode.init.fields 0 0 0 0
  | .trg src b => Opcode.trg.fields 0 src 0 (boolImm b)
  | .tabort => Opcode.tabort.fields 0 0 0 0
  | .llen c a len => Opcode.llen.fields c a.num len 0
  | .lset c a k v => Opcode.lset.fields c a.num k (BitVec.ofInt 32 v)
  | .lcount c n => Opcode.lcount.fields c 0 0 (BitVec.ofNat 32 n)
  | .lget c a k => Opcode.lget.fields c a.num k 0
  | .lstart c => Opcode.lstart.fields c 0 0 0
  | .labort => Opcode.labort.fields 0 0 0 0
  | .lsaved c => Opcode.lsaved.fields c 0 0 0
  | .tick => Opcode.tick.fields 0 0 0 0
  | .rd c reg => Opcode.rd.fields c 0 reg 0

/-- The command word of a command. -/
def encode (i : Instr) : CmdWord := i.fields.word

/-- The command that the decoder reads from the low `nbits` bits of `w`, the rest of the word being zero,
laid out as a serialised word (R64). No command is longer than 64 bits (R80). -/
def decodeTableWord (nbits w : Nat) : Option Instr :=
  if nbits ≤ 64 then (decodeBytes (bytesOfWord (BitVec.ofNat 64 (w % 2 ^ nbits)))).toOption else none

end Sys2Proof
end

