-- ==== Sys2Proof/Config.lean ====
section
/-! DEFINITION. The parameters of the block (`00_scope.md` R5, R6, R7). The spec makes every one of them
an argument of the model. The model carries them as data that no step writes: `Params` once per machine
and `Board` once per channel, so a statement about every state is a statement about every parameter
choice (log entry 1). -/

namespace Sys2Proof

/-- One datum for each protection kind. -/
structure PerKind (α : Type) where
  ovp : α
  ocp : α
  opp : α
  deriving DecidableEq, Repr, Inhabited

/-- One datum for each conversion set. -/
structure PerSet (α : Type) where
  u : α
  ih : α
  il : α
  deriving DecidableEq, Repr, Inhabited

/-- One datum for each list array. -/
structure PerArray (α : Type) where
  dwell : α
  volt : α
  curr : α
  deriving DecidableEq, Repr, Inhabited

/-- The datum of kind `k`. -/
def PerKind.get {α : Type} (x : PerKind α) : Kind → α
  | .ovp => x.ovp
  | .ocp => x.ocp
  | .opp => x.opp

/-- Replace the datum of kind `k` by `f` of it. -/
def PerKind.modify {α : Type} (x : PerKind α) (k : Kind) (f : α → α) : PerKind α :=
  match k with
  | .ovp => { x with ovp := f x.ovp }
  | .ocp => { x with ocp := f x.ocp }
  | .opp => { x with opp := f x.opp }

/-- Replace all three data. -/
def PerKind.map {α : Type} (x : PerKind α) (f : α → α) : PerKind α :=
  { ovp := f x.ovp, ocp := f x.ocp, opp := f x.opp }

/-- The datum of conversion set `s`. -/
def PerSet.get {α : Type} (x : PerSet α) : ConvSet → α
  | .u => x.u
  | .ih => x.ih
  | .il => x.il

/-- Replace the datum of conversion set `s` by `f` of it. -/
def PerSet.modify {α : Type} (x : PerSet α) (s : ConvSet) (f : α → α) : PerSet α :=
  match s with
  | .u => { x with u := f x.u }
  | .ih => { x with ih := f x.ih }
  | .il => { x with il := f x.il }

/-- The datum of list array `a`. -/
def PerArray.get {α : Type} (x : PerArray α) : ListArray → α
  | .dwell => x.dwell
  | .volt => x.volt
  | .curr => x.curr

/-- Replace the datum of list array `a` by `f` of it. -/
def PerArray.modify {α : Type} (x : PerArray α) (a : ListArray) (f : α → α) : PerArray α :=
  match a with
  | .dwell => { x with dwell := f x.dwell }
  | .volt => { x with volt := f x.volt }
  | .curr => { x with curr := f x.curr }

/-- A closed range of integers. -/
structure Span where
  min : Int
  max : Int
  deriving DecidableEq, Repr, Inhabited

/-- The structural, conversion and policy parameters of the block (R5, R7). -/
structure Params where
  /-- `FILTER_W`, entries of a filter ring -/
  filterW : Nat
  /-- `LIST_MAX`, elements of a list array -/
  listMax : Nat
  /-- `COUNT_MAX`, largest repeat count -/
  countMax : Nat
  /-- `HISTORY_N`, entries of the history ring -/
  historyN : Nat
  /-- `ADC_CODE_MIN`, `ADC_CODE_MAX` -/
  adcCode : Span
  /-- `DAC_CODE_MIN`, `DAC_CODE_MAX` -/
  dacCode : Span
  /-- `ADC_NOM_MIN[s]`, `ADC_NOM_MAX[s]` -/
  adcNom : PerSet Span
  /-- `DAC_NOM_MIN[s]`, `DAC_NOM_MAX[s]` -/
  dacNom : PerSet Span
  /-- `GND_OFFSET[s]` -/
  gndOffset : PerSet Int
  /-- `I_THR`, the range threshold, uA -/
  iThr : Int
  /-- `I_LOW_MAX`, the low-range ceiling, uA -/
  iLowMax : Int
  /-- `NO_OSC_DELAY`, us -/
  noOscDelay : Nat
  /-- `U_PREC`, uV -/
  uPrec : Int
  /-- `I_PREC`, uA -/
  iPrec : Int
  /-- `I_PREC_MICRO`, uA -/
  iPrecMicro : Int
  /-- `SHORT_DWELL_THR`, us -/
  shortDwellThr : Nat
  /-- `DP_OFF_DELAY`, us -/
  dpOffDelay : Nat
  /-- `DP_NEG_LEV`, 10^-12 W -/
  dpNegLev : Int
  /-- `DP_NEG_DELAY`, us -/
  dpNegDelay : Nat
  /-- `DP_BAL_DELAY`, us -/
  dpBalDelay : Nat
  deriving DecidableEq, Repr, Inhabited

/-- The board descriptor of one channel (R6), with `MICRO_ALLOWED` (R7). Every constant fits a value
register, so it is held as one. -/
structure Board where
  uMin : Val
  uMax : Val
  uDef : Val
  iMin : Val
  iMax : Val
  iDef : Val
  uStep : Val
  iStep : Val
  pMin : Val
  pMax : Val
  pdlyMin : PerKind Val
  pdlyMax : PerKind Val
  pdlyDef : PerKind Val
  plvlMin : PerKind Val
  plvlMax : PerKind Val
  calbMin : PerSet Val
  calbMax : PerSet Val
  microAllowed : Bool
  deriving DecidableEq, Repr, Inhabited

/-- The constraints R5 and R7 put on the parameters, but for that on `N_CH`, which is no field of `Params`:
`Params.okFor` has it. -/
def Params.ok (p : Params) : Bool :=
  decide (1 ≤ p.filterW) && decide (1 ≤ p.listMax) && decide (p.listMax ≤ 65535) &&
  decide (1 ≤ p.countMax) && decide (p.countMax ≤ 2147483647) && decide (1 ≤ p.historyN) &&
  decide (p.adcCode.min < p.adcCode.max) && decide (p.dacCode.min < p.dacCode.max) &&
  [ConvSet.u, .ih, .il].all (fun s =>
    decide ((p.adcNom.get s).min < (p.adcNom.get s).max) &&
    decide ((p.dacNom.get s).min < (p.dacNom.get s).max)) &&
  decide (p.noOscDelay < 2147483648) &&
  decide (0 < p.uPrec) && decide (p.uPrec % 10 = 0) &&
  decide (0 < p.iPrec) && decide (p.iPrec % 10 = 0) && decide (0 < p.iPrecMicro) &&
  decide (p.shortDwellThr < 2147483648) &&
  decide (p.dpNegLev < 0) && decide (p.dpBalDelay < p.dpNegDelay)

/-- The constraints R6 puts on a board descriptor, which a model may assume. -/
def Board.ok (b : Board) : Bool :=
  decide (0 ≤ b.uMin.toInt) && decide (b.uMin.toInt ≤ b.uDef.toInt) &&
  decide (b.uDef.toInt ≤ b.uMax.toInt) &&
  decide (0 ≤ b.iMin.toInt) && decide (b.iMin.toInt ≤ b.iDef.toInt) &&
  decide (b.iDef.toInt ≤ b.iMax.toInt) &&
  decide (0 ≤ b.pMin.toInt) && decide (b.pMin.toInt ≤ b.pMax.toInt) &&
  [Kind.ovp, .ocp, .opp].all (fun k =>
    decide (0 ≤ (b.pdlyMin.get k).toInt) &&
    decide ((b.pdlyMin.get k).toInt ≤ (b.pdlyDef.get k).toInt) &&
    decide ((b.pdlyDef.get k).toInt ≤ (b.pdlyMax.get k).toInt)) &&
  decide (b.plvlMax.ovp = b.uMax)

/-- All the constraints of R5, R6 and R7 on a block of these parameters and boards, `1 <= N_CH <= 16` among
them: `N_CH` is the number of boards, one per channel. A model may assume them (log entry 13). -/
def Params.okFor (p : Params) (boards : List Board) : Bool :=
  p.ok && decide (1 ≤ boards.length ∧ boards.length ≤ 16) && boards.all Board.ok

end Sys2Proof
end

