-- ==== Sys2Proof/Machine/Records.lean ====
section
/-! DEFINITION. The records the machine's state is made of (`10_state.md`), its pins, events, status codes
and responses. Every field is plain data. -/

namespace Sys2Proof.Machine

open Sys2Proof

/-! ### Per-channel records -/

/-- A filter instance `F` (R22). -/
structure Filter where
  /-- `F.buf`, the ring -/
  buf : List Val
  /-- `F.idx`, the next slot to overwrite -/
  idx : Nat
  /-- `F.sum`, the running sum, exact -/
  sum : Int
  /-- `F.seeded`, 0 meaning "not yet measured" -/
  seeded : Bool
  deriving DecidableEq, Repr, Inhabited

/-- A value record `V` (R20): `C[c].U` or `C[c].I`. -/
structure ValueRec where
  set : Val
  step : Val
  limit : Val
  /-- `V.adc`, the last raw monitor code, as a signed 32-bit pattern (log entry 9) -/
  adc : Val
  mon : Val
  monDac : Val
  /-- `V.F` -/
  f : Filter
  /-- `V.FD` -/
  fd : Filter
  deriving DecidableEq, Repr, Inhabited

/-- A protection record `P[k]` (R27). -/
structure ProtRec where
  /-- `P[k].state`, the configured on/off -/
  state : Bool
  delay : Val
  level : Val
  tripped : Bool
  alarmed : Bool
  alarmTime : Time
  deriving DecidableEq, Repr, Inhabited

/-- A calibration set `CAL[s]` (R28). -/
structure CalSet where
  /-- `CAL[s].exists` -/
  present : Bool
  minDac : Val
  minVal : Val
  minAdc : Val
  maxDac : Val
  maxVal : Val
  maxAdc : Val
  rangeMin : Val
  rangeMax : Val
  deriving DecidableEq, Repr, Inhabited

/-- A balancing snapshot `uBal` or `iBal` (R31). -/
structure Snapshot where
  valid : Bool
  value : Val
  deriving DecidableEq, Repr, Inhabited

/-- The current range (R25). -/
inductive Range where
  | high | low
  deriving DecidableEq, Repr, Inhabited

/-- `iMaxCause` has one value (R35). -/
inductive IMaxCause where
  | none
  deriving DecidableEq, Repr, Inhabited

/-- The elements of one list array that differ from 0, as (index, element) with rising indices: the
canonical form of a memory whose unlisted elements read as 0 (R36, R371; log entry 10). -/
abbrev Memory := List (Nat × BitVec 32)

/-- A list program `L` (R36). -/
structure ListProgram where
  mem : PerArray Memory
  len : PerArray Nat
  count : Nat
  changed : Bool
  deriving DecidableEq, Repr, Inhabited

/-- An execution cursor `K` (R37). -/
structure Cursor where
  it : Int
  counter : BitVec 32
  next : Time
  dwell : BitVec 32
  lastUs : Time
  lastMs : Time
  deriving DecidableEq, Repr, Inhabited

/-- One channel `C[c]` (R20 to R38). -/
structure Channel where
  /-- the board descriptor, written by nothing (`00_scope.md` R6) -/
  board : Board
  u : ValueRec
  i : ValueRec
  pLimit : Val
  uMin : Val
  uMax : Val
  uDef : Val
  iMin : Val
  iMax : Val
  iDef : Val
  outEn : Bool
  sense : Bool
  rprog : Bool
  cv : Bool
  cc : Bool
  calEn : Bool
  range : Range
  rangeMode : RangeMode
  autoRange : Bool
  dpOn : Bool
  rprogAlarm : Bool
  status : BitVec 3
  prot : PerKind ProtRec
  cal : PerSet CalSet
  rngEvalTime : Time
  /-- `adcAwait`, with `none` for `NONE` -/
  adcAwait : Option AdcInput
  uBal : Snapshot
  iBal : Snapshot
  dpOffPending : Bool
  dpOffTime : Time
  dpNegActive : Bool
  dpNegTime : Time
  onTimeRun : Bool
  onTimeLast : Time
  onTime : BitVec 64
  hist : List (Val × Val)
  histIdx : Nat
  histCount : Nat
  iMaxCause : IMaxCause
  list : ListProgram
  cursor : Cursor
  trigInProg : Bool
  trigU : Val
  trigI : Val
  trigModeU : TrigMode
  trigModeI : TrigMode
  trigOut : Bool
  deriving DecidableEq, Repr, Inhabited

/-- The trigger state (R38). -/
inductive TrigState where
  | idle | initiated | triggered | executing
  deriving DecidableEq, Repr, Inhabited

/-! ### Pins -/

/-- `pin.coupling` (R43). -/
inductive Coupling where
  | none | series | parallel | tracked
  deriving DecidableEq, Repr, Inhabited

/-- The pins of one channel (R43). -/
structure ChanPins where
  healthy : Bool
  calProc : Bool
  selfTest : Bool
  cvPin : Bool
  ccPin : Bool
  follower : Bool
  partner : Nat
  smpValid : Bool
  smpReg : AdcInput
  /-- `pin.smpCode[c]`, as a signed 32-bit pattern (log entry 9) -/
  smpCode : Val
  deriving DecidableEq, Repr, Inhabited

/-- The input pins as sampled at the start of a command (R43). -/
structure Pins where
  nowUs : Time
  nowMs : Time
  inhibit : Bool
  coupling : Coupling
  chan : List ChanPins
  deriving DecidableEq, Repr, Inhabited

/-! ### Responses and events -/

/-- The status codes of `60_exceptions.md` R341. -/
inductive Status where
  | ok | illegal | channel | range | health | voltageLimit | currentLimit | powerLimit | tripped
  | busy | trigState | trigAllFixed | trigModeMismatch | trigRprog | listLengths | trigIgnored
  | calInvalid | noCal
  deriving DecidableEq, Repr, Inhabited

/-- The response of a command (`30_encoding.md` R87). -/
structure Response where
  status : Status
  data : Val
  deriving DecidableEq, Repr, Inhabited

/-- A digital line (R44). -/
inductive Line where
  | output | dp | range | sense | rprog
  deriving DecidableEq, Repr, Inhabited

/-- The class and argument of a pushed event (`60_exceptions.md` R343). -/
inductive EventClass where
  | trip (k : Kind)
  | dpOff
  | outputFault
  | outputEnabled
  | outputDisabled
  | error (e : Status)
  deriving DecidableEq, Repr, Inhabited

/-- An output event (R44). -/
inductive Event where
  | dacWrite (c : Nat) (q : Quantity) (code : Int)
  | digOut (c : Nat) (line : Line) (level : Bool)
  | startSample (c : Nat) (reg : AdcInput)
  | pushEvent (cls : EventClass) (c : Nat)
  | markLastAsRead
  | save
  | stopCalibration (c : Nat)
  | clearOtp (c : Nat)
  deriving DecidableEq, Repr, Inhabited

/-- A command presented on the command port with the pin levels it is sampled with (R15, R43). -/
structure Request where
  pins : Pins
  word : CmdWord
  deriving DecidableEq, Repr, Inhabited

end Sys2Proof.Machine
end

