-- ==== Sys2Proof/Machine/Reset.lean ====
section
/-! DEFINITION. The reset value of every piece of per-channel state (`70_reset_and_hazards.md` R371), and
the parameter values and pin levels that the model's own reset state stands on (log entries 1 and 2). -/

namespace Sys2Proof.Machine

open Sys2Proof

/-- A filter at reset, and after `filterReset` (R103): ring zero, "not yet measured". -/
def Filter.zero (w : Nat) : Filter := { buf := List.replicate w 0, idx := 0, sum := 0, seeded := false }

/-- A value record at reset. -/
def ValueRec.resetOf (w : Nat) (setVal stepVal limitVal : Val) : ValueRec :=
  { set := setVal, step := stepVal, limit := limitVal, adc := 0, mon := 0, monDac := 0,
    f := Filter.zero w, fd := Filter.zero w }

/-- A protection record at reset. -/
def ProtRec.resetOf (delayVal levelVal : Val) : ProtRec :=
  { state := false, delay := delayVal, level := levelVal, tripped := false, alarmed := false,
    alarmTime := 0 }

/-- A calibration set at reset. -/
def CalSet.zero : CalSet :=
  { present := false, minDac := 0, minVal := 0, minAdc := 0, maxDac := 0, maxVal := 0, maxAdc := 0,
    rangeMin := 0, rangeMax := 0 }

/-- A list program at reset: created empty. -/
def ListProgram.empty : ListProgram :=
  { mem := ⟨[], [], []⟩, len := ⟨0, 0, 0⟩, count := 1, changed := false }

/-- A cursor at reset. -/
def Cursor.inactive : Cursor :=
  { it := -1, counter := -1, next := 0, dwell := 0, lastUs := 0, lastMs := 0 }

/-- A channel at reset, for a board descriptor `b` (R371). -/
def Channel.resetOf (cfg : Params) (b : Board) : Channel :=
  { board := b
    u := ValueRec.resetOf cfg.filterW b.uDef b.uStep b.uMax
    i := ValueRec.resetOf cfg.filterW b.iDef b.iStep b.iMax
    pLimit := b.pMax
    uMin := b.uMin, uMax := b.uMax, uDef := b.uDef
    iMin := b.iMin, iMax := b.iMax, iDef := b.iDef
    outEn := false, sense := false, rprog := false, cv := false, cc := false, calEn := false
    range := .high, rangeMode := .alwaysHigh, autoRange := false, dpOn := false
    rprogAlarm := false, status := 0
    prot :=
      { ovp := ProtRec.resetOf b.pdlyDef.ovp b.plvlMax.ovp
        ocp := ProtRec.resetOf b.pdlyDef.ocp b.plvlMax.ocp
        opp := ProtRec.resetOf b.pdlyDef.opp b.plvlMax.opp }
    cal := ⟨CalSet.zero, CalSet.zero, CalSet.zero⟩
    rngEvalTime := 0
    adcAwait := none
    uBal := ⟨false, 0⟩, iBal := ⟨false, 0⟩
    dpOffPending := false, dpOffTime := 0, dpNegActive := false, dpNegTime := 0
    onTimeRun := false, onTimeLast := 0, onTime := 0
    hist := List.replicate cfg.historyN (0, 0), histIdx := 0, histCount := 0
    iMaxCause := .none
    list := ListProgram.empty
    cursor := Cursor.inactive
    trigInProg := false
    trigU := b.uDef, trigI := b.iDef
    trigModeU := .fixed, trigModeI := .fixed
    trigOut := false }

/-- Pins of a channel that no host drives: all low. -/
def ChanPins.low : ChanPins :=
  { healthy := false, calProc := false, selfTest := false, cvPin := false, ccPin := false,
    follower := false, partner := 0, smpValid := false, smpReg := .uMon, smpCode := 0 }

/-- The default pins of `95_test_vectors.md` for `n` channels: every channel healthy, all else 0. -/
def Pins.default (n : Nat) : Pins :=
  { nowUs := 0, nowMs := 0, inhibit := false, coupling := .none,
    chan := List.replicate n { ChanPins.low with healthy := true } }

/-- The parameters of test profile TP1 (`95_test_vectors.md` section 1). -/
def tp1Params : Params :=
  { filterW := 4, listMax := 16, countMax := 65535, historyN := 8
    adcCode := ⟨0, 50000⟩, dacCode := ⟨0, 50000⟩
    adcNom := ⟨⟨0, 40000000⟩, ⟨0, 5000000⟩, ⟨0, 50000⟩⟩
    dacNom := ⟨⟨0, 40000000⟩, ⟨0, 5000000⟩, ⟨0, 50000⟩⟩
    gndOffset := ⟨0, 0, 0⟩
    iThr := 50000, iLowMax := 50000, noOscDelay := 5000
    uPrec := 1000, iPrec := 1000, iPrecMicro := 1
    shortDwellThr := 5000000, dpOffDelay := 10000
    dpNegLev := -1000000000000, dpNegDelay := 500000, dpBalDelay := 100000 }

/-- The board descriptor of test profile TP1, the same on both channels. -/
def tp1Board : Board :=
  { uMin := 0, uMax := 40000000, uDef := 0
    iMin := 0, iMax := 5000000, iDef := 0
    uStep := 100000, iStep := 10000
    pMin := 0, pMax := 155000000
    pdlyMin := ⟨0, 0, 0⟩, pdlyMax := ⟨10000000, 10000000, 10000000⟩, pdlyDef := ⟨5000, 20000, 10000⟩
    plvlMin := ⟨0, 0, 0⟩, plvlMax := ⟨40000000, 5000000, 155000000⟩
    calbMin := ⟨0, 0, 0⟩, calbMax := ⟨40000000, 5000000, 50000⟩
    microAllowed := true }

end Sys2Proof.Machine
end

