-- ==== Sys2Proof/Machine/State.lean ====
section
/-! DEFINITION. The machine's state, its stops, and the state after reset (`10_state.md`,
`70_reset_and_hazards.md` R370, R371). -/

namespace Sys2Proof.Machine

open Sys2Proof

/-- The whole state. `cfg`, `pins`, `port`, `resp` and `events` are the model's own fields (log entries
1, 2 and 3); the rest is the block's (R20 to R38). -/
structure State where
  /-- the parameters, written by nothing (log entry 1) -/
  cfg : Params
  /-- `C[0 .. N_CH-1]`; `N_CH` is its length -/
  chans : List Channel
  /-- `G.trigState` -/
  trigState : TrigState
  /-- `G.trigDelay`, us -/
  trigDelay : BitVec 32
  /-- `G.trigSource` -/
  trigSource : BitVec 4
  /-- `G.trigCont` -/
  trigCont : Bool
  /-- `G.trigTime` -/
  trigTime : Time
  /-- the pins sampled for the present command (log entry 2) -/
  pins : Pins
  /-- commands presented and not yet executed, oldest first (log entry 3) -/
  port : List Request
  /-- the response of the last command (R87) -/
  resp : Response
  /-- the events of the last command, in order (R44) -/
  events : List Event
  deriving DecidableEq, Repr

/-- Why the machine stops. -/
inductive Fault where
  /-- `TICK` raises it when the coupling pins of a channel that leads a pair name a partner channel that does not exist: the
  spec puts such pins outside itself (`93_implementation_defined.md` I32). Safe: the model stops where
  hardware would do something the spec does not describe (log entry 6). -/
  | partnerAbsent
  deriving DecidableEq, Repr

/-- Why a command has no meaning. -/
inductive Refusal where
  /-- an arm of `exec` that has no meaning yet raises it. Safe: the model stops. No arm raises it. -/
  | notModelled (mnemonic : String)
  deriving DecidableEq, Repr

/-- What a command answers. -/
abbrev Out := Host.Outcome State Fault Refusal

/-- The state after reset, for any parameters, boards and pin levels (R371). -/
def State.resetOf (cfg : Params) (boards : List Board) (pins : Pins) : State :=
  { cfg := cfg
    chans := boards.map (Channel.resetOf cfg)
    trigState := .idle, trigDelay := 0, trigSource := 0, trigCont := false, trigTime := 0
    pins := pins, port := [], resp := ⟨.ok, 0⟩, events := [] }

/-- The machine right after reset, under test profile TP1 (log entry 1) and the default pins (log
entry 2). -/
def State.reset : State := State.resetOf tp1Params [tp1Board, tp1Board] (Pins.default 2)

end Sys2Proof.Machine
end

