-- ==== Sys2Proof/Machine/Flags.lean ====
section
/-! DEFINITION. The flag words of the register map (`10_state.md` R45), the status bits (R26), the
numbers of status codes (`60_exceptions.md` R341) and of events (`30_encoding.md` R88). -/

namespace Sys2Proof.Machine

open Sys2Proof

/-- A Boolean as one bit. -/
def bit (b : Bool) : BitVec 1 := BitVec.ofBool b

/-- A Boolean read as a 32-bit register, zero-extended. -/
def boolVal (b : Bool) : Val := if b then 1 else 0

/-- `range`: `High` = 0, `Low` = 1 (R25). -/
def Range.isLow : Range → Bool
  | .high => false
  | .low => true

/-- `adcAwait` as stored: `NONE` = 4 (R30). -/
def awaitNum : Option AdcInput → Nat
  | none => 4
  | some r => r.num

/-- `anyTripped(c)` (`44_protection.md` R202). -/
def Channel.anyTripped (ch : Channel) : Bool :=
  ch.prot.ovp.tripped || ch.prot.ocp.tripped || ch.prot.opp.tripped

/-- `status` with bit `k` set (R26). -/
def statusSet (st : BitVec 3) (k : Kind) : BitVec 3 := st ||| (1#3 <<< k.num)

/-- Bit `k` of `status` (R26). -/
def statusBit (st : BitVec 3) (k : Kind) : Bool := st.getLsbD k.num

/-- `FLAGS` (R45), from bit 31 down. -/
def Channel.flagsWord (ch : Channel) : Val :=
  0#9 ++ BitVec.ofNat 3 (awaitNum ch.adcAwait) ++
  bit ch.iBal.valid ++ bit ch.uBal.valid ++ bit ch.dpNegActive ++ bit ch.dpOffPending ++
  bit ch.i.fd.seeded ++ bit ch.u.fd.seeded ++ bit ch.i.f.seeded ++ bit ch.u.f.seeded ++
  bit ch.rprogAlarm ++ bit ch.dpOn ++ bit ch.autoRange ++ BitVec.ofNat 2 ch.rangeMode.num ++
  bit ch.range.isLow ++ bit ch.calEn ++ bit ch.cc ++ bit ch.cv ++ bit ch.rprog ++ bit ch.sense ++
  bit ch.outEn

/-- `STATUS` (R45): bits [2:0] are `status`. -/
def Channel.statusWord (ch : Channel) : Val := ch.status.zeroExtend 32

/-- `PFLAGS[k]` (R45): bit 0 `tripped`, bit 1 `alarmed`. -/
def ProtRec.flagsWord (p : ProtRec) : Val := 0#30 ++ bit p.alarmed ++ bit p.tripped

/-- `TFLAGS` (R45): bit 0 `trigInProg`, bit 1 `trigOut`, [3:2] `trigModeU`, [5:4] `trigModeI`. -/
def Channel.trigFlagsWord (ch : Channel) : Val :=
  0#26 ++ BitVec.ofNat 2 ch.trigModeI.num ++ BitVec.ofNat 2 ch.trigModeU.num ++ bit ch.trigOut ++
  bit ch.trigInProg

/-- The number of a trigger state (R38). -/
def TrigState.num : TrigState → Nat
  | .idle => 0
  | .initiated => 1
  | .triggered => 2
  | .executing => 3

/-- The number of a status code (R341). -/
def Status.code : Status → BitVec 8
  | .ok => 0x00
  | .illegal => 0x01
  | .channel => 0x02
  | .range => 0x03
  | .health => 0x04
  | .voltageLimit => 0x05
  | .currentLimit => 0x06
  | .powerLimit => 0x07
  | .tripped => 0x08
  | .busy => 0x09
  | .trigState => 0x0A
  | .trigAllFixed => 0x0B
  | .trigModeMismatch => 0x0C
  | .trigRprog => 0x0D
  | .listLengths => 0x0E
  | .trigIgnored => 0x0F
  | .calInvalid => 0x10
  | .noCal => 0x11

/-- The number of an event class and its argument (R343). -/
def EventClass.numArg : EventClass → BitVec 8 × BitVec 8
  | .trip k => (1, BitVec.ofNat 8 k.num)
  | .dpOff => (2, 0)
  | .outputFault => (3, 0)
  | .outputEnabled => (4, 0)
  | .outputDisabled => (5, 0)
  | .error e => (6, e.code)

/-- The sub-field number of a line (R88). -/
def Line.num : Line → Nat
  | .output => 0
  | .dp => 1
  | .range => 2
  | .sense => 3
  | .rprog => 4

/-- An event laid out like a command: type, channel, sub-field, [47:32], [31:0] (R88). -/
def eventFields (type : BitVec 8) (c sub : Nat) (mid : BitVec 16) (low : BitVec 32) : BitVec 64 :=
  type ++ BitVec.ofNat 4 c ++ BitVec.ofNat 4 sub ++ mid ++ low

/-- The numeric form of an event (R88). -/
def Event.word : Event → BitVec 64
  | .dacWrite c q code => eventFields 1 c q.num 0 (BitVec.ofInt 32 code)
  | .digOut c line level => eventFields 2 c line.num 0 (boolVal level)
  | .startSample c reg => eventFields 3 c reg.num 0 0
  | .pushEvent cls c => eventFields 4 c 0 (cls.numArg.1 ++ cls.numArg.2) 0
  | .markLastAsRead => eventFields 5 0 0 0 0
  | .save => eventFields 6 0 0 0 0
  | .stopCalibration c => eventFields 7 c 0 0 0
  | .clearOtp c => eventFields 8 c 0 0 0

end Sys2Proof.Machine
end

