-- ==== Sys2Proof/Machine/Operands.lean ====
section
/-! DEFINITION. What an operand names: the record of a quantity, a calibration field, a protection record,
the precision in force, the conversion set in force, and the register of a number (`10_state.md` R45). -/

namespace Sys2Proof.Machine

open Sys2Proof

/-! ### Value records and protection records -/

/-- The record of quantity `q`: `(q = U) ? C[c].U : C[c].I`. -/
def Channel.record (ch : Channel) : Quantity → ValueRec
  | .u => ch.u
  | .i => ch.i

/-- Update the record of quantity `q`. -/
def Channel.setRecord (ch : Channel) (q : Quantity) (f : ValueRec → ValueRec) : Channel :=
  match q with
  | .u => { ch with u := f ch.u }
  | .i => { ch with i := f ch.i }

/-- Update the protection record of kind `k`. -/
def Channel.setProt (ch : Channel) (k : Kind) (f : ProtRec → ProtRec) : Channel :=
  { ch with prot := ch.prot.modify k f }

/-- Update calibration set `t`. -/
def Channel.setCal (ch : Channel) (t : ConvSet) (f : CalSet → CalSet) : Channel :=
  { ch with cal := ch.cal.modify t f }

/-- Field `f` of a calibration set (R83). -/
def CalSet.field (x : CalSet) : CalField → Val
  | .minDac => x.minDac
  | .minVal => x.minVal
  | .minAdc => x.minAdc
  | .maxDac => x.maxDac
  | .maxVal => x.maxVal
  | .maxAdc => x.maxAdc
  | .rangeMin => x.rangeMin
  | .rangeMax => x.rangeMax

/-- Write field `f` of a calibration set (`41_calibration.md` R130). -/
def CalSet.setField (x : CalSet) (f : CalField) (v : Val) : CalSet :=
  match f with
  | .minDac => { x with minDac := v }
  | .minVal => { x with minVal := v }
  | .minAdc => { x with minAdc := v }
  | .maxDac => { x with maxDac := v }
  | .maxVal => { x with maxVal := v }
  | .maxAdc => { x with maxAdc := v }
  | .rangeMin => { x with rangeMin := v }
  | .rangeMax => { x with rangeMax := v }

/-! ### Modes in force -/

/-- `curSet(c)`: the current conversion set of the range in force (`00_scope.md` R17). -/
def Channel.curSet (ch : Channel) : ConvSet :=
  match ch.range with
  | .high => .ih
  | .low => .il

/-- `calActive(c, s)` (`41_calibration.md` R123). -/
def Channel.calActive (ch : Channel) (t : ConvSet) : Bool := ch.calEn && (ch.cal.get t).present

/-- `uPrec(c)` (`43_channel.md` R170). -/
def uPrec (cfg : Params) (ch : Channel) : Int := if ch.calEn then cfg.uPrec / 10 else cfg.uPrec

/-- `iPrec(c)` (`43_channel.md` R170). -/
def iPrec (cfg : Params) (ch : Channel) : Int :=
  if ch.range = .low ∧ ch.board.microAllowed = true then cfg.iPrecMicro
  else if ch.calEn then cfg.iPrec / 10 else cfg.iPrec

/-- The precision of quantity `q`. -/
def prec (cfg : Params) (ch : Channel) : Quantity → Int
  | .u => uPrec cfg ch
  | .i => iPrec cfg ch

/-- `hwRange(c, s)` (`41_calibration.md` R131). -/
def hwRange (cfg : Params) (ch : Channel) : ConvSet → Int × Int
  | .u => (ch.board.uMin.toInt, ch.board.uMax.toInt)
  | .ih => (ch.board.iMin.toInt, ch.board.iMax.toInt)
  | .il => (ch.board.iMin.toInt, min ch.board.iMax.toInt cfg.iLowMax)

/-- `active(c)`: the cursor runs (`47_list.md` R281). -/
def Channel.active (ch : Channel) : Bool := decide (0 ≤ ch.cursor.counter.toInt)

/-! ### The register map -/

/-- Registers 0x60+16s+f of one calibration set. -/
def CalSet.regs (base : Nat) (x : CalSet) : List (Nat × Val) :=
  [(base, x.minDac), (base + 1, x.minVal), (base + 2, x.minAdc), (base + 3, x.maxDac),
   (base + 4, x.maxVal), (base + 5, x.maxAdc), (base + 6, x.rangeMin), (base + 7, x.rangeMax),
   (base + 8, boolVal x.present)]

/-- Registers 0x30+4k .. 0x33+4k of one protection record. -/
def ProtRec.regs (base : Nat) (p : ProtRec) : List (Nat × Val) :=
  [(base, boolVal p.state), (base + 1, p.delay), (base + 2, p.level), (base + 3, p.flagsWord)]

/-- The value-record and bound registers 0x00 to 0x18. -/
def Channel.valueRegs (ch : Channel) : List (Nat × Val) :=
  [(0x00, ch.u.set), (0x01, ch.u.step), (0x02, ch.u.limit), (0x03, ch.u.adc), (0x04, ch.u.mon),
   (0x05, ch.u.monDac), (0x06, ch.uMin), (0x07, ch.uMax), (0x08, ch.uDef),
   (0x10, ch.i.set), (0x11, ch.i.step), (0x12, ch.i.limit), (0x13, ch.i.adc), (0x14, ch.i.mon),
   (0x15, ch.i.monDac), (0x16, ch.iMin), (0x17, ch.iMax), (0x18, ch.iDef)]

/-- The flag, list, cursor and trigger registers of a channel. -/
def Channel.miscRegs (ch : Channel) : List (Nat × Val) :=
  [(0x20, ch.pLimit), (0x21, ch.flagsWord), (0x22, ch.statusWord), (0x23, ch.rngEvalTime),
   (0x24, ch.onTime.extractLsb' 0 32), (0x25, ch.onTime.extractLsb' 32 32),
   (0x26, ch.uBal.value), (0x27, ch.iBal.value),
   (0x3C, ch.prot.ovp.alarmTime), (0x3D, ch.prot.ocp.alarmTime), (0x3E, ch.prot.opp.alarmTime),
   (0x40, BitVec.ofNat 32 ch.list.len.dwell), (0x41, BitVec.ofNat 32 ch.list.len.volt),
   (0x42, BitVec.ofNat 32 ch.list.len.curr), (0x43, BitVec.ofNat 32 ch.list.count),
   (0x44, boolVal ch.list.changed),
   (0x45, toVal ch.cursor.it), (0x46, ch.cursor.counter), (0x47, ch.cursor.next),
   (0x48, ch.cursor.dwell), (0x49, ch.cursor.lastUs), (0x4A, ch.cursor.lastMs),
   (0x50, ch.trigFlagsWord), (0x51, ch.trigU), (0x52, ch.trigI)]

/-- The per-channel register map of R45, as (number, value) pairs. -/
def Channel.regTable (ch : Channel) : List (Nat × Val) :=
  ch.valueRegs ++ ch.miscRegs ++
  ch.prot.ovp.regs 0x30 ++ ch.prot.ocp.regs 0x34 ++ ch.prot.opp.regs 0x38 ++
  ch.cal.u.regs 0x60 ++ ch.cal.ih.regs 0x70 ++ ch.cal.il.regs 0x80

/-- Register `reg` of a channel, `none` where R45 assigns none. -/
def Channel.readReg (ch : Channel) (reg : Nat) : Option Val := ch.regTable.lookup reg

/-- The global register map of R45. -/
def State.globalRegTable (s : State) : List (Nat × Val) :=
  [(0x100, BitVec.ofNat 32 s.trigState.num), (0x101, s.trigDelay), (0x102, s.trigSource.zeroExtend 32),
   (0x103, boolVal s.trigCont), (0x104, s.trigTime)]

/-- Global register `reg`, `none` where R45 assigns none. -/
def State.readGlobal (s : State) (reg : Nat) : Option Val := s.globalRegTable.lookup reg

end Sys2Proof.Machine
end

