-- ==== Sys2Proof/Machine/Ops.lean ====
section
/-! DEFINITION. The named operations over the state: channels and pins, responses, events, list memory,
the filter procedures, the conversion functions, applying a setpoint, the output, taking a protection
trip (the block's exception entry) and returning from it. -/

namespace Sys2Proof.Machine

open Sys2Proof

/-! ### Channels, pins, responses, events -/

/-- `N_CH`. -/
def State.nCh (s : State) : Nat := s.chans.length

/-- `C[c]`. Every rule names a channel below `N_CH`. -/
def State.chan (s : State) (c : Nat) : Channel := (s.chans[c]?).getD default

/-- `iPrec` of every channel. A command takes it of the state it starts from and rounds with it throughout,
whatever range it selects on the way (R170); `uPrec` reads only `calEn`, which no command that rounds writes. -/
def State.currentPrecs (s : State) (c : Nat) : Int := iPrec s.cfg (s.chan c)

/-- `pin.f[c]`; a channel that the pins do not reach reads low (log entry 5). -/
def State.pin (s : State) (c : Nat) : ChanPins := (s.pins.chan[c]?).getD ChanPins.low

/-- Update channel `c`. -/
def State.upd (s : State) (c : Nat) (f : Channel → Channel) : State :=
  { s with chans := s.chans.modify c f }

/-- `emit`: append events in program order (`00_scope.md` R14). -/
def State.emit (s : State) (es : List Event) : State := { s with events := s.events ++ es }

/-- A command starts with no event and the response `OK`, 0. -/
def State.begin (s : State) : State := { s with resp := ⟨.ok, 0⟩, events := [] }

/-- The response data of a command that completes (`30_encoding.md` R87). -/
def State.answer (s : State) (d : Val) : State := { s with resp := ⟨.ok, d⟩ }

/-- The state after `raise Err(e)`: nothing changes, no event, data 0 (R14, `60_exceptions.md` R341). -/
def State.failed (s : State) (e : Status) : State := { s with resp := ⟨e, 0⟩, events := [] }

/-- `raise Err(e)`. -/
def raise (e : Status) (s : State) : Out := .next (s.failed e)

/-- Go on when a check passes, else raise `e`. -/
def require (check : Bool) (e : Status) (s : State) (k : Out) : Out := if check then k else raise e s

/-- A command on channel `c`: `E_CHANNEL` when there is no such channel (`30_encoding.md` R82), else the
command's own rule on that channel. -/
def onChannel (c : Nat) (s : State) (k : State → Channel → Out) : Out :=
  match s.chans[c]? with
  | some ch => k s.begin ch
  | none => raise .channel s

/-- `for c in 0 .. N_CH-1`, ascending (R14). -/
def forChannels (f : State → Nat → State) (s : State) : State := (List.range s.nCh).foldl f s

/-! ### List memory (`20_memory.md` R62) -/

/-- Element `k`; an unlisted element reads 0, its reset value. -/
def Memory.read (m : Memory) (k : Nat) : BitVec 32 := (List.lookup k m).getD 0

/-- Store `v` at index `k`, keeping the canonical form. -/
def Memory.write : Memory → Nat → BitVec 32 → Memory
  | [], k, v => if v = 0 then [] else [(k, v)]
  | (j, x) :: rest, k, v =>
    if k < j then (if v = 0 then (j, x) :: rest else (k, v) :: (j, x) :: rest)
    else if k = j then (if v = 0 then rest else (k, v) :: rest)
    else (j, x) :: Memory.write rest k v

/-- Every index of the memory is above `lo`, rising, and no element is 0. -/
def Memory.wfAbove : Nat → Memory → Bool
  | _, [] => true
  | lo, (j, x) :: rest => decide (lo < j) && decide (x ≠ 0) && Memory.wfAbove j rest

/-- The canonical form: indices strictly rising, no element equal to what an unlisted one reads as. -/
def Memory.wf : Memory → Bool
  | [] => true
  | (j, x) :: rest => decide (x ≠ 0) && Memory.wfAbove j rest

/-- `ListRead(c, a, k)`. -/
def Channel.listRead (ch : Channel) (a : ListArray) (k : Nat) : BitVec 32 :=
  Memory.read (ch.list.mem.get a) k

/-- `ListWrite(c, a, k, v)`. -/
def Channel.listWrite (ch : Channel) (a : ListArray) (k : Nat) (v : BitVec 32) : Channel :=
  { ch with list := { ch.list with mem := ch.list.mem.modify a fun m => Memory.write m k v } }

/-! ### The filter procedures (`40_filter.md`) -/

/-- `filterAdd(F, v, p)`: the new filter and the new mean (R101). -/
def filterAdd (w : Nat) (f : Filter) (v : Rat) (p : Int) : Filter × Val :=
  let x := sat (roundP v p)
  let f' : Filter :=
    if f.seeded then
      { f with
        sum := f.sum - (f.buf.getD f.idx 0).toInt + x
        buf := f.buf.set f.idx (toVal x)
        idx := (f.idx + 1) % w }
    else { buf := List.replicate w (toVal x), idx := 0, sum := (w : Int) * x, seeded := true }
  (f', toVal (sat (roundP ((f'.sum : Rat) / (w : Rat)) p)))

/-- `filterReset(V)` (R103). -/
def filterReset (w : Nat) (v : ValueRec) : ValueRec :=
  { v with f := Filter.zero w, fd := Filter.zero w, mon := 0, monDac := 0 }

/-- `V.mon <- filterAdd(V.F, v, p)` (R104). -/
def ValueRec.addMon (w : Nat) (r : ValueRec) (v : Rat) (p : Int) : ValueRec :=
  { r with f := (filterAdd w r.f v p).1, mon := (filterAdd w r.f v p).2 }

/-- `V.monDac <- filterAdd(V.FD, v, p)` (R105). -/
def ValueRec.addMonDac (w : Nat) (r : ValueRec) (v : Rat) (p : Int) : ValueRec :=
  { r with fd := (filterAdd w r.fd v p).1, monDac := (filterAdd w r.fd v p).2 }

/-! ### The conversion functions (`41_calibration.md`) -/

/-- `adcToNom(s, code)` (R122). -/
def adcToNom (cfg : Params) (t : ConvSet) (code : Rat) : Rat :=
  remap code cfg.adcCode.min (cfg.adcNom.get t).min cfg.adcCode.max (cfg.adcNom.get t).max

/-- `nomToDac(s, y)` (R122). -/
def nomToDac (cfg : Params) (t : ConvSet) (y : Rat) : Rat :=
  remap y (cfg.dacNom.get t).min cfg.dacCode.min (cfg.dacNom.get t).max cfg.dacCode.max

/-- The second rescale of `toPhysical`: nominal monitored value to true value (R124). -/
def CalSet.adcToVal (x : CalSet) (y : Rat) : Rat :=
  remap y x.minAdc.toInt x.minVal.toInt x.maxAdc.toInt x.maxVal.toInt

/-- The correction of `toRaw`: true value to nominal commanded value (R125). -/
def CalSet.valToDac (x : CalSet) (v : Rat) : Rat :=
  remap v x.minVal.toInt x.minDac.toInt x.maxVal.toInt x.maxDac.toInt

/-- `toPhysical(c, s, code)` (R124). -/
def toPhysical (cfg : Params) (ch : Channel) (t : ConvSet) (code : Rat) : Rat :=
  let y := adcToNom cfg t code
  (if ch.calActive t then (ch.cal.get t).adcToVal y else y) - (cfg.gndOffset.get t : Rat)

/-- The nominal value that `toRaw` commands for the physical value `v` (R125, first two lines). -/
def toNominal (cfg : Params) (ch : Channel) (t : ConvSet) (v : Rat) : Rat :=
  let x := v + (cfg.gndOffset.get t : Rat)
  if ch.calActive t then (ch.cal.get t).valToDac x else x

/-- `toRaw(c, s, v)` (R125). -/
def toRaw (cfg : Params) (ch : Channel) (t : ConvSet) (v : Rat) : Int :=
  clamp (roundP (nomToDac cfg t (toNominal cfg ch t v)) 1) cfg.dacCode.min cfg.dacCode.max

/-! ### The range selector (`42_ranging.md`) -/

/-- `switchRange(c, r)` (R154). -/
def switchRange (s : State) (c : Nat) (r : Range) : State :=
  (s.upd c fun ch => { ch with range := r, adcAwait := some .uMon }).emit
    [.digOut c .range r.isLow, .startSample c .uMon]

/-- The target of the selection policy for current `i`, `none` where it is suppressed (R152, R153). -/
def rangeTarget (cfg : Params) (mode : RangeMode) (pin : ChanPins) (i : Int) : Option Range :=
  if pin.selfTest then some .high
  else if pin.calProc then none
  else match mode with
    | .alwaysHigh => some .high
    | .alwaysLow => some .low
    | .useBoth => some (if cfg.iThr < i then .high else .low)

/-- `selectRange(c, i)` (R153). -/
def selectRange (s : State) (c : Nat) (i : Int) : State :=
  match rangeTarget s.cfg (s.chan c).rangeMode (s.pin c) i with
  | none => s
  | some target =>
    let s1 := s.upd c fun ch => { ch with rngEvalTime := s.pins.nowUs }
    if target = (s.chan c).range then s1 else switchRange s1 c target

/-! ### Applying a setpoint (`43_channel.md`) -/

/-- `applyVoltage(c, v)` (R171). -/
def applyVoltage (s : State) (c : Nat) (v : Int) : State :=
  (s.upd c fun ch =>
      { ch with u := { ch.u with set := toVal v }, iBal := { ch.iBal with valid := false } }).emit
    [.dacWrite c .u (toRaw s.cfg (s.chan c) .u v), .save]

/-- The part of `applyCurrent(c, i)` after the range policy (R172). -/
def storeCurrent (s : State) (c : Nat) (i : Int) : State :=
  (s.upd c fun ch =>
      { ch with i := { ch.i with set := toVal i }, uBal := { ch.uBal with valid := false } }).emit
    [.dacWrite c .i (toRaw s.cfg (s.chan c) (s.chan c).curSet i), .save]

/-- `applyCurrent(c, i)` (R172). -/
def applyCurrent (s : State) (c : Nat) (i : Int) : State := storeCurrent (selectRange s c i) c i

/-- `applyVoltage` or `applyCurrent`, by quantity. -/
def applySetpoint (s : State) (c : Nat) (q : Quantity) (x : Int) : State :=
  match q with
  | .u => applyVoltage s c x
  | .i => applyCurrent s c x

/-- `checkPoint(c, v, i)` (R173). -/
def checkPoint (ch : Channel) (v i : Int) : Status :=
  if v < ch.uMin.toInt then .range
  else if ch.u.limit.toInt < v then .voltageLimit
  else if i < ch.iMin.toInt then .range
  else if ch.i.limit.toInt < i then .currentLimit
  else if ch.pLimit.toInt * 1000000 < v * i then .powerLimit
  else .ok

/-! ### The output (`43_channel.md`) -/

/-- `setOutput(c, 1)` on a channel that is off (R181). -/
def turnOn (s : State) (c : Nat) : State :=
  (s.upd c fun ch =>
      { ch with
        outEn := true, rngEvalTime := s.pins.nowUs, dpOn := true, dpOffPending := false
        adcAwait := some .uMon, onTimeRun := true, onTimeLast := s.pins.nowUs }).emit
    [.digOut c .range (s.chan c).range.isLow, .digOut c .dp true, .startSample c .uMon,
     .digOut c .output true, .pushEvent .outputEnabled c, .save]

/-- `setOutput(c, 0)` on a channel that is on (R181). -/
def turnOff (s : State) (c : Nat) : State :=
  (s.upd c fun ch =>
      { ch with
        outEn := false, cv := false, cc := false
        dpOffPending := true, dpOffTime := s.pins.nowUs, dpNegActive := false
        onTime := ch.onTime + BitVec.ofNat 64 (elapsed s.pins.nowUs ch.onTimeLast)
        onTimeRun := false }).emit
    [.digOut c .output false, .stopCalibration c, .pushEvent .outputDisabled c, .save]

/-- `setOutput(c, en)` (R181): no effect when the output is already so. -/
def setOutput (s : State) (c : Nat) (en : Bool) : State :=
  if (s.chan c).outEn = en then s else if en then turnOn s c else turnOff s c

/-- The two refusals of `requestOutput(c, en)` (R185). -/
def outputRefusal (s : State) (c : Nat) (en : Bool) : Status :=
  if !(s.pin c).healthy then .health
  else if en && (s.chan c).anyTripped then .tripped
  else .ok

/-- `requestOutput(c, en)` (R185): the state after it; its status code is `outputRefusal`. -/
def requestOutput (s : State) (c : Nat) (en : Bool) : State :=
  if outputRefusal s c en = .ok then setOutput s c en else s

/-! ### The trip, this block's exception entry, and its return (`44_protection.md`) -/

/-- The coupled follower that goes off with channel `c` (R206). -/
def tripsPartner (s : State) (c : Nat) : Bool :=
  decide (s.pins.coupling ≠ .none) && (s.pin (s.pin c).partner).follower

/-- The last two lines of `trip(c, OVP)`: the remote-programming alarm, and remote programming off. -/
def dropRprog (s : State) (c : Nat) : State :=
  if (s.chan c).rprog then
    (s.upd c fun ch =>
        { ch with
          rprogAlarm := ch.rprogAlarm || decide (ch.prot.ovp.level = ch.board.uMax)
          rprog := false }).emit [.digOut c .rprog false, .save]
  else s

/-- `P[k].tripped <- 1 ; status[k] <- 1 ; emit PushEvent(TRIP, k, c)`. -/
def latchTrip (s : State) (c : Nat) (k : Kind) : State :=
  (s.upd c fun ch =>
      { ch.setProt k (fun p => { p with tripped := true }) with status := statusSet ch.status k }).emit
    [.pushEvent (.trip k) c]

/-- `trip(c, k)` (R206): the output is forced off, and that of a coupled follower; the kind is latched and
its status bit set; the event is pushed; an over-voltage ends remote programming. -/
def trip (s : State) (c : Nat) (k : Kind) : State :=
  let s1 := setOutput s c false
  let s2 := if tripsPartner s c then setOutput s1 (s.pin c).partner false else s1
  let s3 := latchTrip s2 c k
  match k with
  | .ovp => dropRprog s3 c
  | .ocp => s3
  | .opp => s3

/-- What `PCLR` does to a channel (R210): all three kinds are released, and the alarm flag. -/
def Channel.clearProtection (ch : Channel) : Channel :=
  { ch with
    prot := ch.prot.map fun p => { p with tripped := false, alarmed := false }
    status := 0
    rprogAlarm := false }

/-- `PCLR c, b` (R210), the return from a trip. -/
def releaseTrip (s : State) (c : Nat) (otp : Bool) : State :=
  (s.upd c Channel.clearProtection).emit
    ((if otp then [.clearOtp c] else []) ++ (if (s.chan c).anyTripped then [.markLastAsRead] else []) ++
      [.save])

/-! ### Bounds (`41_calibration.md`) -/

/-- The current set that bounds the current setpoint (R133). -/
def boundSet (mode : RangeMode) : ConvSet :=
  match mode with
  | .alwaysLow => .il
  | .alwaysHigh => .ih
  | .useBoth => .ih

/-- A board range intersected with a set's validated range, when calibration is active on it (R133). -/
def boundWith (ch : Channel) (t : ConvSet) (lo hi : Int) : Int × Int :=
  if ch.calActive t then
    (max lo (ch.cal.get t).rangeMin.toInt, min hi (ch.cal.get t).rangeMax.toInt)
  else (lo, hi)

/-- The effective voltage bounds (R133). -/
def uBounds (ch : Channel) : Int × Int := boundWith ch .u ch.board.uMin.toInt ch.board.uMax.toInt

/-- The effective current bounds (R133). -/
def iBounds (cfg : Params) (ch : Channel) : Int × Int :=
  boundWith ch (boundSet ch.rangeMode) ch.board.iMin.toInt
    (match ch.rangeMode with
     | .alwaysLow => min ch.board.iMax.toInt cfg.iLowMax
     | .alwaysHigh => ch.board.iMax.toInt
     | .useBoth => ch.board.iMax.toInt)

/-- `recomputeBounds(c)` (R133). -/
def recomputeBounds (cfg : Params) (ch : Channel) : Channel :=
  let ub := uBounds ch
  let ib := iBounds cfg ch
  { ch with
    uMin := toVal ub.1, uMax := toVal ub.2, uDef := toVal (clamp ch.board.uDef.toInt ub.1 ub.2)
    iMin := toVal ib.1, iMax := toVal ib.2, iDef := toVal (clamp ch.board.iDef.toInt ib.1 ib.2) }

/-- The voltage half of `clampIntoBounds(c)`: the limit is clamped (R134). -/
def clampULimit (ch : Channel) : Channel :=
  { ch with u := { ch.u with limit := toVal (clamp ch.u.limit.toInt ch.uMin.toInt ch.uMax.toInt) } }

/-- The current half of `clampIntoBounds(c)`: the limit is clamped (R134). -/
def clampILimit (ch : Channel) : Channel :=
  { ch with i := { ch.i with limit := toVal (clamp ch.i.limit.toInt ch.iMin.toInt ch.iMax.toInt) } }

/-- `newU` of R134, after the limit was clamped. -/
def clampedU (ch : Channel) : Int := clamp ch.u.set.toInt ch.uMin.toInt ch.u.limit.toInt

/-- `newI` of R134, after the limit was clamped. -/
def clampedI (ch : Channel) : Int := clamp ch.i.set.toInt ch.iMin.toInt ch.i.limit.toInt

end Sys2Proof.Machine
end

