-- ==== Sys2Proof/Machine/CalibrationCmds.lean ====
section
/-! DEFINITION. The calibration commands (`41_calibration.md`): `CALPT`, `CALCOMMIT`, `CALCLR`, `CALEN`,
`TOPHYS`, `TORAW`. -/

namespace Sys2Proof.Machine

open Sys2Proof

/-- `CALPT c, s, f, imm` (R130): write a field and un-commit the set. -/
def execCalpt (c : Nat) (t : ConvSet) (f : CalField) (v : Int) (s : State) : Out :=
  onChannel c s fun s ch =>
    require (!ch.calEn) .busy s <|
    .next (s.upd c fun ch => ch.setCal t fun x => { x.setField f (toVal v) with present := false })

/-- The validity conditions of `CALCOMMIT` (R131). -/
def calValid (cfg : Params) (ch : Channel) (t : ConvSet) : Bool :=
  let x := ch.cal.get t
  let hw := hwRange cfg ch t
  decide (x.minVal.toInt < x.maxVal.toInt) && decide (x.minDac.toInt < x.maxDac.toInt) &&
  decide (x.minAdc.toInt < x.maxAdc.toInt) && decide (x.rangeMin.toInt < x.rangeMax.toInt) &&
  decide ((ch.board.calbMin.get t).toInt ≤ x.rangeMin.toInt) &&
  decide (x.rangeMax.toInt ≤ (ch.board.calbMax.get t).toInt) &&
  decide (max hw.1 x.rangeMin.toInt ≤ min hw.2 x.rangeMax.toInt)

/-- `CALCOMMIT c, s` (R131). -/
def execCalcommit (c : Nat) (t : ConvSet) (s : State) : Out :=
  onChannel c s fun s ch =>
    require (!ch.calEn) .busy s <|
    require (calValid s.cfg ch t) .calInvalid s <|
    .next (s.upd c fun ch => ch.setCal t fun x => { x with present := true })

/-- `CALCLR c, s` (R132). -/
def execCalclr (c : Nat) (t : ConvSet) (s : State) : Out :=
  onChannel c s fun s ch =>
    require (!ch.calEn) .busy s <|
    .next (s.upd c fun ch => ch.setCal t fun x => { x with present := false })

/-- Some calibration set exists. -/
def Channel.anyCal (ch : Channel) : Bool := ch.cal.u.present || ch.cal.ih.present || ch.cal.il.present

/-- The channel after `calEn` is written, the bounds are recomputed and the limits are clamped (R135). -/
def switchCal (cfg : Params) (b : Bool) (ch : Channel) : Channel :=
  clampILimit (clampULimit (recomputeBounds cfg { ch with calEn := b }))

/-- `CALEN c, b` (R135). -/
def execCalen (c : Nat) (b : Bool) (s : State) : Out :=
  onChannel c s fun s ch =>
    require (s.pin c).healthy .health s <|
    require (!b || ch.anyCal) .noCal s <|
    if ch.calEn = b then .next s
    else
      let ch1 := switchCal s.cfg b ch
      .next (applyCurrent (applyVoltage (s.upd c (switchCal s.cfg b)) c (clampedU ch1)) c (clampedI ch1))

/-- `TOPHYS c, s, imm` (R136). -/
def execTophys (c : Nat) (t : ConvSet) (v : Int) (s : State) : Out :=
  onChannel c s fun s ch =>
    .next (s.answer (toVal (sat (roundP (toPhysical s.cfg ch t v) 1))))

/-- `TORAW c, s, imm` (R137). -/
def execToraw (c : Nat) (t : ConvSet) (v : Int) (s : State) : Out :=
  onChannel c s fun s ch =>
    .next (s.answer (toVal (toRaw s.cfg ch t v)))

end Sys2Proof.Machine
end

