-- ==== Sys2Proof/Machine/ChannelCmds.lean ====
section
/-! DEFINITION. The channel setpoint, limit and enable commands (`43_channel.md`): `SETV`, `SETI`, `LIMV`,
`LIMI`, `LIMP`, `OUTEN`, `SENSE`, `RPROG`. -/

namespace Sys2Proof.Machine

open Sys2Proof

/-- `SETV c, imm` (R174). -/
def execSetv (c : Nat) (v : Int) (s : State) : Out :=
  onChannel c s fun s ch =>
    require (s.pin c).healthy .health s <|
    let w := roundP v (uPrec s.cfg ch)
    let e := checkPoint ch w ch.i.set.toInt
    require (decide (e = .ok)) e s <|
    .next (applyVoltage s c w)

/-- `SETI c, imm` (R175). -/
def execSeti (c : Nat) (v : Int) (s : State) : Out :=
  onChannel c s fun s ch =>
    require (s.pin c).healthy .health s <|
    let i := roundP v (iPrec s.cfg ch)
    let e := checkPoint ch ch.u.set.toInt i
    require (decide (e = .ok)) e s <|
    .next (applyCurrent s c i)

/-- `LIMV c, imm` (R177). -/
def execLimv (c : Nat) (v : Int) (s : State) : Out :=
  onChannel c s fun s ch =>
    require (s.pin c).healthy .health s <|
    let l := clamp v ch.uMin.toInt ch.uMax.toInt
    let s1 := s.upd c fun ch => { ch with u := { ch.u with limit := toVal l } }
    .next (if l < ch.u.set.toInt then applyVoltage s1 c l else s1.emit [.save])

/-- `LIMI c, imm` (R178). -/
def execLimi (c : Nat) (v : Int) (s : State) : Out :=
  onChannel c s fun s ch =>
    require (s.pin c).healthy .health s <|
    let l := clamp v ch.iMin.toInt ch.iMax.toInt
    let s1 := s.upd c fun ch => { ch with i := { ch.i with limit := toVal l } }
    .next (if l < ch.i.set.toInt then applyCurrent s1 c l else s1.emit [.save])

/-- The current that `LIMP` recomputes from `limit / voltage` (R179). -/
def limpCurrent (cfg : Params) (ch : Channel) (p : Int) : Int :=
  max ch.iMin.toInt
    (min ch.i.set.toInt (roundP (((p * 1000000 : Int) : Rat) / (ch.u.set.toInt : Rat)) (iPrec cfg ch)))

/-- `LIMP c, imm` (R179). -/
def execLimp (c : Nat) (v : Int) (s : State) : Out :=
  onChannel c s fun s ch =>
    require (s.pin c).healthy .health s <|
    let p := clamp v ch.board.pMin.toInt ch.board.pMax.toInt
    let s1 := s.upd c fun ch => { ch with pLimit := toVal p }
    .next (if p * 1000000 < ch.u.set.toInt * ch.i.set.toInt then applyCurrent s1 c (limpCurrent s.cfg ch p)
      else s1.emit [.save])

/-- `OUTEN c, b` (R182). -/
def execOuten (c : Nat) (b : Bool) (s : State) : Out :=
  onChannel c s fun s _ =>
    let e := outputRefusal s c b
    require (decide (e = .ok)) e s <|
    .next (requestOutput s c b)

/-- `SENSE c, b` (R183). -/
def execSense (c : Nat) (b : Bool) (s : State) : Out :=
  onChannel c s fun s ch =>
    require (s.pin c).healthy .health s <|
    if ch.sense = b then .next s
    else .next ((s.upd c fun ch => { ch with sense := b }).emit [.digOut c .sense b, .save])

/-- `RPROG c, b` (R184). -/
def execRprog (c : Nat) (b : Bool) (s : State) : Out :=
  onChannel c s fun s ch =>
    require (s.pin c).healthy .health s <|
    if ch.rprog = b then .next s
    else
      let s1 := (s.upd c fun ch => { ch with rprog := b }).emit [.digOut c .rprog b]
      if b then
        .next ((applyVoltage s1 c ch.uMin.toInt).upd c fun ch =>
          ch.setProt .ovp fun p => { p with level := ch.board.uMax })
      else .next (s1.emit [.save])

end Sys2Proof.Machine
end

