-- ==== Sys2Proof/Machine/FilterCmds.lean ====
section
/-! DEFINITION. The value-filter commands (`40_filter.md`): `FADD`, `FADDR`, `FRST`. -/

namespace Sys2Proof.Machine

open Sys2Proof

/-- `FADD c, q, imm` (R104). -/
def execFadd (c : Nat) (q : Quantity) (v : Int) (s : State) : Out :=
  onChannel c s fun s ch =>
    let r := (ch.record q).addMon s.cfg.filterW v (prec s.cfg ch q)
    .next ((s.upd c fun ch => ch.setRecord q fun _ => r).answer r.mon)

/-- `FADDR c, q, imm` (R105). -/
def execFaddr (c : Nat) (q : Quantity) (v : Int) (s : State) : Out :=
  onChannel c s fun s ch =>
    let r := (ch.record q).addMonDac s.cfg.filterW v (prec s.cfg ch q)
    .next ((s.upd c fun ch => ch.setRecord q fun _ => r).answer r.monDac)

/-- `FRST c, q` (R106). -/
def execFrst (c : Nat) (q : Quantity) (s : State) : Out :=
  onChannel c s fun s _ =>
    .next (s.upd c fun ch => ch.setRecord q (filterReset s.cfg.filterW))

end Sys2Proof.Machine
end

