-- ==== Sys2Proof/Machine/DpMonitor.lean ====
section
/-! DEFINITION. The down-programmer sequencing, the negative-power monitor and balancing
(`45_dpmonitor.md`), which run inside `TICK`. `ip` is each channel's current
precision at the start of the command (`43_channel.md` R170). -/

namespace Sys2Proof.Machine

open Sys2Proof

/-- The down-programmer goes off: `dpOn <- 0 ; emit DigOut(c, DP, 0)`. -/
def dpOff (s : State) (c : Nat) : State :=
  (s.upd c fun ch => { ch with dpOn := false }).emit [.digOut c .dp false]

/-- `dpOffCheck(c)` (R231). -/
def dpOffCheck (s : State) (c : Nat) : State :=
  if (s.chan c).dpOffPending && decide (s.cfg.dpOffDelay ≤ elapsed s.pins.nowUs (s.chan c).dpOffTime) then
    let s1 := s.upd c fun ch => { ch with dpOffPending := false }
    if (s.chan c).dpOn then dpOff s1 c else s1
  else s

/-- The balancing snapshot of quantity `q` (R236). -/
def Channel.bal (ch : Channel) : Quantity → Snapshot
  | .u => ch.uBal
  | .i => ch.iBal

/-- The lower bound of quantity `q` (R236). -/
def Channel.lower (ch : Channel) : Quantity → Int
  | .u => ch.uMin.toInt
  | .i => ch.iMin.toInt

/-- Take the snapshot of quantity `q` when none is pending (R236). -/
def Channel.takeSnapshot (ch : Channel) (q : Quantity) : Channel :=
  if (ch.bal q).valid then ch
  else match q with
    | .u => { ch with uBal := ⟨true, ch.u.set⟩ }
    | .i => { ch with iBal := ⟨true, ch.i.set⟩ }

/-- One channel's share of balancing: snapshot, then the clamped average applied (R236). -/
def balanceOne (s : State) (x : Nat) (q : Quantity) (avg : Int) : State :=
  applySetpoint (s.upd x fun ch => ch.takeSnapshot q) x q
    (clamp avg ((s.chan x).lower q) ((s.chan x).record q).limit.toInt)

/-- The average of the two monitored values, rounded to the leader's precision (R236, R170). -/
def balanceAvg (ip : Nat → Int) (s : State) (c p : Nat) (q : Quantity) : Int :=
  roundP (((((s.chan c).record q).mon.toInt + ((s.chan p).record q).mon.toInt : Int) : Rat) / 2)
    (match q with
     | .u => uPrec s.cfg (s.chan c)
     | .i => ip c)

/-- `balance(c, q)` (R236). -/
def balance (ip : Nat → Int) (s : State) (c : Nat) (q : Quantity) : State :=
  let p := (s.pin c).partner
  if (s.pin p).healthy then balanceOne (balanceOne s c q (balanceAvg ip s c p q)) p q (balanceAvg ip s c p q)
  else s

/-- The tracked power (R232). -/
def Channel.power (ch : Channel) : Int := ch.u.mon.toInt * ch.i.mon.toInt

/-- The first stage of the longer window: the down-programmer goes off and the window restarts (R233). -/
def dpFirstStage (s : State) (c : Nat) : State :=
  ((dpOff s c).emit [.pushEvent .dpOff c]).upd c fun ch => { ch with dpNegTime := s.pins.nowUs }

/-- The second stage of the longer window: the output goes off (R233). -/
def dpSecondStage (s : State) (c : Nat) : State := (setOutput s c false).emit [.pushEvent .outputFault c]

/-- The intermediate window: balancing from the leader of a series or parallel pair (R233). -/
def dpBalance (ip : Nat → Int) (s : State) (c : Nat) : State :=
  if (s.pin c).follower then s
  else match s.pins.coupling with
    | .none => s
    | .series => balance ip s c .u
    | .parallel => balance ip s c .i
    | .tracked => s

/-- `dpNegCheck(c)` (R233). -/
def dpNegCheck (ip : Nat → Int) (s : State) (c : Nat) : State :=
  if !(s.chan c).outEn || decide (s.cfg.dpNegLev ≤ (s.chan c).power) then
    s.upd c fun ch => { ch with dpNegActive := false }
  else if !(s.chan c).dpNegActive then
    s.upd c fun ch => { ch with dpNegActive := true, dpNegTime := s.pins.nowUs }
  else
    let e := elapsed s.pins.nowUs (s.chan c).dpNegTime
    if s.cfg.dpNegDelay < e then
      if (s.chan c).dpOn then dpFirstStage s c else dpSecondStage s c
    else if decide (s.cfg.dpBalDelay < e) && (s.chan c).dpOn then dpBalance ip s c
    else s

end Sys2Proof.Machine
end

