-- ==== Sys2Proof/Machine/Sequence.lean ====
section
/-! DEFINITION. The shared operations of the trigger state machine (`46_trigger.md`) and the list engine
(`47_list.md`): lengths and points, starting, finishing, aborting, and the precondition check. `ip` is
each channel's current precision at the start of the command (`43_channel.md` R170), `p` that of the one
channel meant. -/

namespace Sys2Proof.Machine

open Sys2Proof

/-! ### Lengths and points (`47_list.md`) -/

/-- `compat2(x, y)` (R288). -/
def compat2 (x y : Nat) : Bool :=
  decide (x ≠ 0) && decide (y ≠ 0) && (decide (x = y) || decide (x = 1) || decide (y = 1))

/-- `lengthsOk(c)` (R288). -/
def Channel.lengthsOk (ch : Channel) : Bool :=
  compat2 ch.list.len.dwell ch.list.len.volt && compat2 ch.list.len.dwell ch.list.len.curr &&
  compat2 ch.list.len.volt ch.list.len.curr

/-- `iterLen(c)` (R288). -/
def Channel.iterLen (ch : Channel) : Nat :=
  max ch.list.len.dwell (max ch.list.len.volt ch.list.len.curr)

/-- The element of array `a` at iteration index `j`: "modulo their own length" (`20_memory.md` R63). -/
def Channel.pointElem (ch : Channel) (a : ListArray) (j : Nat) : BitVec 32 :=
  ch.listRead a (j % ch.list.len.get a)

/-- The voltage of point `j`, rounded to the channel's precision (R289, R291). -/
def pointVolt (cfg : Params) (ch : Channel) (j : Nat) : Int :=
  roundP ((ch.pointElem .volt j).toInt : Rat) (uPrec cfg ch)

/-- The current of point `j`, rounded to the channel's precision (R289, R291). -/
def pointCurr (p : Int) (ch : Channel) (j : Nat) : Int := roundP ((ch.pointElem .curr j).toInt : Rat) p

/-- The limit check of point `j` (R291, R294). -/
def pointCheck (cfg : Params) (p : Int) (ch : Channel) (j : Nat) : Status :=
  checkPoint ch (pointVolt cfg ch j) (pointCurr p ch j)

/-! ### Start, abort, finish -/

/-- `listStart(c)` (R290). -/
def listStart (s : State) (c : Nat) : State :=
  s.upd c fun ch =>
    { ch with
      cursor := { it := -1, counter := BitVec.ofNat 32 ch.list.count, next := 0, dwell := 0,
                  lastUs := s.pins.nowUs, lastMs := s.pins.nowMs } }

/-- A cursor destroyed: `K.it <- -1 ; K.counter <- -1` (R296, R298). -/
def Cursor.stop (k : Cursor) : Cursor := { k with it := -1, counter := -1 }

/-- `listAbortAll()` (R298). -/
def listAbortAll (s : State) : State :=
  { s with chans := s.chans.map fun ch => { ch with cursor := ch.cursor.stop } }

/-- `triggerAbort()` (`46_trigger.md` R265). -/
def triggerAbort (s : State) : State :=
  { listAbortAll s with
    chans := (listAbortAll s).chans.map fun ch => { ch with trigInProg := false }
    trigState := .idle }

/-- `triggerFinished(c)`, the trigger-finished hook (`46_trigger.md` R263). -/
def triggerFinished (s : State) (c : Nat) : State :=
  let s1 := s.upd c fun ch => { ch with trigInProg := false }
  if s1.trigState = .executing ∧ s1.chans.all (fun ch => !ch.trigInProg) then
    { s1 with trigState := if s1.trigCont then .initiated else .idle }
  else s1

/-- `listFinish(c)` (R296). -/
def listFinish (s : State) (c : Nat) : State :=
  triggerFinished (s.upd c fun ch => { ch with cursor := ch.cursor.stop }) c

/-! ### The precondition check (`46_trigger.md`) -/

/-- A channel takes part: healthy and not a follower (R253). -/
def takesPart (s : State) (c : Nat) : Bool :=
  (s.pin c).healthy && !(decide (s.pins.coupling ≠ .none) && (s.pin c).follower)

/-- The channels taking part, ascending. -/
def participants (s : State) : List Nat := (List.range s.nCh).filter (takesPart s)

/-- The first point of a channel's list that violates a limit, as its status code. -/
def listFault (cfg : Params) (p : Int) (ch : Channel) : Option Status :=
  (List.range ch.iterLen).findSome? fun j =>
    let e := pointCheck cfg p ch j
    if e = .ok then none else some e

/-- The status of the pending trigger levels of a step (R254). -/
def stepCheck (cfg : Params) (p : Int) (ch : Channel) : Status :=
  checkPoint ch (roundP (ch.trigU.toInt : Rat) (uPrec cfg ch)) (roundP (ch.trigI.toInt : Rat) p)

/-- The first test of R254 that a channel fails. -/
def channelFault (cfg : Params) (p : Int) (ch : Channel) : Option Status :=
  if ch.trigModeU ≠ ch.trigModeI then some .trigModeMismatch
  else match ch.trigModeU with
    | .fixed => none
    | .list =>
      if ch.rprog then some .trigRprog
      else if !ch.lengthsOk then some .listLengths
      else listFault cfg p ch
    | .step =>
      if ch.rprog then some .trigRprog
      else if stepCheck cfg p ch = .ok then none else some (stepCheck cfg p ch)

/-- `checkTrigger()` (R254). -/
def checkTrigger (ip : Nat → Int) (s : State) : Status :=
  match (participants s).findSome? (fun c => channelFault s.cfg (ip c) (s.chan c)) with
  | some e => e
  | none =>
    if (participants s).any (fun c => decide ((s.chan c).trigModeU ≠ .fixed)) then .ok else .trigAllFixed

/-! ### Execution (`46_trigger.md`) -/

/-- The output request of a triggered channel; a refusal is logged and execution goes on (R262). -/
def triggerOutput (s : State) (c : Nat) : State :=
  let en := (s.chan c).trigOut
  let r := outputRefusal s c en
  if r = .ok then requestOutput s c en else s.emit [.pushEvent (.error r) c]

/-- A list-mode channel starts: setpoints zeroed, output state applied, cursor started (R262). -/
def startList (s : State) (c : Nat) : State :=
  listStart (triggerOutput (applyCurrent (applyVoltage s c 0) c 0) c) c

/-- A step-mode channel takes its step and is finished (R262). -/
def startStep (ip : Nat → Int) (s : State) (c : Nat) : State :=
  let ch := s.chan c
  let s1 := applyVoltage s c (roundP (ch.trigU.toInt : Rat) (uPrec s.cfg ch))
  let s2 := applyCurrent s1 c (roundP (ch.trigI.toInt : Rat) (ip c))
  triggerFinished (triggerOutput s2 c) c

/-- One channel of `S` in `startImmediately` (R262). -/
def startChannel (ip : Nat → Int) (s : State) (c : Nat) : State :=
  match (s.chan c).trigModeU with
  | .list => startList s c
  | .step => startStep ip s c
  | .fixed => s

/-- The channels of `S`: taking part, with a mode that is not `Fixed` (R262). -/
def triggered (s : State) : List Nat :=
  (participants s).filter fun c => decide ((s.chan c).trigModeU ≠ .fixed)

/-- `trigInProg <- 1` on every channel of a list. -/
def markInProgress (s : State) (cs : List Nat) : State :=
  cs.foldl (fun s c => s.upd c fun ch => { ch with trigInProg := true }) s

/-- `startImmediately()` (R262). -/
def startImmediately (ip : Nat → Int) (s : State) : State :=
  let e := checkTrigger ip s
  if e = .ok then
    (triggered s).foldl (startChannel ip) (markInProgress { s with trigState := .executing } (triggered s))
  else triggerAbort (s.emit [.pushEvent (.error e) 0])

/-- `trigDelayCheck()` (R258). -/
def trigDelayCheck (ip : Nat → Int) (s : State) : State :=
  if s.trigState = .triggered ∧ s.trigDelay.toNat ≤ elapsed s.pins.nowUs s.trigTime then startImmediately ip s
  else s

end Sys2Proof.Machine
end

