-- ==== Sys2Proof/Machine/ListCmds.lean ====
section
/-! DEFINITION. The list execution engine (`47_list.md`): its per-tick advance (`ip` is each
channel's current precision at the start of the `TICK`, `43_channel.md` R170), and the commands `LLEN`,
`LSET`, `LCOUNT`, `LGET`, `LSTART`, `LABORT`, `LSAVED`. -/

namespace Sys2Proof.Machine

open Sys2Proof

/-! ### The per-tick advance (R291) -/

/-- The running dwell uses the millisecond clock. -/
def onMsClock (s : State) (c : Nat) : Bool :=
  decide (s.cfg.shortDwellThr < (s.chan c).cursor.dwell.toNat)

/-- `K.lastUs <- pin.now_us ; K.lastMs <- pin.now_ms`. -/
def stampCursor (s : State) (c : Nat) : State :=
  s.upd c fun ch => { ch with cursor := { ch.cursor with lastUs := s.pins.nowUs, lastMs := s.pins.nowMs } }

/-- The deadline of the cursor moved forward by the time since its last tick (R293). -/
def Cursor.shift (k : Cursor) (ms : Bool) (nowUs nowMs : Time) : Cursor :=
  if k.it = -1 then k
  else
    { k with
      next := k.next + BitVec.ofNat 32 (if ms then elapsed nowMs k.lastMs else elapsed nowUs k.lastUs) }

/-- The inhibited tick (R293): freeze progress. -/
def listFreeze (s : State) (c : Nat) : State :=
  stampCursor
    (s.upd c fun ch =>
      { ch with cursor := ch.cursor.shift (onMsClock s c) s.pins.nowUs s.pins.nowMs }) c

/-- A point is due: the first point, or no dwell remains (R291). -/
def pointDue (s : State) (c : Nat) : Bool :=
  decide ((s.chan c).cursor.it = -1) ||
  decide (sdiff (s.chan c).cursor.next (if onMsClock s c then s.pins.nowMs else s.pins.nowUs) ≤ 0)

/-- `j <- (K.it + 1) mod iterLen(c)`. -/
def Channel.nextIndex (ch : Channel) : Nat := (ch.cursor.it + 1).toNat % ch.iterLen

/-- The deadline of a point of dwell `d` applied now (R295). -/
def dwellDeadline (cfg : Params) (nowUs nowMs : Time) (d : BitVec 32) : Time :=
  if cfg.shortDwellThr < d.toNat then
    nowMs + BitVec.ofInt 32 (roundP ((d.toNat : Int) : Rat) 1000 / 1000)
  else nowUs + d

/-- Apply point `j`: cursor index, voltage, current, dwell and deadline (R291). -/
def applyPoint (ip : Nat → Int) (s : State) (c j : Nat) : State :=
  let ch := s.chan c
  let d := ch.pointElem .dwell j
  let s1 := s.upd c fun ch => { ch with cursor := { ch.cursor with it := (j : Int) } }
  let s2 := applyCurrent (applyVoltage s1 c (pointVolt s.cfg ch j)) c (pointCurr (ip c) ch j)
  s2.upd c fun ch =>
    { ch with
      cursor := { ch.cursor with dwell := d, next := dwellDeadline s.cfg s.pins.nowUs s.pins.nowMs d } }

/-- Point `j` is applied, or its violation aborts everything (R291, R294). -/
def pointOrAbort (ip : Nat → Int) (s : State) (c j : Nat) : State :=
  let e := pointCheck s.cfg (ip c) (s.chan c) j
  if e = .ok then stampCursor (applyPoint ip s c j) c
  else triggerAbort (s.emit [.pushEvent (.error e) c])

/-- A point is due: count a wrapped pass, finish after the last, else go on to the next point (R291). -/
def listAdvance (ip : Nat → Int) (s : State) (c : Nat) : State :=
  let ch := s.chan c
  let j := ch.nextIndex
  if ch.cursor.it ≠ -1 ∧ j = 0 then
    let s1 := s.upd c fun ch => { ch with cursor := { ch.cursor with counter := ch.cursor.counter - 1 } }
    if ch.cursor.counter - 1 = 0 then listFinish s1 c else pointOrAbort ip s1 c j
  else pointOrAbort ip s c j

/-- `listTick(c)` (R291). -/
def listTick (ip : Nat → Int) (s : State) (c : Nat) : State :=
  if !(s.chan c).active then s
  else if !(s.pin c).healthy then triggerAbort (s.emit [.pushEvent (.error .health) c])
  else if (s.chan c).anyTripped then triggerAbort s
  else if s.pins.inhibit then listFreeze s c
  else if pointDue s c then listAdvance ip s c
  else stampCursor s c

/-! ### The commands -/

/-- `LLEN c, a, length` (R283). -/
def execLlen (c : Nat) (a : ListArray) (len : Nat) (s : State) : Out :=
  onChannel c s fun s ch =>
    require (!ch.active) .busy s <|
    require (decide (len ≤ s.cfg.listMax)) .range s <|
    .next (s.upd c fun ch =>
      { ch with list := { ch.list with len := ch.list.len.modify a fun _ => len, changed := true } })

/-- The value test of `LSET`: board bounds for a voltage or a current, none for a dwell (R284). -/
def elemInBounds (b : Board) (a : ListArray) (v : Int) : Bool :=
  match a with
  | .dwell => true
  | .volt => decide (b.uMin.toInt ≤ v) && decide (v ≤ b.uMax.toInt)
  | .curr => decide (b.iMin.toInt ≤ v) && decide (v ≤ b.iMax.toInt)

/-- `LSET c, a, k, imm` (R284). -/
def execLset (c : Nat) (a : ListArray) (k : Nat) (v : Int) (s : State) : Out :=
  onChannel c s fun s ch =>
    require (!ch.active) .busy s <|
    require (decide (k < ch.list.len.get a)) .range s <|
    require (elemInBounds ch.board a v) .range s <|
    .next (s.upd c fun ch =>
      let ch := ch.listWrite a k (BitVec.ofInt 32 v)
      { ch with list := { ch.list with changed := true } })

/-- `LCOUNT c, imm` (R285). -/
def execLcount (c : Nat) (n : Nat) (s : State) : Out :=
  onChannel c s fun s ch =>
    require (!ch.active) .busy s <|
    require (decide (n ≠ 0) && decide (n ≤ s.cfg.countMax)) .range s <|
    .next (s.upd c fun ch => { ch with list := { ch.list with count := n, changed := true } })

/-- `LGET c, a, k` (R286). -/
def execLget (c : Nat) (a : ListArray) (k : Nat) (s : State) : Out :=
  onChannel c s fun s ch =>
    require (decide (k < ch.list.len.get a)) .range s <|
    .next (s.answer (ch.listRead a k))

/-- `LSTART c` (R290). -/
def execLstart (c : Nat) (s : State) : Out :=
  onChannel c s fun s ch =>
    require (s.pin c).healthy .health s <|
    require (!ch.active) .busy s <|
    require ch.lengthsOk .listLengths s <|
    .next (listStart s c)

/-- `LABORT` (R299). -/
def execLabort (s : State) : Out :=
  .next (if s.trigState = .executing then triggerAbort s.begin else listAbortAll s.begin)

/-- `LSAVED c` (R287). -/
def execLsaved (c : Nat) (s : State) : Out :=
  onChannel c s fun s _ =>
    .next (s.upd c fun ch => { ch with list := { ch.list with changed := false } })

end Sys2Proof.Machine
end

