-- ==== Sys2Proof/Machine/ProtectionCmds.lean ====
section
/-! DEFINITION. The protection engine (`44_protection.md`): the debounce check that runs inside `TICK`, and
the commands `PSTATE`, `PDELAY`, `PLEVEL`, `PCLR`, `PDIS`. -/

namespace Sys2Proof.Machine

open Sys2Proof

/-- `condition(c, k)` (R203). -/
def Channel.condition (ch : Channel) (k : Kind) : Bool :=
  match k with
  | .ovp => decide (ch.prot.ovp.level.toInt ≤ (if ch.rprog then ch.u.monDac else ch.u.mon).toInt)
  | .ocp => decide (ch.i.set.toInt ≤ ch.i.mon.toInt)
  | .opp => decide (ch.prot.opp.level.toInt * 1000000 < ch.u.mon.toInt * ch.i.mon.toInt)

/-- `armed` (R204): configured on, and the output enabled. -/
def Channel.armed (ch : Channel) (k : Kind) : Bool := (ch.prot.get k).state && ch.outEn

/-- `protCheck(c, k)` (R204). -/
def protCheck (s : State) (c : Nat) (k : Kind) : State :=
  let ch := s.chan c
  let p := ch.prot.get k
  if ch.armed k && ch.condition k then
    if p.delay.toInt ≤ 0 then trip s c k
    else if !p.alarmed then
      s.upd c fun ch => ch.setProt k fun p => { p with alarmed := true, alarmTime := s.pins.nowUs }
    else if p.delay.toInt ≤ (elapsed s.pins.nowUs p.alarmTime : Int) then trip s c k
    else s
  else s.upd c fun ch => ch.setProt k fun p => { p with alarmed := false }

/-- `protTick(c)` (R205): skipped on the secondary channel of a coupled pair. -/
def protTick (s : State) (c : Nat) : State :=
  if decide (s.pins.coupling ≠ .none) && (s.pin c).follower then s
  else protCheck (protCheck (protCheck s c .ovp) c .ocp) c .opp

/-- `PSTATE c, k, b` (R212). -/
def execPstate (c : Nat) (k : Kind) (b : Bool) (s : State) : Out :=
  onChannel c s fun s ch =>
    require (b || !(ch.prot.get k).tripped) .tripped s <|
    .next ((s.upd c fun ch => ch.setProt k fun p => { p with state := b }).emit [.save])

/-- `PDELAY c, k, imm` (R213). -/
def execPdelay (c : Nat) (k : Kind) (v : Int) (s : State) : Out :=
  onChannel c s fun s ch =>
    require (decide ((ch.board.pdlyMin.get k).toInt ≤ v) && decide (v ≤ (ch.board.pdlyMax.get k).toInt))
      .range s <|
    .next ((s.upd c fun ch => ch.setProt k fun p => { p with delay := toVal v }).emit [.save])

/-- `PLEVEL c, k, imm` (R214). -/
def execPlevel (c : Nat) (k : Kind) (v : Int) (s : State) : Out :=
  onChannel c s fun s ch =>
    require (decide ((ch.board.plvlMin.get k).toInt ≤ v) && decide (v ≤ (ch.board.plvlMax.get k).toInt))
      .range s <|
    .next ((s.upd c fun ch => ch.setProt k fun p => { p with level := toVal v }).emit [.save])

/-- `PCLR c, b` (R210). -/
def execPclr (c : Nat) (b : Bool) (s : State) : Out :=
  onChannel c s fun s _ => .next (releaseTrip s c b)

/-- `PDIS c` (R211). -/
def execPdis (c : Nat) (s : State) : Out :=
  onChannel c s fun s ch =>
    require (!ch.anyTripped) .tripped s <|
    .next ((s.upd c fun ch => { ch with prot := ch.prot.map fun p => { p with state := false } }).emit [.save])

end Sys2Proof.Machine
end

