-- ==== Sys2Proof/Machine/RangingCmds.lean ====
section
/-! DEFINITION. The current-range selector's commands (`42_ranging.md`), `RMODE` and `RAUTO`, and its
auto-range check, which runs inside `TICK`. -/

namespace Sys2Proof.Machine

open Sys2Proof

/-- The channel after `RMODE` stores the mode, recomputes the bounds and clamps the current limit (R157). -/
def selectMode (cfg : Params) (m : RangeMode) (ch : Channel) : Channel :=
  clampILimit (recomputeBounds cfg { ch with rangeMode := m })

/-- `RMODE c, mode` (R157). -/
def execRmode (c : Nat) (m : RangeMode) (s : State) : Out :=
  onChannel c s fun s ch =>
    require (s.pin c).healthy .health s <|
    .next (applyCurrent (s.upd c (selectMode s.cfg m)) c (clampedI (selectMode s.cfg m ch)))

/-- `RAUTO c, b` (R158). -/
def execRauto (c : Nat) (b : Bool) (s : State) : Out :=
  onChannel c s fun s _ => .next (s.upd c fun ch => { ch with autoRange := b })

/-- The switch of the auto-range check: range, stamp, and the current DAC rewritten (R160). -/
def autoSwitch (s : State) (c : Nat) (r : Range) : State :=
  let s1 := (switchRange s c r).upd c fun ch => { ch with rngEvalTime := s.pins.nowUs }
  s1.emit [.dacWrite c .i (toRaw s1.cfg (s1.chan c) (s1.chan c).curSet (s1.chan c).i.set.toInt)]

/-- The gate of the auto-range check (R160). -/
def autoGate (s : State) (c : Nat) : Bool :=
  (s.chan c).autoRange && decide ((s.chan c).rangeMode = .useBoth) && (s.chan c).outEn &&
  !(s.pin c).calProc && !(s.pin c).selfTest

/-- The range that the auto-range check would leave, and whether it does (R160). -/
def autoTarget (s : State) (c : Nat) : Option Range :=
  match (s.chan c).range with
  | .low =>
    if (s.chan c).cc && decide (s.cfg.iThr < (s.chan c).i.set.toInt) then some .high else none
  | .high =>
    if (s.chan c).i.f.seeded && decide ((s.chan c).i.mon.toInt < s.cfg.iThr) &&
        decide (s.cfg.noOscDelay ≤ elapsed s.pins.nowUs (s.chan c).rngEvalTime)
    then some .low else none

/-- `autoRangeCheck(c)` (R160). -/
def autoRangeCheck (s : State) (c : Nat) : State :=
  if autoGate s c then
    match autoTarget s c with
    | some r => autoSwitch s c r
    | none => s
  else s

end Sys2Proof.Machine
end

