-- ==== Sys2Proof/Machine/TickCmds.lean ====
section
/-! DEFINITION. The tick and the register read (`48_tick.md`): `TICK`, `RD`. -/

namespace Sys2Proof.Machine

open Sys2Proof

/-- The next monitor input: `(adcAwait + 1) mod 4` (R322). -/
def AdcInput.after : AdcInput → AdcInput
  | .uMon => .iMon
  | .iMon => .uMonDac
  | .uMonDac => .iMonDac
  | .iMonDac => .uMon

/-- The channel after it takes a sample of input `r` with code `code`, with current precision `p` (R322). -/
def Channel.takeSample (cfg : Params) (p : Int) (ch : Channel) (r : AdcInput) (code : Val) : Channel :=
  let w := cfg.filterW
  let x : Rat := (code.toInt : Rat)
  let ch1 : Channel :=
    match r with
    | .uMon =>
      { ch with u := { ch.u with adc := code }.addMon w (toPhysical cfg ch .u x) (uPrec cfg ch) }
    | .iMon =>
      { ch with i := { ch.i with adc := code }.addMon w (toPhysical cfg ch ch.curSet x) p }
    | .uMonDac => { ch with u := ch.u.addMonDac w (toPhysical cfg ch .u x) (uPrec cfg ch) }
    | .iMonDac => { ch with i := ch.i.addMonDac w (toPhysical cfg ch ch.curSet x) p }
  { ch1 with adcAwait := some (AdcInput.after r) }

/-- `sampleIntake(c)` (R322). -/
def sampleIntake (ip : Nat → Int) (s : State) (c : Nat) : State :=
  match (s.chan c).adcAwait with
  | none => (s.upd c fun ch => { ch with adcAwait := some .uMon }).emit [.startSample c .uMon]
  | some r =>
    if (s.pin c).smpValid && decide ((s.pin c).smpReg = r) then
      (s.upd c fun ch => ch.takeSample s.cfg (ip c) r (s.pin c).smpCode).emit [.startSample c (AdcInput.after r)]
    else s

/-- `modeSample(c)` (R323). -/
def modeSample (s : State) (c : Nat) : State :=
  s.upd c fun ch =>
    { ch with cv := ch.outEn && (s.pin c).cvPin, cc := ch.outEn && (s.pin c).ccPin }

/-- `historyPush(c)` (R325). -/
def historyPush (s : State) (c : Nat) : State :=
  s.upd c fun ch =>
    { ch with
      hist := ch.hist.set ch.histIdx (ch.u.mon, ch.i.mon)
      histIdx := (ch.histIdx + 1) % s.cfg.historyN
      histCount := min (ch.histCount + 1) s.cfg.historyN }

/-- `onTimeUpdate(c)` (R326). -/
def onTimeUpdate (s : State) (c : Nat) : State :=
  if (s.chan c).onTimeRun then
    s.upd c fun ch =>
      { ch with
        onTime := ch.onTime + BitVec.ofNat 64 (elapsed s.pins.nowUs ch.onTimeLast)
        onTimeLast := s.pins.nowUs }
  else s

/-- The per-channel part of `TICK` on a healthy channel, in the order of R320. -/
def tickHealthy (ip : Nat → Int) (s : State) (c : Nat) : State :=
  let s1 := sampleIntake ip s c
  let s2 := modeSample s1 c
  let s3 := protTick s2 c
  let s4 := dpOffCheck s3 c
  let s5 := dpNegCheck ip s4 c
  let s6 := onTimeUpdate s5 c
  let s7 := historyPush s6 c
  autoRangeCheck s7 c

/-- The per-channel part of `TICK`; an unhealthy channel is skipped (R320, R321). -/
def tickChannel (ip : Nat → Int) (s : State) (c : Nat) : State :=
  if (s.pin c).healthy then tickHealthy ip s c else s

/-- The pins name a partner below `N_CH` for channel `c` whenever the channel's part of `TICK` can act on
a partner: the channel is healthy, coupled and not a follower (`10_state.md` R43, log entry 6). -/
def partnerPresent (s : State) (c : Nat) : Bool :=
  decide (s.pins.coupling = .none) || !(s.pin c).healthy || (s.pin c).follower ||
  decide ((s.pin c).partner < s.nCh)

/-- `partnerPresent` for every channel. -/
def partnersPresent (s : State) : Bool := (List.range s.nCh).all (partnerPresent s)

/-- What `TICK` does, in the order of R320; every current it rounds takes the precision in force when the
`TICK` starts (R170). -/
def tickAll (s : State) : State :=
  let ip := s.currentPrecs
  forChannels (listTick ip) (trigDelayCheck ip (forChannels (tickChannel ip) s))

/-- `TICK` (R320). -/
def execTick (s : State) : Out :=
  if partnersPresent s then .next (tickAll s.begin) else .fault .partnerAbsent

/-- `RD c, reg` (R331). -/
def execRd (c reg : Nat) (s : State) : Out :=
  if 0x100 ≤ reg then
    require (decide (c = 0)) .illegal s <|
    match s.readGlobal reg with
    | some d => .next (s.begin.answer d)
    | none => raise .range s
  else
    onChannel c s fun s ch =>
      match ch.readReg reg with
      | some d => .next (s.answer d)
      | none => raise .range s

end Sys2Proof.Machine
end

