-- ==== Sys2Proof/Machine/TriggerCmds.lean ====
section
/-! DEFINITION. The trigger commands (`46_trigger.md`): `TSRC`, `TDELAY`, `TCONT`, `TMODE`, `TLEV`, `TOUT`,
`INIT`, `TRG`, `TABORT`. -/

namespace Sys2Proof.Machine

open Sys2Proof

/-- `TSRC source` (R247). -/
def execTsrc (src : Nat) (s : State) : Out :=
  .next ({ s.begin with trigSource := BitVec.ofNat 4 src }.emit [.save])

/-- `TDELAY imm` (R248). -/
def execTdelay (n : Nat) (s : State) : Out :=
  .next ({ s.begin with trigDelay := BitVec.ofNat 32 n }.emit [.save])

/-- `TCONT b` (R249). -/
def execTcont (b : Bool) (s : State) : Out :=
  .next ({ s.begin with trigCont := b }.emit [.save])

/-- `TMODE c, q, mode` (R250). -/
def execTmode (c : Nat) (q : Quantity) (m : TrigMode) (s : State) : Out :=
  onChannel c s fun s _ =>
    .next ((s.upd c fun ch =>
      match q with
      | .u => { ch with trigModeU := m }
      | .i => { ch with trigModeI := m }).emit [.save])

/-- `TLEV c, q, imm` (R251). -/
def execTlev (c : Nat) (q : Quantity) (v : Int) (s : State) : Out :=
  onChannel c s fun s _ =>
    .next ((s.upd c fun ch =>
      match q with
      | .u => { ch with trigU := toVal v }
      | .i => { ch with trigI := toVal v }).emit [.save])

/-- `TOUT c, b` (R252). -/
def execTout (c : Nat) (b : Bool) (s : State) : Out :=
  onChannel c s fun s _ => .next ((s.upd c fun ch => { ch with trigOut := b }).emit [.save])

/-- `INIT` (R255). -/
def execInit (s : State) : Out :=
  let s := s.begin
  require (decide (s.trigState = .idle)) .trigState s <|
  let ip := s.currentPrecs
  let e := checkTrigger ip s
  require (decide (e = .ok)) e s <|
  .next (if s.trigSource = 0 then startImmediately ip s else { s with trigState := .initiated })

/-- `TRG source, b` (R256). -/
def execTrg (src : Nat) (b : Bool) (s : State) : Out :=
  let s := s.begin
  require (decide (s.trigState = .initiated) && decide (BitVec.ofNat 4 src = s.trigSource)) .trigIgnored s <|
  let s1 := { s with trigState := .triggered, trigTime := s.pins.nowUs }
  .next (if b then trigDelayCheck s.currentPrecs s1 else s1)

/-- `TABORT` (R266). -/
def execTabort (s : State) : Out := .next (triggerAbort s.begin)

end Sys2Proof.Machine
end

