-- ==== Sys2Proof/Machine/Dispatch.lean ====
section
/-! DEFINITION. One arm per command, each a direct call of its meaning. -/

namespace Sys2Proof.Machine

open Sys2Proof

def exec (i : Instr) (s : State) : Host.Outcome State Fault Refusal :=
  match i with
  | .fadd c q v => Sys2Proof.Machine.execFadd c q v s
  | .faddr c q v => Sys2Proof.Machine.execFaddr c q v s
  | .frst c q => Sys2Proof.Machine.execFrst c q s
  | .calpt c t f v => Sys2Proof.Machine.execCalpt c t f v s
  | .calcommit c t => Sys2Proof.Machine.execCalcommit c t s
  | .calclr c t => Sys2Proof.Machine.execCalclr c t s
  | .calen c b => Sys2Proof.Machine.execCalen c b s
  | .tophys c t v => Sys2Proof.Machine.execTophys c t v s
  | .toraw c t v => Sys2Proof.Machine.execToraw c t v s
  | .rmode c m => Sys2Proof.Machine.execRmode c m s
  | .rauto c b => Sys2Proof.Machine.execRauto c b s
  | .setv c v => Sys2Proof.Machine.execSetv c v s
  | .seti c v => Sys2Proof.Machine.execSeti c v s
  | .limv c v => Sys2Proof.Machine.execLimv c v s
  | .limi c v => Sys2Proof.Machine.execLimi c v s
  | .limp c v => Sys2Proof.Machine.execLimp c v s
  | .outen c b => Sys2Proof.Machine.execOuten c b s
  | .sense c b => Sys2Proof.Machine.execSense c b s
  | .rprog c b => Sys2Proof.Machine.execRprog c b s
  | .pstate c k b => Sys2Proof.Machine.execPstate c k b s
  | .pdelay c k v => Sys2Proof.Machine.execPdelay c k v s
  | .plevel c k v => Sys2Proof.Machine.execPlevel c k v s
  | .pclr c b => Sys2Proof.Machine.execPclr c b s
  | .pdis c => Sys2Proof.Machine.execPdis c s
  | .tsrc src => Sys2Proof.Machine.execTsrc src s
  | .tdelay n => Sys2Proof.Machine.execTdelay n s
  | .tcont b => Sys2Proof.Machine.execTcont b s
  | .tmode c q m => Sys2Proof.Machine.execTmode c q m s
  | .tlev c q v => Sys2Proof.Machine.execTlev c q v s
  | .tout c b => Sys2Proof.Machine.execTout c b s
  | .init => Sys2Proof.Machine.execInit s
  | .trg src b => Sys2Proof.Machine.execTrg src b s
  | .tabort => Sys2Proof.Machine.execTabort s
  | .llen c a len => Sys2Proof.Machine.execLlen c a len s
  | .lset c a k v => Sys2Proof.Machine.execLset c a k v s
  | .lcount c n => Sys2Proof.Machine.execLcount c n s
  | .lget c a k => Sys2Proof.Machine.execLget c a k s
  | .lstart c => Sys2Proof.Machine.execLstart c s
  | .labort => Sys2Proof.Machine.execLabort s
  | .lsaved c => Sys2Proof.Machine.execLsaved c s
  | .tick => Sys2Proof.Machine.execTick s
  | .rd c reg => Sys2Proof.Machine.execRd c reg s

end Sys2Proof.Machine
end

