-- ==== Sys2Proof/Machine/Port.lean ====
section
/-! DEFINITION. The command port: taking the next presented command, and what an illegal word does
(`00_scope.md` R15, `30_encoding.md` R82). `Machine/Step.lean` only calls what stands here. -/

namespace Sys2Proof.Machine

open Sys2Proof

/-- The pins are sampled at the start of the command, and the command leaves the port. -/
def State.accept (s : State) (req : Request) (rest : List Request) : State :=
  { s with pins := req.pins, port := rest }

/-- Run a command word: an illegal word answers `E_ILLEGAL` and changes no state (R82). -/
def runWord (w : CmdWord) (s : State) : Out :=
  match decode w with
  | .ok i => exec i s
  | .error _ => raise .illegal s

/-- One step: the oldest presented command, or nothing where none is presented (R15, R370). -/
def stepPort (s : State) : Out :=
  match s.port with
  | [] => .next s
  | req :: rest => runWord req.word (s.accept req rest)

/-- The word of the low `nbits` bits of `w` presented as the only command, with the pins as they are. -/
def State.present (s : State) (nbits w : Nat) : State :=
  { s with port := [⟨s.pins, BitVec.ofNat 64 (w % 2 ^ nbits)⟩] }

end Sys2Proof.Machine
end

