-- ==== Sys2Proof/Machine/Step.lean ====
section
/-! DEFINITION. The step function (`00_scope.md` R15), and the host's placing of one command. -/

namespace Sys2Proof.Machine

/-- One step of the machine. -/
def step (s : State) : Host.Outcome State Fault Refusal := stepPort s

/-- `s` with one command word presented on the port, so that the next step runs exactly it. -/
def State.withFetchWord (s : State) (nbits w : Nat) : State := s.present nbits w

end Sys2Proof.Machine
end

