-- ==== Sys2Proof/Safety.lean ====
section
/-! DEFINITION. The terms that statements about the machine use: a ready channel, the state a completed
command leaves, a setpoint applied, and the invariants of the block. -/

namespace Sys2Proof.Machine

open Sys2Proof

/-! ### Completed commands -/

/-- Channel `c` exists and reports healthy. -/
def State.ready (s : State) (c : Nat) : Prop := c < s.nCh ∧ (s.pin c).healthy = true

/-- `s` after a command that leaves channel `c` as `ch`, answers `OK` with data `d` and emits `es`; nothing
else of `s` differs. -/
def State.done (s : State) (c : Nat) (ch : Channel) (d : Val) (es : List Event) : State :=
  { s with chans := s.chans.set c ch, resp := ⟨.ok, d⟩, events := es }

/-- A channel with voltage setpoint `v` applied (R171). -/
def voltageApplied (ch : Channel) (v : Int) : Channel :=
  { ch with u := { ch.u with set := toVal v }, iBal := { ch.iBal with valid := false } }

/-- The events of applying voltage setpoint `v` (R171). -/
def voltageEvents (cfg : Params) (c : Nat) (ch : Channel) (v : Int) : List Event :=
  [.dacWrite c .u (toRaw cfg ch .u v), .save]

/-- The range a channel is in after the selection policy ran for current `i` (R153). -/
def policyRange (cfg : Params) (pin : ChanPins) (ch : Channel) (i : Int) : Range :=
  (rangeTarget cfg ch.rangeMode pin i).getD ch.range

/-- A channel after the selection policy ran for current `i`: range, stamp and sampling (R153, R154). -/
def rangeSelected (cfg : Params) (now : Time) (pin : ChanPins) (ch : Channel) (i : Int) : Channel :=
  { ch with
    range := policyRange cfg pin ch i
    rngEvalTime := if (rangeTarget cfg ch.rangeMode pin i).isSome then now else ch.rngEvalTime
    adcAwait := if policyRange cfg pin ch i = ch.range then ch.adcAwait else some .uMon }

/-- A channel with current setpoint `i` applied (R172). -/
def currentApplied (cfg : Params) (now : Time) (pin : ChanPins) (ch : Channel) (i : Int) : Channel :=
  { rangeSelected cfg now pin ch i with
    i := { ch.i with set := toVal i }
    uBal := { ch.uBal with valid := false } }

/-- The events of applying current setpoint `i` (R172, R154). -/
def currentEvents (cfg : Params) (pin : ChanPins) (c : Nat) (ch : Channel) (i : Int) : List Event :=
  (if policyRange cfg pin ch i = ch.range then []
    else [.digOut c .range (policyRange cfg pin ch i).isLow, .startSample c .uMon]) ++
  [.dacWrite c .i
    (toRaw cfg ch (match policyRange cfg pin ch i with | .high => .ih | .low => .il) i), .save]

/-- A channel with its output switched on (R181). -/
def turnedOn (now : Time) (ch : Channel) : Channel :=
  { ch with
    outEn := true, rngEvalTime := now, dpOn := true, dpOffPending := false
    adcAwait := some .uMon, onTimeRun := true, onTimeLast := now }

/-- A channel with its output switched off (R181). -/
def turnedOff (now : Time) (ch : Channel) : Channel :=
  { ch with
    outEn := false, cv := false, cc := false, dpOffPending := true, dpOffTime := now
    dpNegActive := false
    onTime := ch.onTime + BitVec.ofNat 64 (elapsed now ch.onTimeLast), onTimeRun := false }

/-- The events of switching an output on (R181). -/
def onEvents (c : Nat) (r : Range) : List Event :=
  [.digOut c .range r.isLow, .digOut c .dp true, .startSample c .uMon, .digOut c .output true,
   .pushEvent .outputEnabled c, .save]

/-- The events of switching an output off (R181). -/
def offEvents (c : Nat) : List Event :=
  [.digOut c .output false, .stopCalibration c, .pushEvent .outputDisabled c, .save]

/-- A channel after `setOutput(c, en)`. -/
def outputSet (now : Time) (en : Bool) (ch : Channel) : Channel :=
  if ch.outEn = en then ch else if en then turnedOn now ch else turnedOff now ch

/-- The voltage that the execution of a trigger applies, by the trigger mode: the literal 0, or the pending
level rounded (R262). -/
def triggerVolt (cfg : Params) (ch : Channel) : Int :=
  match ch.trigModeU with
  | .step => roundP (ch.trigU.toInt : Rat) (uPrec cfg ch)
  | .list => 0
  | .fixed => 0

/-- The current that it applies, with current precision `p` (R262, R170). -/
def triggerCurr (p : Int) (ch : Channel) : Int :=
  match ch.trigModeU with
  | .step => roundP (ch.trigI.toInt : Rat) p
  | .list => 0
  | .fixed => 0

/-! ### What a tick sees -/

/-- `TICK` as a function of the state, with pin levels `p`. -/
def tickWith (p : Pins) (s : State) : State := tickAll { s.begin with pins := p }

/-- The state that the protection step of channel `c` sees inside a `TICK` from `s` (R320). -/
def beforeProtection (s : State) (c : Nat) : State :=
  let ip := s.currentPrecs
  modeSample (sampleIntake ip ((List.range c).foldl (tickChannel ip) s) c) c

/-- The state that the check of kind `k` on channel `c` sees inside a `TICK` from `s` (R205). -/
def beforeCheck (s : State) (c : Nat) : Kind → State
  | .ovp => beforeProtection s c
  | .ocp => protCheck (beforeProtection s c) c .ovp
  | .opp => protCheck (protCheck (beforeProtection s c) c .ovp) c .ocp

/-- Channel `c` is protection-checked by a `TICK` from `s`: it exists, is healthy, and is not the secondary
channel of a coupled pair. -/
def checked (s : State) (c : Nat) : Prop :=
  s.ready c ∧ (s.pins.coupling = .none ∨ (s.pin c).follower = false)

/-- Kind `k` of channel `c` is armed with its condition true at its check inside a `TICK` from `s`. -/
def asserted (s : State) (c : Nat) (k : Kind) : Prop :=
  ((beforeCheck s c k).chan c).armed k = true ∧ ((beforeCheck s c k).chan c).condition k = true

/-! ### Invariants -/

/-- The parameters, the number of channels and the boards meet the constraints of R5, R6 and R7. -/
def State.configured (s : State) : Prop := s.cfg.okFor (s.chans.map Channel.board) = true

/-- The latch of one channel (R215 (b), (c), R348): the status bits are the `tripped` bits, a tripped
channel has its output off, and at most one kind is tripped. -/
def Channel.latchOk (ch : Channel) : Prop :=
  (∀ k, statusBit ch.status k = (ch.prot.get k).tripped) ∧
  (ch.anyTripped = true → ch.outEn = false) ∧
  (∀ k k', (ch.prot.get k).tripped = true → (ch.prot.get k').tripped = true → k = k')

/-- Every channel's latch is as it must be. -/
def LatchInv (s : State) : Prop := ∀ ch ∈ s.chans, ch.latchOk

/-- A filter ring of `w` entries whose running sum is the sum of the ring (R22). -/
def Filter.ok (w : Nat) (f : Filter) : Prop :=
  f.buf.length = w ∧ f.idx < w ∧ f.sum = (f.buf.map BitVec.toInt).sum

/-- Every filter of every channel is as it must be (R22), for a window of at least one entry (R5). -/
def FilterInv (s : State) : Prop :=
  1 ≤ s.cfg.filterW ∧
  ∀ ch ∈ s.chans,
    ch.u.f.ok s.cfg.filterW ∧ ch.u.fd.ok s.cfg.filterW ∧ ch.i.f.ok s.cfg.filterW ∧ ch.i.fd.ok s.cfg.filterW

/-- Every list memory is in its canonical form. -/
def MemoryInv (s : State) : Prop :=
  ∀ ch ∈ s.chans, ∀ a, Memory.wf (ch.list.mem.get a) = true

/-- A cursor at rest, or running inside a list with compatible lengths (R37, R300 (a)). -/
def Channel.cursorOk (cfg : Params) (ch : Channel) : Prop :=
  1 ≤ ch.list.count ∧ ch.list.count ≤ cfg.countMax ∧
  ((ch.cursor.it = -1 ∧ ch.cursor.counter.toInt = -1) ∨
   (ch.lengthsOk = true ∧ -1 ≤ ch.cursor.it ∧ ch.cursor.it < ch.iterLen ∧
    1 ≤ ch.cursor.counter.toInt ∧ ch.cursor.counter.toInt ≤ ch.list.count))

/-- Every cursor is as it must be, for a repeat count that fits the counter (R5). -/
def CursorInv (s : State) : Prop :=
  s.cfg.countMax ≤ 2147483647 ∧ ∀ ch ∈ s.chans, ch.cursorOk s.cfg

/-- The parameters and calibration sets on which the effective bounds are ranges: the board's constraints
(R6), a low-range ceiling not below `I_MIN`, and every existing set valid (R28). -/
def Channel.calOk (cfg : Params) (ch : Channel) : Prop :=
  ch.board.ok = true ∧ ch.board.iMin.toInt ≤ cfg.iLowMax ∧
  (∀ t, (ch.cal.get t).present = true → calValid cfg ch t = true) ∧
  recomputeBounds cfg ch = ch

/-- Setpoint, limit and bounds of one channel in order (R24); a setpoint below its minimum is 0 (R387). -/
def Channel.boundsOk (ch : Channel) : Prop :=
  ch.uMin.toInt ≤ ch.u.limit.toInt ∧ ch.u.limit.toInt ≤ ch.uMax.toInt ∧
  ch.u.set.toInt ≤ ch.u.limit.toInt ∧ (ch.uMin.toInt ≤ ch.u.set.toInt ∨ ch.u.set = 0) ∧
  ch.iMin.toInt ≤ ch.i.limit.toInt ∧ ch.i.limit.toInt ≤ ch.iMax.toInt ∧
  ch.i.set.toInt ≤ ch.i.limit.toInt ∧ (ch.iMin.toInt ≤ ch.i.set.toInt ∨ ch.i.set = 0) ∧
  ch.board.pMin.toInt ≤ ch.pLimit.toInt ∧ ch.pLimit.toInt ≤ ch.board.pMax.toInt

/-- Every channel's setpoints, limits and bounds are as they must be. -/
def BoundsInv (s : State) : Prop := ∀ ch ∈ s.chans, ch.calOk s.cfg ∧ ch.boundsOk

end Sys2Proof.Machine
end

