-- ==== Sys2Proof/Certificates/Slice0/Obligations.lean ====
section
/-! DEFINITION. The statements for the provers. Each docstring names the rules of `spec/` it formalises. -/

open Sys2Proof Sys2Proof.Machine

/-! ### Encoding -/

/-- Decoding the word of a well-formed command gives the command back (R80 to R84). -/
def Obligations.DecodeEncodeRoundTrip : Prop :=
  ∀ i : Instr, i.wf = true → decode (encode i) = .ok i

/-- A word that decodes is the word of the command it decodes to, and that command is well formed: no bit
of a legal word is ignored (R80 to R84). -/
def Obligations.EncodeDecodeRoundTrip : Prop :=
  ∀ (w : CmdWord) (i : Instr), decode w = .ok i → i.wf = true ∧ encode i = w

/-- `match` and `mask` (R86): a word matches a row exactly when its `op` is the row's and every reserved
field of the row is zero; no word matches two rows; a word that matches none is illegal; and the range
checks of `sel` and `idx` come after the match. -/
def Obligations.MatchAndMaskDecideTheRow : Prop :=
  (∀ (w : CmdWord) (op : Opcode),
      w &&& op.maskWord = op.matchWord ↔
        (Fields.ofWord w).op = op.byte ∧ op.format.reservedZero (Fields.ofWord w) = true) ∧
  (∀ (w : CmdWord) (op op' : Opcode),
      w &&& op.maskWord = op.matchWord → w &&& op'.maskWord = op'.matchWord → op = op') ∧
  (∀ w : CmdWord, (∀ op : Opcode, w &&& op.maskWord ≠ op.matchWord) →
      decode w = .error .unknownOpcode ∨ decode w = .error .reservedField) ∧
  (∀ (w : CmdWord) (op : Opcode), w &&& op.maskWord = op.matchWord →
      decode w = op.build (Fields.ofWord w) ∧
      (∀ e, decode w = .error e → e = .badSelector ∨ e = .badIndex))

/-- Words written out bit by bit from R80, R83 and R84 decode to the command they stand for. -/
def Obligations.SpecWordsDecode : Prop :=
  decode 0x10000000004C4CD0 = .ok (.fadd 0 .u 5000400) ∧
  decode 0x2002000400009C40 = .ok (.calpt 0 .il .maxVal 40000) ∧
  decode 0x3012000000000000 = .ok (.rmode 1 .useBoth) ∧
  decode 0x41000000FFFFFFFF = .ok (.seti 0 (-1)) ∧
  decode 0x5102000000004E20 = .ok (.pdelay 0 .opp 20000) ∧
  decode 0x6301000200000000 = .ok (.tmode 0 .i .step) ∧
  decode 0x7100000180000000 = .ok (.lset 0 .dwell 1 2147483648) ∧
  decode 0x7101000180000000 = .ok (.lset 0 .volt 1 (-2147483648)) ∧
  decode 0x8110004500000000 = .ok (.rd 1 0x45)

/-! ### The step -/

/-- A step runs the decoded command: the pins presented with it are sampled, it leaves the port, and the
rest of the step is `exec` (R15, R43). -/
def Obligations.StepRunsTheDecodedCommand : Prop :=
  ∀ (s : State) (req : Request) (rest : List Request) (i : Instr),
    s.port = req :: rest → decode req.word = .ok i →
    step s = exec i { s with pins := req.pins, port := rest }

/-- A step whose word is illegal answers `E_ILLEGAL`, changes no state and emits no event (R82), and a step
with no command presented changes nothing at all (R370; that such a step exists is the model's own choice, log
entry 3). -/
def Obligations.IllegalWordsAndIdleSteps : Prop :=
  (∀ (s : State) (req : Request) (rest : List Request) (e : DecodeError),
    s.port = req :: rest → decode req.word = .error e →
    step s = .next { s with pins := req.pins, port := rest, resp := ⟨.illegal, 0⟩, events := [] }) ∧
  (∀ s : State, s.port = [] → step s = .next s)

/-- A command that answers a status other than `OK` changes no state and emits no event, and answers data 0
(R14, R341). -/
def Obligations.ErrorsChangeNothing : Prop :=
  ∀ (i : Instr) (s t : State), exec i s = .next t → t.resp.status ≠ .ok →
    t = { s with resp := ⟨t.resp.status, 0⟩, events := [] }

/-- The codes that a command can return, besides `OK` and the `E_ILLEGAL` of a word that does not decode
(R342), in a state whose setpoints are within their limits (R24, kept by `BoundsInv`). `RD` also answers
`E_ILLEGAL`, for a global register with a channel (R331). -/
def Obligations.StatusCodesOfEachCommand : Prop :=
  ∀ (i : Instr) (s t : State),
    (∀ ch ∈ s.chans, ch.u.set.toInt ≤ ch.u.limit.toInt ∧ ch.i.set.toInt ≤ ch.i.limit.toInt) →
    exec i s = .next t → t.resp.status ≠ .ok →
    t.resp.status ∈
      (match i with
       | .fadd .. | .faddr .. | .frst .. | .tophys .. | .toraw .. | .rauto .. | .pclr ..
       | .tmode .. | .tlev .. | .tout .. | .lsaved .. => [.channel]
       | .calpt .. | .calclr .. => [.channel, .busy]
       | .calcommit .. => [.channel, .busy, .calInvalid]
       | .calen .. => [.channel, .health, .noCal]
       | .rmode .. | .limv .. | .limi .. | .limp .. | .sense .. | .rprog .. => [.channel, .health]
       | .setv .. => [.channel, .health, .range, .voltageLimit, .powerLimit]
       | .seti .. => [.channel, .health, .range, .currentLimit, .powerLimit]
       | .outen .. => [.channel, .health, .tripped]
       | .pstate .. | .pdis .. => [.channel, .tripped]
       | .pdelay .. | .plevel .. => [.channel, .range]
       | .tsrc .. | .tdelay .. | .tcont .. | .tabort | .labort | .tick => []
       | .init =>
         [.trigState, .trigModeMismatch, .trigRprog, .listLengths, .range, .voltageLimit, .currentLimit,
          .powerLimit, .trigAllFixed]
       | .trg .. => [.trigIgnored]
       | .llen .. | .lset .. | .lcount .. => [.channel, .busy, .range]
       | .lget .. => [.channel, .range]
       | .rd .. => [.illegal, .channel, .range]
       | .lstart .. => [.channel, .health, .busy, .listLengths] : List Status)

/-- The channel gates (R346): a command that uses `ch` answers `E_CHANNEL` when there is no such channel (R82,
R331), and a setpoint, limit, enable, mode or start command on an unhealthy channel answers `E_HEALTH` (R341,
code 0x04); both change nothing. -/
def Obligations.ChannelGatesOfTheCommands : Prop :=
  (∀ (s : State) (c : Nat) (q : Quantity) (k : Kind) (t : ConvSet) (f : CalField) (a : ListArray)
    (m : RangeMode) (tm : TrigMode) (v : Int) (n : Nat) (b : Bool), s.nCh ≤ c →
    ∀ i ∈ ([.fadd c q v, .faddr c q v, .frst c q, .calpt c t f v, .calcommit c t, .calclr c t, .calen c b,
        .tophys c t v, .toraw c t v, .rmode c m, .rauto c b, .setv c v, .seti c v, .limv c v, .limi c v,
        .limp c v, .outen c b, .sense c b, .rprog c b, .pstate c k b, .pdelay c k v, .plevel c k v,
        .pclr c b, .pdis c, .tmode c q tm, .tlev c q v, .tout c b, .llen c a n, .lset c a n v,
        .lcount c n, .lget c a n, .lstart c, .lsaved c, .rd c (n % 0x100)] : List Instr),
      exec i s = .next { s with resp := ⟨.channel, 0⟩, events := [] }) ∧
  (∀ (s : State) (c : Nat) (m : RangeMode) (v : Int) (b : Bool),
    c < s.nCh → (s.pin c).healthy = false →
    ∀ i ∈ ([.calen c b, .rmode c m, .setv c v, .seti c v, .limv c v, .limi c v, .limp c v, .outen c b,
        .sense c b, .rprog c b, .lstart c] : List Instr),
      exec i s = .next { s with resp := ⟨.health, 0⟩, events := [] })

/-! ### Reset -/

/-- The reset value of every piece of state (R371), for every choice of parameters, boards and pins. -/
def Obligations.ResetValues : Prop :=
  ∀ (cfg : Params) (boards : List Board) (pins : Pins),
    let s := State.resetOf cfg boards pins
    s.nCh = boards.length ∧
    s.trigState = .idle ∧ s.trigDelay = 0 ∧ s.trigSource = 0 ∧ s.trigCont = false ∧ s.trigTime = 0 ∧
    ∀ (c : Nat) (b : Board), boards[c]? = some b →
      let ch := s.chan c
      ch.board = b ∧
      ch.u.set = b.uDef ∧ ch.i.set = b.iDef ∧ ch.u.limit = b.uMax ∧ ch.i.limit = b.iMax ∧
      ch.u.step = b.uStep ∧ ch.i.step = b.iStep ∧
      ch.u.adc = 0 ∧ ch.i.adc = 0 ∧ ch.u.mon = 0 ∧ ch.i.mon = 0 ∧ ch.u.monDac = 0 ∧ ch.i.monDac = 0 ∧
      ch.pLimit = b.pMax ∧
      (∀ f ∈ [ch.u.f, ch.u.fd, ch.i.f, ch.i.fd],
        f.buf.length = cfg.filterW ∧ (∀ x ∈ f.buf, x = 0) ∧ f.idx = 0 ∧ f.sum = 0 ∧ f.seeded = false) ∧
      ch.uMin = b.uMin ∧ ch.uMax = b.uMax ∧ ch.uDef = b.uDef ∧
      ch.iMin = b.iMin ∧ ch.iMax = b.iMax ∧ ch.iDef = b.iDef ∧
      ch.outEn = false ∧ ch.sense = false ∧ ch.rprog = false ∧ ch.cv = false ∧ ch.cc = false ∧
      ch.calEn = false ∧ ch.autoRange = false ∧ ch.dpOn = false ∧
      ch.range = .high ∧ ch.rangeMode = .alwaysHigh ∧ ch.rprogAlarm = false ∧ ch.status = 0 ∧
      (∀ k, (ch.prot.get k).tripped = false ∧ (ch.prot.get k).alarmed = false ∧
        (ch.prot.get k).state = false ∧ (ch.prot.get k).delay = b.pdlyDef.get k ∧
        (ch.prot.get k).level = b.plvlMax.get k ∧ (ch.prot.get k).alarmTime = 0) ∧
      (∀ t, (ch.cal.get t).present = false ∧ ∀ f, (ch.cal.get t).field f = 0) ∧
      ch.rngEvalTime = 0 ∧ ch.adcAwait = none ∧ ch.uBal = ⟨false, 0⟩ ∧ ch.iBal = ⟨false, 0⟩ ∧
      ch.dpOffPending = false ∧ ch.dpOffTime = 0 ∧ ch.dpNegActive = false ∧ ch.dpNegTime = 0 ∧
      ch.onTimeRun = false ∧ ch.onTimeLast = 0 ∧ ch.onTime = 0 ∧
      ch.hist.length = cfg.historyN ∧ (∀ x ∈ ch.hist, x = (0, 0)) ∧ ch.histIdx = 0 ∧ ch.histCount = 0 ∧
      ch.iMaxCause = .none ∧
      (∀ a, ch.list.len.get a = 0 ∧ ∀ k, ch.listRead a k = 0) ∧
      ch.list.count = 1 ∧ ch.list.changed = false ∧
      ch.cursor.it = -1 ∧ ch.cursor.counter = -1 ∧ ch.cursor.next = 0 ∧ ch.cursor.dwell = 0 ∧
      ch.cursor.lastUs = 0 ∧ ch.cursor.lastMs = 0 ∧
      ch.trigInProg = false ∧ ch.trigU = b.uDef ∧ ch.trigI = b.iDef ∧
      ch.trigModeU = .fixed ∧ ch.trigModeI = .fixed ∧ ch.trigOut = false

/-! ### Arithmetic -/

/-- `round_p` (R10): for a positive precision it is the multiple of `p` nearest to `v`, a tie going away
from zero, and rounding to whole units leaves an integer as it is. -/
def Obligations.RoundingIsNearest : Prop :=
  (∀ (v : Rat) (p : Int), 0 < p →
    p ∣ roundP v p ∧ 2 * |(roundP v p : Rat) - v| ≤ p ∧
    (2 * |(roundP v p : Rat) - v| = p → |v| < |(roundP v p : Rat)|) ∧
    roundP (-v) p = -roundP v p) ∧
  (∀ z : Int, roundP (z : Rat) 1 = z)

/-! ### Value filter -/

/-- `filterAdd` (R101), for a window of at least one entry and a positive precision: the first sample seeds
the whole ring; a later one replaces the oldest slot and moves the running sum by the difference; the mean
is that of the new ring, rounded and saturated. -/
def Obligations.FilterAddRule : Prop :=
  ∀ (w : Nat) (f : Machine.Filter) (v : Rat) (p : Int), 1 ≤ w → 0 < p →
    let x := sat (roundP v p)
    let f' := (filterAdd w f v p).1
    (f.seeded = false →
      f'.buf = List.replicate w (toVal x) ∧ f'.sum = (w : Int) * x ∧ f'.idx = 0) ∧
    (f.seeded = true → f.idx < f.buf.length →
      f'.buf.length = f.buf.length ∧ f'.buf[f.idx]? = some (toVal x) ∧
      (∀ j, j ≠ f.idx → f'.buf[j]? = f.buf[j]?) ∧
      (∀ old, f.buf[f.idx]? = some old → f'.sum = f.sum - old.toInt + x) ∧
      f'.idx = (f.idx + 1) % w) ∧
    f'.seeded = true ∧
    (filterAdd w f v p).2 = toVal (sat (roundP ((f'.sum : Rat) / (w : Rat)) p))

/-- The laws of `filterAdd` (R102), (b), (d) and (e) for samples whose rounding fits a value register (log entry 17):
the running sum is the sum of the ring after any call (a); the first call answers the rounded sample (b);
after a window of calls the answer is the rounded mean of the last window of rounded samples (c); a constant
input keeps its output from the first call on (d); a window of one entry is the rounding of the latest
sample (e); a call with another precision rounds the new sample and the mean with it and leaves the other
entries of the ring as they are (f). -/
def Obligations.FilterLaws : Prop :=
  ∀ (w : Nat) (p : Int), 1 ≤ w → 0 < p →
    (∀ (f : Machine.Filter) (v : Rat), (f.seeded = true → f.ok w) →
      (filterAdd w f v p).1.ok w ∧ (filterAdd w f v p).1.seeded = true) ∧
    (∀ (f : Machine.Filter) (v : Rat), f.seeded = false → |roundP v p| < 2147483648 →
      (filterAdd w f v p).2 = toVal (roundP v p)) ∧
    (∀ (f : Machine.Filter) (vs : List Rat) (v : Rat), (f.seeded = true → f.ok w) → w ≤ vs.length + 1 →
      (filterAdd w (vs.foldl (fun g x => (filterAdd w g x p).1) f) v p).2 =
        toVal (sat (roundP
          (((((vs ++ [v]).drop (vs.length + 1 - w)).map fun x => sat (roundP x p)).sum : Int) / (w : Rat)) p))) ∧
    (∀ (f : Machine.Filter) (v : Rat) (n : Nat), f.seeded = false → |roundP v p| < 2147483648 →
      (filterAdd w (Nat.iterate (fun g => (filterAdd w g v p).1) n f) v p).2 = toVal (roundP v p)) ∧
    (∀ (f : Machine.Filter) (v : Rat), f.ok 1 → |roundP v p| < 2147483648 →
      (filterAdd 1 f v p).2 = toVal (roundP v p)) ∧
    (∀ (f : Machine.Filter) (v : Rat) (p' : Int), 0 < p' → f.seeded = true →
      (filterAdd w f v p').1.buf = f.buf.set f.idx (toVal (sat (roundP v p'))) ∧
      (filterAdd w f v p').2 = toVal (sat (roundP (((filterAdd w f v p').1.sum : Rat) / (w : Rat)) p')))

/-- `FADD` (R104), `FADDR` (R105) and `FRST` (R106) on an existing channel, healthy or not: what each
answers and writes; `FADD` leaves the readback filter and the raw code alone, `FADDR` the monitor filter. -/
def Obligations.FilterCommandsComplete : Prop :=
  ∀ (s : State) (c : Nat) (q : Quantity) (v : Int), c < s.nCh →
    let ch := s.chan c
    let r := ch.record q
    let p := match q with | .u => uPrec s.cfg ch | .i => iPrec s.cfg ch
    let m := filterAdd s.cfg.filterW r.f v p
    let d := filterAdd s.cfg.filterW r.fd v p
    exec (.fadd c q v) s =
      .next (s.done c (ch.setRecord q fun r => { r with f := m.1, mon := m.2 }) m.2 []) ∧
    exec (.faddr c q v) s =
      .next (s.done c (ch.setRecord q fun r => { r with fd := d.1, monDac := d.2 }) d.2 []) ∧
    exec (.frst c q) s =
      .next (s.done c
        (ch.setRecord q fun r =>
          { r with
            f := ⟨List.replicate s.cfg.filterW 0, 0, 0, false⟩
            fd := ⟨List.replicate s.cfg.filterW 0, 0, 0, false⟩
            mon := 0, monDac := 0 }) 0 [])

/-! ### Calibration map -/

/-- The calibration round trip (R127): with calibration active on a valid set, `toPhysical` of what the
linear plant through the calibration points makes of the unrounded command for `v` is `v` exactly; of what
it makes of the rounded code, where the code was not clamped, it differs from `v` by at most half a DAC step
carried through the slopes. -/
def Obligations.CalibrationRoundTrip : Prop :=
  ∀ (cfg : Params) (ch : Channel) (t : ConvSet) (v code : Rat),
    ch.calActive t = true → calValid cfg ch t = true →
    let x := ch.cal.get t
    let plant := fun y : Rat => remap y x.minDac.toInt x.minAdc.toInt x.maxDac.toInt x.maxAdc.toInt
    let nominal := fun d : Int =>
      remap (d : Rat) cfg.dacCode.min (cfg.dacNom.get t).min cfg.dacCode.max (cfg.dacNom.get t).max
    let rounded := roundP (nomToDac cfg t (toNominal cfg ch t v)) 1
    (adcToNom cfg t code = plant (toNominal cfg ch t v) → toPhysical cfg ch t code = v) ∧
    (cfg.dacCode.min < cfg.dacCode.max → (cfg.dacNom.get t).min < (cfg.dacNom.get t).max →
      cfg.dacCode.min ≤ rounded → rounded ≤ cfg.dacCode.max →
      adcToNom cfg t code = plant (nominal (toRaw cfg ch t v)) →
      |toPhysical cfg ch t code - v| ≤
        1 / 2 * (((cfg.dacNom.get t).max - (cfg.dacNom.get t).min : Int) : Rat) /
          ((cfg.dacCode.max - cfg.dacCode.min : Int) : Rat) *
        |((x.maxAdc.toInt - x.minAdc.toInt : Int) : Rat) / ((x.maxDac.toInt - x.minDac.toInt : Int) : Rat)| *
        |((x.maxVal.toInt - x.minVal.toInt : Int) : Rat) / ((x.maxAdc.toInt - x.minAdc.toInt : Int) : Rat)|)

/-- `toRaw` answers a code of the DAC range, is monotone in the value (R126 (e)), and is the nearest whole
code of the line where the line stays inside the range (R125). -/
def Obligations.DacCodesAreInRangeAndMonotone : Prop :=
  ∀ (cfg : Params) (ch : Channel) (t : ConvSet),
    cfg.dacCode.min < cfg.dacCode.max → (cfg.dacNom.get t).min < (cfg.dacNom.get t).max →
    (ch.calActive t = true → calValid cfg ch t = true) →
    (∀ v : Rat, cfg.dacCode.min ≤ toRaw cfg ch t v ∧ toRaw cfg ch t v ≤ cfg.dacCode.max) ∧
    (∀ v v' : Rat, v ≤ v' → toRaw cfg ch t v ≤ toRaw cfg ch t v') ∧
    (∀ v : Rat, (cfg.dacCode.min : Rat) ≤ nomToDac cfg t (toNominal cfg ch t v) →
      nomToDac cfg t (toNominal cfg ch t v) ≤ (cfg.dacCode.max : Rat) →
      2 * |(toRaw cfg ch t v : Rat) - nomToDac cfg t (toNominal cfg ch t v)| ≤ 1)

/-- `CALPT` (R130), `CALCOMMIT` (R131) and `CALCLR` (R132) on an existing channel: refused with `E_BUSY`
while calibration is enabled; `CALPT` writes one field and un-commits the set; `CALCOMMIT` marks a set that
meets the validity conditions as existing, and refuses any other; `CALCLR` un-commits and keeps the
coordinates. -/
def Obligations.CalibrationSetCommands : Prop :=
  ∀ (s : State) (c : Nat) (t : ConvSet) (f : CalField) (v : Int), c < s.nCh →
    let ch := s.chan c
    let x := ch.cal.get t
    let lo := match t with
      | .u => ch.board.uMin.toInt | .ih => ch.board.iMin.toInt | .il => ch.board.iMin.toInt
    let hi := match t with
      | .u => ch.board.uMax.toInt | .ih => ch.board.iMax.toInt
      | .il => min ch.board.iMax.toInt s.cfg.iLowMax
    let valid := x.minVal.toInt < x.maxVal.toInt ∧ x.minDac.toInt < x.maxDac.toInt ∧
      x.minAdc.toInt < x.maxAdc.toInt ∧ x.rangeMin.toInt < x.rangeMax.toInt ∧
      (ch.board.calbMin.get t).toInt ≤ x.rangeMin.toInt ∧
      x.rangeMax.toInt ≤ (ch.board.calbMax.get t).toInt ∧
      max lo x.rangeMin.toInt ≤ min hi x.rangeMax.toInt
    (ch.calEn = true →
      ∀ i ∈ ([.calpt c t f v, .calcommit c t, .calclr c t] : List Instr),
        exec i s = .next { s with resp := ⟨.busy, 0⟩, events := [] }) ∧
    (ch.calEn = false →
      exec (.calpt c t f v) s =
        .next (s.done c (ch.setCal t fun x => { x.setField f (toVal v) with present := false }) 0 []) ∧
      (valid → exec (.calcommit c t) s =
        .next (s.done c (ch.setCal t fun x => { x with present := true }) 0 [])) ∧
      (¬valid → exec (.calcommit c t) s = .next { s with resp := ⟨.calInvalid, 0⟩, events := [] }) ∧
      exec (.calclr c t) s =
        .next (s.done c (ch.setCal t fun x => { x with present := false }) 0 []))

/-- `recomputeBounds` (R133): the effective bounds are the board's, cut by the validated range of the set
that bounds the quantity where calibration is active on it, and the current by the low-range ceiling in
`AlwaysLow`; the defaults are the board's clamped into them; nothing else of the channel changes. -/
def Obligations.RecomputeBoundsRule : Prop :=
  ∀ (cfg : Params) (ch : Channel),
    let si := if ch.rangeMode = .alwaysLow then ConvSet.il else ConvSet.ih
    let top := if ch.rangeMode = .alwaysLow then min ch.board.iMax.toInt cfg.iLowMax else ch.board.iMax.toInt
    let uLo := if ch.calActive .u then max ch.board.uMin.toInt ch.cal.u.rangeMin.toInt else ch.board.uMin.toInt
    let uHi := if ch.calActive .u then min ch.board.uMax.toInt ch.cal.u.rangeMax.toInt else ch.board.uMax.toInt
    let iLo := if ch.calActive si then max ch.board.iMin.toInt (ch.cal.get si).rangeMin.toInt
      else ch.board.iMin.toInt
    let iHi := if ch.calActive si then min top (ch.cal.get si).rangeMax.toInt else top
    recomputeBounds cfg ch =
      { ch with
        uMin := toVal uLo, uMax := toVal uHi, uDef := toVal (clamp ch.board.uDef.toInt uLo uHi)
        iMin := toVal iLo, iMax := toVal iHi, iDef := toVal (clamp ch.board.iDef.toInt iLo iHi) }

/-- `CALEN` (R135) on a ready channel: enabling with no set at all is refused; a channel already in that
state is left as it is; otherwise the flag is written, the bounds recomputed (R133), the limits clamped
(R134) and both setpoints clamped and re-applied, voltage first (R171, R172). -/
def Obligations.CalenCompletes : Prop :=
  ∀ (s : State) (c : Nat) (b : Bool), s.ready c →
    let ch := s.chan c
    let noSet := ch.cal.u.present = false ∧ ch.cal.ih.present = false ∧ ch.cal.il.present = false
    let ch1 := recomputeBounds s.cfg { ch with calEn := b }
    let uLim := clamp ch1.u.limit.toInt ch1.uMin.toInt ch1.uMax.toInt
    let iLim := clamp ch1.i.limit.toInt ch1.iMin.toInt ch1.iMax.toInt
    let ch2 := { ch1 with u := { ch1.u with limit := toVal uLim }, i := { ch1.i with limit := toVal iLim } }
    let newU := clamp ch.u.set.toInt ch1.uMin.toInt (toVal uLim).toInt
    let newI := clamp ch.i.set.toInt ch1.iMin.toInt (toVal iLim).toInt
    (b = true → noSet → exec (.calen c b) s = .next { s with resp := ⟨.noCal, 0⟩, events := [] }) ∧
    ((b = true → ¬noSet) → ch.calEn = b → exec (.calen c b) s = .next (s.done c ch 0 [])) ∧
    ((b = true → ¬noSet) → ch.calEn ≠ b →
      exec (.calen c b) s =
        .next (s.done c
          (currentApplied s.cfg s.pins.nowUs (s.pin c) (voltageApplied ch2 newU) newI) 0
          (voltageEvents s.cfg c ch2 newU ++
            currentEvents s.cfg (s.pin c) c (voltageApplied ch2 newU) newI)))

/-- `TOPHYS` (R136) and `TORAW` (R137) on an existing channel: the converted value is the response, nothing
else changes and no event is emitted. -/
def Obligations.ConversionCommandsComplete : Prop :=
  ∀ (s : State) (c : Nat) (t : ConvSet) (v : Int), c < s.nCh →
    exec (.tophys c t v) s =
      .next { s with
        resp := ⟨.ok, toVal (sat (roundP (toPhysical s.cfg (s.chan c) t v) 1))⟩, events := [] } ∧
    exec (.toraw c t v) s =
      .next { s with resp := ⟨.ok, toVal (toRaw s.cfg (s.chan c) t v)⟩, events := [] }

/-! ### Current ranging -/

/-- The selection policy (R152, R153): self-test forces `High`; a calibration procedure without self-test
suppresses the evaluation; otherwise the mode decides, `UseBoth` by a strict comparison with the threshold. -/
def Obligations.RangeSelectionPolicy : Prop :=
  ∀ (cfg : Params) (mode : RangeMode) (pin : ChanPins) (i : Int),
    (pin.selfTest = true → rangeTarget cfg mode pin i = some .high) ∧
    (pin.selfTest = false → pin.calProc = true → rangeTarget cfg mode pin i = none) ∧
    (pin.selfTest = false → pin.calProc = false →
      (mode = .alwaysHigh → rangeTarget cfg mode pin i = some .high) ∧
      (mode = .alwaysLow → rangeTarget cfg mode pin i = some .low) ∧
      (mode = .useBoth → cfg.iThr < i → rangeTarget cfg mode pin i = some .high) ∧
      (mode = .useBoth → i ≤ cfg.iThr → rangeTarget cfg mode pin i = some .low))

/-- Applying a setpoint (R171, R172, with R153 and R154): the setpoint is stored, the DAC written through the
calibration map with the scale of the range the policy selects, the other quantity's snapshot dropped and
the change saved; nothing else of the state changes. -/
def Obligations.ApplyingASetpoint : Prop :=
  ∀ (s : State) (c : Nat) (x : Int), c < s.nCh →
    let ch := s.chan c
    applyVoltage s c x =
      { s with
        chans := s.chans.set c (voltageApplied ch x)
        events := s.events ++ voltageEvents s.cfg c ch x } ∧
    applyCurrent s c x =
      { s with
        chans := s.chans.set c (currentApplied s.cfg s.pins.nowUs (s.pin c) ch x)
        events := s.events ++ currentEvents s.cfg (s.pin c) c ch x }

/-- `RMODE` (R157) on a ready channel, and `RAUTO` (R158) on an existing one: the mode is stored, the bounds
recomputed, the current limit and setpoint clamped into them and the setpoint re-applied, which runs the
policy; `RAUTO` only stores the flag. -/
def Obligations.RangeCommandsComplete : Prop :=
  ∀ (s : State) (c : Nat),
    (∀ m : RangeMode, s.ready c →
      let ch := s.chan c
      let ch1 := recomputeBounds s.cfg { ch with rangeMode := m }
      let iLim := clamp ch.i.limit.toInt ch1.iMin.toInt ch1.iMax.toInt
      let ch2 := { ch1 with i := { ch1.i with limit := toVal iLim } }
      let newI := clamp ch.i.set.toInt ch1.iMin.toInt (toVal iLim).toInt
      exec (.rmode c m) s =
        .next (s.done c (currentApplied s.cfg s.pins.nowUs (s.pin c) ch2 newI) 0
          (currentEvents s.cfg (s.pin c) c ch2 newI))) ∧
    (∀ b : Bool, c < s.nCh →
      exec (.rauto c b) s = .next (s.done c { s.chan c with autoRange := b } 0 []))

/-- The auto-range check (R160) and its hysteresis (R161): a switch needs auto-range, `UseBoth`, the output
on, and neither calibration procedure nor self-test; `Low` to `High` happens at once in constant-current
mode with a setpoint above the threshold; `High` to `Low` needs a measured current below the threshold and
the no-oscillation delay since the last evaluation; a switch stamps the time, re-arms sampling, rewrites the
current DAC with the new scale and keeps the setpoint; without one nothing changes. -/
def Obligations.AutoRangeCheckRule : Prop :=
  ∀ (s : State) (c : Nat), c < s.nCh →
    let ch := s.chan c
    let gate := ch.autoRange = true ∧ ch.rangeMode = .useBoth ∧ ch.outEn = true ∧
      (s.pin c).calProc = false ∧ (s.pin c).selfTest = false
    let up := ch.range = .low ∧ ch.cc = true ∧ s.cfg.iThr < ch.i.set.toInt
    let down := ch.range = .high ∧ ch.i.f.seeded = true ∧ ch.i.mon.toInt < s.cfg.iThr ∧
      s.cfg.noOscDelay ≤ elapsed s.pins.nowUs ch.rngEvalTime
    let switched := fun (r : Range) (t : ConvSet) =>
      { s with
        chans := s.chans.set c
          { ch with range := r, adcAwait := some .uMon, rngEvalTime := s.pins.nowUs }
        events := s.events ++
          [.digOut c .range r.isLow, .startSample c .uMon,
           .dacWrite c .i (toRaw s.cfg ch t ch.i.set.toInt)] }
    (gate → up → autoRangeCheck s c = switched .high .ih) ∧
    (gate → down → autoRangeCheck s c = switched .low .il) ∧
    (¬(gate ∧ (up ∨ down)) → autoRangeCheck s c = s)

/-! ### Channel setpoints, limits, output -/

/-- The limit check (R173): voltage before current before power, the lower bound of a quantity before its
limit; a product equal to the power limit passes. -/
def Obligations.LimitCheckOrder : Prop :=
  ∀ (ch : Channel) (v i : Int),
    let vLow := v < ch.uMin.toInt
    let vHigh := ch.u.limit.toInt < v
    let iLow := i < ch.iMin.toInt
    let iHigh := ch.i.limit.toInt < i
    let pHigh := ch.pLimit.toInt * 10 ^ 6 < v * i
    (vLow → checkPoint ch v i = .range) ∧
    (¬vLow → vHigh → checkPoint ch v i = .voltageLimit) ∧
    (¬vLow → ¬vHigh → iLow → checkPoint ch v i = .range) ∧
    (¬vLow → ¬vHigh → ¬iLow → iHigh → checkPoint ch v i = .currentLimit) ∧
    (¬vLow → ¬vHigh → ¬iLow → ¬iHigh → pHigh → checkPoint ch v i = .powerLimit) ∧
    (¬vLow → ¬vHigh → ¬iLow → ¬iHigh → ¬pHigh → checkPoint ch v i = .ok)

/-- `SETV` (R174) and `SETI` (R175) on a ready channel: the value is rounded to the precision in force (R170), the
pair with the other quantity's setpoint is checked (R173), a failed check is the answer and changes nothing,
and a passed one applies the setpoint (R171, R172). -/
def Obligations.SetpointCommandsComplete : Prop :=
  ∀ (s : State) (c : Nat) (x : Int), s.ready c →
    let ch := s.chan c
    let pu := if ch.calEn then s.cfg.uPrec / 10 else s.cfg.uPrec
    let pi :=
      if ch.range = .low ∧ ch.board.microAllowed = true then s.cfg.iPrecMicro
      else if ch.calEn then s.cfg.iPrec / 10
      else s.cfg.iPrec
    let v := roundP (x : Rat) pu
    let i := roundP (x : Rat) pi
    (checkPoint ch v ch.i.set.toInt = .ok →
      exec (.setv c x) s =
        .next (s.done c (voltageApplied ch v) 0 (voltageEvents s.cfg c ch v))) ∧
    (checkPoint ch v ch.i.set.toInt ≠ .ok →
      exec (.setv c x) s = .next { s with resp := ⟨checkPoint ch v ch.i.set.toInt, 0⟩, events := [] }) ∧
    (checkPoint ch ch.u.set.toInt i = .ok →
      exec (.seti c x) s =
        .next (s.done c (currentApplied s.cfg s.pins.nowUs (s.pin c) ch i) 0
          (currentEvents s.cfg (s.pin c) c ch i))) ∧
    (checkPoint ch ch.u.set.toInt i ≠ .ok →
      exec (.seti c x) s = .next { s with resp := ⟨checkPoint ch ch.u.set.toInt i, 0⟩, events := [] })

/-- `LIMV` (R177), `LIMI` (R178) and `LIMP` (R179) on a ready channel: the limit is clamped into the effective
(for `LIMP` the board's) bounds and a setpoint above it is re-issued at the limit; for `LIMP`, when the
setpoints' product exceeds it, the current is recomputed from limit over voltage, rounded to the current
precision, kept between `iMin` and the old setpoint, and applied. -/
def Obligations.LimitCommandsComplete : Prop :=
  (∀ (s : State) (c : Nat) (x : Int), s.ready c →
    let ch := s.chan c
    let lu := clamp x ch.uMin.toInt ch.uMax.toInt
    let li := clamp x ch.iMin.toInt ch.iMax.toInt
    let chU := { ch with u := { ch.u with limit := toVal lu } }
    let chI := { ch with i := { ch.i with limit := toVal li } }
    (ch.u.set.toInt ≤ lu → exec (.limv c x) s = .next (s.done c chU 0 [.save])) ∧
    (lu < ch.u.set.toInt →
      exec (.limv c x) s = .next (s.done c (voltageApplied chU lu) 0 (voltageEvents s.cfg c chU lu))) ∧
    (ch.i.set.toInt ≤ li → exec (.limi c x) s = .next (s.done c chI 0 [.save])) ∧
    (li < ch.i.set.toInt →
      exec (.limi c x) s =
        .next (s.done c (currentApplied s.cfg s.pins.nowUs (s.pin c) chI li) 0
          (currentEvents s.cfg (s.pin c) c chI li)))) ∧
  (∀ (s : State) (c : Nat) (x : Int), s.ready c →
    let ch := s.chan c
    let p := clamp x ch.board.pMin.toInt ch.board.pMax.toInt
    let ch1 := { ch with pLimit := toVal p }
    let q := roundP (((p * 10 ^ 6 : Int) : Rat) / (ch.u.set.toInt : Rat)) (iPrec s.cfg ch)
    let i := max ch.iMin.toInt (min ch.i.set.toInt q)
    (ch.u.set.toInt * ch.i.set.toInt ≤ p * 10 ^ 6 →
      exec (.limp c x) s = .next (s.done c ch1 0 [.save])) ∧
    (p * 10 ^ 6 < ch.u.set.toInt * ch.i.set.toInt →
      exec (.limp c x) s =
        .next (s.done c (currentApplied s.cfg s.pins.nowUs (s.pin c) ch1 i) 0
          (currentEvents s.cfg (s.pin c) c ch1 i))))

/-- `OUTEN` (R182, R185, R181) on a ready channel: already in that state, nothing; enabling a tripped channel
is refused; enabling and disabling do the source's four actions each, in order, and write their lines. -/
def Obligations.OutputEnableCompletes : Prop :=
  ∀ (s : State) (c : Nat), s.ready c →
    let ch := s.chan c
    let now := s.pins.nowUs
    (ch.anyTripped = true → exec (.outen c true) s = .next { s with resp := ⟨.tripped, 0⟩, events := [] }) ∧
    (ch.anyTripped = false → ch.outEn = true → exec (.outen c true) s = .next (s.done c ch 0 [])) ∧
    (ch.outEn = false → exec (.outen c false) s = .next (s.done c ch 0 [])) ∧
    (ch.anyTripped = false → ch.outEn = false →
      exec (.outen c true) s =
        .next (s.done c
          { ch with
            outEn := true, rngEvalTime := now, dpOn := true, dpOffPending := false
            adcAwait := some .uMon, onTimeRun := true, onTimeLast := now } 0
          [.digOut c .range ch.range.isLow, .digOut c .dp true, .startSample c .uMon,
           .digOut c .output true, .pushEvent .outputEnabled c, .save])) ∧
    (ch.outEn = true →
      exec (.outen c false) s =
        .next (s.done c
          { ch with
            outEn := false, cv := false, cc := false, dpOffPending := true, dpOffTime := now
            dpNegActive := false
            onTime := ch.onTime + BitVec.ofNat 64 (elapsed now ch.onTimeLast), onTimeRun := false } 0
          [.digOut c .output false, .stopCalibration c, .pushEvent .outputDisabled c, .save]))

/-- `SENSE` (R183) and `RPROG` (R184) on a ready channel: already in that state, nothing; otherwise the flag
and its line; enabling remote programming also applies the minimum voltage and raises the `OVP` level to the
board's maximum, and disabling restores neither. -/
def Obligations.SenseAndRemoteProgrammingComplete : Prop :=
  ∀ (s : State) (c : Nat) (b : Bool), s.ready c →
    let ch := s.chan c
    let on := { ch with rprog := true }
    (ch.sense = b → exec (.sense c b) s = .next (s.done c ch 0 [])) ∧
    (ch.sense ≠ b →
      exec (.sense c b) s = .next (s.done c { ch with sense := b } 0 [.digOut c .sense b, .save])) ∧
    (ch.rprog = b → exec (.rprog c b) s = .next (s.done c ch 0 [])) ∧
    (ch.rprog = false →
      exec (.rprog c true) s =
        .next (s.done c
          ((voltageApplied on ch.uMin.toInt).setProt .ovp fun p => { p with level := ch.board.uMax }) 0
          (.digOut c .rprog true :: voltageEvents s.cfg c on ch.uMin.toInt))) ∧
    (ch.rprog = true →
      exec (.rprog c false) s =
        .next (s.done c { ch with rprog := false } 0 [.digOut c .rprog false, .save]))

/-! ### Protection -/

/-- The debounce check (R204) as the table of R207: what each event of the latch does, and that without a trip
nothing but `alarmed` and `alarmTime` of that kind changes. The three conditions (R203): `OVP` and `OCP` by
`>=`, `OPP` strictly; under remote programming `OVP` reads the readback value; `OCP` compares with the live
setpoint and reads no level. -/
def Obligations.DebounceCheckTable : Prop :=
  (∀ (s : State) (c : Nat) (k : Kind), c < s.nCh →
    let ch := s.chan c
    let p := ch.prot.get k
    let a := ch.armed k = true ∧ ch.condition k = true
    let e := (elapsed s.pins.nowUs p.alarmTime : Int)
    (a → p.delay.toInt ≤ 0 → protCheck s c k = trip s c k) ∧
    (a → 0 < p.delay.toInt → p.alarmed = false →
      protCheck s c k =
        { s with
          chans := s.chans.set c
            (ch.setProt k fun p => { p with alarmed := true, alarmTime := s.pins.nowUs }) }) ∧
    (a → 0 < p.delay.toInt → p.alarmed = true → p.delay.toInt ≤ e → protCheck s c k = trip s c k) ∧
    (a → 0 < p.delay.toInt → p.alarmed = true → e < p.delay.toInt → protCheck s c k = s) ∧
    (¬a → protCheck s c k =
      { s with chans := s.chans.set c (ch.setProt k fun p => { p with alarmed := false }) })) ∧
  (∀ ch : Channel,
    (ch.rprog = false → (ch.condition .ovp = true ↔ ch.u.mon.toInt ≥ ch.prot.ovp.level.toInt)) ∧
    (ch.rprog = true → (ch.condition .ovp = true ↔ ch.u.monDac.toInt ≥ ch.prot.ovp.level.toInt)) ∧
    (ch.condition .ocp = true ↔ ch.i.mon.toInt ≥ ch.i.set.toInt) ∧
    (ch.condition .opp = true ↔ ch.u.mon.toInt * ch.i.mon.toInt > ch.prot.opp.level.toInt * 10 ^ 6))

/-- Trip entry (R206, R347): the output goes off with all that a disable of an output that is on does, and so
does that of a coupled follower, with nothing else of the follower changed; the kind is latched, its status
bit set and the event pushed; an over-voltage under remote programming also raises the alarm flag when the
level is the board's maximum, and ends remote programming. Setpoints, limits and the configuration of the
protections stay, and so does every other channel. -/
def Obligations.TripEntryRule : Prop :=
  ∀ (s : State) (c : Nat) (k : Kind), c < s.nCh →
    let now := s.pins.nowUs
    let ch := s.chan c
    let p := (s.pin c).partner
    let off := fun ch : Channel =>
      if ch.outEn = true then
        { ch with
          outEn := false, cv := false, cc := false, dpOffPending := true, dpOffTime := now
          dpNegActive := false
          onTime := ch.onTime + BitVec.ofNat 64 (elapsed now ch.onTimeLast), onTimeRun := false }
      else ch
    let offEvents := fun x : Nat =>
      if (s.chan x).outEn = true then
        [.digOut x .output false, .stopCalibration x, .pushEvent .outputDisabled x, .save]
      else ([] : List Event)
    let latched : Channel :=
      { (off ch).setProt k (fun q => { q with tripped := true }) with status := statusSet ch.status k }
    let ends := k = .ovp ∧ ch.rprog = true
    let final : Channel :=
      if ends then
        { latched with
          rprog := false
          rprogAlarm := ch.rprogAlarm || decide (ch.prot.ovp.level = ch.board.uMax) }
      else latched
    let pushed : List Event :=
      .pushEvent (.trip k) c :: (if ends then [.digOut c .rprog false, .save] else [])
    (s.pins.coupling = .none ∨ (s.pin p).follower = false →
      trip s c k =
        { s with chans := s.chans.set c final, events := s.events ++ (offEvents c ++ pushed) }) ∧
    (s.pins.coupling ≠ .none → (s.pin p).follower = true → p < s.nCh → p ≠ c →
      trip s c k =
        { s with
          chans := (s.chans.set c final).set p (off (s.chan p))
          events := s.events ++ (offEvents c ++ offEvents p ++ pushed) })

/-- The debounce timing law (R208), for runs of `TICK` with pins `ps i` from `ss 0`, `t i` the time of tick
`i`, on a channel whose checks run, whose kind starts unalarmed and untripped, and whose delay is `d`. With
the condition asserted at every tick up to `n`: for `d > 0` the kind is untripped after every tick that comes
before `t 0 + d`, alarmed since `t 0`, and tripped after the first tick that does not; for `d <= 0` it is
tripped after tick 0. A tick before the trip that finds the condition false or the channel unarmed clears
the alarm and leaves the kind untripped. -/
def Obligations.DebounceTimingLaw : Prop :=
  ∀ (c : Nat) (k : Kind) (d : Int) (ps : Nat → Pins) (ss : Nat → State) (n : Nat),
    (∀ i, ss (i + 1) = tickWith (ps i) (ss i)) →
    (∀ i, i ≤ n → checked { ss i with pins := ps i } c) →
    (((ss 0).chan c).prot.get k).delay.toInt = d →
    (((ss 0).chan c).prot.get k).alarmed = false →
    (((ss 0).chan c).prot.get k).tripped = false →
    (∀ i, i < n → asserted { (ss i).begin with pins := ps i } c k) →
    (∀ i, i < n → 0 < i → (elapsed (ps i).nowUs (ps 0).nowUs : Int) < d) →
    (0 < n → 0 < d) →
    let p := fun i => ((ss i).chan c).prot.get k
    let last := { (ss n).begin with pins := ps n }
    (∀ i, i ≤ n → (p i).tripped = false) ∧
    (∀ i, 0 < i → i ≤ n → (p i).alarmed = true ∧ (p i).alarmTime = (ps 0).nowUs) ∧
    (asserted last c k → d ≤ 0 → (p (n + 1)).tripped = true) ∧
    (asserted last c k → 0 < n → d ≤ (elapsed (ps n).nowUs (ps 0).nowUs : Int) →
      (p (n + 1)).tripped = true) ∧
    (asserted last c k → 0 < d → (0 < n → (elapsed (ps n).nowUs (ps 0).nowUs : Int) < d) →
      (p (n + 1)).tripped = false) ∧
    (¬asserted last c k → (p (n + 1)).tripped = false ∧ (p (n + 1)).alarmed = false)

/-- `PCLR` (R210, R348) on an existing channel, healthy or not: all three kinds, their status bits and the
alarm flag are cleared; the log entry is acknowledged only if something was tripped; nothing is restored. -/
def Obligations.ClearProtectionCompletes : Prop :=
  ∀ (s : State) (c : Nat) (b : Bool), c < s.nCh →
    let ch := s.chan c
    let cleared := fun p : ProtRec => { p with tripped := false, alarmed := false }
    exec (.pclr c b) s =
      .next (s.done c
        { ch with
          prot := ⟨cleared ch.prot.ovp, cleared ch.prot.ocp, cleared ch.prot.opp⟩
          status := 0, rprogAlarm := false } 0
        ((if b = true then [.clearOtp c] else []) ++
          (if ch.prot.ovp.tripped = true ∨ ch.prot.ocp.tripped = true ∨ ch.prot.opp.tripped = true
            then [.markLastAsRead] else []) ++ [.save]))

/-- `PDIS` (R211), `PSTATE` (R212), `PDELAY` (R213) and `PLEVEL` (R214) on an existing channel: disarming is
refused on a live trip, a delay or level outside the board's bounds is refused, and otherwise the one
configured field is written (for `PDIS` all three states) and saved. -/
def Obligations.ProtectionSettingsComplete : Prop :=
  ∀ (s : State) (c : Nat) (k : Kind) (b : Bool) (v : Int), c < s.nCh →
    let ch := s.chan c
    let off := fun p : ProtRec => { p with state := false }
    let inDelay := (ch.board.pdlyMin.get k).toInt ≤ v ∧ v ≤ (ch.board.pdlyMax.get k).toInt
    let inLevel := (ch.board.plvlMin.get k).toInt ≤ v ∧ v ≤ (ch.board.plvlMax.get k).toInt
    let fails := fun e : Status => Host.Outcome.next { s with resp := ⟨e, 0⟩, events := [] }
    (ch.anyTripped = true → exec (.pdis c) s = fails .tripped) ∧
    (ch.anyTripped = false →
      exec (.pdis c) s =
        .next (s.done c { ch with prot := ⟨off ch.prot.ovp, off ch.prot.ocp, off ch.prot.opp⟩ } 0 [.save])) ∧
    ((ch.prot.get k).tripped = true → exec (.pstate c k false) s = fails .tripped) ∧
    (b = true ∨ (ch.prot.get k).tripped = false →
      exec (.pstate c k b) s = .next (s.done c (ch.setProt k fun p => { p with state := b }) 0 [.save])) ∧
    (inDelay →
      exec (.pdelay c k v) s = .next (s.done c (ch.setProt k fun p => { p with delay := toVal v }) 0 [.save])) ∧
    (¬inDelay → exec (.pdelay c k v) s = fails .range) ∧
    (inLevel →
      exec (.plevel c k v) s = .next (s.done c (ch.setProt k fun p => { p with level := toVal v }) 0 [.save])) ∧
    (¬inLevel → exec (.plevel c k v) s = fails .range)

/-- `tripped` rises only inside `TICK` and falls only inside `PCLR` of its channel (R215 (a), R27); a kind
that is configured off, or whose channel's output is off before the `TICK`, does not trip in it (R215 (e),
(f)). -/
def Obligations.TrippedMovesOnlyInTickAndClear : Prop :=
  ∀ (i : Instr) (s t : State) (c : Nat) (k : Kind), exec i s = .next t → c < s.nCh →
    (((s.chan c).prot.get k).tripped = false → ((t.chan c).prot.get k).tripped = true →
      i = .tick ∧ ((s.chan c).prot.get k).state = true ∧ (s.chan c).outEn = true) ∧
    (((s.chan c).prot.get k).tripped = true → ((t.chan c).prot.get k).tripped = false →
      ∃ b, i = .pclr c b)

/-! ### Down-programmer, negative power, balancing -/

/-- The negative-power monitor (R232, R233, R234): off or not below the threshold ends the watch; the first
tick below starts it; past the longer window the down-programmer goes off and the window restarts, or, with
it already off, the output goes off and a fault is pushed, and no balancing happens; past the sub-delay only,
the leader of a series or parallel pair with the down-programmer on balances; otherwise nothing. -/
def Obligations.NegativePowerMonitor : Prop :=
  ∀ (ip : Nat → Int) (s : State) (c : Nat), c < s.nCh →
    let ch := s.chan c
    let now := s.pins.nowUs
    let below := ch.outEn = true ∧ ch.u.mon.toInt * ch.i.mon.toInt < s.cfg.dpNegLev
    let e := elapsed now ch.dpNegTime
    let watching := below ∧ ch.dpNegActive = true
    let mid := watching ∧ e ≤ s.cfg.dpNegDelay ∧ s.cfg.dpBalDelay < e ∧ ch.dpOn = true ∧
      (s.pin c).follower = false
    (¬below → dpNegCheck ip s c = { s with chans := s.chans.set c { ch with dpNegActive := false } }) ∧
    (below → ch.dpNegActive = false →
      dpNegCheck ip s c = { s with chans := s.chans.set c { ch with dpNegActive := true, dpNegTime := now } }) ∧
    (watching → s.cfg.dpNegDelay < e → ch.dpOn = true →
      dpNegCheck ip s c =
        { s with
          chans := s.chans.set c { ch with dpOn := false, dpNegTime := now }
          events := s.events ++ [.digOut c .dp false, .pushEvent .dpOff c] }) ∧
    (watching → s.cfg.dpNegDelay < e → ch.dpOn = false →
      dpNegCheck ip s c =
        { s with
          chans := s.chans.set c
            { ch with
              outEn := false, cv := false, cc := false, dpOffPending := true, dpOffTime := now
              dpNegActive := false
              onTime := ch.onTime + BitVec.ofNat 64 (elapsed now ch.onTimeLast), onTimeRun := false }
          events := s.events ++
            [.digOut c .output false, .stopCalibration c, .pushEvent .outputDisabled c, .save,
             .pushEvent .outputFault c] }) ∧
    (mid → s.pins.coupling = .series → dpNegCheck ip s c = balance ip s c .u) ∧
    (mid → s.pins.coupling = .parallel → dpNegCheck ip s c = balance ip s c .i) ∧
    (mid → s.pins.coupling = .none ∨ s.pins.coupling = .tracked → dpNegCheck ip s c = s) ∧
    (watching → e ≤ s.cfg.dpNegDelay → ¬mid → dpNegCheck ip s c = s)

/-- Balancing (R236) of a leader `c` and its partner `p`: an unhealthy partner stops it; otherwise each of
the two, leader first, remembers its setpoint unless a snapshot is pending and gets the rounded average of
the two monitored values, clamped into its own bounds, as its setpoint. `ip` is the current precision of each
channel when the command started (R170). -/
def Obligations.BalancingRule : Prop :=
  ∀ (ip : Nat → Int) (s : State) (c : Nat),
    let p := (s.pin c).partner
    c < s.nCh → p < s.nCh → p ≠ c →
    let a := s.chan c
    let b := s.chan p
    let keepU := fun ch : Channel => { ch with uBal := if ch.uBal.valid then ch.uBal else ⟨true, ch.u.set⟩ }
    let keepI := fun ch : Channel => { ch with iBal := if ch.iBal.valid then ch.iBal else ⟨true, ch.i.set⟩ }
    let avgU := roundP (((a.u.mon.toInt + b.u.mon.toInt : Int) : Rat) / 2) (uPrec s.cfg a)
    let avgI := roundP (((a.i.mon.toInt + b.i.mon.toInt : Int) : Rat) / 2) (ip c)
    let yU := fun ch : Channel => clamp avgU ch.uMin.toInt ch.u.limit.toInt
    let yI := fun ch : Channel => clamp avgI ch.iMin.toInt ch.i.limit.toInt
    let now := s.pins.nowUs
    (∀ q, (s.pin p).healthy = false → balance ip s c q = s) ∧
    ((s.pin p).healthy = true →
      balance ip s c .u =
        { s with
          chans := (s.chans.set c (voltageApplied (keepU a) (yU a))).set p (voltageApplied (keepU b) (yU b))
          events := s.events ++ (voltageEvents s.cfg c a (yU a) ++ voltageEvents s.cfg p b (yU b)) } ∧
      balance ip s c .i =
        { s with
          chans := (s.chans.set c (currentApplied s.cfg now (s.pin c) (keepI a) (yI a))).set p
            (currentApplied s.cfg now (s.pin p) (keepI b) (yI b))
          events := s.events ++
            (currentEvents s.cfg (s.pin c) c a (yI a) ++ currentEvents s.cfg (s.pin p) p b (yI b)) })

/-! ### Trigger -/

/-- `TSRC` (R247), `TDELAY` (R248), `TCONT` (R249), and on an existing channel, healthy or not and in any
trigger state, `TMODE` (R250), `TLEV` (R251), `TOUT` (R252): the one field is stored and saved. -/
def Obligations.TriggerSettingsComplete : Prop :=
  ∀ (s : State) (c n : Nat) (b : Bool) (m : TrigMode) (v : Int),
    exec (.tsrc n) s =
      .next { s with trigSource := BitVec.ofNat 4 n, resp := ⟨.ok, 0⟩, events := [.save] } ∧
    exec (.tdelay n) s =
      .next { s with trigDelay := BitVec.ofNat 32 n, resp := ⟨.ok, 0⟩, events := [.save] } ∧
    exec (.tcont b) s = .next { s with trigCont := b, resp := ⟨.ok, 0⟩, events := [.save] } ∧
    (c < s.nCh →
      exec (.tmode c .u m) s = .next (s.done c { s.chan c with trigModeU := m } 0 [.save]) ∧
      exec (.tmode c .i m) s = .next (s.done c { s.chan c with trigModeI := m } 0 [.save]) ∧
      exec (.tlev c .u v) s = .next (s.done c { s.chan c with trigU := toVal v } 0 [.save]) ∧
      exec (.tlev c .i v) s = .next (s.done c { s.chan c with trigI := toVal v } 0 [.save]) ∧
      exec (.tout c b) s = .next (s.done c { s.chan c with trigOut := b } 0 [.save]))

/-- The precondition check (R253, R254): channels taking part are visited in ascending order and the first
failing test of the first failing channel decides; with no failure the check passes exactly when some
channel taking part is not in `Fixed` mode. `ip` is the current precision of each channel when the command
started (R170). -/
def Obligations.PreconditionCheckOrder : Prop :=
  ∀ (ip : Nat → Int) (s : State),
    let part := fun c => c < s.nCh ∧ (s.pin c).healthy = true ∧
      (s.pins.coupling = .none ∨ (s.pin c).follower = false)
    let point := fun (c j : Nat) =>
      let ch := s.chan c
      checkPoint ch
        (roundP ((ch.listRead .volt (j % ch.list.len.volt)).toInt : Rat) (uPrec s.cfg ch))
        (roundP ((ch.listRead .curr (j % ch.list.len.curr)).toInt : Rat) (ip c))
    let level := fun c : Nat =>
      let ch := s.chan c
      checkPoint ch (roundP (ch.trigU.toInt : Rat) (uPrec s.cfg ch))
        (roundP (ch.trigI.toInt : Rat) (ip c))
    let good := fun c : Nat =>
      let ch := s.chan c
      ch.trigModeU = ch.trigModeI ∧ (ch.trigModeU ≠ .fixed → ch.rprog = false) ∧
      (ch.trigModeU = .list → ch.lengthsOk = true ∧ ∀ j, j < ch.iterLen → point c j = .ok) ∧
      (ch.trigModeU = .step → level c = .ok)
    let earlier := fun c => ∀ c', c' < c → part c' → good c'
    (∀ c, part c → earlier c →
      let ch := s.chan c
      (ch.trigModeU ≠ ch.trigModeI → checkTrigger ip s = .trigModeMismatch) ∧
      (ch.trigModeU = ch.trigModeI → ch.trigModeU ≠ .fixed → ch.rprog = true →
        checkTrigger ip s = .trigRprog) ∧
      (ch.trigModeU = ch.trigModeI → ch.trigModeU = .list → ch.rprog = false →
        (ch.lengthsOk = false → checkTrigger ip s = .listLengths) ∧
        (ch.lengthsOk = true → ∀ j, j < ch.iterLen → (∀ j', j' < j → point c j' = .ok) →
          point c j ≠ .ok → checkTrigger ip s = point c j)) ∧
      (ch.trigModeU = ch.trigModeI → ch.trigModeU = .step → ch.rprog = false → level c ≠ .ok →
        checkTrigger ip s = level c)) ∧
    ((∀ c, part c → good c) →
      ((∃ c, part c ∧ (s.chan c).trigModeU ≠ .fixed) → checkTrigger ip s = .ok) ∧
      ((∀ c, part c → (s.chan c).trigModeU = .fixed) → checkTrigger ip s = .trigAllFixed))

/-- `INIT` (R255): outside `Idle` it is refused; a failed check is the answer and changes nothing; with a
source other than `IMMEDIATE` the machine is `Initiated`; with `IMMEDIATE` the execution happens in the
command. `TRG` (R256): ignored outside `Initiated` or with another source; otherwise the machine is
`Triggered` and the time recorded, and with `b` = 1 and a zero delay the execution happens in the command.
The delay check (R258) executes once the delay has elapsed while `Triggered` and does nothing else. All of it
rounds with the current precisions of the state that the command starts from (R170). -/
def Obligations.TriggerCommandsComplete : Prop :=
  (∀ s : State,
    (s.trigState ≠ .idle → exec .init s = .next { s with resp := ⟨.trigState, 0⟩, events := [] }) ∧
    (s.trigState = .idle → checkTrigger s.currentPrecs s ≠ .ok →
      exec .init s = .next { s with resp := ⟨checkTrigger s.currentPrecs s, 0⟩, events := [] }) ∧
    (s.trigState = .idle → checkTrigger s.currentPrecs s = .ok → s.trigSource ≠ 0 →
      exec .init s = .next { s with trigState := .initiated, resp := ⟨.ok, 0⟩, events := [] }) ∧
    (s.trigState = .idle → checkTrigger s.currentPrecs s = .ok → s.trigSource = 0 →
      exec .init s = .next (startImmediately s.currentPrecs { s with resp := ⟨.ok, 0⟩, events := [] }))) ∧
  (∀ (s : State) (n : Nat) (b : Bool),
    let hit := s.trigState = .initiated ∧ BitVec.ofNat 4 n = s.trigSource
    let s1 := { s with
      trigState := TrigState.triggered, trigTime := s.pins.nowUs, resp := ⟨.ok, 0⟩, events := [] }
    (¬hit → exec (.trg n b) s = .next { s with resp := ⟨.trigIgnored, 0⟩, events := [] }) ∧
    (hit → b = false ∨ s.trigDelay ≠ 0 → exec (.trg n b) s = .next s1) ∧
    (hit → b = true → s.trigDelay = 0 → exec (.trg n b) s = .next (startImmediately s.currentPrecs s1)) ∧
    (∀ ip : Nat → Int, s.trigState = .triggered → s.trigDelay.toNat ≤ elapsed s.pins.nowUs s.trigTime →
      trigDelayCheck ip s = startImmediately ip s) ∧
    (∀ ip : Nat → Int, s.trigState ≠ .triggered ∨ elapsed s.pins.nowUs s.trigTime < s.trigDelay.toNat →
      trigDelayCheck ip s = s) ∧
    (∀ c, s.currentPrecs c = iPrec s.cfg (s.chan c)))

/-- Execution (R262, R263), for any current precisions `ip` (R170): a failed re-validation pushes its error,
aborts every list and leaves the machine `Idle`; otherwise every channel taking part in `List` mode has its
setpoints zeroed, its output as requested and its cursor started, every one in `Step` mode has its levels
applied, rounded, and its output as requested and is finished, and no other channel is touched. The new
channels, the events in ascending channel order (voltage, current, output, or the error of a refused
request), and the trigger state are given whole: the machine is `Executing` while a channel is in progress,
as one that runs a list is, and else in the end state. -/
def Obligations.TriggerExecutionRule : Prop :=
  ∀ (ip : Nat → Int) (s : State),
    let now := s.pins.nowUs
    let inS := fun c => (s.pin c).healthy && (decide (s.pins.coupling = .none) || !(s.pin c).follower) &&
      decide ((s.chan c).trigModeU ≠ .fixed)
    let applied := fun c =>
      currentApplied s.cfg now (s.pin c) (voltageApplied (s.chan c) (triggerVolt s.cfg (s.chan c)))
        (triggerCurr (ip c) (s.chan c))
    let requested := fun c =>
      if (s.chan c).trigOut = true ∧ (s.chan c).anyTripped = true then applied c
      else if (s.chan c).outEn = (s.chan c).trigOut then applied c
      else if (s.chan c).trigOut = true then turnedOn now (applied c)
      else turnedOff now (applied c)
    let final := fun c =>
      if (s.chan c).trigModeU = .list then
        { requested c with
          cursor := ⟨-1, BitVec.ofNat 32 (s.chan c).list.count, 0, 0, now, s.pins.nowMs⟩, trigInProg := true }
      else { requested c with trigInProg := false }
    let emitted := fun c =>
      voltageEvents s.cfg c (s.chan c) (triggerVolt s.cfg (s.chan c)) ++
      currentEvents s.cfg (s.pin c) c (voltageApplied (s.chan c) (triggerVolt s.cfg (s.chan c)))
        (triggerCurr (ip c) (s.chan c)) ++
      (if (s.chan c).trigOut = true ∧ (s.chan c).anyTripped = true then [.pushEvent (.error .tripped) c]
        else if (s.chan c).outEn = (s.chan c).trigOut then []
        else if (s.chan c).trigOut = true then onEvents c (applied c).range
        else offEvents c)
    let after := (List.range s.nCh).map fun c => if inS c then final c else s.chan c
    (checkTrigger ip s ≠ .ok →
      startImmediately ip s = { s with
        chans := s.chans.map fun ch =>
          { ch with cursor := { ch.cursor with it := -1, counter := -1 }, trigInProg := false }
        trigState := .idle
        events := s.events ++ [.pushEvent (.error (checkTrigger ip s)) 0] }) ∧
    (checkTrigger ip s = .ok →
      startImmediately ip s = { s with
        chans := after
        trigState :=
          if after.any Channel.trigInProg then .executing else if s.trigCont then .initiated else .idle
        events := s.events ++ ((List.range s.nCh).filter inS).flatMap emitted }) ∧
    (∀ ch : Channel,
      (ch.trigModeU = .list → triggerVolt s.cfg ch = 0 ∧ ∀ p, triggerCurr p ch = 0) ∧
      (ch.trigModeU = .step → triggerVolt s.cfg ch = roundP (ch.trigU.toInt : Rat) (uPrec s.cfg ch) ∧
        ∀ p, triggerCurr p ch = roundP (ch.trigI.toInt : Rat) p))

/-- `TABORT` (R265, R266) and `LABORT` (R298, R299): every cursor goes inactive; `TABORT`, and `LABORT` while
`Executing`, also clear every in-progress bit and leave the machine `Idle`; nothing else changes. The
trigger-finished hook (R263) clears the channel's in-progress bit and, while `Executing` with no channel left
in progress, ends the sequence: in `Initiated` under continuous initiation and else in `Idle`. -/
def Obligations.AbortAndFinish : Prop :=
  (∀ s : State,
    let stopped := fun ch : Channel => { ch with cursor := { ch.cursor with it := -1, counter := -1 } }
    let all := { s with
      chans := s.chans.map fun ch => { stopped ch with trigInProg := false }
      trigState := TrigState.idle, resp := ⟨.ok, 0⟩, events := [] }
    exec .tabort s = .next all ∧
    (s.trigState = .executing → exec .labort s = .next all) ∧
    (s.trigState ≠ .executing →
      exec .labort s = .next { s with chans := s.chans.map stopped, resp := ⟨.ok, 0⟩, events := [] })) ∧
  (∀ (s : State) (c : Nat), c < s.nCh →
    let s1 := { s with chans := s.chans.set c { s.chan c with trigInProg := false } }
    let last := s.trigState = .executing ∧ ∀ c', c' ≠ c → (s.chan c').trigInProg = false
    (last → triggerFinished s c = { s1 with trigState := if s.trigCont then .initiated else .idle }) ∧
    (¬last → triggerFinished s c = s1))

/-! ### Lists -/

/-- `LLEN` (R283), `LCOUNT` (R285) and `LSAVED` (R287) on an existing channel: refused while the cursor is
active (but for `LSAVED`) or out of range; otherwise the one field is written and `changed` set (by `LSAVED`
cleared), and no element of the list moves. -/
def Obligations.ListSettingsComplete : Prop :=
  ∀ (s : State) (c : Nat) (a : ListArray) (n : Nat), c < s.nCh →
    let ch := s.chan c
    let fails := fun e : Status => Host.Outcome.next { s with resp := ⟨e, 0⟩, events := [] }
    (0 ≤ ch.cursor.counter.toInt →
      exec (.llen c a n) s = fails .busy ∧ exec (.lcount c n) s = fails .busy) ∧
    (ch.cursor.counter.toInt < 0 →
      (s.cfg.listMax < n → exec (.llen c a n) s = fails .range) ∧
      (n ≤ s.cfg.listMax →
        exec (.llen c a n) s =
          .next (s.done c
            { ch with list := { ch.list with len := ch.list.len.modify a fun _ => n, changed := true } }
            0 [])) ∧
      (n = 0 ∨ s.cfg.countMax < n → exec (.lcount c n) s = fails .range) ∧
      (1 ≤ n → n ≤ s.cfg.countMax →
        exec (.lcount c n) s =
          .next (s.done c { ch with list := { ch.list with count := n, changed := true } } 0 []))) ∧
    exec (.lsaved c) s = .next (s.done c { ch with list := { ch.list with changed := false } } 0 [])

/-- `LSET` (R284) and `LGET` (R286) on an existing channel whose list memory is in canonical form: an index
at or beyond the array's length is refused, and so is a value outside the board's bounds; `LSET` then writes
exactly that element of that array, sets `changed` and changes nothing else; `LGET` answers the element and
changes nothing. -/
def Obligations.ListElementCommandsComplete : Prop :=
  ∀ (s : State) (c : Nat) (a : ListArray) (k : Nat) (v : Int),
    c < s.nCh → Memory.wf ((s.chan c).list.mem.get a) = true →
    let ch := s.chan c
    let fails := fun e : Status => Host.Outcome.next { s with resp := ⟨e, 0⟩, events := [] }
    let visible := k < ch.list.len.get a
    let fits := match a with
      | .dwell => True
      | .volt => ch.board.uMin.toInt ≤ v ∧ v ≤ ch.board.uMax.toInt
      | .curr => ch.board.iMin.toInt ≤ v ∧ v ≤ ch.board.iMax.toInt
    (0 ≤ ch.cursor.counter.toInt → exec (.lset c a k v) s = fails .busy) ∧
    (ch.cursor.counter.toInt < 0 → ¬(visible ∧ fits) → exec (.lset c a k v) s = fails .range) ∧
    (ch.cursor.counter.toInt < 0 → visible → fits →
      ∃ mem : PerArray Memory,
        exec (.lset c a k v) s =
          .next (s.done c { ch with list := { ch.list with mem := mem, changed := true } } 0 []) ∧
        Memory.read (mem.get a) k = BitVec.ofInt 32 v ∧
        (∀ a' k', a' ≠ a ∨ k' ≠ k → Memory.read (mem.get a') k' = ch.listRead a' k')) ∧
    (¬visible → exec (.lget c a k) s = fails .range) ∧
    (visible → exec (.lget c a k) s = .next { s with resp := ⟨.ok, ch.listRead a k⟩, events := [] })

/-- `LSTART` (R290) on a ready channel: refused while active or with incompatible lengths; otherwise the
cursor is started, and nothing else changes. The three lengths are compatible (R288) exactly when each is
non-zero and is 1 or the iteration length; the source's four cases. -/
def Obligations.ListStartCompletes : Prop :=
  (∀ (s : State) (c : Nat), s.ready c →
    let ch := s.chan c
    (0 ≤ ch.cursor.counter.toInt → exec (.lstart c) s = .next { s with resp := ⟨.busy, 0⟩, events := [] }) ∧
    (ch.cursor.counter.toInt < 0 → ch.lengthsOk = false →
      exec (.lstart c) s = .next { s with resp := ⟨.listLengths, 0⟩, events := [] }) ∧
    (ch.cursor.counter.toInt < 0 → ch.lengthsOk = true →
      exec (.lstart c) s =
        .next (s.done c
          { ch with
            cursor := ⟨-1, BitVec.ofNat 32 ch.list.count, 0, 0, s.pins.nowUs, s.pins.nowMs⟩ } 0 []))) ∧
  (∀ ch : Channel, ch.lengthsOk = true ↔
    ∀ a, ch.list.len.get a ≠ 0 ∧ (ch.list.len.get a = 1 ∨ ch.list.len.get a = ch.iterLen)) ∧
  (∀ ch : Channel, (ch.list.len = ⟨1, 5, 5⟩ ∨ ch.list.len = ⟨5, 5, 5⟩ ∨ ch.list.len = ⟨5, 1, 5⟩ →
    ch.lengthsOk = true) ∧ (ch.list.len = ⟨2, 5, 5⟩ → ch.lengthsOk = false))

/-- The per-tick advance of a list (R291 to R296): an inactive cursor does nothing; an unhealthy or tripped
channel aborts everything; the inhibit pin shifts the deadline of a started list; while dwell remains only
the stamps move; a due point is applied when it passes the limit check and aborts everything when it does
not; a wrap counts a pass, and the last pass finishes the list and runs the trigger-finished hook. `ip` is
the current precision of each channel when the `TICK` started (R170). -/
def Obligations.ListAdvanceRule : Prop :=
  ∀ (ip : Nat → Int) (s : State) (c : Nat), c < s.nCh →
    let ch := s.chan c
    let k := ch.cursor
    let ms := s.cfg.shortDwellThr < k.dwell.toNat
    let remaining := if ms then sdiff k.next s.pins.nowMs else sdiff k.next s.pins.nowUs
    let run := 0 ≤ k.counter.toInt ∧ (s.pin c).healthy = true ∧ ch.anyTripped = false
    let go := run ∧ s.pins.inhibit = false
    let due := k.it = -1 ∨ remaining ≤ 0
    let j := (k.it + 1).toNat % ch.iterLen
    let wraps := k.it ≠ -1 ∧ j = 0
    let v := roundP ((ch.listRead .volt (j % ch.list.len.volt)).toInt : Rat) (uPrec s.cfg ch)
    let i := roundP ((ch.listRead .curr (j % ch.list.len.curr)).toInt : Rat) (ip c)
    let d := ch.listRead .dwell (j % ch.list.len.dwell)
    let aborted := fun es : List Event =>
      { s with
        chans := s.chans.map fun ch =>
          { ch with cursor := { ch.cursor with it := -1, counter := -1 }, trigInProg := false }
        trigState := .idle, events := s.events ++ es }
    (k.counter.toInt < 0 → listTick ip s c = s) ∧
    (0 ≤ k.counter.toInt → (s.pin c).healthy = false →
      listTick ip s c = aborted [.pushEvent (.error .health) c]) ∧
    (0 ≤ k.counter.toInt → (s.pin c).healthy = true → ch.anyTripped = true →
      listTick ip s c = aborted []) ∧
    (run → s.pins.inhibit = true →
      listTick ip s c =
        { s with
          chans := s.chans.set c
            { ch with
              cursor := { k with
                next := if k.it = -1 then k.next
                  else if ms then k.next + (s.pins.nowMs - k.lastMs) else k.next + (s.pins.nowUs - k.lastUs)
                lastUs := s.pins.nowUs, lastMs := s.pins.nowMs } } }) ∧
    (go → ¬due →
      listTick ip s c =
        { s with
          chans := s.chans.set c
            { ch with cursor := { k with lastUs := s.pins.nowUs, lastMs := s.pins.nowMs } } }) ∧
    (go → due → wraps → k.counter = 1 →
      listTick ip s c =
        triggerFinished
          { s with chans := s.chans.set c { ch with cursor := { k with it := -1, counter := -1 } } } c) ∧
    (go → due → ¬(wraps ∧ k.counter = 1) → checkPoint ch v i ≠ .ok →
      listTick ip s c = aborted [.pushEvent (.error (checkPoint ch v i)) c]) ∧
    (go → due → ¬(wraps ∧ k.counter = 1) → checkPoint ch v i = .ok →
      listTick ip s c =
        { s with
          chans := s.chans.set c
            { currentApplied s.cfg s.pins.nowUs (s.pin c) (voltageApplied ch v) i with
              cursor :=
                { it := (j : Int)
                  counter := if wraps then k.counter - 1 else k.counter
                  next := if s.cfg.shortDwellThr < d.toNat
                    then s.pins.nowMs + BitVec.ofInt 32 (roundP ((d.toNat : Int) : Rat) 1000 / 1000)
                    else s.pins.nowUs + d
                  dwell := d, lastUs := s.pins.nowUs, lastMs := s.pins.nowMs } }
          events := s.events ++
            (voltageEvents s.cfg c ch v ++ currentEvents s.cfg (s.pin c) c (voltageApplied ch v) i) })

/-! ### Tick and read -/

/-- `TICK` (R320, R321) answers `OK`, 0 and does, per channel in ascending order and only on healthy ones,
intake, regulation mode, protection check, down-programmer, negative power, on-time, history and auto-range,
then the trigger-delay check, then the list step of every channel; every current is rounded with the precision
of its channel when the `TICK` starts (R170). Where a coupled, healthy lead channel's
pins name no existing partner the model stops (its own choice, log entry 6). -/
def Obligations.TickCompletes : Prop :=
  ∀ s : State,
    let wellCoupled := s.pins.coupling = .none ∨
      ∀ c, c < s.nCh → (s.pin c).healthy = true → (s.pin c).follower = false → (s.pin c).partner < s.nCh
    let ip := fun c : Nat =>
      if (s.chan c).range = .low ∧ (s.chan c).board.microAllowed = true then s.cfg.iPrecMicro
      else if (s.chan c).calEn then s.cfg.iPrec / 10
      else s.cfg.iPrec
    let parts := fun (s : State) (c : Nat) =>
      if (s.pin c).healthy then
        autoRangeCheck (historyPush (onTimeUpdate (dpNegCheck ip (dpOffCheck (protTick (modeSample
          (sampleIntake ip s c) c) c) c) c) c) c) c
      else s
    let channels := List.range s.nCh
    let t := channels.foldl (listTick ip) (trigDelayCheck ip (channels.foldl parts
      { s with resp := ⟨.ok, 0⟩, events := [] }))
    (wellCoupled → exec .tick s = .next t ∧ t.resp = ⟨.ok, 0⟩ ∧ t.nCh = s.nCh ∧
      t.cfg = s.cfg ∧ t.pins = s.pins ∧ t.port = s.port) ∧
    (¬wellCoupled → exec .tick s = .fault .partnerAbsent)

/-- Sample intake (R322): the sampler arms itself; a valid sample of the awaited input is converted, filtered
with the precision in force (for a current that of the start of the `TICK`, `ip`, R170) and stored, and the
next of the four inputs is started; any other sample is ignored. -/
def Obligations.SampleIntakeRule : Prop :=
  ∀ (ip : Nat → Int) (s : State) (c : Nat), c < s.nCh →
    let ch := s.chan c
    let pin := s.pin c
    let code := (pin.smpCode.toInt : Rat)
    let w := s.cfg.filterW
    let it := match ch.range with | .high => ConvSet.ih | .low => ConvSet.il
    let um := filterAdd w ch.u.f (toPhysical s.cfg ch .u code) (uPrec s.cfg ch)
    let im := filterAdd w ch.i.f (toPhysical s.cfg ch it code) (ip c)
    let ud := filterAdd w ch.u.fd (toPhysical s.cfg ch .u code) (uPrec s.cfg ch)
    let idc := filterAdd w ch.i.fd (toPhysical s.cfg ch it code) (ip c)
    let taken := fun (ch' : Channel) (r : AdcInput) =>
      { s with
        chans := s.chans.set c { ch' with adcAwait := some r }
        events := s.events ++ [.startSample c r] }
    let got := fun r => ch.adcAwait = some r ∧ pin.smpValid = true ∧ pin.smpReg = r
    (ch.adcAwait = none → sampleIntake ip s c = taken ch .uMon) ∧
    (got .uMon → sampleIntake ip s c =
      taken { ch with u := { ch.u with adc := pin.smpCode, f := um.1, mon := um.2 } } .iMon) ∧
    (got .iMon → sampleIntake ip s c =
      taken { ch with i := { ch.i with adc := pin.smpCode, f := im.1, mon := im.2 } } .uMonDac) ∧
    (got .uMonDac → sampleIntake ip s c = taken { ch with u := { ch.u with fd := ud.1, monDac := ud.2 } } .iMonDac) ∧
    (got .iMonDac → sampleIntake ip s c = taken { ch with i := { ch.i with fd := idc.1, monDac := idc.2 } } .uMon) ∧
    (∀ r, ch.adcAwait = some r → ¬got r → sampleIntake ip s c = s)

/-- The regulation mode (R323), the delayed switch-off of the down-programmer (R231), the on-time counter
(R326) and the history (R325) of a tick: each writes its own fields and nothing else; only the switch-off of
a down-programmer that is on emits an event. -/
def Obligations.TickBookkeeping : Prop :=
  (∀ (s : State) (c : Nat), c < s.nCh →
    let ch := s.chan c
    (ch.outEn = true → modeSample s c =
      { s with chans := s.chans.set c { ch with cv := (s.pin c).cvPin, cc := (s.pin c).ccPin } }) ∧
    (ch.outEn = false → modeSample s c =
      { s with chans := s.chans.set c { ch with cv := false, cc := false } }) ∧
    historyPush s c =
      { s with
        chans := s.chans.set c
          { ch with
            hist := ch.hist.set ch.histIdx (ch.u.mon, ch.i.mon)
            histIdx := (ch.histIdx + 1) % s.cfg.historyN
            histCount := min (ch.histCount + 1) s.cfg.historyN } } ∧
    (ch.onTimeRun = true → onTimeUpdate s c =
      { s with
        chans := s.chans.set c
          { ch with
            onTime := ch.onTime + BitVec.ofNat 64 (elapsed s.pins.nowUs ch.onTimeLast)
            onTimeLast := s.pins.nowUs } }) ∧
    (ch.onTimeRun = false → onTimeUpdate s c = s)) ∧
  (∀ (s : State) (c : Nat), c < s.nCh →
    let ch := s.chan c
    let due := ch.dpOffPending = true ∧ s.cfg.dpOffDelay ≤ elapsed s.pins.nowUs ch.dpOffTime
    (due → ch.dpOn = true →
      dpOffCheck s c =
        { s with
          chans := s.chans.set c { ch with dpOffPending := false, dpOn := false }
          events := s.events ++ [.digOut c .dp false] }) ∧
    (due → ch.dpOn = false →
      dpOffCheck s c = { s with chans := s.chans.set c { ch with dpOffPending := false } }) ∧
    (¬due → dpOffCheck s c = s))

/-- A quiet `TICK` (R327): with every output off, no trigger pending, no list active and no sample valid it
changes only `adcAwait` (arming), `dpOn` and `dpOffPending` (when the delay runs out), the `alarmed` bits and
`dpNegActive` (cleared on the channels it runs on) and the history. -/
def Obligations.QuietTickChangesLittle : Prop :=
  ∀ s t : State, exec .tick s = .next t →
    s.trigState ≠ .triggered →
    (∀ c, c < s.nCh → (s.chan c).outEn = false ∧ (s.chan c).cv = false ∧ (s.chan c).cc = false ∧
      (s.chan c).onTimeRun = false ∧ (s.chan c).cursor.counter.toInt < 0 ∧ (s.pin c).smpValid = false) →
    t = { s with chans := t.chans, resp := ⟨.ok, 0⟩, events := t.events } ∧ t.nCh = s.nCh ∧
    ∀ c, c < s.nCh →
      let a := s.chan c
      let b := t.chan c
      a = { b with
        adcAwait := a.adcAwait, dpOn := a.dpOn, dpOffPending := a.dpOffPending
        dpNegActive := a.dpNegActive, prot := a.prot
        hist := a.hist, histIdx := a.histIdx, histCount := a.histCount } ∧
      (∀ k, b.prot.get k = { a.prot.get k with alarmed := (b.prot.get k).alarmed } ∧
        ((b.prot.get k).alarmed = true → (a.prot.get k).alarmed = true)) ∧
      (b.adcAwait = a.adcAwait ∨ a.adcAwait = none ∧ b.adcAwait = some .uMon) ∧
      (b.dpOn = true → a.dpOn = true) ∧ (b.dpOffPending = true → a.dpOffPending = true) ∧
      (b.dpNegActive = true → a.dpNegActive = true)

/-- The register map (R45): what each number reads, the bits of the flag words, and that every other number
is unassigned. -/
def Obligations.RegisterMapOfTheSpec : Prop :=
  ∀ (s : State) (ch : Channel),
    (∀ p ∈ ([(0x00, ch.u.set), (0x01, ch.u.step), (0x02, ch.u.limit), (0x03, ch.u.adc), (0x04, ch.u.mon),
        (0x05, ch.u.monDac), (0x06, ch.uMin), (0x07, ch.uMax), (0x08, ch.uDef),
        (0x10, ch.i.set), (0x11, ch.i.step), (0x12, ch.i.limit), (0x13, ch.i.adc), (0x14, ch.i.mon),
        (0x15, ch.i.monDac), (0x16, ch.iMin), (0x17, ch.iMax), (0x18, ch.iDef),
        (0x20, ch.pLimit), (0x23, ch.rngEvalTime), (0x26, ch.uBal.value), (0x27, ch.iBal.value),
        (0x43, BitVec.ofNat 32 ch.list.count), (0x45, BitVec.ofInt 32 ch.cursor.it),
        (0x46, ch.cursor.counter), (0x47, ch.cursor.next), (0x48, ch.cursor.dwell),
        (0x49, ch.cursor.lastUs), (0x4A, ch.cursor.lastMs), (0x51, ch.trigU), (0x52, ch.trigI)]
        : List (Nat × Val)), ch.readReg p.1 = some p.2) ∧
    ((ch.readReg 0x24).map BitVec.toNat = some (ch.onTime.toNat % 2 ^ 32) ∧
      (ch.readReg 0x25).map BitVec.toNat = some (ch.onTime.toNat / 2 ^ 32)) ∧
    (∀ k : Kind,
      (ch.readReg (0x30 + 4 * k.num)).map (fun d => d.toNat) = some (ch.prot.get k).state.toNat ∧
      ch.readReg (0x31 + 4 * k.num) = some (ch.prot.get k).delay ∧
      ch.readReg (0x32 + 4 * k.num) = some (ch.prot.get k).level ∧
      (ch.readReg (0x33 + 4 * k.num)).map (fun d => d.toNat) =
        some ((ch.prot.get k).tripped.toNat + 2 * (ch.prot.get k).alarmed.toNat) ∧
      ch.readReg (0x3C + k.num) = some (ch.prot.get k).alarmTime) ∧
    (∀ a : ListArray, ch.readReg (0x40 + a.num) = some (BitVec.ofNat 32 (ch.list.len.get a))) ∧
    ((ch.readReg 0x44).map (fun d => d.toNat) = some ch.list.changed.toNat) ∧
    (∀ t : ConvSet,
      (∀ f : CalField, ch.readReg (0x60 + 16 * t.num + f.num) = some ((ch.cal.get t).field f)) ∧
      (ch.readReg (0x68 + 16 * t.num)).map (fun d => d.toNat) = some (ch.cal.get t).present.toNat) ∧
    (∃ d, ch.readReg 0x21 = some d ∧
      (∀ p ∈ ([(0, ch.outEn), (1, ch.sense), (2, ch.rprog), (3, ch.cv), (4, ch.cc), (5, ch.calEn),
          (6, ch.range.isLow), (9, ch.autoRange), (10, ch.dpOn), (11, ch.rprogAlarm), (12, ch.u.f.seeded),
          (13, ch.i.f.seeded), (14, ch.u.fd.seeded), (15, ch.i.fd.seeded), (16, ch.dpOffPending),
          (17, ch.dpNegActive), (18, ch.uBal.valid), (19, ch.iBal.valid)] : List (Nat × Bool)),
        d.getLsbD p.1 = p.2) ∧
      (d.extractLsb' 7 2).toNat = ch.rangeMode.num ∧ (d.extractLsb' 20 3).toNat = awaitNum ch.adcAwait ∧
      d.extractLsb' 23 9 = 0) ∧
    ((ch.readReg 0x22).map (fun d => d.toNat) = some ch.status.toNat) ∧
    (∃ d, ch.readReg 0x50 = some d ∧ d.getLsbD 0 = ch.trigInProg ∧ d.getLsbD 1 = ch.trigOut ∧
      (d.extractLsb' 2 2).toNat = ch.trigModeU.num ∧ (d.extractLsb' 4 2).toNat = ch.trigModeI.num ∧
      d.extractLsb' 6 26 = 0) ∧
    (∀ reg, reg < 0x100 →
      (ch.readReg reg = none ↔
        (0x09 ≤ reg ∧ reg ≤ 0x0F) ∨ (0x19 ≤ reg ∧ reg ≤ 0x1F) ∨ (0x28 ≤ reg ∧ reg ≤ 0x2F) ∨ reg = 0x3F ∨
        (0x4B ≤ reg ∧ reg ≤ 0x4F) ∨ (0x53 ≤ reg ∧ reg ≤ 0x5F) ∨ (0x69 ≤ reg ∧ reg ≤ 0x6F) ∨
        (0x79 ≤ reg ∧ reg ≤ 0x7F) ∨ 0x89 ≤ reg)) ∧
    ((s.readGlobal 0x100).map (fun d => d.toNat) = some s.trigState.num ∧
      s.readGlobal 0x101 = some s.trigDelay ∧
      (s.readGlobal 0x102).map (fun d => d.toNat) = some s.trigSource.toNat ∧
      (s.readGlobal 0x103).map (fun d => d.toNat) = some s.trigCont.toNat ∧
      s.readGlobal 0x104 = some s.trigTime ∧ ∀ reg, 0x104 < reg → s.readGlobal reg = none)

/-- `RD` (R331): a global register needs channel 0; an unassigned number is refused; otherwise the register
is the response, and nothing changes and no event is emitted, so that a second read answers the same. -/
def Obligations.ReadRegisterCompletes : Prop :=
  ∀ (s : State) (c reg : Nat),
    let fails := fun e : Status => Host.Outcome.next { s with resp := ⟨e, 0⟩, events := [] }
    let answers := fun d : Val => Host.Outcome.next { s with resp := ⟨.ok, d⟩, events := [] }
    (0x100 ≤ reg → c ≠ 0 → exec (.rd c reg) s = fails .illegal) ∧
    (0x104 < reg → exec (.rd 0 reg) s = fails .range) ∧
    (∀ d, 0x100 ≤ reg → s.readGlobal reg = some d → exec (.rd 0 reg) s = answers d) ∧
    (reg < 0x100 → s.nCh ≤ c → exec (.rd c reg) s = fails .channel) ∧
    (reg < 0x100 → c < s.nCh → (s.chan c).readReg reg = none → exec (.rd c reg) s = fails .range) ∧
    (∀ d, reg < 0x100 → c < s.nCh → (s.chan c).readReg reg = some d → exec (.rd c reg) s = answers d)

/-- The settings of a channel have the writers that the rules name (R20, R21, R25, R27, R28, R36, R38, R327):
each changes only by its own commands; an element of a list changes only by `LSET` of that element, a length
only by `LLEN` of that array, the count only by `LCOUNT`; a calibration set comes into existence only by its
`CALCOMMIT` and ceases to exist only by its `CALPT` or `CALCLR` (R28, R130, R132); `changed` is set only by
`LLEN`, `LSET` and `LCOUNT` and cleared only by `LSAVED` (R36); the effective bounds move only by `CALEN` and
`RMODE` (R23, R133). -/
def Obligations.WritersOfTheSettings : Prop :=
  ∀ (ins : Instr) (s t : State) (c : Nat), exec ins s = .next t →
    let a := s.chan c
    let b := t.chan c
    t.cfg = s.cfg ∧ t.pins = s.pins ∧ t.port = s.port ∧ t.nCh = s.nCh ∧
    b.board = a.board ∧ b.u.step = a.u.step ∧ b.i.step = a.i.step ∧
    (b.u.limit ≠ a.u.limit → (∃ v, ins = .limv c v) ∨ ∃ x, ins = .calen c x) ∧
    (b.i.limit ≠ a.i.limit → (∃ v, ins = .limi c v) ∨ (∃ x, ins = .calen c x) ∨ ∃ m, ins = .rmode c m) ∧
    (b.pLimit ≠ a.pLimit → ∃ v, ins = .limp c v) ∧
    (b.calEn ≠ a.calEn → ins = .calen c b.calEn) ∧
    (b.rangeMode ≠ a.rangeMode → ins = .rmode c b.rangeMode) ∧
    (b.autoRange ≠ a.autoRange → ins = .rauto c b.autoRange) ∧
    (b.sense ≠ a.sense → ins = .sense c b.sense) ∧
    (b.rprog ≠ a.rprog → ins = .rprog c b.rprog ∨ (ins = .tick ∧ b.rprog = false)) ∧
    (b.trigOut ≠ a.trigOut → ins = .tout c b.trigOut) ∧
    (b.trigModeU ≠ a.trigModeU → ins = .tmode c .u b.trigModeU) ∧
    (b.trigModeI ≠ a.trigModeI → ins = .tmode c .i b.trigModeI) ∧
    (b.trigU ≠ a.trigU → ∃ v, ins = .tlev c .u v) ∧ (b.trigI ≠ a.trigI → ∃ v, ins = .tlev c .i v) ∧
    (∀ k, ((b.prot.get k).state ≠ (a.prot.get k).state →
        ins = .pstate c k (b.prot.get k).state ∨ ins = .pdis c) ∧
      ((b.prot.get k).delay ≠ (a.prot.get k).delay → ∃ v, ins = .pdelay c k v) ∧
      ((b.prot.get k).level ≠ (a.prot.get k).level →
        (∃ v, ins = .plevel c k v) ∨ (k = .ovp ∧ ins = .rprog c true))) ∧
    (∀ k f, ((b.cal.get k).field f ≠ (a.cal.get k).field f → ∃ v, ins = .calpt c k f v)) ∧
    (∀ k, ((b.cal.get k).present = true → (a.cal.get k).present = false → ins = .calcommit c k)) ∧
    (∀ k, (b.cal.get k).present = false → (a.cal.get k).present = true →
      (∃ f v, ins = .calpt c k f v) ∨ ins = .calclr c k) ∧
    (b.list.changed = true → a.list.changed = false →
      (∃ r n, ins = .llen c r n) ∨ (∃ r k v, ins = .lset c r k v) ∨ ∃ n, ins = .lcount c n) ∧
    (b.list.changed = false → a.list.changed = true → ins = .lsaved c) ∧
    (b.uMin ≠ a.uMin ∨ b.uMax ≠ a.uMax ∨ b.uDef ≠ a.uDef ∨
        b.iMin ≠ a.iMin ∨ b.iMax ≠ a.iMax ∨ b.iDef ≠ a.iDef →
      (∃ x, ins = .calen c x) ∨ ∃ m, ins = .rmode c m) ∧
    (∀ r k, b.listRead r k ≠ a.listRead r k → ∃ v, ins = .lset c r k v) ∧
    (∀ r, b.list.len.get r ≠ a.list.len.get r → ∃ n, ins = .llen c r n) ∧
    (b.list.count ≠ a.list.count → ∃ n, ins = .lcount c n) ∧
    (t.trigDelay ≠ s.trigDelay → ∃ n, ins = .tdelay n) ∧
    (t.trigSource ≠ s.trigSource → ∃ n, ins = .tsrc n) ∧
    (t.trigCont ≠ s.trigCont → ins = .tcont t.trigCont)

/-- What can move a setpoint or an output (R25, R327): an output goes on only by `OUTEN` of its channel or by a
trigger execution that asks for it, inside `TICK` only from the `Triggered` state; it goes off only by
`OUTEN`, inside `TICK` or by a trigger execution; a setpoint moves only by its own commands, inside `TICK` or
by a trigger execution. -/
def Obligations.WritersOfSetpointsAndOutput : Prop :=
  ∀ (ins : Instr) (s t : State) (c : Nat), exec ins s = .next t →
    let a := s.chan c
    let b := t.chan c
    let fired := (ins = .init ∧ s.trigSource = 0) ∨ ∃ n, ins = .trg n true
    (a.outEn = false → b.outEn = true →
      ins = .outen c true ∨ (a.trigOut = true ∧ ((ins = .tick ∧ s.trigState = .triggered) ∨ fired))) ∧
    (a.outEn = true → b.outEn = false → ins = .outen c false ∨ ins = .tick ∨ fired) ∧
    (b.u.set ≠ a.u.set →
      (∃ v, ins = .setv c v) ∨ (∃ v, ins = .limv c v) ∨ ins = .rprog c true ∨ (∃ x, ins = .calen c x) ∨
      ins = .tick ∨ fired) ∧
    (b.i.set ≠ a.i.set →
      (∃ v, ins = .seti c v) ∨ (∃ v, ins = .limi c v) ∨ (∃ v, ins = .limp c v) ∨ (∃ m, ins = .rmode c m) ∨
      (∃ x, ins = .calen c x) ∨ ins = .tick ∨ fired)

/-! ### Invariants -/

/-- Every step keeps the latch (R215 (b), (c), R348): the status bits are the `tripped` bits, a tripped
channel's output is off, and at most one kind of a channel is tripped. -/
def Obligations.EveryStepKeepsTheLatch : Prop :=
  ∀ s t : State, LatchInv s → step s = .next t → LatchInv t

/-- Every step keeps every filter's running sum equal to the sum of its ring, with the index in the ring
(R22, R102 (a)). -/
def Obligations.EveryStepKeepsTheFilterSums : Prop :=
  ∀ s t : State, FilterInv s → step s = .next t → FilterInv t

/-- Every step keeps the list memories in canonical form (the model's own, log entry 10). -/
def Obligations.EveryStepKeepsListMemoryCanonical : Prop :=
  ∀ s t : State, MemoryInv s → step s = .next t → MemoryInv t

/-- Every step keeps every cursor at rest or inside its list, with its passes between 1 and the count
(R300 (a)). -/
def Obligations.EveryStepKeepsTheCursors : Prop :=
  ∀ s t : State, CursorInv s → step s = .next t → CursorInv t

/-- Every step keeps `set <= limit <= max`, `min <= limit` and `min <= set` but for a zeroed setpoint (R24,
R387), the power limit inside the board's bounds, and the effective bounds those of R133, for a low-range
ceiling not below `I_MIN` (log entry 16). Every step also keeps parameters, boards and a number of channels
that meet the constraints of R5, R6 and R7. -/
def Obligations.EveryStepKeepsTheBounds : Prop :=
  ∀ s t : State, step s = .next t → (BoundsInv s → BoundsInv t) ∧ (s.configured → t.configured)

/-- The reset state meets the five invariants, for parameters and boards that meet the constraints of R5 and
R6 and a low-range ceiling that is not below `I_MIN` (log entry 16); with 1 to 16 boards it is a configured
state of as many channels (R5). -/
def Obligations.ResetMeetsTheInvariants : Prop :=
  ∀ (cfg : Params) (boards : List Board) (pins : Pins), cfg.ok = true →
    (∀ b ∈ boards, b.ok = true ∧ b.iMin.toInt ≤ cfg.iLowMax) →
    let s := State.resetOf cfg boards pins
    LatchInv s ∧ FilterInv s ∧ MemoryInv s ∧ CursorInv s ∧ BoundsInv s ∧
    (1 ≤ boards.length → boards.length ≤ 16 → s.configured ∧ 1 ≤ s.nCh ∧ s.nCh ≤ 16)
end

