-- ==== Sys2Proof/Laws/State.lean ====
section
/-! SUPPORT. The small lemmas of the state's updates: one per field and update, the channel that an update
leaves, and how updates compose. -/

namespace Sys2Proof.Machine

open Sys2Proof

/-! ### `State.upd` -/

@[simp] theorem State.upd_cfg (s : State) (c : Nat) (f : Channel → Channel) :
    (s.upd c f).cfg = s.cfg := rfl

@[simp] theorem State.upd_trigState (s : State) (c : Nat) (f : Channel → Channel) :
    (s.upd c f).trigState = s.trigState := rfl

@[simp] theorem State.upd_trigDelay (s : State) (c : Nat) (f : Channel → Channel) :
    (s.upd c f).trigDelay = s.trigDelay := rfl

@[simp] theorem State.upd_trigSource (s : State) (c : Nat) (f : Channel → Channel) :
    (s.upd c f).trigSource = s.trigSource := rfl

@[simp] theorem State.upd_trigCont (s : State) (c : Nat) (f : Channel → Channel) :
    (s.upd c f).trigCont = s.trigCont := rfl

@[simp] theorem State.upd_trigTime (s : State) (c : Nat) (f : Channel → Channel) :
    (s.upd c f).trigTime = s.trigTime := rfl

@[simp] theorem State.upd_pins (s : State) (c : Nat) (f : Channel → Channel) :
    (s.upd c f).pins = s.pins := rfl

@[simp] theorem State.upd_port (s : State) (c : Nat) (f : Channel → Channel) :
    (s.upd c f).port = s.port := rfl

@[simp] theorem State.upd_resp (s : State) (c : Nat) (f : Channel → Channel) :
    (s.upd c f).resp = s.resp := rfl

@[simp] theorem State.upd_events (s : State) (c : Nat) (f : Channel → Channel) :
    (s.upd c f).events = s.events := rfl

@[simp] theorem State.upd_nCh (s : State) (c : Nat) (f : Channel → Channel) : (s.upd c f).nCh = s.nCh := by
  simp [State.nCh, State.upd]

@[simp] theorem State.upd_pin (s : State) (c c' : Nat) (f : Channel → Channel) :
    (s.upd c f).pin c' = s.pin c' := rfl

theorem State.chan_eq_getElem {s : State} {c : Nat} (h : c < s.nCh) : s.chan c = s.chans[c]'h := by
  have h' : s.chans[c]? = some (s.chans[c]'h) := List.getElem?_eq_getElem h
  rw [State.chan, h']; rfl

theorem State.getElem?_eq_chan {s : State} {c : Nat} (h : c < s.nCh) : s.chans[c]? = some (s.chan c) := by
  rw [State.chan_eq_getElem h]; exact List.getElem?_eq_getElem h

theorem State.chan_of_ge {s : State} {c : Nat} (h : s.nCh ≤ c) : s.chan c = default := by
  simp [State.chan, List.getElem?_eq_none (show s.chans.length ≤ c from h)]

theorem State.chan_mem {s : State} {c : Nat} (h : c < s.nCh) : s.chan c ∈ s.chans := by
  rw [State.chan_eq_getElem h]; exact List.getElem_mem _

theorem State.mem_chans {s : State} {ch : Channel} (h : ch ∈ s.chans) : ∃ c, c < s.nCh ∧ s.chan c = ch := by
  obtain ⟨c, hc, rfl⟩ := List.getElem_of_mem h
  exact ⟨c, hc, State.chan_eq_getElem hc⟩

/-- The channels after an update: the named one is updated, if it exists, and no other. -/
theorem State.chan_upd (s : State) (c c' : Nat) (f : Channel → Channel) :
    (s.upd c f).chan c' = if c = c' ∧ c < s.nCh then f (s.chan c') else s.chan c' := by
  by_cases h : c = c'
  · subst h
    by_cases hc : c < s.chans.length
    · simp [State.chan, State.upd, State.nCh, hc]
    · simp [State.chan, State.upd, State.nCh, hc]
  · simp [State.chan, State.upd, h]

@[simp] theorem State.chan_upd_same {s : State} {c : Nat} (h : c < s.nCh) (f : Channel → Channel) :
    (s.upd c f).chan c = f (s.chan c) := by simp [State.chan_upd, h]

@[simp] theorem State.chan_upd_ne {s : State} {c c' : Nat} (h : c ≠ c') (f : Channel → Channel) :
    (s.upd c f).chan c' = s.chan c' := by simp [State.chan_upd, h]

theorem State.upd_eq_set {s : State} {c : Nat} (h : c < s.nCh) (f : Channel → Channel) :
    s.upd c f = { s with chans := s.chans.set c (f (s.chan c)) } := by
  have : s.chans.modify c f = s.chans.set c (f (s.chan c)) := by
    rw [State.chan_eq_getElem h]
    exact List.modify_eq_set_get f (l := s.chans) h
  simp [State.upd, this]

@[simp] theorem State.upd_upd (s : State) (c : Nat) (f g : Channel → Channel) :
    (s.upd c f).upd c g = s.upd c fun ch => g (f ch) := by
  simp only [State.upd]
  congr 1
  apply List.ext_getElem?
  intro i
  simp only [List.getElem?_modify]
  by_cases h : c = i <;> cases s.chans[i]? <;> simp [h]

theorem State.upd_comm {c c' : Nat} (h : c ≠ c') (s : State) (f g : Channel → Channel) :
    (s.upd c f).upd c' g = (s.upd c' g).upd c f := by
  simp only [State.upd]
  congr 1
  apply List.ext_getElem?
  intro i
  simp only [List.getElem?_modify]
  by_cases h1 : c = i
  · subst h1; cases s.chans[c]? <;> simp [Ne.symm h]
  · by_cases h2 : c' = i <;> cases s.chans[i]? <;> simp [h1, h2]

theorem State.upd_self {s : State} {c : Nat} {f : Channel → Channel} (h : f (s.chan c) = s.chan c) :
    s.upd c f = s := by
  have : s.chans.modify c f = s.chans := by
    apply List.ext_getElem?
    intro i
    rw [List.getElem?_modify]
    by_cases hi : c = i
    · subst hi
      cases hc : s.chans[c]? with
      | none => simp
      | some ch =>
        have : s.chan c = ch := by simp [State.chan, hc]
        rw [this] at h
        simp [h]
    · simp [hi]
  simp [State.upd, this]

theorem State.upd_congr {s : State} {c : Nat} {f g : Channel → Channel} (h : f (s.chan c) = g (s.chan c)) :
    s.upd c f = s.upd c g := by
  by_cases hc : c < s.nCh
  · rw [State.upd_eq_set hc, State.upd_eq_set hc, h]
  · have : ∀ f : Channel → Channel, s.chans.modify c f = s.chans := fun f =>
      List.modify_eq_self (Nat.not_lt.mp hc)
    simp [State.upd, this]

/-! ### `State.emit` -/

@[simp] theorem State.emit_cfg (s : State) (es : List Event) : (s.emit es).cfg = s.cfg := rfl

@[simp] theorem State.emit_trigState (s : State) (es : List Event) : (s.emit es).trigState = s.trigState := rfl

@[simp] theorem State.emit_trigDelay (s : State) (es : List Event) : (s.emit es).trigDelay = s.trigDelay := rfl

@[simp] theorem State.emit_trigSource (s : State) (es : List Event) : (s.emit es).trigSource = s.trigSource := rfl

@[simp] theorem State.emit_trigCont (s : State) (es : List Event) : (s.emit es).trigCont = s.trigCont := rfl

@[simp] theorem State.emit_trigTime (s : State) (es : List Event) : (s.emit es).trigTime = s.trigTime := rfl

@[simp] theorem State.emit_pins (s : State) (es : List Event) : (s.emit es).pins = s.pins := rfl

@[simp] theorem State.emit_port (s : State) (es : List Event) : (s.emit es).port = s.port := rfl

@[simp] theorem State.emit_resp (s : State) (es : List Event) : (s.emit es).resp = s.resp := rfl

@[simp] theorem State.emit_chans (s : State) (es : List Event) : (s.emit es).chans = s.chans := rfl

@[simp] theorem State.emit_events (s : State) (es : List Event) : (s.emit es).events = s.events ++ es := rfl

@[simp] theorem State.emit_nCh (s : State) (es : List Event) : (s.emit es).nCh = s.nCh := rfl

@[simp] theorem State.emit_chan (s : State) (es : List Event) (c : Nat) : (s.emit es).chan c = s.chan c := rfl

@[simp] theorem State.emit_pin (s : State) (es : List Event) (c : Nat) : (s.emit es).pin c = s.pin c := rfl

@[simp] theorem State.emit_emit (s : State) (es es' : List Event) :
    (s.emit es).emit es' = s.emit (es ++ es') := by simp [State.emit]

@[simp] theorem State.emit_nil (s : State) : s.emit [] = s := by simp [State.emit]

theorem State.emit_upd (s : State) (c : Nat) (f : Channel → Channel) (es : List Event) :
    (s.emit es).upd c f = (s.upd c f).emit es := rfl

/-! ### `State.begin`, `State.answer`, `State.failed` -/

@[simp] theorem State.begin_cfg (s : State) : (s.begin).cfg = s.cfg := rfl

@[simp] theorem State.begin_trigState (s : State) : (s.begin).trigState = s.trigState := rfl

@[simp] theorem State.begin_trigDelay (s : State) : (s.begin).trigDelay = s.trigDelay := rfl

@[simp] theorem State.begin_trigSource (s : State) : (s.begin).trigSource = s.trigSource := rfl

@[simp] theorem State.begin_trigCont (s : State) : (s.begin).trigCont = s.trigCont := rfl

@[simp] theorem State.begin_trigTime (s : State) : (s.begin).trigTime = s.trigTime := rfl

@[simp] theorem State.begin_pins (s : State) : (s.begin).pins = s.pins := rfl

@[simp] theorem State.begin_port (s : State) : (s.begin).port = s.port := rfl

@[simp] theorem State.begin_chans (s : State) : (s.begin).chans = s.chans := rfl

@[simp] theorem State.begin_nCh (s : State) : (s.begin).nCh = s.nCh := rfl

@[simp] theorem State.begin_chan (s : State) (c : Nat) : (s.begin).chan c = s.chan c := rfl

@[simp] theorem State.begin_pin (s : State) (c : Nat) : (s.begin).pin c = s.pin c := rfl

@[simp] theorem State.answer_cfg (s : State) (d : Val) : (s.answer d).cfg = s.cfg := rfl

@[simp] theorem State.answer_trigState (s : State) (d : Val) : (s.answer d).trigState = s.trigState := rfl

@[simp] theorem State.answer_trigDelay (s : State) (d : Val) : (s.answer d).trigDelay = s.trigDelay := rfl

@[simp] theorem State.answer_trigSource (s : State) (d : Val) : (s.answer d).trigSource = s.trigSource := rfl

@[simp] theorem State.answer_trigCont (s : State) (d : Val) : (s.answer d).trigCont = s.trigCont := rfl

@[simp] theorem State.answer_trigTime (s : State) (d : Val) : (s.answer d).trigTime = s.trigTime := rfl

@[simp] theorem State.answer_pins (s : State) (d : Val) : (s.answer d).pins = s.pins := rfl

@[simp] theorem State.answer_port (s : State) (d : Val) : (s.answer d).port = s.port := rfl

@[simp] theorem State.answer_chans (s : State) (d : Val) : (s.answer d).chans = s.chans := rfl

@[simp] theorem State.answer_nCh (s : State) (d : Val) : (s.answer d).nCh = s.nCh := rfl

@[simp] theorem State.answer_events (s : State) (d : Val) : (s.answer d).events = s.events := rfl

@[simp] theorem State.answer_chan (s : State) (d : Val) (c : Nat) : (s.answer d).chan c = s.chan c := rfl

@[simp] theorem State.answer_pin (s : State) (d : Val) (c : Nat) : (s.answer d).pin c = s.pin c := rfl

@[simp] theorem State.failed_cfg (s : State) (e : Status) : (s.failed e).cfg = s.cfg := rfl

@[simp] theorem State.failed_trigState (s : State) (e : Status) : (s.failed e).trigState = s.trigState := rfl

@[simp] theorem State.failed_trigDelay (s : State) (e : Status) : (s.failed e).trigDelay = s.trigDelay := rfl

@[simp] theorem State.failed_trigSource (s : State) (e : Status) : (s.failed e).trigSource = s.trigSource := rfl

@[simp] theorem State.failed_trigCont (s : State) (e : Status) : (s.failed e).trigCont = s.trigCont := rfl

@[simp] theorem State.failed_trigTime (s : State) (e : Status) : (s.failed e).trigTime = s.trigTime := rfl

@[simp] theorem State.failed_pins (s : State) (e : Status) : (s.failed e).pins = s.pins := rfl

@[simp] theorem State.failed_port (s : State) (e : Status) : (s.failed e).port = s.port := rfl

@[simp] theorem State.failed_chans (s : State) (e : Status) : (s.failed e).chans = s.chans := rfl

@[simp] theorem State.failed_nCh (s : State) (e : Status) : (s.failed e).nCh = s.nCh := rfl

@[simp] theorem State.failed_chan (s : State) (e : Status) (c : Nat) : (s.failed e).chan c = s.chan c := rfl

@[simp] theorem State.failed_pin (s : State) (e : Status) (c : Nat) : (s.failed e).pin c = s.pin c := rfl

@[simp] theorem State.begin_resp (s : State) : s.begin.resp = ⟨.ok, 0⟩ := rfl

@[simp] theorem State.begin_events (s : State) : s.begin.events = [] := rfl

@[simp] theorem State.answer_resp (s : State) (d : Val) : (s.answer d).resp = ⟨.ok, d⟩ := rfl

@[simp] theorem State.failed_resp (s : State) (e : Status) : (s.failed e).resp = ⟨e, 0⟩ := rfl

@[simp] theorem State.failed_events (s : State) (e : Status) : (s.failed e).events = [] := rfl

@[simp] theorem State.begin_failed (s : State) (e : Status) : s.begin.failed e = s.failed e := rfl

/-! ### Checks -/

/-- A command on an existing channel runs its own rule. -/
theorem onChannel_of_lt {c : Nat} {s : State} (h : c < s.nCh) (k : State → Channel → Out) :
    onChannel c s k = k s.begin (s.chan c) := by simp [onChannel, State.getElem?_eq_chan h]

/-- A command on an absent channel answers `E_CHANNEL`. -/
theorem onChannel_of_ge {c : Nat} {s : State} (h : s.nCh ≤ c) (k : State → Channel → Out) :
    onChannel c s k = .next (s.failed .channel) := by
  have : s.chans[c]? = none := List.getElem?_eq_none h
  simp [onChannel, this, raise]

/-- What a command on a channel can answer. -/
theorem onChannel_next {c : Nat} {s t : State} {k : State → Channel → Out} (h : onChannel c s k = .next t) :
    t = s.failed .channel ∨ (c < s.nCh ∧ k s.begin (s.chan c) = .next t) := by
  by_cases hc : c < s.nCh
  · rw [onChannel_of_lt hc] at h; exact .inr ⟨hc, h⟩
  · rw [onChannel_of_ge (Nat.not_lt.mp hc)] at h; cases h; exact .inl rfl

@[simp] theorem require_true (e : Status) (s : State) (k : Out) : require true e s k = k := rfl

@[simp] theorem require_false (e : Status) (s : State) (k : Out) :
    require false e s k = .next (s.failed e) := rfl

/-- What a check can answer. -/
theorem require_next {b : Bool} {e : Status} {s t : State} {k : Out} (h : require b e s k = .next t) :
    (b = false ∧ t = s.failed e) ∨ (b = true ∧ k = .next t) := by
  cases b
  · simp at h; exact .inl ⟨rfl, h.symm⟩
  · exact .inr ⟨rfl, by simpa using h⟩

/-! ### The current precisions at the start of a command -/

@[simp] theorem State.currentPrecs_begin (s : State) : s.begin.currentPrecs = s.currentPrecs := rfl

@[simp] theorem State.currentPrecs_emit (s : State) (es : List Event) :
    (s.emit es).currentPrecs = s.currentPrecs := rfl

@[simp] theorem State.currentPrecs_answer (s : State) (d : Val) :
    (s.answer d).currentPrecs = s.currentPrecs := rfl

/-- They depend on the parameters and the channels alone. -/
theorem State.currentPrecs_congr {s t : State} (h : t.cfg = s.cfg) (h' : t.chans = s.chans) :
    t.currentPrecs = s.currentPrecs := by
  funext c
  simp [State.currentPrecs, State.chan, h, h']

end Sys2Proof.Machine
end

