-- ==== Sys2Proof/Laws/Ops.lean ====
section
/-! SUPPORT. One lemma per shared operation that says all it does, as an update of channels and a list of
events, and the frame that every operation of a tick keeps. -/

namespace Sys2Proof.Machine

open Sys2Proof

/-! ### Conversions read only the calibration -/

theorem toRaw_congr (cfg : Params) {a b : Channel} (h1 : a.calEn = b.calEn) (h2 : a.cal = b.cal)
    (t : ConvSet) (v : Rat) : toRaw cfg a t v = toRaw cfg b t v := by
  simp [toRaw, toNominal, Channel.calActive, h1, h2]

/-! ### The operations as updates -/

/-- `switchRange` as one update. -/
theorem switchRange_eq (s : State) (c : Nat) (r : Range) :
    switchRange s c r =
      (s.upd c fun ch => { ch with range := r, adcAwait := some .uMon }).emit
        [.digOut c .range r.isLow, .startSample c .uMon] := rfl

/-- The selection policy as one update. -/
theorem selectRange_eq (s : State) (c : Nat) (i : Int) :
    selectRange s c i =
      (s.upd c fun ch => rangeSelected s.cfg s.pins.nowUs (s.pin c) ch i).emit
        (if policyRange s.cfg (s.pin c) (s.chan c) i = (s.chan c).range then []
          else [.digOut c .range (policyRange s.cfg (s.pin c) (s.chan c) i).isLow,
            .startSample c .uMon]) := by
  unfold selectRange
  cases h : rangeTarget s.cfg (s.chan c).rangeMode (s.pin c) i with
  | none =>
    have hp : policyRange s.cfg (s.pin c) (s.chan c) i = (s.chan c).range := by simp [policyRange, h]
    simp only [hp, if_true, State.emit_nil]
    exact (State.upd_self (by simp [rangeSelected, hp, h])).symm
  | some r =>
    have hp : policyRange s.cfg (s.pin c) (s.chan c) i = r := by simp [policyRange, h]
    simp only [hp]
    by_cases hr : r = (s.chan c).range
    · simp only [hr, if_true, State.emit_nil]
      exact State.upd_congr (by simp [rangeSelected, hp, hr, h])
    · simp only [if_neg hr, switchRange_eq, State.upd_upd]
      exact congrArg (State.emit · _) (State.upd_congr (by simp [rangeSelected, hp, hr, h]))

/-- Applying a voltage setpoint as one update. -/
theorem applyVoltage_eq (s : State) (c : Nat) (v : Int) :
    applyVoltage s c v =
      (s.upd c fun ch => voltageApplied ch v).emit (voltageEvents s.cfg c (s.chan c) v) := rfl

/-- Applying a current setpoint as one update: the policy, the register, the DAC with the selected scale. -/
theorem applyCurrent_eq (s : State) (c : Nat) (i : Int) (hc : c < s.nCh) :
    applyCurrent s c i =
      (s.upd c fun ch => currentApplied s.cfg s.pins.nowUs (s.pin c) ch i).emit
        (currentEvents s.cfg (s.pin c) c (s.chan c) i) := by
  have h2 : ((selectRange s c i).chan c) = rangeSelected s.cfg s.pins.nowUs (s.pin c) (s.chan c) i := by
    rw [selectRange_eq]; simp [hc]
  have h3 : (selectRange s c i).cfg = s.cfg := by rw [selectRange_eq]; rfl
  unfold applyCurrent storeCurrent
  rw [h2, h3, selectRange_eq]
  simp only [State.emit_upd, State.upd_upd, State.emit_emit]
  have h4 : (rangeSelected s.cfg s.pins.nowUs (s.pin c) (s.chan c) i).curSet =
      (match policyRange s.cfg (s.pin c) (s.chan c) i with | .high => ConvSet.ih | .low => .il) := rfl
  rw [h4]
  rfl

/-- All that `setOutput` does (R181). -/
theorem setOutput_eq (s : State) (c : Nat) (en : Bool) (hc : c < s.nCh) :
    setOutput s c en = (s.upd c (outputSet s.pins.nowUs en)).emit
      (if (s.chan c).outEn = en then [] else if en then onEvents c (s.chan c).range else offEvents c) := by
  unfold setOutput outputSet
  by_cases h : (s.chan c).outEn = en
  · rw [if_pos h, if_pos h, State.upd_self (by rw [if_pos h])]
    simp [State.emit]
  · rw [if_neg h, if_neg h, State.upd_eq_set hc, if_neg h]
    cases en
    · simp only [turnOff, Bool.false_eq_true, if_false, State.upd_eq_set hc]; rfl
    · simp only [turnOn, if_true, State.upd_eq_set hc]; rfl

/-- The channels after `setOutput`. -/
theorem setOutput_chan (s : State) (c c' : Nat) (en : Bool) :
    (setOutput s c en).chan c' =
      if c = c' ∧ c < s.nCh then outputSet s.pins.nowUs en (s.chan c') else s.chan c' := by
  unfold setOutput outputSet
  by_cases h : c = c'
  · subst h
    by_cases h1 : (s.chan c).outEn = en
    · simp [h1]
    · cases en <;> simp [h1, turnOn, turnOff, turnedOn, turnedOff, State.chan_upd]
  · by_cases h1 : (s.chan c).outEn = en
    · simp [h1, h]
    · cases en <;> simp [h1, turnOn, turnOff, h]

/-- A channel latched on kind `k` (R206). -/
def latched (k : Kind) (ch : Channel) : Channel :=
  { ch.setProt k (fun p => { p with tripped := true }) with status := statusSet ch.status k }

/-- A channel whose remote programming an over-voltage trip ended (R206). -/
def rprogDropped (ch : Channel) : Channel :=
  if ch.rprog then
    { ch with rprogAlarm := ch.rprogAlarm || decide (ch.prot.ovp.level = ch.board.uMax), rprog := false }
  else ch

theorem dropRprog_chan (s : State) (c c' : Nat) :
    (dropRprog s c).chan c' = if c = c' ∧ c < s.nCh then rprogDropped (s.chan c') else s.chan c' := by
  unfold dropRprog rprogDropped
  by_cases h : c = c'
  · subst h
    cases h1 : (s.chan c).rprog <;> simp [State.chan_upd]
  · cases h1 : (s.chan c).rprog <;> simp [h]

/-! ### The frame of the operations of a tick -/

/-- What no operation of a tick, a trigger or a list changes. -/
structure Frame (s t : State) : Prop where
  cfg : t.cfg = s.cfg
  pins : t.pins = s.pins
  port : t.port = s.port
  resp : t.resp = s.resp
  nCh : t.nCh = s.nCh
  trigDelay : t.trigDelay = s.trigDelay
  trigSource : t.trigSource = s.trigSource
  trigCont : t.trigCont = s.trigCont
  trigTime : t.trigTime = s.trigTime

theorem Frame.refl (s : State) : Frame s s := ⟨rfl, rfl, rfl, rfl, rfl, rfl, rfl, rfl, rfl⟩

theorem Frame.trans {s t u : State} (h : Frame s t) (h' : Frame t u) : Frame s u :=
  ⟨h'.cfg.trans h.cfg, h'.pins.trans h.pins, h'.port.trans h.port, h'.resp.trans h.resp,
   h'.nCh.trans h.nCh, h'.trigDelay.trans h.trigDelay, h'.trigSource.trans h.trigSource,
   h'.trigCont.trans h.trigCont, h'.trigTime.trans h.trigTime⟩

theorem Frame.pin {s t : State} (h : Frame s t) (c : Nat) : t.pin c = s.pin c := by
  simp [State.pin, h.pins]

theorem Frame.upd (s : State) (c : Nat) (f : Channel → Channel) : Frame s (s.upd c f) :=
  ⟨rfl, rfl, rfl, rfl, State.upd_nCh s c f, rfl, rfl, rfl, rfl⟩

theorem Frame.emit (s : State) (es : List Event) : Frame s (s.emit es) := ⟨rfl, rfl, rfl, rfl, rfl, rfl, rfl, rfl, rfl⟩

theorem Frame.upd_emit (s : State) (c : Nat) (f : Channel → Channel) (es : List Event) :
    Frame s ((s.upd c f).emit es) := (Frame.upd s c f).trans (Frame.emit _ es)

theorem Frame.ite {s t u : State} {p : Prop} [Decidable p] (h : Frame s t) (h' : Frame s u) :
    Frame s (if p then t else u) := by split <;> assumption

theorem Frame.foldl {f : State → Nat → State} (hf : ∀ s c, Frame s (f s c)) (l : List Nat) (s : State) :
    Frame s (l.foldl f s) := by
  induction l generalizing s with
  | nil => exact Frame.refl s
  | cons c l ih => exact (hf s c).trans (ih _)

theorem Frame.forChannels {f : State → Nat → State} (hf : ∀ s c, Frame s (f s c)) (s : State) :
    Frame s (forChannels f s) := Frame.foldl hf _ s

theorem selectRange_frame (s : State) (c : Nat) (i : Int) : Frame s (selectRange s c i) := by
  rw [selectRange_eq]; exact Frame.upd_emit ..

theorem applyVoltage_frame (s : State) (c : Nat) (v : Int) : Frame s (applyVoltage s c v) :=
  Frame.upd_emit ..

theorem applyCurrent_frame (s : State) (c : Nat) (i : Int) : Frame s (applyCurrent s c i) :=
  (selectRange_frame s c i).trans (Frame.upd_emit ..)

theorem applySetpoint_frame (s : State) (c : Nat) (q : Quantity) (x : Int) :
    Frame s (applySetpoint s c q x) := by
  cases q
  · exact applyVoltage_frame ..
  · exact applyCurrent_frame ..

theorem setOutput_frame (s : State) (c : Nat) (en : Bool) : Frame s (setOutput s c en) :=
  (Frame.refl s).ite ((Frame.upd_emit ..).ite (Frame.upd_emit ..))

theorem requestOutput_frame (s : State) (c : Nat) (en : Bool) : Frame s (requestOutput s c en) :=
  (setOutput_frame s c en).ite (Frame.refl s)

theorem dropRprog_frame (s : State) (c : Nat) : Frame s (dropRprog s c) :=
  (Frame.upd_emit ..).ite (Frame.refl s)

theorem trip_frame (s : State) (c : Nat) (k : Kind) : Frame s (trip s c k) := by
  have h2 : Frame s (if tripsPartner s c then setOutput (setOutput s c false) (s.pin c).partner false
      else setOutput s c false) :=
    ((setOutput_frame s c false).trans (setOutput_frame ..)).ite (setOutput_frame s c false)
  have h3 := h2.trans (Frame.upd_emit _ c _ [Event.pushEvent (.trip k) c] : Frame _ (latchTrip _ c k))
  cases k
  · exact h3.trans (dropRprog_frame ..)
  · exact h3
  · exact h3

theorem protCheck_frame (s : State) (c : Nat) (k : Kind) : Frame s (protCheck s c k) := by
  unfold protCheck
  dsimp only
  exact ((trip_frame ..).ite ((Frame.upd ..).ite ((trip_frame ..).ite (Frame.refl s)))).ite (Frame.upd ..)

theorem protTick_frame (s : State) (c : Nat) : Frame s (protTick s c) :=
  (Frame.refl s).ite
    (((protCheck_frame s c _).trans (protCheck_frame _ c _)).trans (protCheck_frame _ c _))

theorem sampleIntake_frame (ip : Nat → Int) (s : State) (c : Nat) : Frame s (sampleIntake ip s c) := by
  unfold sampleIntake
  split
  · exact Frame.upd_emit ..
  · exact (Frame.upd_emit ..).ite (Frame.refl s)

theorem modeSample_frame (s : State) (c : Nat) : Frame s (modeSample s c) := Frame.upd ..

theorem dpOffCheck_frame (s : State) (c : Nat) : Frame s (dpOffCheck s c) :=
  (((Frame.upd s c _).trans (Frame.upd_emit ..)).ite (Frame.upd ..)).ite (Frame.refl s)

theorem balanceOne_frame (s : State) (x : Nat) (q : Quantity) (avg : Int) :
    Frame s (balanceOne s x q avg) := (Frame.upd ..).trans (applySetpoint_frame ..)

theorem balance_frame (ip : Nat → Int) (s : State) (c : Nat) (q : Quantity) : Frame s (balance ip s c q) :=
  ((balanceOne_frame ..).trans (balanceOne_frame ..)).ite (Frame.refl s)

theorem dpBalance_frame (ip : Nat → Int) (s : State) (c : Nat) : Frame s (dpBalance ip s c) := by
  unfold dpBalance
  apply Frame.ite (Frame.refl s)
  split
  · exact Frame.refl s
  · exact balance_frame ..
  · exact balance_frame ..
  · exact Frame.refl s

theorem dpNegCheck_frame (ip : Nat → Int) (s : State) (c : Nat) : Frame s (dpNegCheck ip s c) := by
  unfold dpNegCheck
  dsimp only
  refine (Frame.upd ..).ite ((Frame.upd ..).ite (Frame.ite (Frame.ite ?_ ?_) (Frame.ite ?_ (Frame.refl s))))
  · exact ((Frame.upd_emit s c _ _).trans (Frame.emit ..)).trans (Frame.upd ..)
  · exact (setOutput_frame ..).trans (Frame.emit ..)
  · exact dpBalance_frame ..

theorem onTimeUpdate_frame (s : State) (c : Nat) : Frame s (onTimeUpdate s c) :=
  (Frame.upd ..).ite (Frame.refl s)

theorem historyPush_frame (s : State) (c : Nat) : Frame s (historyPush s c) := Frame.upd ..

theorem autoRangeCheck_frame (s : State) (c : Nat) : Frame s (autoRangeCheck s c) := by
  unfold autoRangeCheck
  refine Frame.ite ?_ (Frame.refl s)
  split
  · exact ((Frame.upd_emit s c _ _).trans (Frame.upd ..)).trans (Frame.emit ..)
  · exact Frame.refl s

theorem tickHealthy_frame (ip : Nat → Int) (s : State) (c : Nat) : Frame s (tickHealthy ip s c) :=
  (((((((sampleIntake_frame ip s c).trans (modeSample_frame _ c)).trans (protTick_frame _ c)).trans
    (dpOffCheck_frame _ c)).trans (dpNegCheck_frame ip _ c)).trans (onTimeUpdate_frame _ c)).trans
    (historyPush_frame _ c)).trans (autoRangeCheck_frame _ c)

theorem tickChannel_frame (ip : Nat → Int) (s : State) (c : Nat) : Frame s (tickChannel ip s c) :=
  (tickHealthy_frame ip s c).ite (Frame.refl s)

theorem triggerAbort_frame (s : State) : Frame s (triggerAbort s) :=
  ⟨rfl, rfl, rfl, rfl, by simp [triggerAbort, listAbortAll, State.nCh], rfl, rfl, rfl, rfl⟩

theorem listStart_frame (s : State) (c : Nat) : Frame s (listStart s c) := Frame.upd ..

theorem triggerFinished_frame (s : State) (c : Nat) : Frame s (triggerFinished s c) := by
  unfold triggerFinished
  dsimp only
  refine Frame.ite ?_ (Frame.upd ..)
  exact (Frame.upd s c _).trans ⟨rfl, rfl, rfl, rfl, rfl, rfl, rfl, rfl, rfl⟩

theorem triggerOutput_frame (s : State) (c : Nat) : Frame s (triggerOutput s c) :=
  (requestOutput_frame ..).ite (Frame.emit ..)

theorem startList_frame (s : State) (c : Nat) : Frame s (startList s c) :=
  (((applyVoltage_frame s c 0).trans (applyCurrent_frame _ c 0)).trans (triggerOutput_frame _ c)).trans
    (listStart_frame _ c)

theorem startStep_frame (ip : Nat → Int) (s : State) (c : Nat) : Frame s (startStep ip s c) :=
  (((applyVoltage_frame s c _).trans (applyCurrent_frame _ c _)).trans (triggerOutput_frame _ c)).trans
    (triggerFinished_frame _ c)

theorem startChannel_frame (ip : Nat → Int) (s : State) (c : Nat) : Frame s (startChannel ip s c) := by
  unfold startChannel
  split
  · exact startList_frame ..
  · exact startStep_frame ..
  · exact Frame.refl s

theorem startImmediately_frame (ip : Nat → Int) (s : State) : Frame s (startImmediately ip s) := by
  unfold startImmediately
  dsimp only
  refine Frame.ite ?_ ((Frame.emit ..).trans (triggerAbort_frame _))
  have h1 : Frame s { s with trigState := .executing } := ⟨rfl, rfl, rfl, rfl, rfl, rfl, rfl, rfl, rfl⟩
  have h2 := Frame.foldl (f := fun s c => s.upd c fun ch => { ch with trigInProg := true })
    (fun s c => Frame.upd s c _) (triggered s) { s with trigState := .executing }
  exact (h1.trans h2).trans (Frame.foldl (startChannel_frame ip) ..)

theorem trigDelayCheck_frame (ip : Nat → Int) (s : State) : Frame s (trigDelayCheck ip s) :=
  (startImmediately_frame ip s).ite (Frame.refl s)

theorem stampCursor_frame (s : State) (c : Nat) : Frame s (stampCursor s c) := Frame.upd ..

theorem pointOrAbort_frame (ip : Nat → Int) (s : State) (c j : Nat) : Frame s (pointOrAbort ip s c j) := by
  unfold pointOrAbort
  dsimp only
  refine Frame.ite ?_ ((Frame.emit ..).trans (triggerAbort_frame _))
  exact ((((Frame.upd s c _).trans (applyVoltage_frame _ c _)).trans (applyCurrent_frame _ c _)).trans
    (Frame.upd ..)).trans (stampCursor_frame _ c)

theorem listAdvance_frame (ip : Nat → Int) (s : State) (c : Nat) : Frame s (listAdvance ip s c) := by
  unfold listAdvance
  dsimp only
  refine Frame.ite (Frame.ite ?_ ?_) (pointOrAbort_frame ..)
  · exact ((Frame.upd s c _).trans (Frame.upd ..)).trans (triggerFinished_frame _ c)
  · exact (Frame.upd s c _).trans (pointOrAbort_frame ..)

theorem listTick_frame (ip : Nat → Int) (s : State) (c : Nat) : Frame s (listTick ip s c) := by
  unfold listTick
  refine (Frame.refl s).ite (Frame.ite ((Frame.emit ..).trans (triggerAbort_frame _))
    ((triggerAbort_frame s).ite (Frame.ite ?_ ((listAdvance_frame ip s c).ite (stampCursor_frame s c)))))
  exact (Frame.upd s c _).trans (stampCursor_frame _ c)

theorem tickAll_frame (s : State) : Frame s (tickAll s) :=
  ((Frame.forChannels (tickChannel_frame _) s).trans (trigDelayCheck_frame _ _)).trans
    (Frame.forChannels (listTick_frame _) _)

end Sys2Proof.Machine
end

