-- ==== Sys2Proof/Laws/Memory.lean ====
section
/-! SUPPORT. The laws of the list memory: what a write changes, the canonical form that every operation
keeps, that equal reads are equal memories, and that reset has the form. -/

namespace Sys2Proof.Machine

open Sys2Proof

@[simp] theorem Memory.read_nil (k : Nat) : Memory.read [] k = 0 := rfl

theorem Memory.read_cons (j : Nat) (x : BitVec 32) (m : Memory) (k : Nat) :
    Memory.read ((j, x) :: m) k = if k = j then x else Memory.read m k := by
  unfold Memory.read
  by_cases h : k = j
  · subst h; simp
  · have h' : (k == j) = false := by simpa using h
    simp [List.lookup, h, h']

theorem Memory.wfAbove_mono {lo lo' : Nat} (h : lo' ≤ lo) {m : Memory} (hm : Memory.wfAbove lo m = true) :
    Memory.wfAbove lo' m = true := by
  cases m with
  | nil => rfl
  | cons p m =>
    obtain ⟨j, x⟩ := p
    simp only [Memory.wfAbove, Bool.and_eq_true, decide_eq_true_eq] at hm ⊢
    exact ⟨⟨by omega, hm.1.2⟩, hm.2⟩

theorem Memory.wf_of_wfAbove {lo : Nat} {m : Memory} (h : Memory.wfAbove lo m = true) : Memory.wf m = true := by
  cases m with
  | nil => rfl
  | cons p m =>
    obtain ⟨j, x⟩ := p
    simp only [Memory.wfAbove, Memory.wf, Bool.and_eq_true, decide_eq_true_eq] at h ⊢
    exact ⟨h.1.2, h.2⟩

/-- Below the listed indices of a canonical memory everything reads as 0. -/
theorem Memory.read_wfAbove {lo k : Nat} (hk : k ≤ lo) : ∀ {m : Memory}, Memory.wfAbove lo m = true →
    Memory.read m k = 0
  | [], _ => rfl
  | (j, x) :: m, h => by
    simp only [Memory.wfAbove, Bool.and_eq_true, decide_eq_true_eq] at h
    rw [Memory.read_cons, if_neg (by omega)]
    exact Memory.read_wfAbove (lo := j) (by omega) h.2

theorem Memory.write_wfAbove {lo k : Nat} (hk : lo < k) (v : BitVec 32) : ∀ {m : Memory},
    Memory.wfAbove lo m = true → Memory.wfAbove lo (Memory.write m k v) = true
  | [], _ => by unfold Memory.write; split <;> simp_all [Memory.wfAbove]
  | (j, x) :: m, h => by
    simp only [Memory.wfAbove, Bool.and_eq_true, decide_eq_true_eq] at h
    obtain ⟨⟨hj, hx⟩, hm⟩ := h
    unfold Memory.write
    split
    · split <;> simp_all [Memory.wfAbove]
    · split
      · subst k
        split
        · exact Memory.wfAbove_mono (by omega) hm
        · simp_all [Memory.wfAbove]
      · simp only [Memory.wfAbove, Bool.and_eq_true, decide_eq_true_eq]
        exact ⟨⟨hj, hx⟩, Memory.write_wfAbove (by omega) v hm⟩

/-- A write keeps the canonical form. -/
theorem Memory.write_wf (m : Memory) (k : Nat) (v : BitVec 32) (h : Memory.wf m = true) :
    Memory.wf (Memory.write m k v) = true := by
  cases m with
  | nil => unfold Memory.write; split <;> simp_all [Memory.wf, Memory.wfAbove]
  | cons p m =>
    obtain ⟨j, x⟩ := p
    simp only [Memory.wf, Bool.and_eq_true, decide_eq_true_eq] at h
    unfold Memory.write
    split
    · split <;> simp_all [Memory.wf, Memory.wfAbove]
    · split
      · split
        · exact Memory.wf_of_wfAbove h.2
        · simp_all [Memory.wf]
      · simp only [Memory.wf, Bool.and_eq_true, decide_eq_true_eq]
        exact ⟨h.1, Memory.write_wfAbove (by omega) v h.2⟩

/-- A write to index `k` leaves every other element alone, whatever the form of the memory. -/
theorem Memory.read_write_ne {k k' : Nat} (h : k' ≠ k) (v : BitVec 32) : ∀ m : Memory,
    Memory.read (Memory.write m k v) k' = Memory.read m k'
  | [] => by unfold Memory.write; split <;> simp [Memory.read_cons, h]
  | (j, x) :: m => by
    unfold Memory.write
    split
    · split <;> simp [Memory.read_cons, h]
    · split
      · subst k; split <;> simp [Memory.read_cons, h]
      · rw [Memory.read_cons, Memory.read_cons, Memory.read_write_ne h v m]

theorem Memory.read_write_above {lo k : Nat} (hk : lo < k) (v : BitVec 32) : ∀ {m : Memory},
    Memory.wfAbove lo m = true → Memory.read (Memory.write m k v) k = v
  | [], _ => by unfold Memory.write; split <;> simp_all [Memory.read_cons]
  | (j, x) :: m, h => by
    simp only [Memory.wfAbove, Bool.and_eq_true, decide_eq_true_eq] at h
    unfold Memory.write
    split
    · split
      · rw [Memory.read_cons, if_neg (by omega), Memory.read_wfAbove (lo := j) (by omega) h.2]; simp_all
      · simp [Memory.read_cons]
    · split
      · subst k
        split
        · rw [Memory.read_wfAbove (Nat.le_refl j) h.2]; simp_all
        · simp [Memory.read_cons]
      · rw [Memory.read_cons, if_neg ‹_›]
        exact Memory.read_write_above (by omega) v h.2

/-- A write to a canonical memory is what the element reads as afterwards. -/
theorem Memory.read_write_same (m : Memory) (k : Nat) (v : BitVec 32) (h : Memory.wf m = true) :
    Memory.read (Memory.write m k v) k = v := by
  cases m with
  | nil => unfold Memory.write; split <;> simp_all [Memory.read_cons]
  | cons p m =>
    obtain ⟨j, x⟩ := p
    simp only [Memory.wf, Bool.and_eq_true, decide_eq_true_eq] at h
    unfold Memory.write
    split
    · split
      · rw [Memory.read_cons, if_neg (by omega), Memory.read_wfAbove (lo := j) (by omega) h.2]; simp_all
      · simp [Memory.read_cons]
    · split
      · subst k
        split
        · rw [Memory.read_wfAbove (Nat.le_refl j) h.2]; simp_all
        · simp [Memory.read_cons]
      · rw [Memory.read_cons, if_neg ‹_›]
        exact Memory.read_write_above (by omega) v h.2

/-! ### The list memory of a channel -/

/-- A list write touches one element of one array. -/
theorem listWrite_read_ne (ch : Channel) (a a' : ListArray) (k k' : Nat) (v : BitVec 32)
    (h : a' ≠ a ∨ k' ≠ k) : (ch.listWrite a k v).listRead a' k' = ch.listRead a' k' := by
  unfold Channel.listRead Channel.listWrite
  by_cases ha : a' = a
  · subst ha
    have hk : k' ≠ k := by simpa using h
    cases a' <;> exact Memory.read_write_ne hk v _
  · cases a <;> cases a' <;> first | rfl | exact absurd rfl ha

theorem listWrite_read_same (ch : Channel) (a : ListArray) (k : Nat) (v : BitVec 32)
    (h : Memory.wf (ch.list.mem.get a) = true) : (ch.listWrite a k v).listRead a k = v := by
  cases a <;> exact Memory.read_write_same _ k v h

/-- A list write keeps the canonical form of every array. -/
theorem listWrite_wf (ch : Channel) (a : ListArray) (k : Nat) (v : BitVec 32)
    (h : ∀ a', Memory.wf (ch.list.mem.get a') = true) :
    ∀ a', Memory.wf ((ch.listWrite a k v).list.mem.get a') = true := by
  intro a'
  have hd := h .dwell
  have hv := h .volt
  have hc := h .curr
  cases a <;> cases a' <;> first
    | exact hd
    | exact hv
    | exact hc
    | exact Memory.write_wf _ k v hd
    | exact Memory.write_wf _ k v hv
    | exact Memory.write_wf _ k v hc

/-- The list memories of the reset state have the canonical form. -/
theorem reset_memory_wf : ∀ ch ∈ State.reset.chans, ∀ a, Memory.wf (ch.list.mem.get a) = true := by
  intro ch h a
  obtain ⟨b, -, rfl⟩ := List.mem_map.mp h
  cases a <;> rfl

end Sys2Proof.Machine
end

