-- ==== Sys2Proof/Laws/Moves.lean ====
section
/-! SUPPORT. What the two halves of a tick can do to a channel, said once: `ScanMove` for the per-channel
part, `RunMove` for the trigger and list steps. Every invariant of a tick follows from the moves. -/

namespace Sys2Proof.Machine

open Sys2Proof Relation

/-! ### The moves -/

/-- One thing that the per-channel part of `TICK` can do to a channel (R322, R323, R204, R206, R231, R233,
R236, R326, R325, R160). -/
inductive ScanMove (cfg : Params) : Channel → Channel → Prop where
  | await (ch : Channel) (a : Option AdcInput) : ScanMove cfg ch { ch with adcAwait := a }
  | sample (ch : Channel) (p : Int) (r : AdcInput) (code : Val) : ScanMove cfg ch (ch.takeSample cfg p r code)
  | mode (ch : Channel) (a b : Bool) :
      ScanMove cfg ch { ch with cv := ch.outEn && a, cc := ch.outEn && b }
  | alarm (ch : Channel) (k : Kind) (b : Bool) (t : Time) :
      ScanMove cfg ch (ch.setProt k fun p => { p with alarmed := b, alarmTime := t })
  | off (ch : Channel) (now : Time) : ScanMove cfg ch (turnedOff now ch)
  | trip (ch : Channel) (k : Kind) (now : Time) (h : ch.outEn = true) (h' : (ch.prot.get k).state = true) :
      ScanMove cfg ch (latched k (turnedOff now ch))
  | dropRprog (ch : Channel) : ScanMove cfg ch (rprogDropped ch)
  | dp (ch : Channel) (a b d : Bool) (t : Time) :
      ScanMove cfg ch { ch with dpOn := a, dpOffPending := b, dpNegActive := d, dpNegTime := t }
  | snapshot (ch : Channel) (q : Quantity) : ScanMove cfg ch (ch.takeSnapshot q)
  | balanceU (ch : Channel) (avg : Int) :
      ScanMove cfg ch (voltageApplied ch (clamp avg ch.uMin.toInt ch.u.limit.toInt))
  | balanceI (ch : Channel) (now : Time) (pin : ChanPins) (avg : Int) :
      ScanMove cfg ch (currentApplied cfg now pin ch (clamp avg ch.iMin.toInt ch.i.limit.toInt))
  | range (ch : Channel) (r : Range) (a : Option AdcInput) (t : Time) :
      ScanMove cfg ch { ch with range := r, adcAwait := a, rngEvalTime := t }
  | onTime (ch : Channel) (n : BitVec 64) (t : Time) :
      ScanMove cfg ch { ch with onTime := n, onTimeLast := t }
  | hist (ch : Channel) :
      ScanMove cfg ch
        { ch with
          hist := ch.hist.set ch.histIdx (ch.u.mon, ch.i.mon)
          histIdx := (ch.histIdx + 1) % cfg.historyN
          histCount := min (ch.histCount + 1) cfg.historyN }

/-- One thing that the trigger and list steps can do to a channel (R262, R263, R265, R290, R291). -/
inductive RunMove (cfg : Params) : Channel → Channel → Prop where
  | setU (ch : Channel) (v : Int) (h : v = 0 ∨ ch.uMin.toInt ≤ v ∧ v ≤ ch.u.limit.toInt) :
      RunMove cfg ch (voltageApplied ch v)
  | setI (ch : Channel) (now : Time) (pin : ChanPins) (v : Int)
      (h : v = 0 ∨ ch.iMin.toInt ≤ v ∧ v ≤ ch.i.limit.toInt) :
      RunMove cfg ch (currentApplied cfg now pin ch v)
  | on (ch : Channel) (now : Time) (h : ch.anyTripped = false) : RunMove cfg ch (turnedOn now ch)
  | off (ch : Channel) (now : Time) : RunMove cfg ch (turnedOff now ch)
  | start (ch : Channel) (us ms : Time) (h : ch.lengthsOk = true) :
      RunMove cfg ch { ch with cursor := ⟨-1, BitVec.ofNat 32 ch.list.count, 0, 0, us, ms⟩ }
  | stop (ch : Channel) : RunMove cfg ch { ch with cursor := ch.cursor.stop }
  | stamp (ch : Channel) (next us ms : Time) :
      RunMove cfg ch { ch with cursor := { ch.cursor with next := next, lastUs := us, lastMs := ms } }
  | point (ch : Channel) (count d : BitVec 32) (next : Time) (h : ch.active = true)
      (h' : count = ch.cursor.counter ∨ count = ch.cursor.counter - 1 ∧ count ≠ 0) :
      RunMove cfg ch
        { ch with
          cursor := { ch.cursor with it := (ch.nextIndex : Int), counter := count, dwell := d, next := next } }
  | inProgress (ch : Channel) (b : Bool) : RunMove cfg ch { ch with trigInProg := b }

/-- From `s` to `t` by moves of a relation on channels, with the frame of a tick. -/
structure Reaches (R : Params → Channel → Channel → Prop) (s t : State) : Prop where
  frame : Frame s t
  moves : ∀ c, ReflTransGen (R s.cfg) (s.chan c) (t.chan c)

abbrev ScanTo : State → State → Prop := Reaches ScanMove
abbrev RunTo : State → State → Prop := Reaches RunMove

variable {R : Params → Channel → Channel → Prop}

theorem Reaches.refl (s : State) : Reaches R s s := ⟨Frame.refl s, fun _ => .refl⟩

theorem Reaches.trans {s t u : State} (h : Reaches R s t) (h' : Reaches R t u) : Reaches R s u :=
  ⟨h.frame.trans h'.frame, fun c => (h.moves c).trans (h.frame.cfg ▸ h'.moves c)⟩

theorem Reaches.ite {s t u : State} {p : Prop} [Decidable p] (h : p → Reaches R s t)
    (h' : ¬p → Reaches R s u) : Reaches R s (if p then t else u) := by
  split
  · exact h ‹_›
  · exact h' ‹_›

theorem Reaches.upd {s : State} {c : Nat} {f : Channel → Channel}
    (h : ReflTransGen (R s.cfg) (s.chan c) (f (s.chan c))) : Reaches R s (s.upd c f) := by
  refine ⟨Frame.upd s c f, fun c' => ?_⟩
  rw [State.chan_upd]
  split
  · rename_i hc; obtain ⟨rfl, -⟩ := hc; exact h
  · exact .refl

theorem Reaches.upd1 {s : State} {c : Nat} {f : Channel → Channel} (h : R s.cfg (s.chan c) (f (s.chan c))) :
    Reaches R s (s.upd c f) := Reaches.upd (.single h)

theorem Reaches.emit (s : State) (es : List Event) : Reaches R s (s.emit es) :=
  ⟨Frame.emit s es, fun _ => .refl⟩

theorem Reaches.thenEmit {s t : State} (h : Reaches R s t) (es : List Event) : Reaches R s (t.emit es) :=
  h.trans (Reaches.emit t es)

theorem Reaches.foldl {f : State → Nat → State} (hf : ∀ s c, Reaches R s (f s c)) (l : List Nat) (s : State) :
    Reaches R s (l.foldl f s) := by
  induction l generalizing s with
  | nil => exact Reaches.refl s
  | cons c l ih => exact (hf s c).trans (ih _)

theorem Reaches.forChannels {f : State → Nat → State} (hf : ∀ s c, Reaches R s (f s c)) (s : State) :
    Reaches R s (Machine.forChannels f s) := Reaches.foldl hf _ s

/-- A property of a channel that every move keeps holds after the moves. -/
theorem Reaches.all {P : Channel → Prop} {s t : State} (h : Reaches R s t)
    (hR : ∀ a b, R s.cfg a b → P a → P b) (hP : ∀ ch ∈ s.chans, P ch) : ∀ ch ∈ t.chans, P ch := by
  intro ch hch
  obtain ⟨c, hc, rfl⟩ := State.mem_chans hch
  have hs : P (s.chan c) := hP _ (State.chan_mem (h.frame.nCh ▸ hc))
  have hm := h.moves c
  generalize t.chan c = x at hm ⊢
  induction hm with
  | refl => exact hs
  | tail _ hab ih => exact hR _ _ hab ih

/-- A function of a channel that no move changes is the same after the moves. -/
theorem Reaches.same {α : Type} (π : Channel → α) {s t : State} (h : Reaches R s t)
    (hR : ∀ a b, R s.cfg a b → π b = π a) (c : Nat) : π (t.chan c) = π (s.chan c) := by
  have hm := h.moves c
  generalize t.chan c = x at hm ⊢
  induction hm with
  | refl => rfl
  | tail _ hab ih => exact (hR _ _ hab).trans ih

/-! ### The per-channel part -/

theorem setOutput_off_scan (s : State) (c : Nat) : ScanTo s (setOutput s c false) := by
  refine ⟨setOutput_frame s c false, fun c' => ?_⟩
  rw [setOutput_chan]
  split
  · unfold outputSet; split
    · exact .refl
    · exact .single (.off _ _)
  · exact .refl

theorem dropRprog_scan (s : State) (c : Nat) : ScanTo s (dropRprog s c) := by
  refine ⟨dropRprog_frame s c, fun c' => ?_⟩
  rw [dropRprog_chan]
  split
  · exact .single (.dropRprog _)
  · exact .refl

theorem latchTrip_chan (s : State) (c : Nat) (k : Kind) (c' : Nat) :
    (latchTrip s c k).chan c' = if c = c' ∧ c < s.nCh then latched k (s.chan c') else s.chan c' := by
  rw [latchTrip, State.emit_chan, State.chan_upd]; rfl

/-- The state of a trip before remote programming is looked at (R206). -/
def tripped (s : State) (c : Nat) (k : Kind) : State :=
  latchTrip (if tripsPartner s c then setOutput (setOutput s c false) (s.pin c).partner false
    else setOutput s c false) c k

theorem trip_eq (s : State) (c : Nat) (k : Kind) :
    trip s c k = if k = .ovp then dropRprog (tripped s c k) c else tripped s c k := by
  cases k <;> rfl

/-- A channel's output forced off by a trip on `c`: its own, and the coupled follower's. -/
theorem forcedOff_chan (s : State) (c c' : Nat) :
    (if tripsPartner s c then setOutput (setOutput s c false) (s.pin c).partner false
      else setOutput s c false).chan c' =
      if (c = c' ∧ c < s.nCh) ∨ (tripsPartner s c = true ∧ (s.pin c).partner = c' ∧ c' < s.nCh) then
        outputSet s.pins.nowUs false (s.chan c')
      else s.chan c' := by
  have hid : ∀ ch : Channel, outputSet s.pins.nowUs false (outputSet s.pins.nowUs false ch) =
      outputSet s.pins.nowUs false ch := by
    intro ch; unfold outputSet; by_cases h : ch.outEn = false <;> simp [h, turnedOff]
  have hn : (setOutput s c false).nCh = s.nCh := (setOutput_frame s c false).nCh
  have hp : (setOutput s c false).pins = s.pins := (setOutput_frame s c false).pins
  cases ht : tripsPartner s c
  · simp [setOutput_chan]
  · simp only [if_true, setOutput_chan, hn, hp]
    by_cases h1 : c = c' <;> by_cases h2 : (s.pin c).partner = c' <;> by_cases h3 : c' < s.nCh
    all_goals simp_all

theorem tripped_chan (s : State) (c : Nat) (k : Kind) (c' : Nat) :
    (tripped s c k).chan c' =
      if c = c' ∧ c < s.nCh then latched k (outputSet s.pins.nowUs false (s.chan c'))
      else if tripsPartner s c = true ∧ (s.pin c).partner = c' ∧ c' < s.nCh then
        outputSet s.pins.nowUs false (s.chan c')
      else s.chan c' := by
  have hn : (if tripsPartner s c then setOutput (setOutput s c false) (s.pin c).partner false
      else setOutput s c false).nCh = s.nCh := by
    split
    · exact ((setOutput_frame s c false).trans (setOutput_frame ..)).nCh
    · exact (setOutput_frame s c false).nCh
  rw [tripped, latchTrip_chan, forcedOff_chan, hn]
  by_cases h1 : c = c' ∧ c < s.nCh
  · rw [if_pos h1, if_pos (.inl h1), if_pos h1]
  · simp [h1]

/-- The channels after a trip. -/
theorem trip_chan (s : State) (c : Nat) (k : Kind) (c' : Nat) :
    (trip s c k).chan c' =
      if c = c' ∧ c < s.nCh then
        (if k = .ovp then rprogDropped (latched k (outputSet s.pins.nowUs false (s.chan c')))
          else latched k (outputSet s.pins.nowUs false (s.chan c')))
      else if tripsPartner s c = true ∧ (s.pin c).partner = c' ∧ c' < s.nCh then
        outputSet s.pins.nowUs false (s.chan c')
      else s.chan c' := by
  have hn : (tripped s c k).nCh = s.nCh := by
    have h2 : Frame s (if tripsPartner s c then setOutput (setOutput s c false) (s.pin c).partner false
        else setOutput s c false) :=
      ((setOutput_frame s c false).trans (setOutput_frame ..)).ite (setOutput_frame s c false)
    exact (h2.trans (Frame.upd_emit _ c _ [Event.pushEvent (.trip k) c] : Frame _ (latchTrip _ c k))).nCh
  rw [trip_eq]
  by_cases hk : k = .ovp
  · rw [if_pos hk, dropRprog_chan, hn, tripped_chan]
    by_cases h1 : c = c' ∧ c < s.nCh
    · rw [if_pos h1, if_pos h1, if_pos h1, if_pos hk]
    · rw [if_neg h1, if_neg h1]; simp [h1]
  · rw [if_neg hk, tripped_chan, if_neg hk]

theorem trip_scan (s : State) (c : Nat) (k : Kind) (h : (s.chan c).outEn = true)
    (h' : ((s.chan c).prot.get k).state = true) : ScanTo s (trip s c k) := by
  refine ⟨trip_frame s c k, fun c' => ?_⟩
  rw [trip_chan]
  by_cases h1 : c = c' ∧ c < s.nCh
  · obtain ⟨rfl, hc⟩ := h1
    have ho : outputSet s.pins.nowUs false (s.chan c) = turnedOff s.pins.nowUs (s.chan c) := by
      simp [outputSet, h]
    simp only [hc, and_self, if_true, ho]
    split
    · exact .tail (.single (.trip _ _ _ h h')) (.dropRprog _)
    · exact .single (.trip _ _ _ h h')
  · rw [if_neg h1]
    split
    · unfold outputSet; split
      · exact .refl
      · exact .single (.off _ _)
    · exact .refl

theorem protCheck_scan (s : State) (c : Nat) (k : Kind) : ScanTo s (protCheck s c k) := by
  unfold protCheck
  dsimp only
  refine Reaches.ite (fun ha => ?_) (fun _ => ?_)
  · simp only [Channel.armed, Bool.and_eq_true] at ha
    have htrip := trip_scan s c k ha.1.2 ha.1.1
    refine Reaches.ite (fun _ => htrip) (fun _ => Reaches.ite (fun _ => ?_) fun _ =>
      Reaches.ite (fun _ => htrip) fun _ => Reaches.refl s)
    exact Reaches.upd1 (.alarm ..)
  · refine Reaches.upd1 ?_
    have := ScanMove.alarm (cfg := s.cfg) (s.chan c) k false ((s.chan c).prot.get k).alarmTime
    cases k <;> exact this

theorem protTick_scan (s : State) (c : Nat) : ScanTo s (protTick s c) :=
  Reaches.ite (fun _ => Reaches.refl s)
    fun _ => ((protCheck_scan s c _).trans (protCheck_scan _ c _)).trans (protCheck_scan _ c _)

theorem sampleIntake_scan (ip : Nat → Int) (s : State) (c : Nat) : ScanTo s (sampleIntake ip s c) := by
  unfold sampleIntake
  split
  · exact (Reaches.upd1 (.await ..)).thenEmit _
  · exact Reaches.ite (fun _ => (Reaches.upd1 (.sample ..)).thenEmit _) fun _ => Reaches.refl s

theorem modeSample_scan (s : State) (c : Nat) : ScanTo s (modeSample s c) := Reaches.upd1 (.mode ..)

theorem dpOffCheck_scan (s : State) (c : Nat) : ScanTo s (dpOffCheck s c) := by
  unfold dpOffCheck
  refine Reaches.ite (fun _ => Reaches.ite (fun _ => ?_) fun _ => ?_) fun _ => Reaches.refl s
  · refine Reaches.trans (t := s.upd c fun ch => { ch with dpOffPending := false })
      (Reaches.upd1 ?_) ((Reaches.upd1 ?_).thenEmit _)
    · exact .dp _ _ false _ _
    · exact .dp _ false _ _ _
  · exact Reaches.upd1 (.dp _ _ false _ _)

theorem applyVoltage_upd (s : State) (c : Nat) (v : Int) (h : ReflTransGen (R s.cfg) (s.chan c)
    (voltageApplied (s.chan c) v)) : Reaches R s (applyVoltage s c v) := (Reaches.upd h).thenEmit _

theorem applyCurrent_upd (s : State) (c : Nat) (v : Int)
    (h : ReflTransGen (R s.cfg) (s.chan c)
      (currentApplied s.cfg s.pins.nowUs (s.pin c) (s.chan c) v)) :
    Reaches R s (applyCurrent s c v) := by
  by_cases hc : c < s.nCh
  · rw [applyCurrent_eq s c v hc]; exact (Reaches.upd h).thenEmit _
  · refine ⟨applyCurrent_frame s c v, fun c' => ?_⟩
    have hs : (applyCurrent s c v).chan c' = s.chan c' := by
      simp [applyCurrent, storeCurrent, State.chan_upd, hc, selectRange_eq]
    rw [hs]

theorem balanceOne_scan (s : State) (x : Nat) (q : Quantity) (avg : Int) : ScanTo s (balanceOne s x q avg) := by
  have h1 : ScanTo s (s.upd x fun ch => ch.takeSnapshot q) := Reaches.upd1 (.snapshot ..)
  by_cases hx : x < s.nCh
  · refine h1.trans ?_
    have hb : ∀ ch : Channel, ∀ q, (ch.takeSnapshot q).lower q = ch.lower q ∧
        ((ch.takeSnapshot q).record q).limit = (ch.record q).limit := by
      intro ch q; cases q <;> simp [Channel.takeSnapshot, Channel.lower, Channel.record] <;>
        split <;> simp
    cases q
    · refine applyVoltage_upd _ _ _ (.single ?_)
      simp only [State.chan_upd_same hx, State.upd_cfg]
      have := ScanMove.balanceU (cfg := s.cfg) ((s.chan x).takeSnapshot .u) avg
      simpa [Channel.lower, Channel.record, hb, show ((s.chan x).takeSnapshot .u).uMin = (s.chan x).uMin by
        simp [Channel.takeSnapshot]; split <;> rfl, show ((s.chan x).takeSnapshot .u).u = (s.chan x).u by
        simp [Channel.takeSnapshot]; split <;> rfl] using this
    · refine applyCurrent_upd _ _ _ (.single ?_)
      simp only [State.chan_upd_same hx, State.upd_cfg, State.upd_pins, State.upd_pin]
      have := ScanMove.balanceI (cfg := s.cfg) ((s.chan x).takeSnapshot .i) s.pins.nowUs (s.pin x) avg
      simpa [Channel.lower, Channel.record, hb, show ((s.chan x).takeSnapshot .i).iMin = (s.chan x).iMin by
        simp [Channel.takeSnapshot]; split <;> rfl, show ((s.chan x).takeSnapshot .i).i = (s.chan x).i by
        simp [Channel.takeSnapshot]; split <;> rfl] using this
  · refine ⟨balanceOne_frame s x q avg, fun c' => ?_⟩
    have : (balanceOne s x q avg).chan c' = s.chan c' := by
      cases q <;>
        simp [balanceOne, applySetpoint, applyVoltage, applyCurrent, storeCurrent, selectRange_eq,
          State.chan_upd, hx]
    rw [this]

theorem balance_scan (ip : Nat → Int) (s : State) (c : Nat) (q : Quantity) : ScanTo s (balance ip s c q) :=
  Reaches.ite (fun _ => (balanceOne_scan ..).trans (balanceOne_scan ..)) fun _ => Reaches.refl s

theorem dpBalance_scan (ip : Nat → Int) (s : State) (c : Nat) : ScanTo s (dpBalance ip s c) := by
  unfold dpBalance
  refine Reaches.ite (fun _ => Reaches.refl s) fun _ => ?_
  split
  · exact Reaches.refl s
  · exact balance_scan ..
  · exact balance_scan ..
  · exact Reaches.refl s

theorem dpNegCheck_scan (ip : Nat → Int) (s : State) (c : Nat) : ScanTo s (dpNegCheck ip s c) := by
  unfold dpNegCheck
  dsimp only
  refine Reaches.ite (fun _ => Reaches.upd1 (.dp _ _ _ false _)) fun _ =>
    Reaches.ite (fun _ => Reaches.upd1 (.dp _ _ _ true _)) fun _ =>
    Reaches.ite (fun _ => Reaches.ite (fun _ => ?_) fun _ => ?_) fun _ =>
    Reaches.ite (fun _ => dpBalance_scan ..) fun _ => Reaches.refl s
  · unfold dpFirstStage dpOff
    refine Reaches.trans (t := ((s.upd c fun ch => { ch with dpOn := false }).emit _).emit _)
      (((Reaches.upd1 ?_).thenEmit _).thenEmit _) (Reaches.upd1 ?_)
    · exact .dp _ false _ _ _
    · exact .dp _ _ _ _ _
  · exact (setOutput_off_scan s c).thenEmit _

theorem onTimeUpdate_scan (s : State) (c : Nat) : ScanTo s (onTimeUpdate s c) :=
  Reaches.ite (fun _ => Reaches.upd1 (.onTime ..)) fun _ => Reaches.refl s

theorem historyPush_scan (s : State) (c : Nat) : ScanTo s (historyPush s c) := Reaches.upd1 (.hist _)

theorem autoRangeCheck_scan (s : State) (c : Nat) : ScanTo s (autoRangeCheck s c) := by
  unfold autoRangeCheck
  refine Reaches.ite (fun _ => ?_) fun _ => Reaches.refl s
  split
  · unfold autoSwitch switchRange
    refine Reaches.trans (t := s.upd c fun ch => { ch with range := _, adcAwait := some .uMon })
      (Reaches.upd1 (.range ..)) ((Reaches.emit _ _).trans ((Reaches.upd1 ?_).thenEmit _))
    exact .range _ _ _ _
  · exact Reaches.refl s

theorem tickChannel_scan (ip : Nat → Int) (s : State) (c : Nat) : ScanTo s (tickChannel ip s c) := by
  refine Reaches.ite (fun _ => ?_) fun _ => Reaches.refl s
  exact (((((((sampleIntake_scan ip s c).trans (modeSample_scan _ c)).trans (protTick_scan _ c)).trans
    (dpOffCheck_scan _ c)).trans (dpNegCheck_scan ip _ c)).trans (onTimeUpdate_scan _ c)).trans
    (historyPush_scan _ c)).trans (autoRangeCheck_scan _ c)

/-- The per-channel part of `TICK` as moves. -/
theorem scan_moves (ip : Nat → Int) (s : State) : ScanTo s (forChannels (tickChannel ip) s) :=
  Reaches.forChannels (tickChannel_scan ip) s

/-! ### The trigger and list steps -/

theorem triggerAbort_chan (s : State) (c : Nat) :
    (triggerAbort s).chan c =
      if c < s.nCh then { s.chan c with cursor := (s.chan c).cursor.stop, trigInProg := false } else s.chan c := by
  by_cases h : c < s.nCh
  · have h' : c < (triggerAbort s).nCh := by rw [(triggerAbort_frame s).nCh]; exact h
    rw [State.chan_eq_getElem h', if_pos h, State.chan_eq_getElem h]
    simp only [triggerAbort, listAbortAll, List.getElem_map]
    rfl
  · have h' : ¬c < (triggerAbort s).nCh := by rw [(triggerAbort_frame s).nCh]; exact h
    rw [if_neg h, State.chan_of_ge (Nat.not_lt.mp h), State.chan_of_ge (Nat.not_lt.mp h')]

theorem triggerAbort_run (s : State) : RunTo s (triggerAbort s) := by
  refine ⟨triggerAbort_frame s, fun c => ?_⟩
  rw [triggerAbort_chan]
  split
  · exact .tail (.single (.stop _)) (.inProgress _ false)
  · exact .refl

theorem triggerFinished_chan (s : State) (c c' : Nat) :
    (triggerFinished s c).chan c' =
      if c = c' ∧ c < s.nCh then { s.chan c' with trigInProg := false } else s.chan c' := by
  have h := State.chan_upd s c c' fun ch => { ch with trigInProg := false }
  unfold triggerFinished
  dsimp only
  split <;> exact h

theorem triggerFinished_run (s : State) (c : Nat) : RunTo s (triggerFinished s c) := by
  refine ⟨triggerFinished_frame s c, fun c' => ?_⟩
  rw [triggerFinished_chan]
  split
  · exact .single (.inProgress _ false)
  · exact .refl

theorem triggerOutput_run (s : State) (c : Nat) : RunTo s (triggerOutput s c) := by
  refine Reaches.ite (fun h => ?_) fun _ => Reaches.emit ..
  unfold requestOutput
  rw [if_pos h]
  refine ⟨setOutput_frame .., fun c' => ?_⟩
  rw [setOutput_chan]
  split
  · rename_i hc
    obtain ⟨rfl, -⟩ := hc
    unfold outputSet
    split
    · exact .refl
    · cases ho : (s.chan c).trigOut
      · exact .single (.off _ _)
      · refine .single (.on _ _ ?_)
        unfold outputRefusal at h
        rw [ho] at h
        by_contra ht
        rw [Bool.not_eq_false] at ht
        simp [ht] at h
        split at h <;> cases h
  · exact .refl

/-- What a passed limit check says. -/
theorem checkPoint_ok {ch : Channel} {v i : Int} (h : checkPoint ch v i = .ok) :
    (ch.uMin.toInt ≤ v ∧ v ≤ ch.u.limit.toInt) ∧ (ch.iMin.toInt ≤ i ∧ i ≤ ch.i.limit.toInt) ∧
    v * i ≤ ch.pLimit.toInt * 1000000 := by
  unfold checkPoint at h
  split_ifs at h
  refine ⟨⟨?_, ?_⟩, ⟨?_, ?_⟩, ?_⟩ <;> omega

/-- Applying a checked pair of setpoints, voltage first. -/
theorem applyBoth_run (s : State) (c : Nat) (v i : Int)
    (hv : v = 0 ∨ (s.chan c).uMin.toInt ≤ v ∧ v ≤ (s.chan c).u.limit.toInt)
    (hi : i = 0 ∨ (s.chan c).iMin.toInt ≤ i ∧ i ≤ (s.chan c).i.limit.toInt) :
    RunTo s (applyCurrent (applyVoltage s c v) c i) := by
  refine (applyVoltage_upd s c v (.single (.setU _ _ hv))).trans (applyCurrent_upd _ c i (.single (.setI _ _ _ _ ?_)))
  have : ((applyVoltage s c v).chan c).iMin = (s.chan c).iMin ∧
      ((applyVoltage s c v).chan c).i = (s.chan c).i := by
    simp only [applyVoltage_eq, State.emit_chan, State.chan_upd]
    split <;> exact ⟨rfl, rfl⟩
  rw [this.1, this.2]
  exact hi

/-- Applying setpoints to a channel leaves its list, its cursor and every other channel alone. -/
theorem applyBoth_chan (s : State) (c : Nat) (v i : Int) (c' : Nat) :
    (applyCurrent (applyVoltage s c v) c i).chan c' =
      if c = c' ∧ c < s.nCh then
        currentApplied s.cfg s.pins.nowUs (s.pin c) (voltageApplied (s.chan c') v) i
      else s.chan c' := by
  by_cases hc : c < s.nCh
  · rw [applyCurrent_eq _ _ _ (by rw [(applyVoltage_frame s c v).nCh]; exact hc)]
    simp only [applyVoltage_eq, State.emit_upd, State.upd_upd, State.emit_chan, State.chan_upd]
    rfl
  · simp [applyCurrent, storeCurrent, selectRange_eq, applyVoltage, State.chan_upd, hc]

theorem triggerOutput_chan (s : State) (c c' : Nat) :
    (triggerOutput s c).chan c' =
      if c = c' ∧ c < s.nCh ∧ outputRefusal s c (s.chan c).trigOut = .ok then
        outputSet s.pins.nowUs (s.chan c).trigOut (s.chan c')
      else s.chan c' := by
  unfold triggerOutput requestOutput
  dsimp only
  by_cases h : outputRefusal s c (s.chan c).trigOut = .ok
  · simp [h, setOutput_chan]
  · simp [h]

theorem outputSet_list (now : Time) (en : Bool) (ch : Channel) : (outputSet now en ch).list = ch.list := by
  unfold outputSet
  split <;> [rfl; (split <;> rfl)]

theorem triggerOutput_list (s : State) (c c' : Nat) :
    ((triggerOutput s c).chan c').list = (s.chan c').list := by
  rw [triggerOutput_chan]
  split <;> [exact outputSet_list ..; rfl]

theorem applyBoth_list (s : State) (c : Nat) (v i : Int) (c' : Nat) :
    ((applyCurrent (applyVoltage s c v) c i).chan c').list = (s.chan c').list := by
  rw [applyBoth_chan]
  split <;> rfl

/-- A channel that has no fault is started by moves (R262). -/
theorem startChannel_run (ip : Nat → Int) (s : State) (c : Nat)
    (h : channelFault s.cfg (ip c) (s.chan c) = none) : RunTo s (startChannel ip s c) := by
  unfold channelFault at h
  unfold startChannel
  split at h
  · cases h
  · split
    · rename_i hm
      simp only [hm] at h
      split_ifs at h with h1 h2
      refine ((applyBoth_run s c 0 0 (.inl rfl) (.inl rfl)).trans (triggerOutput_run _ c)).trans (Reaches.upd1 ?_)
      refine .start _ _ _ ?_
      have : ((triggerOutput (applyCurrent (applyVoltage s c 0) c 0) c).chan c).list = (s.chan c).list := by
        rw [triggerOutput_list, applyBoth_list]
      simp only [Channel.lengthsOk, this]
      simpa [Channel.lengthsOk] using h2
    · rename_i hm
      simp only [hm] at h
      split_ifs at h with h1 h2
      obtain ⟨hu, hi, -⟩ := checkPoint_ok h2
      have hp : iPrec (applyVoltage s c (roundP ((s.chan c).trigU.toInt : Rat) (uPrec s.cfg (s.chan c)))).cfg
          (s.chan c) = iPrec s.cfg (s.chan c) := rfl
      exact ((applyBoth_run s c _ _ (.inr hu) (.inr hi)).trans (triggerOutput_run _ c)).trans
        (triggerFinished_run _ c)
    · exact Reaches.refl s

/-- Starting a channel leaves every other channel alone. -/
theorem startChannel_other (ip : Nat → Int) (s : State) {c c' : Nat} (h : c ≠ c') :
    (startChannel ip s c).chan c' = s.chan c' := by
  unfold startChannel
  split
  · unfold startList listStart
    rw [State.chan_upd_ne h, triggerOutput_chan, if_neg (by simp [h]), applyBoth_chan, if_neg (by simp [h])]
  · unfold startStep
    dsimp only
    rw [triggerFinished_chan, if_neg (by simp [h]), triggerOutput_chan, if_neg (by simp [h]), applyBoth_chan,
      if_neg (by simp [h])]
  · rfl

theorem participants_nodup (s : State) : (participants s).Nodup := List.nodup_range.filter _

theorem triggered_nodup (s : State) : (triggered s).Nodup := (participants_nodup s).filter _

theorem triggered_lt {s : State} {c : Nat} (h : c ∈ triggered s) : c < s.nCh := by
  have := (List.mem_filter.mp (List.mem_filter.mp h).1).1
  simpa using this

/-- The fault of a channel is never `OK`. -/
theorem channelFault_ne_ok (cfg : Params) (p : Int) (ch : Channel) : channelFault cfg p ch ≠ some .ok := by
  unfold channelFault listFault
  split
  · simp
  · split
    · simp
    · split_ifs
      · simp
      · simp
      · intro h
        obtain ⟨j, -, hj⟩ := List.exists_of_findSome?_eq_some h
        dsimp only at hj
        split_ifs at hj with hj'
        exact hj' (Option.some.inj hj)
    · split_ifs with h1 h2
      · simp
      · simp
      · exact fun h => h2 (Option.some.inj h)

/-- A passed precondition check says that no channel taking part has a fault. -/
theorem checkTrigger_ok {ip : Nat → Int} {s : State} (h : checkTrigger ip s = .ok) :
    ∀ c ∈ participants s, channelFault s.cfg (ip c) (s.chan c) = none := by
  unfold checkTrigger at h
  split at h
  · rename_i e he
    obtain ⟨c, -, hc⟩ := List.exists_of_findSome?_eq_some he
    exact absurd (h ▸ hc) (channelFault_ne_ok _ _ _)
  · rename_i he
    exact List.findSome?_eq_none_iff.mp he

theorem startAll_run (l : List Nat) (hl : l.Nodup) (s : State)
    (h : ∀ c ∈ l, channelFault s.cfg (ip c) (s.chan c) = none) : RunTo s (l.foldl (startChannel ip) s) := by
  induction l generalizing s with
  | nil => exact Reaches.refl s
  | cons c l ih =>
    rw [List.nodup_cons] at hl
    have h1 := startChannel_run ip s c (h c (by simp))
    refine h1.trans (ih hl.2 _ fun c' hc' => ?_)
    · rw [h1.frame.cfg, startChannel_other ip s (by rintro rfl; exact hl.1 hc')]
      exact h c' (by simp [hc'])

theorem markInProgress_run (s : State) (l : List Nat) : RunTo s (markInProgress s l) :=
  Reaches.foldl (fun _ _ => Reaches.upd1 (.inProgress _ true)) l s

theorem markInProgress_chan (s : State) (l : List Nat) (c : Nat) :
    (markInProgress s l).chan c = { s.chan c with trigInProg := (markInProgress s l).chan c |>.trigInProg } := by
  unfold markInProgress
  induction l generalizing s with
  | nil => rfl
  | cons c' l ih =>
    rw [List.foldl_cons, ih, State.chan_upd]
    split <;> rfl

theorem channelFault_inProgress (cfg : Params) (p : Int) (ch : Channel) (b : Bool) :
    channelFault cfg p { ch with trigInProg := b } = channelFault cfg p ch := rfl

theorem startImmediately_run (ip : Nat → Int) (s : State) : RunTo s (startImmediately ip s) := by
  unfold startImmediately
  refine Reaches.ite (fun h => ?_) fun _ => (Reaches.emit ..).trans (triggerAbort_run _)
  have h0 : RunTo s { s with trigState := .executing } :=
    ⟨⟨rfl, rfl, rfl, rfl, rfl, rfl, rfl, rfl, rfl⟩, fun _ => .refl⟩
  have h1 := h0.trans (markInProgress_run { s with trigState := .executing } (triggered s))
  refine h1.trans (startAll_run _ (triggered_nodup s) _ fun c hc => ?_)
  · rw [h1.frame.cfg, markInProgress_chan, channelFault_inProgress]
    exact checkTrigger_ok h c (List.mem_filter.mp hc).1

theorem trigDelayCheck_run (ip : Nat → Int) (s : State) : RunTo s (trigDelayCheck ip s) :=
  Reaches.ite (fun _ => startImmediately_run ip s) fun _ => Reaches.refl s

theorem stampCursor_run (s : State) (c : Nat) : RunTo s (stampCursor s c) := Reaches.upd1 (.stamp _ _ _ _)

/-- A checked point as moves on its channel: cursor, voltage, current, stamp (R291). -/
theorem point_moves (cfg : Params) (now us ms next : Time) (pin : ChanPins) (ch : Channel) (count d : BitVec 32)
    (v i : Int) (ha : ch.active = true)
    (hk : count = ch.cursor.counter ∨ count = ch.cursor.counter - 1 ∧ count ≠ 0)
    (hv : ch.uMin.toInt ≤ v ∧ v ≤ ch.u.limit.toInt) (hi : ch.iMin.toInt ≤ i ∧ i ≤ ch.i.limit.toInt) :
    ReflTransGen (RunMove cfg) ch
      { currentApplied cfg now pin
          (voltageApplied { ch with cursor := { ch.cursor with counter := count } } v) i with
        cursor := ⟨(ch.nextIndex : Int), count, next, d, us, ms⟩ } :=
  .tail (.tail (.tail (.single (.point ch count d next ha hk)) (.setU _ v (.inr hv)))
    (.setI _ now pin i (.inr hi))) (.stamp _ next us ms)

/-- The channels after a due point whose check passes. -/
theorem applyPoint_chan (ip : Nat → Int) (s : State) (c j : Nat) (c' : Nat) :
    (stampCursor (applyPoint ip s c j) c).chan c' =
      if c = c' ∧ c < s.nCh then
        { currentApplied s.cfg s.pins.nowUs (s.pin c)
            (voltageApplied (s.chan c') (pointVolt s.cfg (s.chan c) j)) (pointCurr (ip c) (s.chan c) j) with
          cursor :=
            ⟨(j : Int), (s.chan c').cursor.counter,
              dwellDeadline s.cfg s.pins.nowUs s.pins.nowMs ((s.chan c).pointElem .dwell j),
              (s.chan c).pointElem .dwell j, s.pins.nowUs, s.pins.nowMs⟩ }
      else s.chan c' := by
  obtain ⟨t, ht⟩ : ∃ t, t = applyCurrent (applyVoltage
      (s.upd c fun ch => { ch with cursor := { ch.cursor with it := (j : Int) } }) c
      (pointVolt s.cfg (s.chan c) j)) c (pointCurr (ip c) (s.chan c) j) := ⟨_, rfl⟩
  have hf : Frame s t :=
    ht ▸ ((Frame.upd s c _).trans (applyVoltage_frame ..)).trans (applyCurrent_frame ..)
  have hch := applyBoth_chan (s.upd c fun ch => { ch with cursor := { ch.cursor with it := (j : Int) } }) c
    (pointVolt s.cfg (s.chan c) j) (pointCurr (ip c) (s.chan c) j) c'
  unfold stampCursor applyPoint
  dsimp only
  rw [← ht] at hch ⊢
  by_cases h : c = c' ∧ c < s.nCh
  · obtain ⟨rfl, hc⟩ := h
    rw [State.upd_upd, State.chan_upd_same (hf.nCh ▸ hc), State.upd_pins, hf.pins, hch, State.upd_nCh,
      if_pos ⟨rfl, hc⟩, if_pos ⟨rfl, hc⟩, State.chan_upd_same hc]
    rfl
  · rw [State.upd_upd, State.chan_upd, hf.nCh, if_neg h, if_neg h, hch, State.upd_nCh, if_neg h, State.chan_upd,
      if_neg h]

/-- A due point as moves: the cursor goes on and a checked point is applied, or everything is aborted. -/
theorem pointOrAbort_run (ip : Nat → Int) (s : State) (c : Nat) (count : BitVec 32)
    (ha : (s.chan c).active = true)
    (hk : count = (s.chan c).cursor.counter ∨ count = (s.chan c).cursor.counter - 1 ∧ count ≠ 0) :
    RunTo s (pointOrAbort ip (s.upd c fun ch => { ch with cursor := { ch.cursor with counter := count } }) c
      (s.chan c).nextIndex) := by
  refine ⟨(Frame.upd s c _).trans (pointOrAbort_frame ..), fun c' => ?_⟩
  unfold pointOrAbort
  dsimp only
  split
  · rename_i h
    rw [applyPoint_chan, State.upd_nCh]
    by_cases hc : c = c' ∧ c < s.nCh
    · obtain ⟨rfl, hc⟩ := hc
      rw [State.chan_upd_same hc] at h
      obtain ⟨hu, hi, -⟩ := checkPoint_ok h
      rw [if_pos ⟨rfl, hc⟩, State.chan_upd_same hc]
      exact point_moves _ _ _ _ _ _ (s.chan c) count _ _ _ ha hk hu hi
    · rw [if_neg hc, State.chan_upd, if_neg hc]
  · have hn : ∀ e, ((s.upd c fun ch => { ch with cursor := { ch.cursor with counter := count } }).emit
        [.pushEvent (.error e) c]).nCh = s.nCh := fun e => by rw [State.emit_nCh, State.upd_nCh]
    rw [triggerAbort_chan, State.emit_chan, hn]
    split
    · rw [State.chan_upd]
      split
      · exact .tail (.single (.stop _)) (.inProgress _ false)
      · exact .tail (.single (.stop _)) (.inProgress _ false)
    · rename_i h
      rw [State.chan_upd, if_neg (by rintro ⟨rfl, h'⟩; exact h h')]

theorem listFinish_run (s : State) (c : Nat) : RunTo s (listFinish s c) :=
  (Reaches.upd1 (.stop _)).trans (triggerFinished_run _ c)

theorem listAdvance_run (ip : Nat → Int) (s : State) (c : Nat) (ha : (s.chan c).active = true) :
    RunTo s (listAdvance ip s c) := by
  unfold listAdvance
  dsimp only
  refine Reaches.ite (fun _ => Reaches.ite (fun _ => ?_) fun h => ?_) fun _ => ?_
  · unfold listFinish
    rw [State.upd_upd]
    exact (Reaches.upd1 (.stop _)).trans (triggerFinished_run _ c)
  · have e : (s.upd c fun ch => { ch with cursor := { ch.cursor with counter := ch.cursor.counter - 1 } }) =
        s.upd c fun ch => { ch with cursor := { ch.cursor with counter := (s.chan c).cursor.counter - 1 } } :=
      State.upd_congr rfl
    rw [e]
    exact pointOrAbort_run ip s c _ ha (.inr ⟨rfl, h⟩)
  · have e : (s.upd c fun ch => { ch with cursor := { ch.cursor with counter := (s.chan c).cursor.counter } }) = s :=
      State.upd_self rfl
    have := pointOrAbort_run ip s c _ ha (.inl rfl)
    rwa [e] at this

theorem listTick_run (ip : Nat → Int) (s : State) (c : Nat) : RunTo s (listTick ip s c) := by
  unfold listTick
  refine Reaches.ite (fun _ => Reaches.refl s) fun ha => Reaches.ite
    (fun _ => (Reaches.emit ..).trans (triggerAbort_run _)) fun _ => Reaches.ite
    (fun _ => triggerAbort_run s) fun _ => Reaches.ite (fun _ => ?_) fun _ => Reaches.ite
    (fun _ => listAdvance_run ip s c (by simpa using ha)) fun _ => stampCursor_run s c
  unfold listFreeze
  refine Reaches.trans ⟨Frame.upd .., fun c' => ?_⟩ (stampCursor_run _ c)
  rw [State.chan_upd]
  split
  · unfold Cursor.shift
    split
    · exact .refl
    · exact .single (.stamp _ _ _ _)
  · exact .refl

/-- The trigger and list steps of `TICK` as moves. -/
theorem run_moves (ip : Nat → Int) (s : State) : RunTo s (forChannels (listTick ip) (trigDelayCheck ip s)) :=
  (trigDelayCheck_run ip s).trans (Reaches.forChannels (listTick_run ip) _)

/-- A property of a channel that every move of a tick keeps is kept by `TICK`. -/
theorem tickAll_all {P : Channel → Prop} {s : State} (h : ∀ a b, ScanMove s.cfg a b → P a → P b)
    (h' : ∀ a b, RunMove s.cfg a b → P a → P b) (hs : ∀ ch ∈ s.chans, P ch) : ∀ ch ∈ (tickAll s).chans, P ch := by
  have h1 := scan_moves s.currentPrecs s
  exact (run_moves _ _).all (by rw [h1.frame.cfg]; exact h') (h1.all h hs)

end Sys2Proof.Machine
end

