-- ==== Sys2Proof/Laws/Commands.lean ====
section
/-! SUPPORT. What a command does to a channel, said once: the state that a completed command leaves, and
`CmdMove`, the change of the channel that each command names. Every invariant of a command follows from it. -/

namespace Sys2Proof.Machine

open Sys2Proof

/-! ### Completed commands -/

@[simp] theorem State.done_nCh (s : State) (c : Nat) (ch : Channel) (d : Val) (es : List Event) :
    (s.done c ch d es).nCh = s.nCh := by simp [State.done, State.nCh]

theorem State.done_chan (s : State) (c : Nat) (ch : Channel) (d : Val) (es : List Event) (c' : Nat) :
    (s.done c ch d es).chan c' = if c = c' ∧ c < s.nCh then ch else s.chan c' := by
  by_cases h : c = c'
  · subst h
    by_cases hc : c < s.chans.length <;> simp [State.done, State.chan, State.nCh, hc]
  · simp [State.done, State.chan, h]

theorem State.begin_upd_done {s : State} {c : Nat} (h : c < s.nCh) (f : Channel → Channel) :
    s.begin.upd c f = s.done c (f (s.chan c)) 0 [] := by
  rw [State.upd_eq_set (s := s.begin) h]; rfl

theorem State.begin_upd_emit_done {s : State} {c : Nat} (h : c < s.nCh) (f : Channel → Channel)
    (es : List Event) : (s.begin.upd c f).emit es = s.done c (f (s.chan c)) 0 es := by
  rw [State.begin_upd_done h]; rfl

theorem State.begin_upd_answer_done {s : State} {c : Nat} (h : c < s.nCh) (f : Channel → Channel) (d : Val) :
    (s.begin.upd c f).answer d = s.done c (f (s.chan c)) d [] := by
  rw [State.begin_upd_done h]; rfl

/-- A command that changes nothing is complete too. -/
theorem State.begin_done {s : State} {c : Nat} (h : c < s.nCh) : s.begin = s.done c (s.chan c) 0 [] := by
  have : s.chans.set c (s.chan c) = s.chans := by
    rw [State.chan_eq_getElem h]; exact List.set_getElem_self h
  simp [State.done, this, State.begin]

/-- A command that changes a channel and then applies a voltage. -/
theorem applyVoltage_done {s : State} {c : Nat} (hc : c < s.nCh) (f : Channel → Channel) (v : Int) :
    applyVoltage (s.begin.upd c f) c v =
      s.done c (voltageApplied (f (s.chan c)) v) 0 (voltageEvents s.cfg c (f (s.chan c)) v) := by
  rw [applyVoltage_eq, State.upd_upd, State.begin_upd_emit_done hc, State.chan_upd_same (by simpa)]; rfl

/-- A command that changes a channel and then applies a current. -/
theorem applyCurrent_done {s : State} {c : Nat} (hc : c < s.nCh) (f : Channel → Channel) (i : Int) :
    applyCurrent (s.begin.upd c f) c i =
      s.done c (currentApplied s.cfg s.pins.nowUs (s.pin c) (f (s.chan c)) i) 0
        (currentEvents s.cfg (s.pin c) c (f (s.chan c)) i) := by
  rw [applyCurrent_eq _ _ _ (by simpa), State.upd_upd, State.begin_upd_emit_done hc,
    State.chan_upd_same (by simpa)]; rfl

/-- A current applied after the voltage of the same command. -/
theorem done_applyCurrent {s : State} {c : Nat} (hc : c < s.nCh) (ch : Channel) (es : List Event) (i : Int) :
    applyCurrent (s.done c ch 0 es) c i =
      s.done c (currentApplied s.cfg s.pins.nowUs (s.pin c) ch i) 0
        (es ++ currentEvents s.cfg (s.pin c) c ch i) := by
  have hc' : c < (s.done c ch 0 es).nCh := by simpa
  have hch : (s.done c ch 0 es).chan c = ch := by rw [State.done_chan, if_pos ⟨rfl, hc⟩]
  rw [applyCurrent_eq _ _ _ hc', State.upd_eq_set hc', hch]
  simp [State.done, State.emit, State.pin]

/-! ### The change of the named channel -/

/-- What a command that completes does to the channel it names. -/
inductive CmdMove (cfg : Params) (c : Nat) : Instr → Channel → Channel → Prop where
  | same (i : Instr) (ch : Channel) : CmdMove cfg c i ch ch
  | fadd (ch : Channel) (q : Quantity) (v : Int) :
      CmdMove cfg c (.fadd c q v) ch
        (ch.setRecord q fun _ => (ch.record q).addMon cfg.filterW v (prec cfg ch q))
  | faddr (ch : Channel) (q : Quantity) (v : Int) :
      CmdMove cfg c (.faddr c q v) ch
        (ch.setRecord q fun _ => (ch.record q).addMonDac cfg.filterW v (prec cfg ch q))
  | frst (ch : Channel) (q : Quantity) :
      CmdMove cfg c (.frst c q) ch (ch.setRecord q (filterReset cfg.filterW))
  | calpt (ch : Channel) (t : ConvSet) (f : CalField) (v : Int) (h : ch.calEn = false) :
      CmdMove cfg c (.calpt c t f v) ch
        (ch.setCal t fun x => { x.setField f (toVal v) with present := false })
  | calcommit (ch : Channel) (t : ConvSet) (h : ch.calEn = false) (h' : calValid cfg ch t = true) :
      CmdMove cfg c (.calcommit c t) ch (ch.setCal t fun x => { x with present := true })
  | calclr (ch : Channel) (t : ConvSet) (h : ch.calEn = false) :
      CmdMove cfg c (.calclr c t) ch (ch.setCal t fun x => { x with present := false })
  | calen (ch : Channel) (b : Bool) (now : Time) (pin : ChanPins) :
      CmdMove cfg c (.calen c b) ch
        (currentApplied cfg now pin (voltageApplied (switchCal cfg b ch) (clampedU (switchCal cfg b ch)))
          (clampedI (switchCal cfg b ch)))
  | rmode (ch : Channel) (m : RangeMode) (now : Time) (pin : ChanPins) :
      CmdMove cfg c (.rmode c m) ch
        (currentApplied cfg now pin (selectMode cfg m ch) (clampedI (selectMode cfg m ch)))
  | rauto (ch : Channel) (b : Bool) : CmdMove cfg c (.rauto c b) ch { ch with autoRange := b }
  | setv (ch : Channel) (v x : Int) (h : checkPoint ch x ch.i.set.toInt = .ok) :
      CmdMove cfg c (.setv c v) ch (voltageApplied ch x)
  | seti (ch : Channel) (v x : Int) (now : Time) (pin : ChanPins)
      (h : checkPoint ch ch.u.set.toInt x = .ok) :
      CmdMove cfg c (.seti c v) ch (currentApplied cfg now pin ch x)
  | limvKeep (ch : Channel) (v : Int)
      (h : ch.u.set.toInt ≤ clamp v ch.uMin.toInt ch.uMax.toInt) :
      CmdMove cfg c (.limv c v) ch
        { ch with u := { ch.u with limit := toVal (clamp v ch.uMin.toInt ch.uMax.toInt) } }
  | limvCut (ch : Channel) (v : Int) :
      CmdMove cfg c (.limv c v) ch
        (voltageApplied
          { ch with u := { ch.u with limit := toVal (clamp v ch.uMin.toInt ch.uMax.toInt) } }
          (clamp v ch.uMin.toInt ch.uMax.toInt))
  | limiKeep (ch : Channel) (v : Int)
      (h : ch.i.set.toInt ≤ clamp v ch.iMin.toInt ch.iMax.toInt) :
      CmdMove cfg c (.limi c v) ch
        { ch with i := { ch.i with limit := toVal (clamp v ch.iMin.toInt ch.iMax.toInt) } }
  | limiCut (ch : Channel) (v : Int) (now : Time) (pin : ChanPins) :
      CmdMove cfg c (.limi c v) ch
        (currentApplied cfg now pin
          { ch with i := { ch.i with limit := toVal (clamp v ch.iMin.toInt ch.iMax.toInt) } }
          (clamp v ch.iMin.toInt ch.iMax.toInt))
  | limpKeep (ch : Channel) (v : Int) :
      CmdMove cfg c (.limp c v) ch
        { ch with pLimit := toVal (clamp v ch.board.pMin.toInt ch.board.pMax.toInt) }
  | limpCut (ch : Channel) (v : Int) (now : Time) (pin : ChanPins) :
      CmdMove cfg c (.limp c v) ch
        (currentApplied cfg now pin
          { ch with pLimit := toVal (clamp v ch.board.pMin.toInt ch.board.pMax.toInt) }
          (limpCurrent cfg ch (clamp v ch.board.pMin.toInt ch.board.pMax.toInt)))
  | on (ch : Channel) (now : Time) (h : ch.anyTripped = false) :
      CmdMove cfg c (.outen c true) ch (turnedOn now ch)
  | off (ch : Channel) (now : Time) : CmdMove cfg c (.outen c false) ch (turnedOff now ch)
  | sense (ch : Channel) (b : Bool) : CmdMove cfg c (.sense c b) ch { ch with sense := b }
  | rprogOn (ch : Channel) :
      CmdMove cfg c (.rprog c true) ch
        ((voltageApplied { ch with rprog := true } ch.uMin.toInt).setProt .ovp
          fun p => { p with level := ch.board.uMax })
  | rprogOff (ch : Channel) : CmdMove cfg c (.rprog c false) ch { ch with rprog := false }
  | pstate (ch : Channel) (k : Kind) (b : Bool) :
      CmdMove cfg c (.pstate c k b) ch (ch.setProt k fun p => { p with state := b })
  | pdelay (ch : Channel) (k : Kind) (v : Int) :
      CmdMove cfg c (.pdelay c k v) ch (ch.setProt k fun p => { p with delay := toVal v })
  | plevel (ch : Channel) (k : Kind) (v : Int) :
      CmdMove cfg c (.plevel c k v) ch (ch.setProt k fun p => { p with level := toVal v })
  | pclr (ch : Channel) (b : Bool) : CmdMove cfg c (.pclr c b) ch ch.clearProtection
  | pdis (ch : Channel) :
      CmdMove cfg c (.pdis c) ch { ch with prot := ch.prot.map fun p => { p with state := false } }
  | tmodeU (ch : Channel) (m : TrigMode) : CmdMove cfg c (.tmode c .u m) ch { ch with trigModeU := m }
  | tmodeI (ch : Channel) (m : TrigMode) : CmdMove cfg c (.tmode c .i m) ch { ch with trigModeI := m }
  | tlevU (ch : Channel) (v : Int) : CmdMove cfg c (.tlev c .u v) ch { ch with trigU := toVal v }
  | tlevI (ch : Channel) (v : Int) : CmdMove cfg c (.tlev c .i v) ch { ch with trigI := toVal v }
  | tout (ch : Channel) (b : Bool) : CmdMove cfg c (.tout c b) ch { ch with trigOut := b }
  | llen (ch : Channel) (a : ListArray) (n : Nat) (h : ch.active = false) (h' : n ≤ cfg.listMax) :
      CmdMove cfg c (.llen c a n) ch
        { ch with list := { ch.list with len := ch.list.len.modify a fun _ => n, changed := true } }
  | lset (ch : Channel) (a : ListArray) (k : Nat) (v : Int) (h : ch.active = false)
      (h' : k < ch.list.len.get a) :
      CmdMove cfg c (.lset c a k v) ch
        { ch.listWrite a k (BitVec.ofInt 32 v) with
          list := { (ch.listWrite a k (BitVec.ofInt 32 v)).list with changed := true } }
  | lcount (ch : Channel) (n : Nat) (h : ch.active = false) (h' : 1 ≤ n) (h'' : n ≤ cfg.countMax) :
      CmdMove cfg c (.lcount c n) ch { ch with list := { ch.list with count := n, changed := true } }
  | lstart (ch : Channel) (us ms : Time) (h : ch.lengthsOk = true) :
      CmdMove cfg c (.lstart c) ch { ch with cursor := ⟨-1, BitVec.ofNat 32 ch.list.count, 0, 0, us, ms⟩ }
  | lsaved (ch : Channel) :
      CmdMove cfg c (.lsaved c) ch { ch with list := { ch.list with changed := false } }

/-- A state that a command on channel `c` leaves: nothing but its channel, its response and its events. -/
structure CmdTo (i : Instr) (c : Nat) (s t : State) : Prop where
  frame : t = { s with chans := t.chans, resp := t.resp, events := t.events }
  nCh : t.nCh = s.nCh
  other : ∀ c', c' ≠ c → t.chan c' = s.chan c'
  named : CmdMove s.cfg c i (s.chan c) (t.chan c)

theorem CmdTo.failed (i : Instr) (c : Nat) (s : State) (e : Status) : CmdTo i c s (s.failed e) :=
  ⟨rfl, rfl, fun _ _ => rfl, .same ..⟩

theorem CmdTo.done {i : Instr} {c : Nat} {s : State} (hc : c < s.nCh) {ch : Channel} (d : Val)
    (es : List Event) (h : CmdMove s.cfg c i (s.chan c) ch) : CmdTo i c s (s.done c ch d es) := by
  refine ⟨rfl, State.done_nCh .., fun c' hne => ?_, ?_⟩
  · rw [State.done_chan, if_neg (by rintro ⟨rfl, -⟩; exact hne rfl)]
  · rw [State.done_chan, if_pos ⟨rfl, hc⟩]; exact h

theorem CmdTo.answer {i : Instr} {c : Nat} {s : State} (d : Val) : CmdTo i c s (s.begin.answer d) :=
  ⟨rfl, rfl, fun _ _ => rfl, .same ..⟩

/-- A granted output request (R185). -/
theorem outputRefusal_ok {s : State} {c : Nat} {b : Bool} (h : outputRefusal s c b = .ok) :
    (s.pin c).healthy = true ∧ (b = true → (s.chan c).anyTripped = false) := by
  unfold outputRefusal at h
  split_ifs at h with h1 h2
  refine ⟨by simpa using h1, fun hb => ?_⟩
  simpa [hb] using h2

/-! ### One lemma per command -/

theorem execFadd_to {c : Nat} {q : Quantity} {v : Int} {s t : State} (h : execFadd c q v s = .next t) :
    CmdTo (.fadd c q v) c s t := by
  obtain rfl | ⟨hc, h⟩ := onChannel_next h
  · exact .failed ..
  cases h
  rw [State.begin_upd_answer_done hc]
  exact .done hc _ _ (.fadd ..)

theorem execFaddr_to {c : Nat} {q : Quantity} {v : Int} {s t : State} (h : execFaddr c q v s = .next t) :
    CmdTo (.faddr c q v) c s t := by
  obtain rfl | ⟨hc, h⟩ := onChannel_next h
  · exact .failed ..
  cases h
  rw [State.begin_upd_answer_done hc]
  exact .done hc _ _ (.faddr ..)

theorem execFrst_to {c : Nat} {q : Quantity} {s t : State} (h : execFrst c q s = .next t) :
    CmdTo (.frst c q) c s t := by
  obtain rfl | ⟨hc, h⟩ := onChannel_next h
  · exact .failed ..
  cases h
  rw [State.begin_upd_done hc]
  exact .done hc _ _ (.frst ..)

theorem execCalpt_to {c : Nat} {k : ConvSet} {f : CalField} {v : Int} {s t : State} (h : execCalpt c k f v s = .next t) :
    CmdTo (.calpt c k f v) c s t := by
  obtain rfl | ⟨hc, h⟩ := onChannel_next h
  · exact .failed ..
  obtain ⟨-, rfl⟩ | ⟨hb, h⟩ := require_next h
  · exact .failed ..
  cases h
  rw [State.begin_upd_done hc]
  exact .done hc _ _ (.calpt _ _ _ _ (by simpa using hb))

theorem execCalcommit_to {c : Nat} {k : ConvSet} {s t : State} (h : execCalcommit c k s = .next t) :
    CmdTo (.calcommit c k) c s t := by
  obtain rfl | ⟨hc, h⟩ := onChannel_next h
  · exact .failed ..
  obtain ⟨-, rfl⟩ | ⟨hb, h⟩ := require_next h
  · exact .failed ..
  obtain ⟨-, rfl⟩ | ⟨hv, h⟩ := require_next h
  · exact .failed ..
  cases h
  rw [State.begin_upd_done hc]
  exact .done hc _ _ (.calcommit _ _ (by simpa using hb) hv)

theorem execCalclr_to {c : Nat} {k : ConvSet} {s t : State} (h : execCalclr c k s = .next t) :
    CmdTo (.calclr c k) c s t := by
  obtain rfl | ⟨hc, h⟩ := onChannel_next h
  · exact .failed ..
  obtain ⟨-, rfl⟩ | ⟨hb, h⟩ := require_next h
  · exact .failed ..
  cases h
  rw [State.begin_upd_done hc]
  exact .done hc _ _ (.calclr _ _ (by simpa using hb))

theorem execCalen_to {c : Nat} {b : Bool} {s t : State} (h : execCalen c b s = .next t) :
    CmdTo (.calen c b) c s t := by
  obtain rfl | ⟨hc, h⟩ := onChannel_next h
  · exact .failed ..
  obtain ⟨-, rfl⟩ | ⟨hb, h⟩ := require_next h
  · exact .failed ..
  obtain ⟨-, rfl⟩ | ⟨hn, h⟩ := require_next h
  · exact .failed ..
  split at h
  · cases h
    rw [State.begin_done hc]; exact .done hc _ _ (.same ..)
  · cases h
    rw [applyVoltage_done hc, done_applyCurrent hc]; exact .done hc _ _ (.calen ..)

theorem execTophys_to {c : Nat} {k : ConvSet} {v : Int} {s t : State} (h : execTophys c k v s = .next t) :
    CmdTo (.tophys c k v) c s t := by
  obtain rfl | ⟨hc, h⟩ := onChannel_next h
  · exact .failed ..
  cases h; exact .answer _

theorem execToraw_to {c : Nat} {k : ConvSet} {v : Int} {s t : State} (h : execToraw c k v s = .next t) :
    CmdTo (.toraw c k v) c s t := by
  obtain rfl | ⟨hc, h⟩ := onChannel_next h
  · exact .failed ..
  cases h; exact .answer _

theorem execRmode_to {c : Nat} {m : RangeMode} {s t : State} (h : execRmode c m s = .next t) :
    CmdTo (.rmode c m) c s t := by
  obtain rfl | ⟨hc, h⟩ := onChannel_next h
  · exact .failed ..
  obtain ⟨-, rfl⟩ | ⟨hb, h⟩ := require_next h
  · exact .failed ..
  cases h
  rw [applyCurrent_done hc]; exact .done hc _ _ (.rmode ..)

theorem execRauto_to {c : Nat} {b : Bool} {s t : State} (h : execRauto c b s = .next t) :
    CmdTo (.rauto c b) c s t := by
  obtain rfl | ⟨hc, h⟩ := onChannel_next h
  · exact .failed ..
  cases h
  rw [State.begin_upd_done hc]
  exact .done hc _ _ (.rauto ..)

theorem execSetv_to {c : Nat} {v : Int} {s t : State} (h : execSetv c v s = .next t) :
    CmdTo (.setv c v) c s t := by
  obtain rfl | ⟨hc, h⟩ := onChannel_next h
  · exact .failed ..
  obtain ⟨-, rfl⟩ | ⟨hb, h⟩ := require_next h
  · exact .failed ..
  obtain ⟨-, rfl⟩ | ⟨he, h⟩ := require_next h
  · exact .failed ..
  cases h
  rw [applyVoltage_eq, State.begin_upd_emit_done hc]
  exact .done hc _ _ (.setv _ _ _ (of_decide_eq_true he))

theorem execSeti_to {c : Nat} {v : Int} {s t : State} (h : execSeti c v s = .next t) :
    CmdTo (.seti c v) c s t := by
  obtain rfl | ⟨hc, h⟩ := onChannel_next h
  · exact .failed ..
  obtain ⟨-, rfl⟩ | ⟨hb, h⟩ := require_next h
  · exact .failed ..
  obtain ⟨-, rfl⟩ | ⟨he, h⟩ := require_next h
  · exact .failed ..
  cases h
  rw [applyCurrent_eq _ _ _ (by simpa), State.begin_upd_emit_done hc]
  exact .done hc _ _ (.seti _ _ _ _ _ (of_decide_eq_true he))

theorem execLimv_to {c : Nat} {v : Int} {s t : State} (h : execLimv c v s = .next t) :
    CmdTo (.limv c v) c s t := by
  obtain rfl | ⟨hc, h⟩ := onChannel_next h
  · exact .failed ..
  obtain ⟨-, rfl⟩ | ⟨hb, h⟩ := require_next h
  · exact .failed ..
  cases h
  split
  · rw [applyVoltage_done hc]; exact .done hc _ _ (.limvCut ..)
  · rename_i hl
    rw [State.begin_upd_emit_done hc]; exact .done hc _ _ (.limvKeep _ _ (Int.not_lt.mp hl))

theorem execLimi_to {c : Nat} {v : Int} {s t : State} (h : execLimi c v s = .next t) :
    CmdTo (.limi c v) c s t := by
  obtain rfl | ⟨hc, h⟩ := onChannel_next h
  · exact .failed ..
  obtain ⟨-, rfl⟩ | ⟨hb, h⟩ := require_next h
  · exact .failed ..
  cases h
  split
  · rw [applyCurrent_done hc]; exact .done hc _ _ (.limiCut ..)
  · rename_i hl
    rw [State.begin_upd_emit_done hc]; exact .done hc _ _ (.limiKeep _ _ (Int.not_lt.mp hl))

theorem execLimp_to {c : Nat} {v : Int} {s t : State} (h : execLimp c v s = .next t) :
    CmdTo (.limp c v) c s t := by
  obtain rfl | ⟨hc, h⟩ := onChannel_next h
  · exact .failed ..
  obtain ⟨-, rfl⟩ | ⟨hb, h⟩ := require_next h
  · exact .failed ..
  cases h
  split
  · rw [applyCurrent_done hc]; exact .done hc _ _ (.limpCut ..)
  · rw [State.begin_upd_emit_done hc]; exact .done hc _ _ (.limpKeep ..)

theorem execOuten_to {c : Nat} {b : Bool} {s t : State} (h : execOuten c b s = .next t) :
    CmdTo (.outen c b) c s t := by
  obtain rfl | ⟨hc, h⟩ := onChannel_next h
  · exact .failed ..
  obtain ⟨-, rfl⟩ | ⟨he, h⟩ := require_next h
  · exact .failed ..
  cases h
  have he' := of_decide_eq_true he
  unfold requestOutput
  rw [if_pos he']
  unfold setOutput
  split
  · rw [State.begin_done hc]; exact .done hc _ _ (.same ..)
  · cases b
    · rw [if_neg (by simp), turnOff, State.begin_upd_emit_done hc]
      exact .done hc _ _ (.off ..)
    · rw [if_pos rfl, turnOn, State.begin_upd_emit_done hc]
      exact .done hc _ _ (.on _ _ ((outputRefusal_ok he').2 rfl))

theorem execSense_to {c : Nat} {b : Bool} {s t : State} (h : execSense c b s = .next t) :
    CmdTo (.sense c b) c s t := by
  obtain rfl | ⟨hc, h⟩ := onChannel_next h
  · exact .failed ..
  obtain ⟨-, rfl⟩ | ⟨hb, h⟩ := require_next h
  · exact .failed ..
  split at h
  · cases h
    rw [State.begin_done hc]; exact .done hc _ _ (.same ..)
  · cases h
    rw [State.begin_upd_emit_done hc]; exact .done hc _ _ (.sense ..)

theorem execRprog_to {c : Nat} {b : Bool} {s t : State} (h : execRprog c b s = .next t) :
    CmdTo (.rprog c b) c s t := by
  obtain rfl | ⟨hc, h⟩ := onChannel_next h
  · exact .failed ..
  obtain ⟨-, rfl⟩ | ⟨hb, h⟩ := require_next h
  · exact .failed ..
  split at h
  · cases h
    rw [State.begin_done hc]; exact .done hc _ _ (.same ..)
  · cases b
    · cases h
      rw [State.emit_emit, State.begin_upd_emit_done hc]; exact .done hc _ _ (.rprogOff ..)
    · cases h
      rw [applyVoltage_eq, State.emit_upd, State.upd_upd, State.emit_upd, State.upd_upd,
        State.emit_emit, State.begin_upd_emit_done hc]
      exact .done hc _ _ (.rprogOn ..)

theorem execPstate_to {c : Nat} {k : Kind} {b : Bool} {s t : State} (h : execPstate c k b s = .next t) :
    CmdTo (.pstate c k b) c s t := by
  obtain rfl | ⟨hc, h⟩ := onChannel_next h
  · exact .failed ..
  obtain ⟨-, rfl⟩ | ⟨hb, h⟩ := require_next h
  · exact .failed ..
  cases h
  rw [State.begin_upd_emit_done hc]
  exact .done hc _ _ (.pstate ..)

theorem execPdelay_to {c : Nat} {k : Kind} {v : Int} {s t : State} (h : execPdelay c k v s = .next t) :
    CmdTo (.pdelay c k v) c s t := by
  obtain rfl | ⟨hc, h⟩ := onChannel_next h
  · exact .failed ..
  obtain ⟨-, rfl⟩ | ⟨hb, h⟩ := require_next h
  · exact .failed ..
  cases h
  rw [State.begin_upd_emit_done hc]
  exact .done hc _ _ (.pdelay ..)

theorem execPlevel_to {c : Nat} {k : Kind} {v : Int} {s t : State} (h : execPlevel c k v s = .next t) :
    CmdTo (.plevel c k v) c s t := by
  obtain rfl | ⟨hc, h⟩ := onChannel_next h
  · exact .failed ..
  obtain ⟨-, rfl⟩ | ⟨hb, h⟩ := require_next h
  · exact .failed ..
  cases h
  rw [State.begin_upd_emit_done hc]
  exact .done hc _ _ (.plevel ..)

theorem execPclr_to {c : Nat} {b : Bool} {s t : State} (h : execPclr c b s = .next t) :
    CmdTo (.pclr c b) c s t := by
  obtain rfl | ⟨hc, h⟩ := onChannel_next h
  · exact .failed ..
  cases h
  rw [releaseTrip, State.begin_upd_emit_done hc]
  exact .done hc _ _ (.pclr ..)

theorem execPdis_to {c : Nat} {s t : State} (h : execPdis c s = .next t) :
    CmdTo (.pdis c) c s t := by
  obtain rfl | ⟨hc, h⟩ := onChannel_next h
  · exact .failed ..
  obtain ⟨-, rfl⟩ | ⟨hb, h⟩ := require_next h
  · exact .failed ..
  cases h
  rw [State.begin_upd_emit_done hc]
  exact .done hc _ _ (.pdis ..)

theorem execTmode_to {c : Nat} {q : Quantity} {m : TrigMode} {s t : State} (h : execTmode c q m s = .next t) :
    CmdTo (.tmode c q m) c s t := by
  obtain rfl | ⟨hc, h⟩ := onChannel_next h
  · exact .failed ..
  cases h
  rw [State.begin_upd_emit_done hc]
  cases q
  · exact .done hc _ _ (.tmodeU ..)
  · exact .done hc _ _ (.tmodeI ..)

theorem execTlev_to {c : Nat} {q : Quantity} {v : Int} {s t : State} (h : execTlev c q v s = .next t) :
    CmdTo (.tlev c q v) c s t := by
  obtain rfl | ⟨hc, h⟩ := onChannel_next h
  · exact .failed ..
  cases h
  rw [State.begin_upd_emit_done hc]
  cases q
  · exact .done hc _ _ (.tlevU ..)
  · exact .done hc _ _ (.tlevI ..)

theorem execTout_to {c : Nat} {b : Bool} {s t : State} (h : execTout c b s = .next t) :
    CmdTo (.tout c b) c s t := by
  obtain rfl | ⟨hc, h⟩ := onChannel_next h
  · exact .failed ..
  cases h
  rw [State.begin_upd_emit_done hc]
  exact .done hc _ _ (.tout ..)

theorem execLlen_to {c : Nat} {a : ListArray} {n : Nat} {s t : State} (h : execLlen c a n s = .next t) :
    CmdTo (.llen c a n) c s t := by
  obtain rfl | ⟨hc, h⟩ := onChannel_next h
  · exact .failed ..
  obtain ⟨-, rfl⟩ | ⟨hb, h⟩ := require_next h
  · exact .failed ..
  obtain ⟨-, rfl⟩ | ⟨hn, h⟩ := require_next h
  · exact .failed ..
  cases h
  rw [State.begin_upd_done hc]
  exact .done hc _ _ (.llen _ _ _ (by simpa using hb) (of_decide_eq_true hn))

theorem execLset_to {c : Nat} {a : ListArray} {k : Nat} {v : Int} {s t : State} (h : execLset c a k v s = .next t) :
    CmdTo (.lset c a k v) c s t := by
  obtain rfl | ⟨hc, h⟩ := onChannel_next h
  · exact .failed ..
  obtain ⟨-, rfl⟩ | ⟨hb, h⟩ := require_next h
  · exact .failed ..
  obtain ⟨-, rfl⟩ | ⟨hn, h⟩ := require_next h
  · exact .failed ..
  obtain ⟨-, rfl⟩ | ⟨hv, h⟩ := require_next h
  · exact .failed ..
  cases h
  rw [State.begin_upd_done hc]
  exact .done hc _ _ (.lset _ _ _ _ (by simpa using hb) (of_decide_eq_true hn))

theorem execLcount_to {c n : Nat} {s t : State} (h : execLcount c n s = .next t) :
    CmdTo (.lcount c n) c s t := by
  obtain rfl | ⟨hc, h⟩ := onChannel_next h
  · exact .failed ..
  obtain ⟨-, rfl⟩ | ⟨hb, h⟩ := require_next h
  · exact .failed ..
  obtain ⟨-, rfl⟩ | ⟨hn, h⟩ := require_next h
  · exact .failed ..
  simp only [Bool.and_eq_true, decide_eq_true_eq] at hn
  cases h
  rw [State.begin_upd_done hc]
  exact .done hc _ _ (.lcount _ _ (by simpa using hb) (Nat.pos_of_ne_zero hn.1) hn.2)

theorem execLget_to {c : Nat} {a : ListArray} {k : Nat} {s t : State} (h : execLget c a k s = .next t) :
    CmdTo (.lget c a k) c s t := by
  obtain rfl | ⟨hc, h⟩ := onChannel_next h
  · exact .failed ..
  obtain ⟨-, rfl⟩ | ⟨hn, h⟩ := require_next h
  · exact .failed ..
  cases h; exact .answer _

theorem execLstart_to {c : Nat} {s t : State} (h : execLstart c s = .next t) :
    CmdTo (.lstart c) c s t := by
  obtain rfl | ⟨hc, h⟩ := onChannel_next h
  · exact .failed ..
  obtain ⟨-, rfl⟩ | ⟨hh, h⟩ := require_next h
  · exact .failed ..
  obtain ⟨-, rfl⟩ | ⟨hb, h⟩ := require_next h
  · exact .failed ..
  obtain ⟨-, rfl⟩ | ⟨hl, h⟩ := require_next h
  · exact .failed ..
  cases h
  rw [listStart, State.begin_upd_done hc]
  exact .done hc _ _ (.lstart _ _ _ hl)

theorem execLsaved_to {c : Nat} {s t : State} (h : execLsaved c s = .next t) :
    CmdTo (.lsaved c) c s t := by
  obtain rfl | ⟨hc, h⟩ := onChannel_next h
  · exact .failed ..
  cases h
  rw [State.begin_upd_done hc]
  exact .done hc _ _ (.lsaved ..)

theorem execRd_to {c reg : Nat} {s t : State} (h : execRd c reg s = .next t) : CmdTo (.rd c reg) c s t := by
  unfold execRd at h
  split at h
  · obtain ⟨-, rfl⟩ | ⟨-, h⟩ := require_next h
    · exact .failed ..
    split at h
    · cases h; exact .answer _
    · cases h; exact .failed ..
  · obtain rfl | ⟨hc, h⟩ := onChannel_next h
    · exact .failed ..
    split at h
    · cases h; exact .answer _
    · cases h; exact .failed ..

/-! ### Any command -/

/-- What a command that names no channel can leave: the channels as they are, or the channels after the
trigger's execution, an abort, or a tick. -/
inductive GlobalTo (s : State) : Instr → State → Prop where
  | keep (i : Instr) (t : State) (hc : t.cfg = s.cfg) (hp : t.pins = s.pins) (hq : t.port = s.port)
      (h : t.chans = s.chans) : GlobalTo s i t
  | start (i : Instr) (s1 : State) (hi : i = .init ∨ ∃ n, i = .trg n true) (h1 : s1.cfg = s.cfg)
      (h2 : s1.pins = s.pins) (h3 : s1.port = s.port) (h4 : s1.chans = s.chans) :
      GlobalTo s i (startImmediately s1.currentPrecs s1)
  | tabort : GlobalTo s .tabort (triggerAbort s.begin)
  | labort : GlobalTo s .labort (triggerAbort s.begin)
  | labortLists : GlobalTo s .labort (listAbortAll s.begin)
  | tick (h : partnersPresent s = true) : GlobalTo s .tick (tickAll s.begin)

theorem execInit_to {s t : State} (h : execInit s = .next t) : GlobalTo s .init t := by
  unfold execInit at h
  obtain ⟨-, rfl⟩ | ⟨-, h⟩ := require_next h
  · exact .keep _ _ rfl rfl rfl rfl
  obtain ⟨-, rfl⟩ | ⟨-, h⟩ := require_next h
  · exact .keep _ _ rfl rfl rfl rfl
  cases h
  split
  · exact .start _ s.begin (.inl rfl) rfl rfl rfl rfl
  · exact .keep _ _ rfl rfl rfl rfl

theorem execTrg_to {n : Nat} {b : Bool} {s t : State} (h : execTrg n b s = .next t) :
    GlobalTo s (.trg n b) t := by
  unfold execTrg at h
  obtain ⟨-, rfl⟩ | ⟨-, h⟩ := require_next h
  · exact .keep _ _ rfl rfl rfl rfl
  cases h
  cases b
  · exact .keep _ _ rfl rfl rfl rfl
  · rw [if_pos rfl]
    unfold trigDelayCheck
    split
    · exact .start _ { s.begin with trigState := .triggered, trigTime := s.pins.nowUs } (.inr ⟨n, rfl⟩) rfl rfl
        rfl rfl
    · exact .keep _ _ rfl rfl rfl rfl

theorem execLabort_to {s t : State} (h : execLabort s = .next t) : GlobalTo s .labort t := by
  unfold execLabort at h
  cases h
  split
  · exact .labort
  · exact .labortLists

theorem execTick_to {s t : State} (h : execTick s = .next t) : GlobalTo s .tick t := by
  unfold execTick at h
  split at h
  · rename_i hp
    cases h; exact .tick hp
  · cases h

/-- Every command that answers a next state does to it what `CmdTo` or `GlobalTo` says. -/
theorem exec_to {i : Instr} {s t : State} (h : exec i s = .next t) : (∃ c, CmdTo i c s t) ∨ GlobalTo s i t := by
  cases i with
  | fadd => exact .inl ⟨_, execFadd_to h⟩
  | faddr => exact .inl ⟨_, execFaddr_to h⟩
  | frst => exact .inl ⟨_, execFrst_to h⟩
  | calpt => exact .inl ⟨_, execCalpt_to h⟩
  | calcommit => exact .inl ⟨_, execCalcommit_to h⟩
  | calclr => exact .inl ⟨_, execCalclr_to h⟩
  | calen => exact .inl ⟨_, execCalen_to h⟩
  | tophys => exact .inl ⟨_, execTophys_to h⟩
  | toraw => exact .inl ⟨_, execToraw_to h⟩
  | rmode => exact .inl ⟨_, execRmode_to h⟩
  | rauto => exact .inl ⟨_, execRauto_to h⟩
  | setv => exact .inl ⟨_, execSetv_to h⟩
  | seti => exact .inl ⟨_, execSeti_to h⟩
  | limv => exact .inl ⟨_, execLimv_to h⟩
  | limi => exact .inl ⟨_, execLimi_to h⟩
  | limp => exact .inl ⟨_, execLimp_to h⟩
  | outen => exact .inl ⟨_, execOuten_to h⟩
  | sense => exact .inl ⟨_, execSense_to h⟩
  | rprog => exact .inl ⟨_, execRprog_to h⟩
  | pstate => exact .inl ⟨_, execPstate_to h⟩
  | pdelay => exact .inl ⟨_, execPdelay_to h⟩
  | plevel => exact .inl ⟨_, execPlevel_to h⟩
  | pclr => exact .inl ⟨_, execPclr_to h⟩
  | pdis => exact .inl ⟨_, execPdis_to h⟩
  | tsrc => cases h; exact .inr (.keep _ _ rfl rfl rfl rfl)
  | tdelay => cases h; exact .inr (.keep _ _ rfl rfl rfl rfl)
  | tcont => cases h; exact .inr (.keep _ _ rfl rfl rfl rfl)
  | tmode => exact .inl ⟨_, execTmode_to h⟩
  | tlev => exact .inl ⟨_, execTlev_to h⟩
  | tout => exact .inl ⟨_, execTout_to h⟩
  | init => exact .inr (execInit_to h)
  | trg => exact .inr (execTrg_to h)
  | tabort => cases h; exact .inr .tabort
  | llen => exact .inl ⟨_, execLlen_to h⟩
  | lset => exact .inl ⟨_, execLset_to h⟩
  | lcount => exact .inl ⟨_, execLcount_to h⟩
  | lget => exact .inl ⟨_, execLget_to h⟩
  | lstart => exact .inl ⟨_, execLstart_to h⟩
  | labort => exact .inr (execLabort_to h)
  | lsaved => exact .inl ⟨_, execLsaved_to h⟩
  | tick => exact .inr (execTick_to h)
  | rd => exact .inl ⟨_, execRd_to h⟩

theorem CmdTo.cfg {i : Instr} {c : Nat} {s t : State} (h : CmdTo i c s t) : t.cfg = s.cfg := by rw [h.frame]

/-- A property of a channel that every command and every move of a tick keeps is kept by `exec`. -/
theorem exec_all {P : Params → Channel → Prop} (hC : ∀ cfg c i a b, CmdMove cfg c i a b → P cfg a → P cfg b)
    (hS : ∀ cfg a b, ScanMove cfg a b → P cfg a → P cfg b) (hR : ∀ cfg a b, RunMove cfg a b → P cfg a → P cfg b)
    {i : Instr} {s t : State} (h : exec i s = .next t) (hs : ∀ ch ∈ s.chans, P s.cfg ch) :
    t.cfg = s.cfg ∧ ∀ ch ∈ t.chans, P s.cfg ch := by
  have abort : ∀ ch ∈ (triggerAbort s.begin).chans, P s.cfg ch :=
    (triggerAbort_run s.begin).all (hR _) hs
  obtain ⟨c, hc⟩ | hg := exec_to h
  · refine ⟨hc.cfg, fun ch hch => ?_⟩
    obtain ⟨c', hc', rfl⟩ := State.mem_chans hch
    rw [hc.nCh] at hc'
    by_cases e : c' = c
    · subst e; exact hC _ _ _ _ _ hc.named (hs _ (State.chan_mem hc'))
    · rw [hc.other c' e]; exact hs _ (State.chan_mem hc')
  · cases hg with
    | keep _ _ hc _ _ h => exact ⟨hc, h ▸ hs⟩
    | start _ s1 _ h1 _ _ h4 =>
      have hr := startImmediately_run s1.currentPrecs s1
      refine ⟨hr.frame.cfg.trans h1, hr.all (h1 ▸ hR _) ?_⟩
      rw [h4]; exact hs
    | tabort => exact ⟨rfl, abort⟩
    | labort => exact ⟨rfl, abort⟩
    | labortLists =>
      refine ⟨rfl, fun ch hch => ?_⟩
      obtain ⟨a, ha, rfl⟩ := List.mem_map.mp hch
      exact hR _ _ _ (.stop a) (hs _ ha)
    | tick _ => exact ⟨(tickAll_frame s.begin).cfg, tickAll_all (s := s.begin) (hS _) (hR _) hs⟩

/-- The same for a step: it keeps such a property of every channel. -/
theorem step_all {P : Params → Channel → Prop} (hC : ∀ cfg c i a b, CmdMove cfg c i a b → P cfg a → P cfg b)
    (hS : ∀ cfg a b, ScanMove cfg a b → P cfg a → P cfg b) (hR : ∀ cfg a b, RunMove cfg a b → P cfg a → P cfg b)
    {s t : State} (h : step s = .next t) (hs : ∀ ch ∈ s.chans, P s.cfg ch) :
    t.cfg = s.cfg ∧ ∀ ch ∈ t.chans, P s.cfg ch := by
  unfold step stepPort at h
  split at h
  · cases h; exact ⟨rfl, hs⟩
  · unfold runWord at h
    split at h
    · exact exec_all hC hS hR (s := s.accept _ _) h hs
    · cases h; exact ⟨rfl, hs⟩

end Sys2Proof.Machine
end

