-- ==== Sys2Proof/Laws/Encoding.lean ====
section
/-! SUPPORT. The fields of a command word and the word of its fields are inverse to each other (R80). -/

namespace Sys2Proof

/-- The bits of a word, field by field (R80). -/
theorem Fields.word_getLsbD (f : Fields) (i : Nat) :
    f.word.getLsbD i =
      if i < 32 then f.imm.getLsbD i else if i < 48 then f.idx.getLsbD (i - 32)
      else if i < 52 then f.sel.getLsbD (i - 48) else if i < 56 then f.ch.getLsbD (i - 52)
      else f.op.getLsbD (i - 56) := by
  simp only [Fields.word, BitVec.getLsbD_append]
  by_cases h1 : i < 32 <;> by_cases h2 : i < 48 <;> by_cases h3 : i < 52 <;> by_cases h4 : i < 56 <;>
    first
    | omega
    | (simp only [h1, h2, h3, h4, if_true, if_false]
       repeat (first | rw [if_pos (by omega)] | rw [if_neg (by omega)])
       try exact congrArg _ (by omega))

/-- The fields of the word with given fields. -/
@[simp] theorem Fields.ofWord_word (f : Fields) : Fields.ofWord f.word = f := by
  obtain ⟨a,b,c,d,e⟩ := f
  simp only [Fields.ofWord, Fields.mk.injEq]
  refine ⟨?_,?_,?_,?_,?_⟩ <;>
  · apply BitVec.eq_of_getLsbD_eq
    intro i hi
    simp only [BitVec.getLsbD_extractLsb', Fields.word_getLsbD, hi, decide_true, Bool.true_and]
    repeat (first | rw [if_pos (by omega)] | rw [if_neg (by omega)])
    congr 1; try omega

/-- The word with the fields of a word. -/
@[simp] theorem Fields.word_ofWord (w : CmdWord) : (Fields.ofWord w).word = w := by
  apply BitVec.eq_of_getLsbD_eq
  intro i hi
  rw [Fields.word_getLsbD]
  simp only [Fields.ofWord, BitVec.getLsbD_extractLsb']
  repeat' split
  all_goals
    rw [decide_eq_true (by omega), Bool.true_and]; congr 1; omega

end Sys2Proof
end

