-- ==== Sys2Proof/Laws/PerInstr.lean ====
section
/-! SUPPORT. Statements about every command as syntax, one lemma per constructor of `Instr`. -/

namespace Sys2Proof

namespace Laws

/-- The row of R84 that a command is encoded with. -/
def InRow (op : Opcode) (i : Instr) : Prop :=
  i.fields.op = op.byte ∧ op.format.reservedZero i.fields = true

/-- The command's word uses one row of R84: its opcode byte, and zero in every field that the row reserves
(R82). -/
def FieldsOfItsRow.Statement (i : Instr) : Prop := ∃ op : Opcode, InRow op i

theorem FieldsOfItsRow.fadd (c : Nat) (q : Quantity) (v : Int) : FieldsOfItsRow.Statement (.fadd c q v) :=
  ⟨.fadd, rfl, rfl⟩

theorem FieldsOfItsRow.faddr (c : Nat) (q : Quantity) (v : Int) : FieldsOfItsRow.Statement (.faddr c q v) :=
  ⟨.faddr, rfl, rfl⟩

theorem FieldsOfItsRow.frst (c : Nat) (q : Quantity) : FieldsOfItsRow.Statement (.frst c q) :=
  ⟨.frst, rfl, rfl⟩

theorem FieldsOfItsRow.calpt (c : Nat) (set : ConvSet) (f : CalField) (v : Int) :
    FieldsOfItsRow.Statement (.calpt c set f v) :=
  ⟨.calpt, rfl, rfl⟩

theorem FieldsOfItsRow.calcommit (c : Nat) (set : ConvSet) : FieldsOfItsRow.Statement (.calcommit c set) :=
  ⟨.calcommit, rfl, rfl⟩

theorem FieldsOfItsRow.calclr (c : Nat) (set : ConvSet) : FieldsOfItsRow.Statement (.calclr c set) :=
  ⟨.calclr, rfl, rfl⟩

theorem FieldsOfItsRow.calen (c : Nat) (b : Bool) : FieldsOfItsRow.Statement (.calen c b) :=
  ⟨.calen, rfl, by cases b <;> rfl⟩

theorem FieldsOfItsRow.tophys (c : Nat) (set : ConvSet) (v : Int) :
    FieldsOfItsRow.Statement (.tophys c set v) :=
  ⟨.tophys, rfl, rfl⟩

theorem FieldsOfItsRow.toraw (c : Nat) (set : ConvSet) (v : Int) :
    FieldsOfItsRow.Statement (.toraw c set v) :=
  ⟨.toraw, rfl, rfl⟩

theorem FieldsOfItsRow.rmode (c : Nat) (m : RangeMode) : FieldsOfItsRow.Statement (.rmode c m) :=
  ⟨.rmode, rfl, rfl⟩

theorem FieldsOfItsRow.rauto (c : Nat) (b : Bool) : FieldsOfItsRow.Statement (.rauto c b) :=
  ⟨.rauto, rfl, by cases b <;> rfl⟩

theorem FieldsOfItsRow.setv (c : Nat) (v : Int) : FieldsOfItsRow.Statement (.setv c v) := ⟨.setv, rfl, rfl⟩

theorem FieldsOfItsRow.seti (c : Nat) (v : Int) : FieldsOfItsRow.Statement (.seti c v) := ⟨.seti, rfl, rfl⟩

theorem FieldsOfItsRow.limv (c : Nat) (v : Int) : FieldsOfItsRow.Statement (.limv c v) := ⟨.limv, rfl, rfl⟩

theorem FieldsOfItsRow.limi (c : Nat) (v : Int) : FieldsOfItsRow.Statement (.limi c v) := ⟨.limi, rfl, rfl⟩

theorem FieldsOfItsRow.limp (c : Nat) (v : Int) : FieldsOfItsRow.Statement (.limp c v) := ⟨.limp, rfl, rfl⟩

theorem FieldsOfItsRow.outen (c : Nat) (b : Bool) : FieldsOfItsRow.Statement (.outen c b) :=
  ⟨.outen, rfl, by cases b <;> rfl⟩

theorem FieldsOfItsRow.sense (c : Nat) (b : Bool) : FieldsOfItsRow.Statement (.sense c b) :=
  ⟨.sense, rfl, by cases b <;> rfl⟩

theorem FieldsOfItsRow.rprog (c : Nat) (b : Bool) : FieldsOfItsRow.Statement (.rprog c b) :=
  ⟨.rprog, rfl, by cases b <;> rfl⟩

theorem FieldsOfItsRow.pstate (c : Nat) (kind : Kind) (b : Bool) :
    FieldsOfItsRow.Statement (.pstate c kind b) :=
  ⟨.pstate, rfl, by cases b <;> rfl⟩

theorem FieldsOfItsRow.pdelay (c : Nat) (kind : Kind) (v : Int) :
    FieldsOfItsRow.Statement (.pdelay c kind v) :=
  ⟨.pdelay, rfl, rfl⟩

theorem FieldsOfItsRow.plevel (c : Nat) (kind : Kind) (v : Int) :
    FieldsOfItsRow.Statement (.plevel c kind v) :=
  ⟨.plevel, rfl, rfl⟩

theorem FieldsOfItsRow.pclr (c : Nat) (b : Bool) : FieldsOfItsRow.Statement (.pclr c b) :=
  ⟨.pclr, rfl, by cases b <;> rfl⟩

theorem FieldsOfItsRow.pdis (c : Nat) : FieldsOfItsRow.Statement (.pdis c) := ⟨.pdis, rfl, rfl⟩

theorem FieldsOfItsRow.tsrc (src : Nat) : FieldsOfItsRow.Statement (.tsrc src) := ⟨.tsrc, rfl, rfl⟩

theorem FieldsOfItsRow.tdelay (n : Nat) : FieldsOfItsRow.Statement (.tdelay n) := ⟨.tdelay, rfl, rfl⟩

theorem FieldsOfItsRow.tcont (b : Bool) : FieldsOfItsRow.Statement (.tcont b) :=
  ⟨.tcont, rfl, by cases b <;> rfl⟩

theorem FieldsOfItsRow.tmode (c : Nat) (q : Quantity) (m : TrigMode) :
    FieldsOfItsRow.Statement (.tmode c q m) :=
  ⟨.tmode, rfl, rfl⟩

theorem FieldsOfItsRow.tlev (c : Nat) (q : Quantity) (v : Int) : FieldsOfItsRow.Statement (.tlev c q v) :=
  ⟨.tlev, rfl, rfl⟩

theorem FieldsOfItsRow.tout (c : Nat) (b : Bool) : FieldsOfItsRow.Statement (.tout c b) :=
  ⟨.tout, rfl, by cases b <;> rfl⟩

theorem FieldsOfItsRow.init : FieldsOfItsRow.Statement .init := ⟨.init, rfl, by decide⟩

theorem FieldsOfItsRow.trg (src : Nat) (b : Bool) : FieldsOfItsRow.Statement (.trg src b) :=
  ⟨.trg, rfl, by cases b <;> rfl⟩

theorem FieldsOfItsRow.tabort : FieldsOfItsRow.Statement .tabort := ⟨.tabort, rfl, by decide⟩

theorem FieldsOfItsRow.llen (c : Nat) (a : ListArray) (len : Nat) :
    FieldsOfItsRow.Statement (.llen c a len) :=
  ⟨.llen, rfl, rfl⟩

theorem FieldsOfItsRow.lset (c : Nat) (a : ListArray) (k : Nat) (v : Int) :
    FieldsOfItsRow.Statement (.lset c a k v) :=
  ⟨.lset, rfl, rfl⟩

theorem FieldsOfItsRow.lcount (c : Nat) (n : Nat) : FieldsOfItsRow.Statement (.lcount c n) :=
  ⟨.lcount, rfl, rfl⟩

theorem FieldsOfItsRow.lget (c : Nat) (a : ListArray) (k : Nat) : FieldsOfItsRow.Statement (.lget c a k) :=
  ⟨.lget, rfl, rfl⟩

theorem FieldsOfItsRow.lstart (c : Nat) : FieldsOfItsRow.Statement (.lstart c) := ⟨.lstart, rfl, rfl⟩

theorem FieldsOfItsRow.labort : FieldsOfItsRow.Statement .labort := ⟨.labort, rfl, by decide⟩

theorem FieldsOfItsRow.lsaved (c : Nat) : FieldsOfItsRow.Statement (.lsaved c) := ⟨.lsaved, rfl, rfl⟩

theorem FieldsOfItsRow.tick : FieldsOfItsRow.Statement .tick := ⟨.tick, rfl, by decide⟩

theorem FieldsOfItsRow.rd (c : Nat) (reg : Nat) : FieldsOfItsRow.Statement (.rd c reg) := ⟨.rd, rfl, rfl⟩

end Laws

end Sys2Proof
end

