-- ==== Sys2Proof/Tests/Slice0.lean ====
section
/-! SUPPORT. Tests: ill-formed terms, words written out from R80 and R84, single steps with results taken
from the spec's derived vectors (`95` to `98`), and a witness for the hypotheses of every obligation. -/

namespace Sys2Proof.Tests

open Machine

-- one theorem after another: elaborated side by side, their kernel evaluations take a thread each
set_option Elab.async false

/-! ### Helpers -/

/-- What a command answers: response and events. -/
def obs (o : Out) : Option (Response × List Event) :=
  match o with
  | .next t => some (t.resp, t.events)
  | .fault _ => none
  | .refused _ => none

/-- The state after a command that completes. -/
def after (i : Instr) (s : State) : State :=
  match exec i s with
  | .next t => t
  | .fault _ => s
  | .refused _ => s

/-- The reset state with its last channel changed. -/
def last (f : Channel → Channel) : State := State.reset.upd 1 f

/-- A state with the same change to the pins of both channels. -/
def pinned (s : State) (f : ChanPins → ChanPins) : State :=
  { s with pins := { s.pins with chan := s.pins.chan.map f } }

/-- A state at another microsecond time. -/
def atUs (s : State) (t : Time) : State := { s with pins := { s.pins with nowUs := t } }

/-- The set of V-CAL-2, committed. -/
def calSet : CalSet := ⟨true, 1000000, 1020000, 1010000, 38000000, 38100000, 38050000, 100000, 39000000⟩

/-- A channel with that set loaded on voltage, calibration on or off. -/
def calibrated (en : Bool) (ch : Channel) : Channel :=
  { ch with cal := { ch.cal with u := calSet }, calEn := en }

/-! ### WellFormed: every check refuses an operand one beyond its field -/

theorem test_channel_field_is_checked :
    ([.fadd 16 .u 0, .faddr 16 .u 0, .frst 16 .u, .calpt 16 .u .minDac 0, .calcommit 16 .u, .calclr 16 .u,
      .calen 16 true, .tophys 16 .u 0, .toraw 16 .u 0, .rmode 16 .useBoth, .rauto 16 true, .setv 16 0,
      .seti 16 0, .limv 16 0, .limi 16 0, .limp 16 0, .outen 16 true, .sense 16 true, .rprog 16 true,
      .pstate 16 .ovp true, .pdelay 16 .ovp 0, .plevel 16 .ovp 0, .pclr 16 true, .pdis 16, .tsrc 16,
      .tmode 16 .u .list, .tlev 16 .u 0, .tout 16 true, .trg 16 true, .llen 16 .volt 0, .lset 16 .volt 0 0,
      .lcount 16 0, .lget 16 .volt 0, .lstart 16, .lsaved 16, .rd 16 0] : List Instr).all (!·.wf) = true := by
  decide

theorem test_index_field_is_checked :
    ([.llen 0 .volt 65536, .lset 0 .volt 65536 0, .lget 0 .volt 65536, .rd 0 65536]
      : List Instr).all (!·.wf) = true := by decide

theorem test_signed_immediate_is_checked :
    ([2147483648, -2147483649] : List Int).all (fun v =>
      ([.fadd 0 .u v, .faddr 0 .u v, .calpt 0 .u .minDac v, .tophys 0 .u v, .toraw 0 .u v, .setv 0 v,
        .seti 0 v, .limv 0 v, .limi 0 v, .limp 0 v, .pdelay 0 .ovp v, .plevel 0 .ovp v, .tlev 0 .u v,
        .lset 0 .volt 0 v, .lset 0 .curr 0 v] : List Instr).all (!·.wf)) = true := by decide

theorem test_unsigned_immediate_is_checked :
    ([.tdelay 4294967296, .lcount 0 4294967296, .lset 0 .dwell 0 4294967296, .lset 0 .dwell 0 (-1)]
      : List Instr).all (!·.wf) = true := by decide

/-! ### Decode: words written out from R80 and R84 -/

theorem test_decode_filter :
    decode 0x1001000000003039 = .ok (.fadd 0 .i 12345) ∧
    decode 0x11F00000FFFFFFFF = .ok (.faddr 15 .u (-1)) ∧
    decode 0x1211000000000000 = .ok (.frst 1 .i) := by decide

theorem test_decode_calibration :
    decode 0x2012000700000005 = .ok (.calpt 1 .il .rangeMax 5) ∧
    decode 0x2101000000000000 = .ok (.calcommit 0 .ih) ∧
    decode 0x2212000000000000 = .ok (.calclr 1 .il) ∧
    decode 0x2310000000000001 = .ok (.calen 1 true) ∧
    decode 0x24020000FFFFFFFB = .ok (.tophys 0 .il (-5)) ∧
    decode 0x2510000001312D00 = .ok (.toraw 1 .u 20000000) := by decide

theorem test_decode_ranging :
    decode 0x3011000000000000 = .ok (.rmode 1 .alwaysLow) ∧
    decode 0x3110000000000000 = .ok (.rauto 1 false) := by decide

theorem test_decode_channel :
    decode 0x4010000000BC5EA8 = .ok (.setv 1 12345000) ∧
    decode 0x410000007FFFFFFF = .ok (.seti 0 2147483647) ∧
    decode 0x4220000080000000 = .ok (.limv 2 (-2147483648)) ∧
    decode 0x4330000000000001 = .ok (.limi 3 1) ∧
    decode 0x4440000000000002 = .ok (.limp 4 2) ∧
    decode 0x4550000000000001 = .ok (.outen 5 true) ∧
    decode 0x4660000000000000 = .ok (.sense 6 false) ∧
    decode 0x4770000000000001 = .ok (.rprog 7 true) := by decide

theorem test_decode_protection :
    decode 0x5001000000000001 = .ok (.pstate 0 .ocp true) ∧
    decode 0x5112000000004E20 = .ok (.pdelay 1 .opp 20000) ∧
    decode 0x5212000005F5E100 = .ok (.plevel 1 .opp 100000000) ∧
    decode 0x5310000000000001 = .ok (.pclr 1 true) ∧
    decode 0x5410000000000000 = .ok (.pdis 1) := by decide

theorem test_decode_trigger :
    decode 0x600F000000000000 = .ok (.tsrc 15) ∧
    decode 0x61000000FFFFFFFF = .ok (.tdelay 4294967295) ∧
    decode 0x6200000000000001 = .ok (.tcont true) ∧
    decode 0x6311000100000000 = .ok (.tmode 1 .i .list) ∧
    decode 0x6411000000000007 = .ok (.tlev 1 .i 7) ∧
    decode 0x6510000000000001 = .ok (.tout 1 true) ∧
    decode 0x6600000000000000 = .ok .init ∧
    decode 0x6701000000000001 = .ok (.trg 1 true) ∧
    decode 0x6800000000000000 = .ok .tabort := by decide

theorem test_decode_list :
    decode 0x7011001000000000 = .ok (.llen 1 .volt 16) ∧
    decode 0x7111000F02625A00 = .ok (.lset 1 .volt 15 40000000) ∧
    decode 0x7210000080000000 = .ok (.lcount 1 2147483648) ∧
    decode 0x7312000300000000 = .ok (.lget 1 .curr 3) ∧
    decode 0x7410000000000000 = .ok (.lstart 1) ∧
    decode 0x7500000000000000 = .ok .labort ∧
    decode 0x7610000000000000 = .ok (.lsaved 1) := by decide

theorem test_decode_system :
    decode 0x8000000000000000 = .ok .tick ∧
    decode 0x8110005200000000 = .ok (.rd 1 0x52) ∧
    decode 0x8100010400000000 = .ok (.rd 0 0x104) := by decide

/-- V-ENC-1: the words that are illegal, by the first check that fails. -/
theorem test_illegal_words :
    ([0x0000000000000000, 0x1300000000000000, 0x9000000000000000, 0xFF00000000000000] : List CmdWord).all
      (fun w => decide (decode w = .error .unknownOpcode)) = true ∧
    ([0x4001000000000000, 0x4000000100000000, 0x4500000000000002, 0x4500000000000003, 0x8010000000000000,
      0x8000000000000001, 0x6610000000000000, 0x4021000000000000] : List CmdWord).all
      (fun w => decide (decode w = .error .reservedField)) = true ∧
    ([0x1002000000000000, 0x5003000000000001, 0x2003000000000000, 0x3003000000000000, 0x7003000000000000,
      0x1052000000000000] : List CmdWord).all (fun w => decide (decode w = .error .badSelector)) = true ∧
    ([0x2000000800000000, 0x6300000300000000] : List CmdWord).all
      (fun w => decide (decode w = .error .badIndex)) = true := by decide

/-- R64: the bytes of `SETV 0, 5000000`, lowest first. -/
theorem test_word_bytes :
    bytesOfWord 0x40000000004C4B40 = [0x40, 0x4B, 0x4C, 0, 0, 0, 0, 0x40] ∧
    decodeBytes [0x40, 0x4B, 0x4C, 0, 0, 0, 0, 0x40] = .ok (.setv 0 5000000) ∧
    decodeBytes [0x40, 0x4B] = .error .badLength := by decide

/-- `match` and `mask` as `opcode_table.json` prints them. -/
theorem test_match_and_mask :
    Opcode.all.map (fun op => (op.matchWord, op.maskWord)) =
      [(0x1000000000000000, 0xFF00FFFF00000000), (0x1100000000000000, 0xFF00FFFF00000000),
       (0x1200000000000000, 0xFF00FFFFFFFFFFFF), (0x2000000000000000, 0xFF00000000000000),
       (0x2100000000000000, 0xFF00FFFFFFFFFFFF), (0x2200000000000000, 0xFF00FFFFFFFFFFFF),
       (0x2300000000000000, 0xFF0FFFFFFFFFFFFE), (0x2400000000000000, 0xFF00FFFF00000000),
       (0x2500000000000000, 0xFF00FFFF00000000), (0x3000000000000000, 0xFF00FFFFFFFFFFFF),
       (0x3100000000000000, 0xFF0FFFFFFFFFFFFE), (0x4000000000000000, 0xFF0FFFFF00000000),
       (0x4100000000000000, 0xFF0FFFFF00000000), (0x4200000000000000, 0xFF0FFFFF00000000),
       (0x4300000000000000, 0xFF0FFFFF00000000), (0x4400000000000000, 0xFF0FFFFF00000000),
       (0x4500000000000000, 0xFF0FFFFFFFFFFFFE), (0x4600000000000000, 0xFF0FFFFFFFFFFFFE),
       (0x4700000000000000, 0xFF0FFFFFFFFFFFFE), (0x5000000000000000, 0xFF00FFFFFFFFFFFE),
       (0x5100000000000000, 0xFF00FFFF00000000), (0x5200000000000000, 0xFF00FFFF00000000),
       (0x5300000000000000, 0xFF0FFFFFFFFFFFFE), (0x5400000000000000, 0xFF0FFFFFFFFFFFFF),
       (0x6000000000000000, 0xFFF0FFFFFFFFFFFF), (0x6100000000000000, 0xFFFFFFFF00000000),
       (0x6200000000000000, 0xFFFFFFFFFFFFFFFE), (0x6300000000000000, 0xFF000000FFFFFFFF),
       (0x6400000000000000, 0xFF00FFFF00000000), (0x6500000000000000, 0xFF0FFFFFFFFFFFFE),
       (0x6600000000000000, 0xFFFFFFFFFFFFFFFF), (0x6700000000000000, 0xFFF0FFFFFFFFFFFE),
       (0x6800000000000000, 0xFFFFFFFFFFFFFFFF), (0x7000000000000000, 0xFF000000FFFFFFFF),
       (0x7100000000000000, 0xFF00000000000000), (0x7200000000000000, 0xFF0FFFFF00000000),
       (0x7300000000000000, 0xFF000000FFFFFFFF), (0x7400000000000000, 0xFF0FFFFFFFFFFFFF),
       (0x7500000000000000, 0xFFFFFFFFFFFFFFFF), (0x7600000000000000, 0xFF0FFFFFFFFFFFFF),
       (0x8000000000000000, 0xFFFFFFFFFFFFFFFF), (0x8100000000000000, 0xFF0F0000FFFFFFFF)] := by decide

/-! ### Single steps, against the spec's derived vectors -/

/-- V-ENC-1, first row, through the port. -/
theorem test_step_runs_the_presented_word :
    obs (step (State.reset.withFetchWord 64 0x40000000004C4B40)) =
      some (⟨.ok, 0⟩, [.dacWrite 0 .u 6250, .save]) ∧
    obs (step (State.reset.withFetchWord 64 0x4500000000000002)) = some (⟨.illegal, 0⟩, []) := by
  decide +kernel

/-- V-FLT-1, V-FLT-3. -/
theorem test_fadd :
    obs (exec (.fadd 0 .u 5000400) State.reset) = some (⟨.ok, 5000000⟩, []) ∧
    obs (exec (.fadd 0 .u 5004000) (after (.fadd 0 .u 5000400) State.reset)) = some (⟨.ok, 5001000⟩, []) ∧
    obs (exec (.fadd 1 .i 12345) (last fun ch => { ch with range := .low })) = some (⟨.ok, 12345⟩, []) := by
  decide +kernel

/-- V-FLT-2. -/
theorem test_faddr_and_frst :
    let s := after (.faddr 0 .u 2000000) (after (.fadd 0 .u 1000000) State.reset)
    s.resp = ⟨.ok, 2000000⟩ ∧ (s.chan 0).u.mon = 1000000 ∧ (s.chan 0).u.monDac = 2000000 ∧
    ((after (.frst 0 .u) s).chan 0).u.mon = 0 ∧ ((after (.frst 0 .u) s).chan 0).u.fd.seeded = false ∧
    obs (exec (.fadd 0 .i (-1500)) State.reset) = some (⟨.ok, 0xFFFFF830⟩, []) := by decide +kernel

/-- V-CAL-2: `CALPT` un-commits, `CALCOMMIT` needs a range, `CALCLR` keeps the coordinates. -/
theorem test_calibration_set_commands :
    let s := State.reset.upd 0 (calibrated false)
    ((after (.calpt 0 .u .minVal 7) s).chan 0).cal.u = { calSet with present := false, minVal := 7 } ∧
    obs (exec (.calcommit 0 .u) State.reset) = some (⟨.calInvalid, 0⟩, []) ∧
    obs (exec (.calcommit 0 .u) s) = some (⟨.ok, 0⟩, []) ∧
    ((after (.calclr 0 .u) s).chan 0).cal.u = { calSet with present := false } := by decide +kernel

/-- V-CAL-2. -/
theorem test_calen :
    let s := atUs (State.reset.upd 0 (calibrated false)) 500
    obs (exec (.calen 0 true) State.reset) = some (⟨.noCal, 0⟩, []) ∧
    obs (exec (.calen 0 true) s) =
      some (⟨.ok, 0⟩, [.dacWrite 0 .u 102, .save, .dacWrite 0 .i 0, .save]) ∧
    ((after (.calen 0 true) s).chan 0).u.limit = 39000000 ∧
    ((after (.calen 0 true) s).chan 0).u.set = 100000 ∧
    ((after (.calen 0 true) s).chan 0).rngEvalTime = 500 := by decide +kernel

/-- V-CAL-1, V-CAL-2, V-ENC-2. -/
theorem test_tophys :
    obs (exec (.tophys 0 .u 60000) State.reset) = some (⟨.ok, 48000000⟩, []) ∧
    obs (exec (.tophys 0 .il (-5)) State.reset) = some (⟨.ok, 0xFFFFFFFB⟩, []) ∧
    obs (exec (.tophys 0 .u 25000) (State.reset.upd 0 (calibrated true))) = some (⟨.ok, 20030508⟩, []) := by
  decide +kernel

/-- V-CAL-1, V-CAL-2: ties away from zero, the two clamps, and the calibrated line. -/
theorem test_toraw :
    ([399, 400, 1200, -1, 50000000] : List Int).map (fun v => obs (exec (.toraw 0 .u v) State.reset)) =
      ([0, 1, 2, 0, 50000] : List Val).map (fun d => some (⟨.ok, d⟩, [])) ∧
    obs (exec (.toraw 0 .u 20000000) (State.reset.upd 0 (calibrated true))) = some (⟨.ok, 24924⟩, []) := by
  decide +kernel

/-- V-RNG-1, V-RNG-3. -/
theorem test_rmode_and_rauto :
    obs (exec (.rmode 0 .useBoth) State.reset) =
      some (⟨.ok, 0⟩, [.digOut 0 .range true, .startSample 0 .uMon, .dacWrite 0 .i 0, .save]) ∧
    ((after (.rmode 0 .alwaysLow) (after (.seti 0 200000) State.reset)).chan 0).i.set = 50000 ∧
    ((after (.rmode 0 .alwaysLow) State.reset).chan 0).iMax = 50000 ∧
    ((after (.rauto 0 true) State.reset).chan 0).autoRange = true := by decide +kernel

/-- V-CH-1. -/
theorem test_setv :
    obs (exec (.setv 1 12345000) State.reset) = some (⟨.ok, 0⟩, [.dacWrite 1 .u 15431, .save]) ∧
    obs (exec (.setv 0 5000500) State.reset) = some (⟨.ok, 0⟩, [.dacWrite 0 .u 6251, .save]) ∧
    obs (exec (.setv 0 (-500)) State.reset) = some (⟨.range, 0⟩, []) ∧
    obs (exec (.setv 0 40000500) State.reset) = some (⟨.voltageLimit, 0⟩, []) := by decide +kernel

/-- V-CH-1, V-RNG-1. -/
theorem test_seti :
    obs (exec (.seti 0 1234567) State.reset) = some (⟨.ok, 0⟩, [.dacWrite 0 .i 12350, .save]) ∧
    obs (exec (.seti 0 5000499) (after (.setv 0 40000000) State.reset)) = some (⟨.powerLimit, 0⟩, []) ∧
    obs (exec (.seti 0 50001) (after (.rmode 0 .useBoth) State.reset)) =
      some (⟨.ok, 0⟩, [.digOut 0 .range false, .startSample 0 .uMon, .dacWrite 0 .i 500, .save]) := by
  decide +kernel

/-- V-CH-2, V-CH-3. -/
theorem test_limits :
    obs (exec (.limv 0 10000000) (after (.setv 0 12000000) State.reset)) =
      some (⟨.ok, 0⟩, [.dacWrite 0 .u 12500, .save]) ∧
    ((after (.limv 0 20000499) State.reset).chan 0).u.limit = 20000499 ∧
    ((after (.limi 0 9000000) State.reset).chan 0).i.limit = 5000000 ∧
    obs (exec (.limp 0 50000000) (after (.seti 0 5000000) (after (.setv 0 12000000) State.reset))) =
      some (⟨.ok, 0⟩, [.dacWrite 0 .i 41670, .save]) := by decide +kernel

/-- V-CH-4. -/
theorem test_outen :
    let on := after (.outen 0 true) (atUs State.reset 1000)
    on.events = [.digOut 0 .range false, .digOut 0 .dp true, .startSample 0 .uMon, .digOut 0 .output true,
      .pushEvent .outputEnabled 0, .save] ∧
    (on.chan 0).flagsWord = 0x000401 ∧
    ((after (.outen 0 false) (atUs on 4000)).chan 0).flagsWord = 0x010400 ∧
    ((after (.outen 0 false) (atUs on 4000)).chan 0).onTime = 3000 := by decide +kernel

/-- V-CH-4. -/
theorem test_sense_and_rprog :
    let s := after (.plevel 0 .ovp 15000000) (after (.setv 0 12000000) State.reset)
    obs (exec (.sense 0 true) State.reset) = some (⟨.ok, 0⟩, [.digOut 0 .sense true, .save]) ∧
    obs (exec (.rprog 0 true) s) =
      some (⟨.ok, 0⟩, [.digOut 0 .rprog true, .dacWrite 0 .u 0, .save]) ∧
    ((after (.rprog 0 true) s).chan 0).prot.ovp.level = 40000000 ∧
    (((after (.rprog 0 false) (after (.rprog 0 true) s)).chan 0).u.set) = 0 := by decide +kernel

/-- A channel of V-PROT-1 at 12 V: over-voltage on, level 10 V, delay 5000 us, alarmed since 1000. -/
def overVoltage (ch : Channel) : Channel :=
  { ch with
    outEn := true, adcAwait := some .uMon, u := { ch.u with mon := 12000000 }
    prot := { ch.prot with ovp := ⟨true, 5000, 10000000, false, true, 1000⟩ } }

/-- V-PROT-1: no trip one microsecond early, a trip on time. -/
theorem test_tick_trips :
    (((after .tick (atUs (last overVoltage) 5999)).chan 1).prot.ovp.tripped) = false ∧
    obs (exec .tick (atUs (last overVoltage) 6000)) =
      some (⟨.ok, 0⟩, [.startSample 0 .uMon, .digOut 1 .output false, .stopCalibration 1,
        .pushEvent .outputDisabled 1, .save, .pushEvent (.trip .ovp) 1]) ∧
    ((after .tick (atUs (last overVoltage) 6000)).chan 1).status = 1 := by decide +kernel

/-- The channel of V-PROT-1 after its trip. -/
def trippedState : State := after .tick (atUs (last overVoltage) 6000)

/-- V-PROT-6: what a latched trip refuses, and the clear. -/
theorem test_pclr_pdis_pstate :
    obs (exec (.outen 1 true) trippedState) = some (⟨.tripped, 0⟩, []) ∧
    obs (exec (.pdis 1) trippedState) = some (⟨.tripped, 0⟩, []) ∧
    obs (exec (.pstate 1 .ovp false) trippedState) = some (⟨.tripped, 0⟩, []) ∧
    obs (exec (.pclr 1 true) trippedState) = some (⟨.ok, 0⟩, [.clearOtp 1, .markLastAsRead, .save]) ∧
    ((after (.pclr 1 true) trippedState).chan 1).outEn = false ∧
    ((after (.pclr 1 true) trippedState).chan 1).prot.ovp = ⟨true, 5000, 10000000, false, false, 1000⟩ := by
  decide +kernel

/-- V-PROT-9: operand ranges. -/
theorem test_pdelay_and_plevel :
    obs (exec (.pdelay 0 .ocp 10000000) State.reset) = some (⟨.ok, 0⟩, [.save]) ∧
    obs (exec (.pdelay 0 .ocp 10000001) State.reset) = some (⟨.range, 0⟩, []) ∧
    ((after (.plevel 0 .opp 155000000) State.reset).chan 0).prot.opp.level = 155000000 ∧
    obs (exec (.plevel 0 .opp 155000001) State.reset) = some (⟨.range, 0⟩, []) := by decide +kernel

/-- V-TRG-1. -/
theorem test_trigger_settings :
    (after (.tsrc 15) State.reset).trigSource = 15 ∧
    (after (.tdelay 4294967295) State.reset).trigDelay = 0xFFFFFFFF ∧
    (after (.tcont true) State.reset).trigCont = true ∧
    ((after (.tmode 0 .u .step) State.reset).chan 0).trigFlagsWord = 0x000008 ∧
    ((after (.tmode 0 .i .step) State.reset).chan 0).trigFlagsWord = 0x000020 ∧
    ((after (.tlev 0 .u 5000400) State.reset).chan 0).trigU = 5000400 ∧
    ((after (.tout 0 true) State.reset).chan 0).trigOut = true := by decide +kernel

/-- The step channel of V-TRG-6. -/
def stepChannel (ch : Channel) : Channel :=
  { ch with trigModeU := .step, trigModeI := .step, trigU := 5000000, trigI := 1000000, trigOut := true }

/-- The list channel of V-TRG-6. -/
def listChannel (ch : Channel) : Channel :=
  { ch with
    trigModeU := .list, trigModeI := .list, trigOut := true
    list := ⟨⟨[(0, 1000)], [(0, 1000000), (1, 2000000)], [(0, 500000)]⟩, ⟨1, 2, 1⟩, 1, true⟩ }

/-- V-TRG-6 before its `INIT`. -/
def triggerState : State :=
  { (State.reset.upd 0 stepChannel).upd 1 listChannel with trigSource := 1 }

/-- V-TRG-1, V-TRG-6. -/
theorem test_init_trg_tabort :
    obs (exec .init State.reset) = some (⟨.trigAllFixed, 0⟩, []) ∧
    (after .init triggerState).trigState = .initiated ∧
    obs (exec (.trg 2 true) (after .init triggerState)) = some (⟨.trigIgnored, 0⟩, []) ∧
    (after (.trg 1 true) (after .init triggerState)).trigState = .executing ∧
    ((after (.trg 1 true) (after .init triggerState)).events.length = 20) ∧
    (after .tabort (after .init triggerState)).trigState = .idle := by decide +kernel

/-- The list of V-TRG-6 once it runs, at 1500 us. -/
def runningState : State := atUs (after (.trg 1 true) (after .init triggerState)) 1500

/-- V-TRG-6: the point of the first tick. -/
theorem test_tick_applies_a_point :
    (after .tick runningState).events =
      [.dacWrite 1 .u 1250, .save, .dacWrite 1 .i 5000, .save] ∧
    ((after .tick runningState).chan 1).cursor.it = 0 ∧
    ((after .tick runningState).chan 1).cursor.next = 2500 := by decide +kernel

/-- R170: a `TICK` that starts a list in `High` range zeroes its current, which selects `Low`, and still rounds
the first point's 1499 uA with the precision 1000 of the range it found. -/
theorem test_tick_keeps_its_precision :
    let s := after .tick
      { last (fun ch =>
          { listChannel ch with
            rangeMode := .useBoth, list := ⟨⟨[(0, 1000)], [(0, 1000000)], [(0, 1499)]⟩, ⟨1, 1, 1⟩, 1, true⟩ })
        with trigState := .triggered }
    (s.chan 1).cursor.it = 0 ∧ (s.chan 1).range = .low ∧ (s.chan 1).i.set = 1000 := by decide +kernel

/-- V-LST-2. -/
theorem test_list_commands :
    let s := after (.llen 0 .volt 2) State.reset
    obs (exec (.lset 0 .volt 0 1000000) State.reset) = some (⟨.range, 0⟩, []) ∧
    obs (exec (.lset 0 .volt 1 40000001) s) = some (⟨.range, 0⟩, []) ∧
    obs (exec (.lget 0 .volt 1) (after (.lset 0 .volt 1 40000000) s)) = some (⟨.ok, 40000000⟩, []) ∧
    obs (exec (.llen 0 .dwell 17) s) = some (⟨.range, 0⟩, []) ∧
    obs (exec (.lcount 0 65536) s) = some (⟨.range, 0⟩, []) ∧
    ((after (.lcount 0 65535) s).chan 0).list.count = 65535 ∧
    ((after (.lsaved 0) s).chan 0).list.changed = false := by decide +kernel

/-- V-LST-1, V-LST-2. -/
theorem test_lstart_and_labort :
    let s := last listChannel
    obs (exec (.lstart 0) State.reset) = some (⟨.listLengths, 0⟩, []) ∧
    ((after (.lstart 1) s).chan 1).cursor.counter = 1 ∧
    obs (exec (.lstart 1) (after (.lstart 1) s)) = some (⟨.busy, 0⟩, []) ∧
    ((after .labort (after (.lstart 1) s)).chan 1).cursor.counter = -1 := by decide +kernel

/-- V-RD-1, V-RD-2. -/
theorem test_rd :
    obs (exec (.rd 0 0x07) State.reset) = some (⟨.ok, 40000000⟩, []) ∧
    obs (exec (.rd 0 0x21) State.reset) = some (⟨.ok, 0x400000⟩, []) ∧
    obs (exec (.rd 0 0x09) State.reset) = some (⟨.range, 0⟩, []) ∧
    obs (exec (.rd 1 0x100) State.reset) = some (⟨.illegal, 0⟩, []) ∧
    obs (exec (.rd 0 0x105) State.reset) = some (⟨.range, 0⟩, []) := by decide +kernel

/-- R341 and R343 by number, and R88: events as words. -/
theorem test_event_words :
    Status.noCal.code = 0x11 ∧ Status.trigIgnored.code = 0x0F ∧
    (Event.dacWrite 1 .i 15431).word = 0x0111000000003C47 ∧
    (Event.digOut 0 .rprog true).word = 0x0204000000000001 ∧
    (Event.pushEvent (.trip .opp) 1).word = 0x0410010200000000 ∧
    (Event.pushEvent (.error .health) 1).word = 0x0410060400000000 ∧
    Event.save.word = 0x0600000000000000 := by decide

/-! ### Witnesses: the hypotheses of each obligation are met, clause by clause, at boundary values -/

theorem witness_encode_decode :
    Instr.wf (.lset 15 .dwell 65535 4294967295) = true ∧ Instr.wf (.lset 0 .volt 0 (-2147483648)) = true ∧
    decode 0x71F0FFFFFFFFFFFF = .ok (.lset 15 .dwell 65535 4294967295) ∧
    decode 0x71F1FFFF80000000 = .ok (.lset 15 .volt 65535 (-2147483648)) := by decide

theorem witness_match_and_mask :
    (∀ op : Opcode, (0x1300000000000000 : CmdWord) &&& op.maskWord ≠ op.matchWord) ∧
    (∀ op : Opcode, (0x4001000000000000 : CmdWord) &&& op.maskWord ≠ op.matchWord) ∧
    (0x4000000000000000 : CmdWord) &&& Opcode.setv.maskWord = Opcode.setv.matchWord ∧
    decode 0x4000000000000000 = .ok (.setv 0 0) ∧
    (0x1002000000000000 : CmdWord) &&& Opcode.fadd.maskWord = Opcode.fadd.matchWord ∧
    decode 0x1002000000000000 = .error .badSelector ∧
    (0x2000000800000000 : CmdWord) &&& Opcode.calpt.maskWord = Opcode.calpt.matchWord ∧
    decode 0x2000000800000000 = .error .badIndex := by
  refine ⟨?_, ?_, ?_⟩
  · intro op; cases op <;> decide
  · intro op; cases op <;> decide
  · decide

theorem witness_step :
    (State.reset.withFetchWord 64 0x8000000000000000).port = [⟨State.reset.pins, 0x8000000000000000⟩] ∧
    decode 0x8000000000000000 = .ok .tick ∧
    (State.reset.withFetchWord 64 0x8000000000000001).port = [⟨State.reset.pins, 0x8000000000000001⟩] ∧
    decode 0x8000000000000001 = .error .reservedField ∧ State.reset.port = [] := by decide

/-- A command answers a next state. -/
def completes (i : Instr) (s : State) : Bool :=
  match exec i s with
  | .next _ => true
  | .fault _ => false
  | .refused _ => false

theorem exec_eq_after {i : Instr} {s : State} (h : completes i s = true) : exec i s = .next (after i s) := by
  unfold completes at h
  unfold after
  split at h
  · rename_i e; rw [e]
  · cases h
  · cases h

theorem witness_errors :
    exec (.setv 1 40001000) State.reset = .next (after (.setv 1 40001000) State.reset) ∧
    (after (.setv 1 40001000) State.reset).resp.status = .voltageLimit ∧
    exec (.fadd 2 .u 0) State.reset = .next (after (.fadd 2 .u 0) State.reset) ∧
    (after (.fadd 2 .u 0) State.reset).resp.status = .channel ∧
    (∀ ch ∈ State.reset.chans, ch.u.set.toInt ≤ ch.u.limit.toInt ∧ ch.i.set.toInt ≤ ch.i.limit.toInt) :=
  ⟨exec_eq_after (by decide +kernel), by decide +kernel, exec_eq_after (by decide +kernel), by decide +kernel,
    by decide +kernel⟩

/-- The reset state with every channel unhealthy. -/
def sick : State := pinned State.reset fun p => { p with healthy := false }

theorem witness_gates :
    State.reset.nCh ≤ 2 ∧ 1 < sick.nCh ∧ (sick.pin 1).healthy = false ∧ State.reset.ready 1 ∧
    ¬State.reset.ready 2 := by
  unfold State.ready; decide

theorem witness_reset : [tp1Board][0]? = some tp1Board := rfl

theorem witness_rounding :
    (0 : Int) < 1 ∧ (0 : Int) < 1000 ∧ 2 * |(roundP 500 1000 : Rat) - 500| = (1000 : Int) ∧
    2 * |(roundP 499 1000 : Rat) - 499| < (1000 : Int) := by decide +kernel

/-- A seeded ring of two entries. -/
def ring (k : Nat) : Filter := ⟨[1000, 3000], k, 4000, true⟩

theorem witness_filter :
    (Filter.zero 2).seeded = false ∧
    (ring 1).seeded = true ∧ (ring 1).idx < (ring 1).buf.length ∧ (ring 1).buf[1]? = some 3000 ∧
    (ring 0).idx < (ring 0).buf.length ∧ (ring 1).ok 2 ∧ (⟨[5], 0, 5, true⟩ : Filter).ok 1 ∧
    ([0] : List Rat).length + 1 = (ring 0).buf.length ∧ |roundP 2147483499 1000| < 2147483648 ∧ ¬|roundP 2147483500 1000| < 2147483648 ∧ 1 < State.reset.nCh := by
  unfold Filter.ok; decide +kernel

theorem witness_calibration_round_trip :
    (calibrated true (State.reset.chan 0)).calActive .u = true ∧
    calValid tp1Params (calibrated true (State.reset.chan 0)) .u = true ∧
    adcToNom tp1Params .u (12625 / 10) =
      remap (toNominal tp1Params (calibrated true (State.reset.chan 0)) .u 1020000)
        calSet.minDac.toInt calSet.minAdc.toInt calSet.maxDac.toInt calSet.maxAdc.toInt ∧
    toPhysical tp1Params (calibrated true (State.reset.chan 0)) .u (12625 / 10) = 1020000 ∧
    roundP (nomToDac tp1Params .u (toNominal tp1Params (calibrated true (State.reset.chan 0)) .u 5000000)) 1 = 6214 ∧
    adcToNom tp1Params .u ((1010000 + 3971200 * 37040 / 37000) / 800) =
      remap (remap 6214 0 0 50000 40000000) calSet.minDac.toInt calSet.minAdc.toInt calSet.maxDac.toInt
        calSet.maxAdc.toInt := by
  decide +kernel

theorem witness_dac_codes :
    tp1Params.dacCode.min < tp1Params.dacCode.max ∧
    (tp1Params.dacNom.get .u).min < (tp1Params.dacNom.get .u).max ∧
    ((calibrated true (State.reset.chan 0)).calActive .u = true →
      calValid tp1Params (calibrated true (State.reset.chan 0)) .u = true) ∧
    nomToDac tp1Params .u (toNominal tp1Params (State.reset.chan 0) .u 0) = 0 ∧
    nomToDac tp1Params .u (toNominal tp1Params (State.reset.chan 0) .u 40000000) = 50000 ∧
    (399 : Rat) ≤ 400 := by decide +kernel

/-- Whether `CALCOMMIT` of voltage is allowed, as `CalibrationSetCommands` spells it. -/
def commits (s : State) : Bool :=
  let x := (s.chan 0).cal.u
  let b := (s.chan 0).board
  decide (x.minVal.toInt < x.maxVal.toInt ∧ x.minDac.toInt < x.maxDac.toInt ∧
    x.minAdc.toInt < x.maxAdc.toInt ∧ x.rangeMin.toInt < x.rangeMax.toInt ∧
    b.calbMin.u.toInt ≤ x.rangeMin.toInt ∧ x.rangeMax.toInt ≤ b.calbMax.u.toInt ∧
    max b.uMin.toInt x.rangeMin.toInt ≤ min b.uMax.toInt x.rangeMax.toInt)

/-- The voltage set of channel 0 with another validated range. -/
def ranged (lo hi : Val) : State :=
  State.reset.upd 0 fun ch =>
    { ch with cal := { ch.cal with u := { calSet with rangeMin := lo, rangeMax := hi } } }

theorem witness_calibration_set :
    ((State.reset.upd 0 (calibrated true)).chan 0).calEn = true ∧
    ((ranged 0 40000000).chan 0).calEn = false ∧ commits (ranged 0 40000000) = true ∧
    commits (ranged 0 40000001) = false ∧ commits (ranged (-1) 5) = false ∧ commits (ranged 5 5) = false := by
  decide

theorem witness_calen :
    State.reset.ready 0 ∧ ((State.reset.chan 0).cal.u.present = false ∧
      (State.reset.chan 0).cal.ih.present = false ∧ (State.reset.chan 0).cal.il.present = false) ∧
    (State.reset.chan 0).calEn = false ∧
    ((State.reset.upd 0 (calibrated true)).ready 0 ∧
      ((State.reset.upd 0 (calibrated true)).chan 0).cal.u.present = true ∧
      ((State.reset.upd 0 (calibrated true)).chan 0).calEn = true) ∧
    ((State.reset.upd 0 (calibrated false)).ready 0 ∧
      ((State.reset.upd 0 (calibrated false)).chan 0).cal.u.present = true ∧
      ((State.reset.upd 0 (calibrated false)).chan 0).calEn ≠ true) := by
  unfold State.ready; decide

theorem witness_range_policy :
    rangeTarget tp1Params .useBoth ChanPins.low 50000 = some .low ∧
    rangeTarget tp1Params .useBoth ChanPins.low 50001 = some .high ∧
    rangeTarget tp1Params .alwaysLow ChanPins.low 50001 = some .low ∧
    rangeTarget tp1Params .alwaysHigh ChanPins.low 0 = some .high ∧
    rangeTarget tp1Params .useBoth { ChanPins.low with calProc := true } 0 = none ∧
    rangeTarget tp1Params .alwaysLow { ChanPins.low with selfTest := true, calProc := true } 0 = some .high :=
  by decide

/-- A channel that the auto-range check may switch. -/
def ranging (r : Range) (mon set : Val) (cc : Bool) (ch : Channel) : Channel :=
  { ch with
    autoRange := true, rangeMode := .useBoth, outEn := true, range := r, cc := cc, rngEvalTime := 1000
    i := { ch.i with mon := mon, set := set, f := { ch.i.f with seeded := true } } }

/-- The gate of `AutoRangeCheckRule`, and its two reasons to switch. -/
def rangeGate (s : State) (c : Nat) : Bool :=
  (s.chan c).autoRange && decide ((s.chan c).rangeMode = .useBoth) && (s.chan c).outEn &&
  !(s.pin c).calProc && !(s.pin c).selfTest

def rangeUp (s : State) (c : Nat) : Bool :=
  decide ((s.chan c).range = .low) && (s.chan c).cc && decide (s.cfg.iThr < (s.chan c).i.set.toInt)

def rangeDown (s : State) (c : Nat) : Bool :=
  decide ((s.chan c).range = .high) && (s.chan c).i.f.seeded &&
  decide ((s.chan c).i.mon.toInt < s.cfg.iThr) &&
  decide (s.cfg.noOscDelay ≤ elapsed s.pins.nowUs (s.chan c).rngEvalTime)

theorem witness_auto_range :
    1 < State.reset.nCh ∧
    rangeGate (last (ranging .low 0 50001 true)) 1 = true ∧ rangeUp (last (ranging .low 0 50001 true)) 1 = true ∧
    rangeUp (last (ranging .low 0 50000 true)) 1 = false ∧ rangeUp (last (ranging .low 0 50001 false)) 1 = false ∧
    rangeDown (atUs (last (ranging .high 49999 50001 true)) 6000) 1 = true ∧
    rangeDown (atUs (last (ranging .high 49999 50001 true)) 5999) 1 = false ∧
    rangeDown (atUs (last (ranging .high 50000 50001 true)) 6000) 1 = false ∧
    rangeGate State.reset 1 = false := by decide

/-- Every outcome of the limit check, each side of each boundary. -/
theorem witness_limit_check :
    let ch := State.reset.chan 0
    [checkPoint ch (-1) 0, checkPoint ch 0 0, checkPoint ch 40000000 0, checkPoint ch 40000001 0,
      checkPoint ch 0 (-1), checkPoint ch 0 5000000, checkPoint ch 0 5000001,
      checkPoint ch 40000000 3875000, checkPoint ch 40000000 3875001, checkPoint ch 40000001 5000001] =
    [.range, .ok, .ok, .voltageLimit, .range, .ok, .currentLimit, .ok, .powerLimit, .voltageLimit] := by
  decide

theorem witness_setpoints :
    State.reset.ready 1 ∧
    checkPoint (State.reset.chan 1) (roundP 40000499 1000) 0 = .ok ∧
    checkPoint (State.reset.chan 1) (roundP 40000500 1000) 0 = .voltageLimit ∧
    checkPoint (State.reset.chan 1) 0 (roundP 5000499 1000) = .ok ∧
    checkPoint (State.reset.chan 1) 0 (roundP 5000500 1000) = .currentLimit := by
  unfold State.ready; decide +kernel

/-- Channel 1 at 10 V and 2 A. -/
def working : State := last fun ch => { ch with u := { ch.u with set := 10000000 }, i := { ch.i with set := 2000000 } }

theorem witness_limits :
    working.ready 1 ∧
    ((working.chan 1).u.set.toInt ≤ clamp 10000000 0 40000000 ∧ clamp 9999999 0 40000000 < (working.chan 1).u.set.toInt) ∧
    ((working.chan 1).i.set.toInt ≤ clamp 2000000 0 5000000 ∧ clamp 1999999 0 5000000 < (working.chan 1).i.set.toInt) ∧
    ((working.chan 1).u.set.toInt * (working.chan 1).i.set.toInt ≤ clamp 20000000 0 155000000 * 10 ^ 6 ∧
      clamp 19999999 0 155000000 * 10 ^ 6 < (working.chan 1).u.set.toInt * (working.chan 1).i.set.toInt) := by
  unfold State.ready; decide

theorem witness_output_enable :
    trippedState.ready 1 ∧ (trippedState.chan 1).anyTripped = true ∧
    State.reset.ready 1 ∧ (State.reset.chan 1).anyTripped = false ∧ (State.reset.chan 1).outEn = false ∧
    (last overVoltage).ready 1 ∧ ((last overVoltage).chan 1).anyTripped = false ∧
    ((last overVoltage).chan 1).outEn = true := by
  unfold State.ready; decide +kernel

theorem witness_sense_and_rprog :
    State.reset.ready 1 ∧ (State.reset.chan 1).sense = false ∧ (State.reset.chan 1).rprog = false ∧
    (last fun ch => { ch with rprog := true }).ready 1 ∧
    ((last fun ch => { ch with rprog := true }).chan 1).rprog = true := by
  unfold State.ready; decide

/-- Channel 1 with its output on, 10 V measured, and this over-voltage record, at time `t`. -/
def guarded (p : ProtRec) (t : Time) : State :=
  atUs (last fun ch =>
    { ch with outEn := true, u := { ch.u with mon := 10000000 }, prot := { ch.prot with ovp := p } }) t

/-- Armed and true for over-voltage, with this delay, alarm bit and time since the alarm. -/
def due (s : State) (d : Int) (alarmed : Bool) (e : Nat) : Bool :=
  let ch := s.chan 1
  let p := ch.prot.get .ovp
  ch.armed .ovp && ch.condition .ovp && decide (p.delay.toInt = d) && (p.alarmed == alarmed) &&
  decide (elapsed s.pins.nowUs p.alarmTime = e)

theorem witness_debounce_check :
    due (guarded ⟨true, 0, 10000000, false, false, 0⟩ 0) 0 false 0 = true ∧
    due (guarded ⟨true, 1, 10000000, false, false, 0⟩ 0) 1 false 0 = true ∧
    due (guarded ⟨true, 5, 10000000, false, true, 3⟩ 8) 5 true 5 = true ∧
    due (guarded ⟨true, 5, 10000000, false, true, 3⟩ 7) 5 true 4 = true ∧
    ((guarded ⟨true, 5, 10000001, false, true, 3⟩ 8).chan 1).condition .ovp = false ∧
    ((guarded ⟨false, 5, 10000000, false, true, 3⟩ 8).chan 1).armed .ovp = false := by decide

/-- A coupled pair whose leader is channel 0. -/
def coupled (k : Coupling) (s : State) : State :=
  { s with
    pins := { s.pins with
      coupling := k
      chan := [{ ChanPins.low with healthy := true, partner := 1 },
        { ChanPins.low with healthy := true, follower := true, partner := 0 }] } }

theorem witness_trip_entry :
    1 < (last overVoltage).nCh ∧ ((last overVoltage).chan 1).outEn = true ∧
    (last overVoltage).pins.coupling = .none ∧ ((last overVoltage).chan 1).rprog = false ∧
    ((last fun ch => { overVoltage ch with rprog := true }).chan 1).outEn = true ∧
    ((last fun ch => { overVoltage ch with rprog := true }).chan 1).rprog = true ∧
    ((coupled .tracked State.reset).pin 0).partner < (coupled .tracked State.reset).nCh ∧
    ((coupled .tracked State.reset).pin 0).partner ≠ 0 ∧ (coupled .tracked State.reset).pins.coupling ≠ .none ∧
    ((coupled .tracked State.reset).pin ((coupled .tracked State.reset).pin 0).partner).follower = true := by
  decide

/-- Ticks from `s` with pins `ps i`. -/
def ticks (ps : Nat → Pins) (s : State) : Nat → State
  | 0 => s
  | i + 1 => tickWith (ps i) (ticks ps s i)

/-- Pins at the times of the debounce witness: 0, 4999, 5000, then 5000 for ever. -/
def debouncePins (i : Nat) : Pins :=
  { Pins.default 2 with nowUs := if i = 0 then 0 else if i = 1 then 4999 else 5000 }

/-- All the hypotheses of the debounce timing law for a delay of 5000 us, with tick 1 one microsecond early
and tick 2 on time; and the first tick alone for a zero delay and for a false condition. -/
theorem witness_debounce_timing :
    let s := guarded ⟨true, 5000, 10000000, false, false, 0⟩ 0
    let ss := ticks debouncePins s
    (∀ i, ss (i + 1) = tickWith (debouncePins i) (ss i)) ∧
    (∀ i, i ≤ 2 → checked { ss i with pins := debouncePins i } 1) ∧
    (((ss 0).chan 1).prot.get .ovp).delay.toInt = 5000 ∧ (((ss 0).chan 1).prot.get .ovp).alarmed = false ∧
    (((ss 0).chan 1).prot.get .ovp).tripped = false ∧
    (∀ i, i < 2 → asserted { (ss i).begin with pins := debouncePins i } 1 .ovp) ∧
    (∀ i, i < 2 → 0 < i → (elapsed (debouncePins i).nowUs (debouncePins 0).nowUs : Int) < 5000) ∧
    asserted { (ss 2).begin with pins := debouncePins 2 } 1 .ovp ∧
    (5000 : Int) ≤ (elapsed (debouncePins 2).nowUs (debouncePins 0).nowUs : Int) ∧
    asserted { (guarded ⟨true, 0, 10000000, false, false, 0⟩ 0).begin with pins := debouncePins 0 } 1 .ovp ∧
    ¬asserted { (guarded ⟨true, 5000, 10000001, false, false, 0⟩ 0).begin with pins := debouncePins 0 } 1 .ovp := by
  unfold checked State.ready asserted
  refine ⟨fun _ => rfl, ?_⟩
  decide +kernel

/-- The settings of a channel at the ends of the board's ranges, and beyond them. -/
theorem witness_protection_settings :
    1 < State.reset.nCh ∧ (State.reset.chan 1).anyTripped = false ∧
    (trippedState.chan 1).anyTripped = true ∧ ((trippedState.chan 1).prot.get .ovp).tripped = true ∧
    ((State.reset.chan 1).board.pdlyMin.get .ocp).toInt = 0 ∧
    ((State.reset.chan 1).board.pdlyMax.get .ocp).toInt = 10000000 ∧
    ((State.reset.chan 1).board.plvlMin.get .opp).toInt = 0 ∧
    ((State.reset.chan 1).board.plvlMax.get .opp).toInt = 155000000 := by decide +kernel

theorem witness_tripped_moves :
    exec .tick (atUs (last overVoltage) 6000) = .next (after .tick (atUs (last overVoltage) 6000)) ∧
    (((last overVoltage).chan 1).prot.get .ovp).tripped = false ∧
    ((trippedState.chan 1).prot.get .ovp).tripped = true ∧
    exec (.pclr 1 false) trippedState = .next (after (.pclr 1 false) trippedState) ∧
    (((after (.pclr 1 false) trippedState).chan 1).prot.get .ovp).tripped = false :=
  ⟨exec_eq_after (by decide +kernel), by decide +kernel, by decide +kernel, exec_eq_after (by decide +kernel),
    by decide +kernel⟩

/-- Channel 0 sinking 1.000001 W or 1 W, watched since time 0. -/
def sinking (uA : Val) (active dp : Bool) (k : Coupling) (t : Time) : State :=
  atUs (coupled k (State.reset.upd 0 fun ch =>
    { ch with
      outEn := true, dpNegActive := active, dpOn := dp
      u := { ch.u with mon := 1000000 }, i := { ch.i with mon := uA } })) t

/-- Below the threshold, in the intermediate window, and past the longer one, as `NegativePowerMonitor`
spells them. -/
def negBelow (s : State) : Bool :=
  (s.chan 0).outEn && decide ((s.chan 0).u.mon.toInt * (s.chan 0).i.mon.toInt < s.cfg.dpNegLev)

def negMid (s : State) : Bool :=
  let e := elapsed s.pins.nowUs (s.chan 0).dpNegTime
  negBelow s && (s.chan 0).dpNegActive && decide (e ≤ s.cfg.dpNegDelay) && decide (s.cfg.dpBalDelay < e) &&
  (s.chan 0).dpOn && !(s.pin 0).follower

def negPast (s : State) : Bool :=
  negBelow s && (s.chan 0).dpNegActive && decide (s.cfg.dpNegDelay < elapsed s.pins.nowUs (s.chan 0).dpNegTime)

theorem witness_negative_power :
    negBelow (sinking (-1000000) true true .series 0) = false ∧
    negBelow (sinking (-1000001) false true .series 0) = true ∧
    negPast (sinking (-1000001) true true .series 500001) = true ∧
    negPast (sinking (-1000001) true false .series 500001) = true ∧
    negPast (sinking (-1000001) true true .series 500000) = false ∧
    negMid (sinking (-1000001) true true .series 500000) = true ∧
    negMid (sinking (-1000001) true true .parallel 100001) = true ∧
    negMid (sinking (-1000001) true true .tracked 100001) = true ∧
    negMid (sinking (-1000001) true true .series 100000) = false := by decide

theorem witness_balancing :
    0 < (coupled .series State.reset).nCh ∧
    ((coupled .series State.reset).pin 0).partner < (coupled .series State.reset).nCh ∧
    ((coupled .series State.reset).pin 0).partner ≠ 0 ∧
    ((coupled .series State.reset).pin ((coupled .series State.reset).pin 0).partner).healthy = true ∧
    ((pinned (coupled .series State.reset) fun p => { p with healthy := false }).pin 1).healthy = false := by
  decide

/-- A channel in `Step` mode at 40 V and this current, and in `List` mode with one voltage point. -/
def stepping (i : Val) (ch : Channel) : Channel :=
  { ch with trigModeU := .step, trigModeI := .step, trigU := 40000000, trigI := i }

def listing (u : Val) (ch : Channel) : Channel :=
  { ch with
    trigModeU := .list, trigModeI := .list
    list := ⟨⟨[], [(1, u)], []⟩, ⟨1, 2, 1⟩, 1, false⟩ }

/-- The precondition check with the precisions in force. -/
def startCheck (s : State) : Status := checkTrigger s.currentPrecs s

/-- Every outcome of the precondition check, channel 0 taking part and in order wherever channel 1 decides. -/
theorem witness_precondition :
    [State.reset, last fun ch => { ch with trigModeI := .list }, last fun ch => { stepping 0 ch with rprog := true },
      last fun ch => { ch with trigModeU := .list, trigModeI := .list }, last (listing 40000000),
      last (listing 40001000), last (stepping 3875000), last (stepping 3876000), triggerState].map startCheck =
    [.trigAllFixed, .trigModeMismatch, .trigRprog, .listLengths, .ok, .voltageLimit, .ok, .powerLimit, .ok] ∧
    (State.reset.pin 0).healthy = true ∧ (State.reset.pin 1).healthy = true ∧
    State.reset.pins.coupling = .none := by decide +kernel

theorem witness_trigger_commands :
    (after .init triggerState).trigState = .initiated ∧ triggerState.trigState = .idle ∧
    startCheck State.reset ≠ .ok ∧ startCheck triggerState = .ok ∧ triggerState.trigSource = 1 ∧
    ({ triggerState with trigSource := 0 } : State).trigSource = 0 ∧
    startCheck { triggerState with trigSource := 0 } = .ok ∧
    BitVec.ofNat 4 1 = (after .init triggerState).trigSource ∧ (after .init triggerState).trigDelay = 0 ∧
    elapsed 5000 0 = (5000 : BitVec 32).toNat ∧ elapsed 4999 0 < (5000 : BitVec 32).toNat := by decide +kernel

/-- Channel 1 tripped, its list about to start. -/
def trippedList : State :=
  triggerState.upd 1 fun ch => { ch with prot := { ch.prot with ovp := { ch.prot.ovp with tripped := true } } }

/-- Both outcomes, in both modes, with every answer to the output request: on, off, already so, refused. -/
theorem witness_trigger_execution :
    startCheck triggerState = .ok ∧ (triggerState.pin 0).healthy = true ∧ (triggerState.pin 1).healthy = true ∧
    (triggerState.chan 0).trigModeU = .step ∧ (triggerState.chan 1).trigModeU = .list ∧
    (triggerState.chan 0).trigOut = true ∧ (triggerState.chan 0).outEn = false ∧
    startCheck (State.reset.upd 0 stepChannel) = .ok ∧
    ((State.reset.upd 0 stepChannel).chan 1).trigModeU = .fixed ∧
    startCheck trippedList = .ok ∧ (trippedList.chan 1).anyTripped = true ∧ (trippedList.chan 1).trigOut = true ∧
    startCheck (State.reset.upd 0 fun ch => { stepChannel ch with trigOut := false, outEn := true }) = .ok ∧
    startCheck State.reset ≠ .ok := by decide +kernel

/-- Channel 1 in progress, alone or with channel 0, while `Executing`. -/
def inProgress (both : Bool) : State :=
  { (State.reset.upd 0 fun ch => { ch with trigInProg := both }).upd 1 fun ch => { ch with trigInProg := true }
    with trigState := .executing }

theorem witness_abort_and_finish :
    (inProgress true).trigState = .executing ∧ State.reset.trigState ≠ .executing ∧
    1 < (inProgress true).nCh ∧ (∀ c, c ≠ 1 → ((inProgress false).chan c).trigInProg = false) ∧
    ((inProgress true).chan 0).trigInProg = true := by
  refine ⟨rfl, by decide, by decide, ?_, rfl⟩
  intro c h
  match c with
  | 0 => rfl
  | 1 => exact absurd rfl h
  | c + 2 => rfl

/-- Channel 1 with its list started. -/
def started : State := after (.lstart 1) (last listChannel)

theorem witness_list_settings :
    1 < State.reset.nCh ∧ ((State.reset.chan 1).cursor.counter.toInt < 0) ∧
    0 ≤ (started.chan 1).cursor.counter.toInt ∧ State.reset.cfg.listMax = 16 ∧
    State.reset.cfg.countMax = 65535 := by decide +kernel

theorem witness_list_elements :
    Memory.wf (((last listChannel).chan 1).list.mem.get .volt) = true ∧
    0 ≤ (started.chan 1).cursor.counter.toInt ∧ ((last listChannel).chan 1).cursor.counter.toInt < 0 ∧
    ((last listChannel).chan 1).list.len.get .volt = 2 ∧ (1 < 2 ∧ ¬2 < 2) ∧
    ((last listChannel).chan 1).board.uMin.toInt = 0 ∧ ((last listChannel).chan 1).board.uMax.toInt = 40000000 := by
  decide +kernel

theorem witness_list_start :
    (last listChannel).ready 1 ∧ started.ready 1 ∧ State.reset.ready 1 ∧
    0 ≤ (started.chan 1).cursor.counter.toInt ∧ ((last listChannel).chan 1).cursor.counter.toInt < 0 ∧
    ((last listChannel).chan 1).lengthsOk = true ∧ (State.reset.chan 1).lengthsOk = false := by
  unfold State.ready; decide +kernel

/-- The running list with this cursor and a first dwell `d`, at 2500 us and 7 ms. -/
def listAt (k : Cursor) (d : BitVec 32 := 1000) : State :=
  { last (fun ch =>
      let ch := listChannel ch
      { ch with cursor := k, list := { ch.list with mem := { ch.list.mem with dwell := [(0, d)] } } })
    with pins := { State.reset.pins with nowUs := 2500, nowMs := 7 } }

/-- The list runs: an active cursor on a healthy channel that is not tripped. -/
def listRuns (s : State) : Bool :=
  decide (0 ≤ (s.chan 1).cursor.counter.toInt) && (s.pin 1).healthy && !(s.chan 1).anyTripped

/-- The clock of the running dwell is the millisecond clock, and a point is due. -/
def listClockDue (s : State) : Bool × Bool :=
  let k := (s.chan 1).cursor
  let ms := decide (s.cfg.shortDwellThr < k.dwell.toNat)
  (ms, decide (k.it = -1) || decide (sdiff k.next (if ms then s.pins.nowMs else s.pins.nowUs) ≤ 0))

/-- The next index, the check of its point, and whether its dwell runs on the millisecond clock. -/
def nextPoint (s : State) : Nat × Status × Bool :=
  let ch := s.chan 1
  let j := (ch.cursor.it + 1).toNat % ch.iterLen
  (j, checkPoint ch (pointVolt s.cfg ch j) (pointCurr (s.currentPrecs 1) ch j),
    decide (s.cfg.shortDwellThr < (ch.listRead .dwell (j % ch.list.len.dwell)).toNat))

/-- An active cursor on a channel that is unhealthy, and on one that is tripped. -/
def sickList : State := pinned (listAt ⟨0, 1, 2500, 1000, 1500, 0⟩) fun p => { p with healthy := false }

def trippedRun : State :=
  (listAt ⟨0, 1, 2500, 1000, 1500, 0⟩).upd 1 fun ch =>
    { ch with prot := { ch.prot with ocp := { ch.prot.ocp with tripped := true } } }

theorem witness_list_advance :
    (State.reset.chan 1).cursor.counter.toInt < 0 ∧
    0 ≤ (sickList.chan 1).cursor.counter.toInt ∧ (sickList.pin 1).healthy = false ∧
    0 ≤ (trippedRun.chan 1).cursor.counter.toInt ∧ (trippedRun.pin 1).healthy = true ∧
    (trippedRun.chan 1).anyTripped = true := by decide +kernel

/-- The inhibit pin, on a list not yet begun and on dwells at and above `SHORT_DWELL_THR`. -/
theorem witness_list_inhibited :
    [(-1, 0), (0, 5000000), (0, 5000001)].map (fun p : Int × BitVec 32 =>
      let s0 := listAt ⟨p.1, 1, 9000, p.2, 1500, 6⟩
      let s : State := { s0 with pins := { s0.pins with inhibit := true } }
      (s.pins.inhibit, listRuns s, decide ((s.chan 1).cursor.it = -1), (listClockDue s).1)) =
    [(true, true, true, false), (true, true, false, false), (true, true, false, true)] := by decide +kernel

/-- Not due and due at the boundary, on both clocks; the first point is due at once. -/
theorem witness_list_due :
    [(0, 2501, 5000000), (0, 2500, 5000000), (0, 8, 5000001), (0, 7, 5000001), (-1, 0, 0)].map
      (fun p : Int × Time × BitVec 32 =>
        let s := listAt ⟨p.1, 1, p.2.1, p.2.2, 1500, 0⟩
        (listRuns s && !s.pins.inhibit, listClockDue s)) =
    [(true, false, false), (true, false, true), (true, true, false), (true, true, true), (true, false, true)] := by
  decide +kernel

/-- Of points due: the next one, the first one, a wrap with a pass to go and a wrap of the last pass; a point
that breaks a limit; and a new dwell at and above `SHORT_DWELL_THR`. -/
theorem witness_list_points :
    [listAt ⟨0, 1, 2500, 1000, 1500, 0⟩, listAt ⟨-1, 1, 0, 0, 0, 0⟩, listAt ⟨1, 2, 2500, 1000, 1500, 0⟩,
      listAt ⟨1, 1, 2500, 1000, 1500, 0⟩,
      (listAt ⟨0, 1, 2500, 1000, 1500, 0⟩).upd 1 fun ch => { ch with u := { ch.u with limit := 1999999 } },
      listAt ⟨-1, 1, 0, 0, 0, 0⟩ 5000000, listAt ⟨-1, 1, 0, 0, 0, 0⟩ 5000001].map
      (fun s => (listRuns s && (listClockDue s).2, (s.chan 1).cursor.counter, nextPoint s)) =
    [(true, 1, 1, .ok, false), (true, 1, 0, .ok, false), (true, 2, 0, .ok, false), (true, 1, 0, .ok, false),
      (true, 1, 1, .voltageLimit, false), (true, 1, 0, .ok, false), (true, 1, 0, .ok, true)] := by decide +kernel

theorem witness_tick :
    State.reset.pins.coupling = .none ∧
    (∀ c, c < (coupled .series State.reset).nCh → ((coupled .series State.reset).pin c).healthy = true →
      ((coupled .series State.reset).pin c).follower = false →
      ((coupled .series State.reset).pin c).partner < (coupled .series State.reset).nCh) ∧
    exec .tick { State.reset with pins := { State.reset.pins with
      coupling := .series, chan := [{ ChanPins.low with healthy := true, partner := 2 }] } } =
      .fault .partnerAbsent :=
  ⟨rfl, by decide, rfl⟩

/-- Channel 1 awaiting an input while a sample of it is on the pins. -/
def sampling (r : Option AdcInput) (x : AdcInput) : State :=
  pinned (last fun ch => { ch with adcAwait := r }) fun p => { p with smpValid := true, smpReg := x, smpCode := 100 }

theorem witness_sample_intake :
    (State.reset.chan 1).adcAwait = none ∧
    [AdcInput.uMon, .iMon, .uMonDac, .iMonDac].all (fun r =>
      decide (((sampling (some r) r).chan 1).adcAwait = some r) && ((sampling (some r) r).pin 1).smpValid &&
      decide (((sampling (some r) r).pin 1).smpReg = r)) = true ∧
    ((sampling (some .uMon) .iMon).pin 1).smpReg ≠ .uMon := by decide

/-- Channel 1 with a switch-off pending since time 0. -/
def pendingOff (dp : Bool) (t : Time) : State := atUs (last fun ch => { ch with dpOffPending := true, dpOn := dp }) t

theorem witness_tick_bookkeeping :
    1 < State.reset.nCh ∧ ((last overVoltage).chan 1).outEn = true ∧ (State.reset.chan 1).outEn = false ∧
    ((last fun ch => { ch with onTimeRun := true }).chan 1).onTimeRun = true ∧
    (State.reset.chan 1).onTimeRun = false ∧
    ((pendingOff true 10000).chan 1).dpOffPending = true ∧ ((pendingOff false 10000).chan 1).dpOn = false ∧
    (pendingOff true 10000).cfg.dpOffDelay ≤ elapsed (pendingOff true 10000).pins.nowUs 0 ∧
    ¬(pendingOff true 9999).cfg.dpOffDelay ≤ elapsed (pendingOff true 9999).pins.nowUs 0 := by decide

/-- A quiet state in which the delayed switch-off is due and an alarm bit is left. -/
def quiet : State :=
  atUs (last fun ch =>
    { ch with dpOffPending := true, dpOn := true, prot := { ch.prot with ovp := { ch.prot.ovp with alarmed := true } } })
    10000

theorem witness_quiet_tick :
    exec .tick quiet = .next (after .tick quiet) ∧ quiet.trigState ≠ .triggered ∧
    (∀ c, c < quiet.nCh → (quiet.chan c).outEn = false ∧ (quiet.chan c).cv = false ∧ (quiet.chan c).cc = false ∧
      (quiet.chan c).onTimeRun = false ∧ (quiet.chan c).cursor.counter.toInt < 0 ∧
      (quiet.pin c).smpValid = false) ∧
    ((after .tick quiet).chan 1).dpOn = false ∧ ((after .tick quiet).chan 1).prot.ovp.alarmed = false :=
  ⟨exec_eq_after (by decide +kernel), by decide, by decide, by decide +kernel, by decide +kernel⟩

theorem witness_read :
    (0x100 ≤ 0x100 ∧ State.reset.readGlobal 0x100 = some 0) ∧ State.reset.readGlobal 0x104 = some 0 ∧
    (0xFF < 0x100 ∧ (State.reset.chan 1).readReg 0xFF = none) ∧
    (State.reset.chan 1).readReg 0x88 = some 0 ∧ 1 < State.reset.nCh ∧ State.reset.nCh ≤ 2 := by decide

/-- A calibration set that ceases to exist, the changed flag both ways, and bounds moved by both commands. -/
theorem witness_writers_of_flags_and_bounds :
    let s := last (calibrated false)
    (s.chan 1).cal.u.present = true ∧ ((after (.calpt 1 .u .minDac 7) s).chan 1).cal.u.present = false ∧
    ((after (.calclr 1 .u) s).chan 1).cal.u.present = false ∧
    (s.chan 1).list.changed = false ∧ ((after (.lcount 1 2) s).chan 1).list.changed = true ∧
    ((after (.llen 1 .volt 2) s).chan 1).list.changed = true ∧
    ((last listChannel).chan 1).list.changed = true ∧
    ((after (.lsaved 1) (last listChannel)).chan 1).list.changed = false ∧
    ((after (.calen 1 true) s).chan 1).uMin ≠ (s.chan 1).uMin ∧
    ((after (.rmode 1 .alwaysLow) s).chan 1).iMax ≠ (s.chan 1).iMax := by decide +kernel

/-- One command for each setting, which does change it. -/
theorem witness_writers :
    let s := last listChannel
    ((after (.limv 1 7) s).chan 1).u.limit ≠ (s.chan 1).u.limit ∧
    ((after (.limi 1 7) s).chan 1).i.limit ≠ (s.chan 1).i.limit ∧
    ((after (.limp 1 7) s).chan 1).pLimit ≠ (s.chan 1).pLimit ∧
    ((after (.calen 1 true) (last (calibrated false))).chan 1).calEn = true ∧
    ((after (.rmode 1 .useBoth) s).chan 1).rangeMode ≠ (s.chan 1).rangeMode ∧
    ((after (.rauto 1 true) s).chan 1).autoRange = true ∧ ((after (.sense 1 true) s).chan 1).sense = true ∧
    ((after (.rprog 1 true) s).chan 1).rprog = true ∧ ((after (.tout 1 false) s).chan 1).trigOut = false ∧
    ((after (.tmode 1 .u .fixed) s).chan 1).trigModeU = .fixed ∧
    ((after (.tmode 1 .i .fixed) s).chan 1).trigModeI = .fixed ∧
    ((after (.tlev 1 .u 7) s).chan 1).trigU = 7 ∧ ((after (.tlev 1 .i 7) s).chan 1).trigI = 7 ∧
    ((after (.pstate 1 .ovp true) s).chan 1).prot.ovp.state = true ∧
    ((after (.pdelay 1 .ovp 7) s).chan 1).prot.ovp.delay = 7 ∧
    ((after (.plevel 1 .ovp 7) s).chan 1).prot.ovp.level = 7 ∧
    ((after (.calpt 1 .u .minVal 7) s).chan 1).cal.u.minVal = 7 ∧
    ((after (.lset 1 .volt 1 7) s).chan 1).listRead .volt 1 = 7 ∧
    ((after (.llen 1 .volt 3) s).chan 1).list.len.volt = 3 ∧ ((after (.lcount 1 7) s).chan 1).list.count = 7 ∧
    (after (.tdelay 7) s).trigDelay = 7 ∧ (after (.tsrc 7) s).trigSource = 7 ∧
    (after (.tcont true) s).trigCont = true := by decide +kernel

theorem witness_setpoint_and_output_writers :
    ((after (.outen 1 true) State.reset).chan 1).outEn = true ∧ (State.reset.chan 1).outEn = false ∧
    ((after (.outen 1 false) (after (.outen 1 true) State.reset)).chan 1).outEn = false ∧
    (triggerState.chan 1).trigOut = true ∧ ((after .init triggerState).chan 1).outEn = false ∧
    ((after (.trg 1 true) (after .init triggerState)).chan 1).outEn = true ∧
    (after (.trg 1 false) (after .init triggerState)).trigState = .triggered ∧
    ((after .tick (after (.trg 1 false) (after .init triggerState))).chan 1).outEn = true ∧
    ((after .init { triggerState with trigSource := 0 }).chan 1).outEn = true ∧
    ((after (.setv 1 7000) State.reset).chan 1).u.set ≠ (State.reset.chan 1).u.set ∧
    ((after (.seti 1 7000) State.reset).chan 1).i.set ≠ (State.reset.chan 1).i.set := by decide +kernel

/-- A step completes. -/
def stepsOn (s : State) : Bool :=
  match step s with
  | .next _ => true
  | .fault _ => false
  | .refused _ => false

theorem exists_next {s : State} (h : stepsOn s = true) : ∃ t, step s = .next t := by
  unfold stepsOn at h
  split at h
  · rename_i t e; exact ⟨t, e⟩
  · cases h
  · cases h

/-- `PCLR 1, 1` on the tripped channel. -/
theorem witness_latch_invariant :
    LatchInv (trippedState.withFetchWord 64 0x5310000000000001) ∧
    ∃ t, step (trippedState.withFetchWord 64 0x5310000000000001) = .next t := by
  refine ⟨?_, exists_next (by decide +kernel)⟩
  have h0 : ((trippedState.chan 0).prot.ovp.tripped = false ∧ (trippedState.chan 0).prot.ocp.tripped = false ∧
      (trippedState.chan 0).prot.opp.tripped = false) ∧ (trippedState.chan 0).status = 0 := by decide +kernel
  have h1 : ((trippedState.chan 1).prot.ovp.tripped = true ∧ (trippedState.chan 1).prot.ocp.tripped = false ∧
      (trippedState.chan 1).prot.opp.tripped = false) ∧ (trippedState.chan 1).status = 1 ∧
      (trippedState.chan 1).outEn = false := by decide +kernel
  have hc : (trippedState.withFetchWord 64 0x5310000000000001).chans =
      [trippedState.chan 0, trippedState.chan 1] := by decide +kernel
  intro ch h
  rw [hc] at h
  simp only [List.mem_cons, List.not_mem_nil, or_false] at h
  rcases h with rfl | rfl
  · obtain ⟨⟨a, b, c⟩, d⟩ := h0
    refine ⟨fun k => ?_, by simp [Channel.anyTripped, a, b, c], fun k k' => ?_⟩
    · rw [d]; cases k <;> simp [PerKind.get, a, b, c, statusBit, Kind.num]
    · cases k <;> simp [PerKind.get, a, b, c]
  · obtain ⟨⟨a, b, c⟩, d, e⟩ := h1
    refine ⟨fun k => ?_, fun _ => e, fun k k' => ?_⟩
    · rw [d]; cases k <;> simp [PerKind.get, a, b, c, statusBit, Kind.num]
    · cases k <;> cases k' <;> simp [PerKind.get, a, b, c]

/-- `FADD 1, I, -1` on a state with a ring of non-zero samples. -/
theorem witness_filter_invariant :
    let s := (after (.fadd 1 .i 5000) State.reset).withFetchWord 64 0x10110000FFFFFFFF
    FilterInv s ∧ ∃ t, step s = .next t := by
  refine ⟨?_, exists_next (by decide +kernel)⟩
  unfold FilterInv Filter.ok
  decide +kernel

/-- `LSET 1, VOLT, 0, 0` on the list of V-TRG-6: an element goes back to zero. -/
theorem witness_memory_invariant :
    MemoryInv ((last listChannel).withFetchWord 64 0x7111000000000000) ∧
    ∃ t, step ((last listChannel).withFetchWord 64 0x7111000000000000) = .next t := by
  refine ⟨?_, exists_next (by decide +kernel)⟩
  intro ch h a
  simp only [State.withFetchWord, State.present, last, State.upd, State.reset, State.resetOf, List.map,
    List.modify_succ_cons, List.modify_zero_cons, List.mem_cons, List.not_mem_nil, or_false] at h
  rcases h with rfl | rfl <;> cases a <;> rfl

/-- `TICK` while the list of V-TRG-6 runs. -/
theorem witness_cursor_invariant :
    CursorInv (runningState.withFetchWord 64 0x8000000000000000) ∧
    ∃ t, step (runningState.withFetchWord 64 0x8000000000000000) = .next t := by
  refine ⟨?_, exists_next (by decide +kernel)⟩
  unfold CursorInv Channel.cursorOk
  decide +kernel

/-- `LIMV 1, 1` on a channel at 10 V and 2 A. -/
theorem witness_bounds_invariant :
    BoundsInv (working.withFetchWord 64 0x4210000000000001) ∧
    ∃ t, step (working.withFetchWord 64 0x4210000000000001) = .next t := by
  refine ⟨?_, exists_next (by decide +kernel)⟩
  have h : ∀ ch ∈ (working.withFetchWord 64 0x4210000000000001).chans,
      (ch.board.ok = true ∧ ch.board.iMin.toInt ≤ tp1Params.iLowMax ∧
        (ch.cal.u.present = false ∧ ch.cal.ih.present = false ∧ ch.cal.il.present = false) ∧
        recomputeBounds tp1Params ch = ch) ∧ ch.boundsOk := by
    unfold Channel.boundsOk
    decide +kernel
  intro ch hch
  obtain ⟨⟨a, b, ⟨cu, ch', cl⟩, d⟩, e⟩ := h ch hch
  refine ⟨⟨a, b, fun t ht => ?_, d⟩, e⟩
  cases t <;> simp_all [PerSet.get]

theorem witness_reset_invariants :
    tp1Params.ok = true ∧ tp1Board.ok = true ∧ tp1Board.iMin.toInt ≤ tp1Params.iLowMax ∧
    1 ≤ [tp1Board].length ∧ (List.replicate 16 tp1Board).length ≤ 16 := by decide

/-- `1 <= N_CH <= 16` (R5): no channel and 17 channels are outside the constraints. -/
theorem test_channel_count :
    [0, 1, 2, 16, 17].map (fun n => tp1Params.okFor (List.replicate n tp1Board)) = [false, true, true, true, false] := by
  decide

theorem witness_step_configured :
    (working.withFetchWord 64 0x4210000000000001).configured ∧
    ∃ t, step (working.withFetchWord 64 0x4210000000000001) = .next t := by
  refine ⟨?_, exists_next (by decide +kernel)⟩
  unfold State.configured
  decide +kernel

theorem witness_reset_configured : State.reset.configured := by unfold State.configured; decide

end Sys2Proof.Tests
end

/-! ## The rules of `00_scope.md`: the step, refused commands, rounding -/

namespace Sys2Proof.Machine

open Sys2Proof

/-! ### The step takes the oldest request (R15, R43) -/

/-- With a request on the port, a step runs its word at the state that accepted it. -/
theorem step_of_port_cons {s : State} {req : Request} {rest : List Request} (h : s.port = req :: rest) :
    step s = runWord req.word (s.accept req rest) := by
  rw [step, stepPort, h]

/-- A legal word runs as the command it decodes to. -/
theorem runWord_of_decode_ok {w : CmdWord} {i : Instr} (h : decode w = .ok i) (s : State) :
    runWord w s = exec i s := by
  rw [runWord, h]

/-- Settles O5: the oldest request is accepted, and its word runs as the decoded command. -/
theorem stepRunsTheDecodedCommand : Obligations.StepRunsTheDecodedCommand := by
  intro s req rest i hport hdec
  calc step s = runWord req.word (s.accept req rest) := step_of_port_cons hport
    _ = exec i (s.accept req rest) := runWord_of_decode_ok hdec _

/-! ### What a command can answer (R14, R341)

A refusal is the only way to a status other than `OK`. Every command is built of `onChannel`, `require` and
`raise`, which refuse, and of operations that keep the response (`Frame`). -/

/-- The outcomes of a command that starts at `s`: refused, completed with `OK`, or stopped by a fault. -/
inductive RefusedOrOk (s : State) : Out → Prop where
  | refused (e : Status) : RefusedOrOk s (.next (s.failed e))
  | ok {t : State} (h : t.resp.status = .ok) : RefusedOrOk s (.next t)
  | fault (r : Fault) : RefusedOrOk s (.fault r)

namespace RefusedOrOk

/-- A refusal after the start of a command is a refusal of the state before it. -/
theorem of_begin {s : State} {o : Out} (h : RefusedOrOk s.begin o) : RefusedOrOk s o := by
  cases h with
  | refused e => exact .refused e
  | ok h => exact .ok h
  | fault r => exact .fault r

theorem onChannel {c : Nat} {s : State} {k : State → Channel → Out}
    (h : RefusedOrOk s.begin (k s.begin (s.chan c))) : RefusedOrOk s (onChannel c s k) := by
  by_cases hc : c < s.nCh
  · rw [onChannel_of_lt hc]; exact h.of_begin
  · rw [onChannel_of_ge (Nat.not_lt.mp hc)]; exact .refused _

theorem require {b : Bool} {e : Status} {s : State} {k : Out} (h : RefusedOrOk s k) :
    RefusedOrOk s (require b e s k) := by
  cases b with
  | false => exact .refused e
  | true => exact h

theorem ite {p : Prop} [Decidable p] {s : State} {o o' : Out} (h : RefusedOrOk s o) (h' : RefusedOrOk s o') :
    RefusedOrOk s (if p then o else o') := by
  split
  · exact h
  · exact h'

/-- An operation of a tick, a trigger or a list leaves the response as it finds it. -/
theorem of_frame {s u t : State} (h : Frame u t) (hu : u.resp.status = .ok) : RefusedOrOk s (.next t) :=
  .ok (by rw [h.resp, hu])

end RefusedOrOk

theorem listAbortAll_frame (s : State) : Frame s (listAbortAll s) :=
  ⟨rfl, rfl, rfl, rfl, by simp [listAbortAll, State.nCh], rfl, rfl, rfl, rfl⟩

/-- `RD`: no channel, no register of that number, or a value (R331). -/
theorem execRd_refusedOrOk (c reg : Nat) (s : State) : RefusedOrOk s (execRd c reg s) := by
  refine .ite (.require ?_) (.onChannel ?_)
  · split
    · exact .ok rfl
    · exact .refused _
  · split
    · exact .ok rfl
    · exact .refused _

/-- `INIT` (R255). -/
theorem execInit_refusedOrOk (s : State) : RefusedOrOk s (execInit s) :=
  have start : Frame s.begin (if s.begin.trigSource = 0 then startImmediately s.begin.currentPrecs s.begin
      else { s.begin with trigState := .initiated }) :=
    (startImmediately_frame ..).ite ⟨rfl, rfl, rfl, rfl, rfl, rfl, rfl, rfl, rfl⟩
  .of_begin (.require (.require (.of_frame start rfl)))

/-- `TRG` (R256). -/
theorem execTrg_refusedOrOk (src : Nat) (b : Bool) (s : State) : RefusedOrOk s (execTrg src b s) :=
  .of_begin (.require (.of_frame ((trigDelayCheck_frame ..).ite (Frame.refl _)) rfl))

/-- Every command that answers a next state is refused or answers `OK`. -/
theorem exec_refusedOrOk (i : Instr) (s : State) : RefusedOrOk s (exec i s) := by
  cases i with dsimp only [exec]
  | fadd | faddr | frst | tophys | toraw | rauto | pclr | tmode | tlev | tout | lsaved =>
    exact .onChannel (.ok rfl)
  | calpt | calclr | pstate | pdelay | plevel | pdis | lget => exact .onChannel (.require (.ok rfl))
  | calcommit | setv | llen | lcount => exact .onChannel (.require (.require (.ok rfl)))
  | calen =>
    refine .onChannel (.require (.require (.ite (.ok rfl) ?_)))
    exact .of_frame ((applyVoltage_frame ..).trans (applyCurrent_frame ..)) rfl
  | rmode => exact .onChannel (.require (.of_frame (applyCurrent_frame ..) rfl))
  | seti => exact .onChannel (.require (.require (.of_frame (applyCurrent_frame ..) rfl)))
  | limv => exact .onChannel (.require (.of_frame ((applyVoltage_frame ..).ite (Frame.emit ..)) rfl))
  | limi | limp => exact .onChannel (.require (.of_frame ((applyCurrent_frame ..).ite (Frame.emit ..)) rfl))
  | outen => exact .onChannel (.require (.of_frame (requestOutput_frame ..) rfl))
  | sense => exact .onChannel (.require (.ite (.ok rfl) (.ok rfl)))
  | rprog => exact .onChannel (.require (.ite (.ok rfl) (.ite (.ok rfl) (.ok rfl))))
  | tsrc | tdelay | tcont => exact .ok rfl
  | init => exact execInit_refusedOrOk s
  | trg => exact execTrg_refusedOrOk ..
  | tabort => exact .of_frame (triggerAbort_frame s.begin) rfl
  | lset | lstart => exact .onChannel (.require (.require (.require (.ok rfl))))
  | labort => exact .of_frame ((triggerAbort_frame s.begin).ite (listAbortAll_frame s.begin)) rfl
  | tick => exact .ite (.of_frame (tickAll_frame s.begin) rfl) (.fault _)
  | rd => exact execRd_refusedOrOk ..

/-- Settles O7: a status other than `OK` comes from a refusal, which changes nothing. -/
theorem errorsChangeNothing : Obligations.ErrorsChangeNothing := by
  intro i s t hexec hstatus
  have houtcome : RefusedOrOk s (.next t) := hexec ▸ exec_refusedOrOk i s
  cases houtcome with
  | refused e => rfl
  | ok hok => exact absurd hok hstatus

/-! ### Rounding (R10) -/

theorem roundP_of_nonneg {v : Rat} (hv : 0 ≤ v) (p : Int) :
    roundP v p = p * (v / (p : Rat) + 1 / 2).floor := if_pos hv

theorem roundP_of_neg {v : Rat} (hv : v < 0) (p : Int) :
    roundP v p = -(p * (-v / (p : Rat) + 1 / 2).floor) := if_neg (not_le.mpr hv)

/-- Half a step is below a whole one, so 0 is rounded to 0. -/
@[simp] theorem roundP_zero (p : Int) : roundP 0 p = 0 := by
  have half : (1 / 2 : Rat).floor = 0 := show ⌊(1 / 2 : Rat)⌋ = 0 by norm_num
  rw [roundP_of_nonneg le_rfl, zero_div, zero_add, half, mul_zero]

/-- Rounding is odd: it looks at the magnitude alone. -/
@[simp] theorem roundP_neg (v : Rat) (p : Int) : roundP (-v) p = -roundP v p := by
  rcases lt_trichotomy v 0 with hv | rfl | hv
  · rw [roundP_of_neg hv, roundP_of_nonneg (neg_pos.mpr hv).le, neg_neg]
  · simp
  · rw [roundP_of_neg (neg_neg_iff_pos.mpr hv), roundP_of_nonneg hv.le, neg_neg]

theorem dvd_roundP (v : Rat) (p : Int) : p ∣ roundP v p := by
  unfold roundP
  split
  · exact dvd_mul_right ..
  · exact (dvd_mul_right ..).neg_right

/-- On a magnitude, rounding goes up by at most half a step, a tie included, and down by less than that. -/
theorem roundP_sub_bounds {v : Rat} {p : Int} (hv : 0 ≤ v) (hp : 0 < p) :
    -(p : Rat) < 2 * ((roundP v p : Rat) - v) ∧ 2 * ((roundP v p : Rat) - v) ≤ p := by
  have hp' : (0 : Rat) < p := by exact_mod_cast hp
  have hmul : (p : Rat) * (v / p + 1 / 2) = v + p / 2 := by field_simp
  have hle := mul_le_mul_of_nonneg_left (Rat.floor_le (v / p + 1 / 2)) hp'.le
  have hlt := mul_lt_mul_of_pos_left (Rat.lt_floor_add_one (v / p + 1 / 2)) hp'
  push_cast at hlt
  rw [roundP_of_nonneg hv, Int.cast_mul]
  constructor <;> linarith

/-- The two clauses of R10 on a magnitude: nearest, and a tie goes away from zero. -/
theorem roundP_nearest_of_nonneg {v : Rat} {p : Int} (hv : 0 ≤ v) (hp : 0 < p) :
    2 * |(roundP v p : Rat) - v| ≤ p ∧
    (2 * |(roundP v p : Rat) - v| = p → |v| < |(roundP v p : Rat)|) := by
  obtain ⟨hdown, hup⟩ := roundP_sub_bounds hv hp
  have hp' : (0 : Rat) < p := by exact_mod_cast hp
  rcases le_total v (roundP v p) with hle | hle
  · rw [abs_of_nonneg (sub_nonneg.mpr hle), abs_of_nonneg hv, abs_of_nonneg (hv.trans hle)]
    exact ⟨hup, fun _ => by linarith⟩
  · rw [abs_of_nonpos (sub_nonpos.mpr hle)]
    exact ⟨by linarith, fun _ => by linarith⟩

/-- The same for every value, by oddness. -/
theorem roundP_nearest (v : Rat) {p : Int} (hp : 0 < p) :
    2 * |(roundP v p : Rat) - v| ≤ p ∧
    (2 * |(roundP v p : Rat) - v| = p → |v| < |(roundP v p : Rat)|) := by
  rcases le_total 0 v with hv | hv
  · exact roundP_nearest_of_nonneg hv hp
  · have hdist : |((roundP (-v) p : Int) : Rat) - -v| = |(roundP v p : Rat) - v| := by
      rw [roundP_neg, Int.cast_neg, ← neg_sub', abs_neg]
    have hmag : |((roundP (-v) p : Int) : Rat)| = |(roundP v p : Rat)| := by
      rw [roundP_neg, Int.cast_neg, abs_neg]
    simpa only [hdist, hmag, abs_neg] using roundP_nearest_of_nonneg (neg_nonneg.mpr hv) hp

/-- Rounding to whole units leaves an integer: no other is within half a unit of it. -/
@[simp] theorem roundP_intCast_one (z : Int) : roundP (z : Rat) 1 = z := by
  have hnear : 2 * |roundP (z : Rat) 1 - z| ≤ 1 := by
    exact_mod_cast (roundP_nearest (z : Rat) one_pos).1
  have hzero : |roundP (z : Rat) 1 - z| ≤ 0 := by omega
  exact sub_eq_zero.mp (abs_nonpos_iff.mp hzero)

/-- Settles O11: the rule for a magnitude, carried to every value by oddness. -/
theorem roundingIsNearest : Obligations.RoundingIsNearest := by
  refine ⟨fun v p hp => ?_, roundP_intCast_one⟩
  obtain ⟨hnear, htie⟩ := roundP_nearest v hp
  exact ⟨dvd_roundP v p, hnear, htie, roundP_neg v p⟩

end Sys2Proof.Machine

/-! ## The rules of `20_memory.md`: the list memories -/

namespace Sys2Proof.Machine

open Sys2Proof

/-! ### The named channel updates leave the list program alone (R36) -/

@[simp] theorem Channel.setRecord_list (ch : Channel) (q : Quantity) (f : ValueRec → ValueRec) :
    (ch.setRecord q f).list = ch.list := by cases q <;> rfl

@[simp] theorem Channel.setProt_list (ch : Channel) (k : Kind) (f : ProtRec → ProtRec) :
    (ch.setProt k f).list = ch.list := rfl

@[simp] theorem Channel.setCal_list (ch : Channel) (t : ConvSet) (f : CalSet → CalSet) :
    (ch.setCal t f).list = ch.list := rfl

@[simp] theorem Channel.clearProtection_list (ch : Channel) : ch.clearProtection.list = ch.list := rfl

@[simp] theorem Channel.takeSnapshot_list (ch : Channel) (q : Quantity) :
    (ch.takeSnapshot q).list = ch.list := by
  unfold Channel.takeSnapshot
  split
  · rfl
  · cases q <;> rfl

@[simp] theorem Channel.takeSample_list (cfg : Params) (p : Int) (ch : Channel) (r : AdcInput) (code : Val) :
    (ch.takeSample cfg p r code).list = ch.list := by cases r <;> rfl

@[simp] theorem switchCal_list (cfg : Params) (b : Bool) (ch : Channel) :
    (switchCal cfg b ch).list = ch.list := rfl

@[simp] theorem selectMode_list (cfg : Params) (m : RangeMode) (ch : Channel) :
    (selectMode cfg m ch).list = ch.list := rfl

@[simp] theorem voltageApplied_list (ch : Channel) (v : Int) : (voltageApplied ch v).list = ch.list := rfl

@[simp] theorem currentApplied_list (cfg : Params) (now : Time) (pin : ChanPins) (ch : Channel) (i : Int) :
    (currentApplied cfg now pin ch i).list = ch.list := rfl

@[simp] theorem turnedOn_list (now : Time) (ch : Channel) : (turnedOn now ch).list = ch.list := rfl

@[simp] theorem turnedOff_list (now : Time) (ch : Channel) : (turnedOff now ch).list = ch.list := rfl

@[simp] theorem latched_list (k : Kind) (ch : Channel) : (latched k ch).list = ch.list := rfl

@[simp] theorem rprogDropped_list (ch : Channel) : (rprogDropped ch).list = ch.list := by
  unfold rprogDropped
  split <;> rfl

/-! ### Who writes a list memory (R62, R284)

A tick and the trigger's execution read the list programs and write none; of the commands only `LSET` writes
an element. -/

theorem ScanMove.list_eq {cfg : Params} {a b : Channel} (h : ScanMove cfg a b) : b.list = a.list := by
  cases h <;> simp

theorem RunMove.list_eq {cfg : Params} {a b : Channel} (h : RunMove cfg a b) : b.list = a.list := by
  cases h <;> simp

/-- A command keeps the memories of the channel it names, or is an `LSET` that writes its one element. -/
theorem CmdMove.mem_eq_or_write {cfg : Params} {c : Nat} {i : Instr} {a b : Channel}
    (h : CmdMove cfg c i a b) :
    b.list.mem = a.list.mem ∨
    ∃ arr k v, i = .lset c arr k v ∧ b.list.mem = (a.listWrite arr k (BitVec.ofInt 32 v)).list.mem := by
  cases h with
  | lset _ arr k v => exact .inr ⟨arr, k, v, rfl, rfl⟩
  | _ => exact .inl (by simp)

/-! ### The canonical form is kept (log entry 10) -/

/-- The list memories of one channel are in canonical form. -/
def Channel.memoryOk (ch : Channel) : Prop := ∀ a, Memory.wf (ch.list.mem.get a) = true

theorem memoryInv_iff (s : State) : MemoryInv s ↔ ∀ ch ∈ s.chans, ch.memoryOk := Iff.rfl

/-- The form depends on the memories alone. -/
theorem Channel.memoryOk_of_mem_eq {a b : Channel} (h : b.list.mem = a.list.mem) (ha : a.memoryOk) :
    b.memoryOk := by
  unfold Channel.memoryOk
  rw [h]
  exact ha

theorem ScanMove.memoryOk {cfg : Params} {a b : Channel} (h : ScanMove cfg a b) : a.memoryOk → b.memoryOk :=
  Channel.memoryOk_of_mem_eq (congrArg ListProgram.mem h.list_eq)

theorem RunMove.memoryOk {cfg : Params} {a b : Channel} (h : RunMove cfg a b) : a.memoryOk → b.memoryOk :=
  Channel.memoryOk_of_mem_eq (congrArg ListProgram.mem h.list_eq)

theorem CmdMove.memoryOk {cfg : Params} {c : Nat} {i : Instr} {a b : Channel} (h : CmdMove cfg c i a b)
    (ha : a.memoryOk) : b.memoryOk := by
  obtain hkeep | ⟨arr, k, v, -, hwrite⟩ := h.mem_eq_or_write
  · exact Channel.memoryOk_of_mem_eq hkeep ha
  · exact Channel.memoryOk_of_mem_eq hwrite (listWrite_wf a arr k _ ha)

/-- Settles O57: every move of a tick keeps the memories, and a command keeps them or writes one element. -/
theorem everyStepKeepsListMemoryCanonical : Obligations.EveryStepKeepsListMemoryCanonical := by
  intro s t hs hstep
  rw [memoryInv_iff] at hs ⊢
  exact (step_all (P := fun _ => Channel.memoryOk) (fun _ _ _ _ _ => CmdMove.memoryOk)
    (fun _ _ _ => ScanMove.memoryOk) (fun _ _ _ => RunMove.memoryOk) hstep hs).2

end Sys2Proof.Machine

/-! ## The rules of `30_encoding.md`: fields, rows, decoder and encoder -/

namespace Sys2Proof

/-! ### The enumerations of R83 in their field

Each enumeration is read from an `n`-bit field that holds its numbers, by the inverse of the numbering. -/

/-- The numbers of an enumeration fit an `n`-bit field, and reading is the inverse of numbering. -/
structure EnumCode {α : Type} (n : Nat) (num : α → Nat) (ofNum : Nat → Option α) : Prop where
  num_lt : ∀ a, num a < 2 ^ n
  ofNum_num : ∀ a, ofNum (num a) = some a
  num_of_ofNum : ∀ {k a}, ofNum k = some a → num a = k

namespace EnumCode

variable {α : Type} {n : Nat} {num : α → Nat} {ofNum : Nat → Option α}

/-- The field that the encoder fills with an enumeration reads as it. -/
theorem ofNum_field (h : EnumCode n num ofNum) (a : α) : ofNum (BitVec.ofNat n (num a)).toNat = some a := by
  rw [BitVec.toNat_ofNat, Nat.mod_eq_of_lt (h.num_lt a), h.ofNum_num]

/-- A field that reads as an enumeration is the field that the encoder fills with it. -/
theorem field_of_ofNum (h : EnumCode n num ofNum) {x : BitVec n} {a : α} (hx : ofNum x.toNat = some a) :
    BitVec.ofNat n (num a) = x := by
  rw [h.num_of_ofNum hx, BitVec.ofNat_toNat, BitVec.setWidth_eq]

end EnumCode

theorem Quantity.code : EnumCode 4 Quantity.num Quantity.ofNum where
  num_lt q := by cases q <;> decide
  ofNum_num q := by cases q <;> rfl
  num_of_ofNum h := by unfold Quantity.ofNum at h; split at h <;> cases h <;> rfl

theorem Kind.code : EnumCode 4 Kind.num Kind.ofNum where
  num_lt k := by cases k <;> decide
  ofNum_num k := by cases k <;> rfl
  num_of_ofNum h := by unfold Kind.ofNum at h; split at h <;> cases h <;> rfl

theorem ConvSet.code : EnumCode 4 ConvSet.num ConvSet.ofNum where
  num_lt t := by cases t <;> decide
  ofNum_num t := by cases t <;> rfl
  num_of_ofNum h := by unfold ConvSet.ofNum at h; split at h <;> cases h <;> rfl

theorem ListArray.code : EnumCode 4 ListArray.num ListArray.ofNum where
  num_lt a := by cases a <;> decide
  ofNum_num a := by cases a <;> rfl
  num_of_ofNum h := by unfold ListArray.ofNum at h; split at h <;> cases h <;> rfl

theorem RangeMode.code : EnumCode 4 RangeMode.num RangeMode.ofNum where
  num_lt m := by cases m <;> decide
  ofNum_num m := by cases m <;> rfl
  num_of_ofNum h := by unfold RangeMode.ofNum at h; split at h <;> cases h <;> rfl

theorem TrigMode.code : EnumCode 16 TrigMode.num TrigMode.ofNum where
  num_lt m := by cases m <;> decide
  ofNum_num m := by cases m <;> rfl
  num_of_ofNum h := by unfold TrigMode.ofNum at h; split at h <;> cases h <;> rfl

theorem CalField.code : EnumCode 16 CalField.num CalField.ofNum where
  num_lt g := by cases g <;> decide
  ofNum_num g := by cases g <;> rfl
  num_of_ofNum h := by unfold CalField.ofNum at h; split at h <;> cases h <;> rfl

/-! ### The numeric operands in their field (R80, R81) -/

theorem fits4_iff (n : Nat) : fits4 n = true ↔ n < 16 := decide_eq_true_iff

theorem fits16_iff (n : Nat) : fits16 n = true ↔ n < 65536 := decide_eq_true_iff

theorem fitsU32_iff (n : Nat) : fitsU32 n = true ↔ n < 4294967296 := decide_eq_true_iff

theorem fitsS32_iff (v : Int) : fitsS32 v = true ↔ -2147483648 ≤ v ∧ v < 2147483648 := by
  simp [fitsS32]

theorem toNat_of_fits4 {n : Nat} (h : fits4 n = true) : (BitVec.ofNat 4 n).toNat = n :=
  Nat.mod_eq_of_lt ((fits4_iff n).mp h)

theorem toNat_of_fits16 {n : Nat} (h : fits16 n = true) : (BitVec.ofNat 16 n).toNat = n :=
  Nat.mod_eq_of_lt ((fits16_iff n).mp h)

theorem toNat_of_fitsU32 {n : Nat} (h : fitsU32 n = true) : (BitVec.ofNat 32 n).toNat = n :=
  Nat.mod_eq_of_lt ((fitsU32_iff n).mp h)

theorem toInt_of_fitsS32 {v : Int} (h : fitsS32 v = true) : (BitVec.ofInt 32 v).toInt = v := by
  obtain ⟨hlo, hhi⟩ := (fitsS32_iff v).mp h
  exact BitVec.toInt_ofInt_eq_self (by decide) hlo hhi

@[simp] theorem fits4_toNat (x : BitVec 4) : fits4 x.toNat = true := (fits4_iff _).mpr x.isLt

@[simp] theorem fits16_toNat (x : BitVec 16) : fits16 x.toNat = true := (fits16_iff _).mpr x.isLt

@[simp] theorem fitsU32_toNat (x : BitVec 32) : fitsU32 x.toNat = true := (fitsU32_iff _).mpr x.isLt

@[simp] theorem fitsS32_toInt (x : BitVec 32) : fitsS32 x.toInt = true :=
  (fitsS32_iff _).mpr ⟨x.le_toInt, x.toInt_lt⟩

/-- The immediate of `LSET` reads as the element it was written with (R84). -/
theorem elemOf_of_fitsElem {a : ListArray} {v : Int} (h : fitsElem a v = true) :
    elemOf a (BitVec.ofInt 32 v) = v := by
  cases a with
  | dwell =>
    simp only [fitsElem, Bool.and_eq_true, decide_eq_true_eq] at h
    simp only [elemOf, BitVec.toNat_ofInt]
    omega
  | volt => exact toInt_of_fitsS32 h
  | curr => exact toInt_of_fitsS32 h

@[simp] theorem fitsElem_elemOf (a : ListArray) (x : BitVec 32) : fitsElem a (elemOf a x) = true := by
  cases a with
  | dwell => simpa [fitsElem, elemOf] using x.isLt
  | volt => exact fitsS32_toInt x
  | curr => exact fitsS32_toInt x

@[simp] theorem ofInt_elemOf (a : ListArray) (x : BitVec 32) : BitVec.ofInt 32 (elemOf a x) = x := by
  cases a with
  | dwell => simp [elemOf]
  | volt => exact BitVec.ofInt_toInt
  | curr => exact BitVec.ofInt_toInt

theorem getLsbD_boolImm (b : Bool) : (boolImm b).getLsbD 0 = b := by cases b <;> rfl

/-- A Boolean immediate with bits [31:1] zero is 0 or 1 (R81). -/
theorem eq_zero_or_one_of_toNat_lt {x : BitVec 32} (h : x.toNat < 2) : x = 0 ∨ x = 1 := by
  have hx : x.toNat = 0 ∨ x.toNat = 1 := by omega
  exact hx.imp BitVec.eq_of_toNat_eq BitVec.eq_of_toNat_eq

theorem boolImm_bit_zero {x : BitVec 32} (h : x.toNat < 2) : boolImm x[0] = x := by
  obtain rfl | rfl := eq_zero_or_one_of_toNat_lt h
  · rfl
  · rfl

/-! ### The opcodes of R84 -/

theorem Opcode.ofByte_byte (op : Opcode) : Opcode.ofByte op.byte = some op := by cases op <;> rfl

theorem Opcode.ofByte_eq_some (b : BitVec 8) (op : Opcode) : Opcode.ofByte b = some op ↔ b = op.byte := by
  constructor
  · intro h
    exact (beq_iff_eq.mp (List.find?_some (p := fun op : Opcode => op.byte == b) h)).symm
  · rintro rfl
    exact op.ofByte_byte

@[simp] theorem Opcode.byte_inj {op op' : Opcode} : op.byte = op'.byte ↔ op = op' := by
  rw [← Opcode.ofByte_eq_some, Opcode.ofByte_byte, Option.some_inj]

/-! ### The decoder's checks (R346) -/

/-- Fields of a row of R84 decode as that row's command. -/
theorem Fields.decode_of_row {f : Fields} {op : Opcode} (hop : f.op = op.byte)
    (hz : op.format.reservedZero f = true) : f.decode = op.build f := by
  rw [Fields.decode, (Opcode.ofByte_eq_some _ _).mpr hop]
  exact if_pos hz

/-- Fields of no row of R84 are illegal. -/
theorem Fields.decode_of_no_row {f : Fields}
    (h : ∀ op : Opcode, f.op = op.byte → op.format.reservedZero f = false) :
    f.decode = .error .unknownOpcode ∨ f.decode = .error .reservedField := by
  unfold Fields.decode
  split
  next => exact .inl rfl
  next op hop =>
    have hz := h op ((Opcode.ofByte_eq_some _ _).mp hop)
    exact .inr (by simp [hz])

/-- Fields that decode are fields of a row of R84. -/
theorem Fields.row_of_decode_ok {f : Fields} {i : Instr} (h : f.decode = .ok i) :
    ∃ op : Opcode, f.op = op.byte ∧ op.format.reservedZero f = true := by
  by_contra hno
  have hrow : ∀ op : Opcode, f.op = op.byte → op.format.reservedZero f = false := fun op hop =>
    Bool.eq_false_iff.mpr fun hz => hno ⟨op, hop, hz⟩
  obtain herr | herr := Fields.decode_of_no_row hrow
  · rw [h] at herr; cases herr
  · rw [h] at herr; cases herr

@[simp] theorem bySel_some {α : Type} (a : α) (k : α → Except DecodeError Instr) :
    bySel (some a) k = k a := rfl

@[simp] theorem byIdx_some {α : Type} (a : α) (k : α → Except DecodeError Instr) :
    byIdx (some a) k = k a := rfl

theorem bySel_eq_ok {α : Type} {x : Option α} {k : α → Except DecodeError Instr} {i : Instr}
    (h : bySel x k = .ok i) : ∃ a, x = some a ∧ k a = .ok i := by
  cases x with
  | none => cases h
  | some a => exact ⟨a, rfl, h⟩

theorem byIdx_eq_ok {α : Type} {x : Option α} {k : α → Except DecodeError Instr} {i : Instr}
    (h : byIdx x k = .ok i) : ∃ a, x = some a ∧ k a = .ok i := by
  cases x with
  | none => cases h
  | some a => exact ⟨a, rfl, h⟩

theorem bySel_eq_error {α : Type} {x : Option α} {k : α → Except DecodeError Instr} {e : DecodeError}
    (h : bySel x k = .error e) : e = .badSelector ∨ ∃ a, k a = .error e := by
  cases x with
  | none => cases h; exact .inl rfl
  | some a => exact .inr ⟨a, h⟩

theorem byIdx_eq_error {α : Type} {x : Option α} {k : α → Except DecodeError Instr} {e : DecodeError}
    (h : byIdx x k = .error e) : e = .badIndex ∨ ∃ a, k a = .error e := by
  cases x with
  | none => cases h; exact .inl rfl
  | some a => exact .inr ⟨a, h⟩

/-- After the row is found, only an enumerated `sel` or `idx` can be illegal (R346 (2)). -/
theorem Opcode.error_of_build {op : Opcode} {f : Fields} {e : DecodeError} (h : op.build f = .error e) :
    e = .badSelector ∨ e = .badIndex := by
  cases op with (simp only [Opcode.build] at h)
  | fadd | faddr | frst | calcommit | calclr | tophys | toraw | rmode | pstate | pdelay | plevel | tlev | llen
  | lset | lget =>
    obtain hsel | ⟨a, ⟨⟩⟩ := bySel_eq_error h
    exact .inl hsel
  | calpt | tmode =>
    obtain hsel | ⟨a, h⟩ := bySel_eq_error h
    · exact .inl hsel
    · obtain hidx | ⟨b, ⟨⟩⟩ := byIdx_eq_error h
      exact .inr hidx
  | _ => cases h

/-! ### The reserved fields of a row (R82) -/

/-- What a row reserves of `imm`: bits [31:1] of a Boolean immediate, all of an unused one (R81). -/
def ImmUse.ReservedZero : ImmUse → BitVec 32 → Prop
  | .bool, x => x.toNat < 2
  | .unused, x => x = 0
  | .s32, _ | .u32, _ | .elem, _ => True

theorem Format.reservedZero_iff (m : Format) (f : Fields) :
    m.reservedZero f = true ↔
      (m.ch = true ∨ f.ch = 0) ∧ (m.sel = true ∨ f.sel = 0) ∧ (m.idx = true ∨ f.idx = 0) ∧
        m.imm.ReservedZero f.imm := by
  obtain ⟨ch, sel, idx, imm⟩ := m
  cases imm with simp [Format.reservedZero, ImmUse.ReservedZero, and_assoc]

/-! ### Decoding what was encoded -/

/-- Every command is encoded in a row of R84. -/
theorem Instr.exists_row (i : Instr) : ∃ op : Opcode, Laws.InRow op i := by
  cases i with
  | fadd c q v => exact Laws.FieldsOfItsRow.fadd c q v
  | faddr c q v => exact Laws.FieldsOfItsRow.faddr c q v
  | frst c q => exact Laws.FieldsOfItsRow.frst c q
  | calpt c t g v => exact Laws.FieldsOfItsRow.calpt c t g v
  | calcommit c t => exact Laws.FieldsOfItsRow.calcommit c t
  | calclr c t => exact Laws.FieldsOfItsRow.calclr c t
  | calen c b => exact Laws.FieldsOfItsRow.calen c b
  | tophys c t v => exact Laws.FieldsOfItsRow.tophys c t v
  | toraw c t v => exact Laws.FieldsOfItsRow.toraw c t v
  | rmode c m => exact Laws.FieldsOfItsRow.rmode c m
  | rauto c b => exact Laws.FieldsOfItsRow.rauto c b
  | setv c v => exact Laws.FieldsOfItsRow.setv c v
  | seti c v => exact Laws.FieldsOfItsRow.seti c v
  | limv c v => exact Laws.FieldsOfItsRow.limv c v
  | limi c v => exact Laws.FieldsOfItsRow.limi c v
  | limp c v => exact Laws.FieldsOfItsRow.limp c v
  | outen c b => exact Laws.FieldsOfItsRow.outen c b
  | sense c b => exact Laws.FieldsOfItsRow.sense c b
  | rprog c b => exact Laws.FieldsOfItsRow.rprog c b
  | pstate c k b => exact Laws.FieldsOfItsRow.pstate c k b
  | pdelay c k v => exact Laws.FieldsOfItsRow.pdelay c k v
  | plevel c k v => exact Laws.FieldsOfItsRow.plevel c k v
  | pclr c b => exact Laws.FieldsOfItsRow.pclr c b
  | pdis c => exact Laws.FieldsOfItsRow.pdis c
  | tsrc src => exact Laws.FieldsOfItsRow.tsrc src
  | tdelay n => exact Laws.FieldsOfItsRow.tdelay n
  | tcont b => exact Laws.FieldsOfItsRow.tcont b
  | tmode c q m => exact Laws.FieldsOfItsRow.tmode c q m
  | tlev c q v => exact Laws.FieldsOfItsRow.tlev c q v
  | tout c b => exact Laws.FieldsOfItsRow.tout c b
  | init => exact Laws.FieldsOfItsRow.init
  | trg src b => exact Laws.FieldsOfItsRow.trg src b
  | tabort => exact Laws.FieldsOfItsRow.tabort
  | llen c a len => exact Laws.FieldsOfItsRow.llen c a len
  | lset c a k v => exact Laws.FieldsOfItsRow.lset c a k v
  | lcount c n => exact Laws.FieldsOfItsRow.lcount c n
  | lget c a k => exact Laws.FieldsOfItsRow.lget c a k
  | lstart c => exact Laws.FieldsOfItsRow.lstart c
  | labort => exact Laws.FieldsOfItsRow.labort
  | lsaved c => exact Laws.FieldsOfItsRow.lsaved c
  | tick => exact Laws.FieldsOfItsRow.tick
  | rd c reg => exact Laws.FieldsOfItsRow.rd c reg

/-- The row of a well-formed command builds it back from its fields: every operand is read from the field
that holds it, by the reading lemma of that field. -/
theorem Instr.build_fields {op : Opcode} {i : Instr} (hop : i.fields.op = op.byte) (hwf : i.wf = true) :
    op.build i.fields = .ok i := by
  cases i with (
    simp only [Instr.fields, Opcode.fields, Opcode.byte_inj] at hop
    subst hop
    simp only [Instr.wf, Bool.and_eq_true] at hwf
    simp only [Opcode.build, Instr.fields, Opcode.fields])
  | fadd c q v | faddr c q v | tlev c q v =>
    obtain ⟨hc, hv⟩ := hwf
    rw [Quantity.code.ofNum_field, bySel_some, toNat_of_fits4 hc, toInt_of_fitsS32 hv]
  | frst c q =>
    rw [Quantity.code.ofNum_field, bySel_some, toNat_of_fits4 hwf]
  | calpt c t g v =>
    obtain ⟨hc, hv⟩ := hwf
    rw [ConvSet.code.ofNum_field, bySel_some, CalField.code.ofNum_field, byIdx_some, toNat_of_fits4 hc,
      toInt_of_fitsS32 hv]
  | calcommit c t | calclr c t =>
    rw [ConvSet.code.ofNum_field, bySel_some, toNat_of_fits4 hwf]
  | tophys c t v | toraw c t v =>
    obtain ⟨hc, hv⟩ := hwf
    rw [ConvSet.code.ofNum_field, bySel_some, toNat_of_fits4 hc, toInt_of_fitsS32 hv]
  | rmode c m =>
    rw [RangeMode.code.ofNum_field, bySel_some, toNat_of_fits4 hwf]
  | calen c b | rauto c b | outen c b | sense c b | rprog c b | pclr c b | tout c b =>
    rw [toNat_of_fits4 hwf, getLsbD_boolImm]
  | setv c v | seti c v | limv c v | limi c v | limp c v =>
    obtain ⟨hc, hv⟩ := hwf
    rw [toNat_of_fits4 hc, toInt_of_fitsS32 hv]
  | pstate c k b =>
    rw [Kind.code.ofNum_field, bySel_some, toNat_of_fits4 hwf, getLsbD_boolImm]
  | pdelay c k v | plevel c k v =>
    obtain ⟨hc, hv⟩ := hwf
    rw [Kind.code.ofNum_field, bySel_some, toNat_of_fits4 hc, toInt_of_fitsS32 hv]
  | pdis c | lstart c | lsaved c | tsrc c => rw [toNat_of_fits4 hwf]
  | tdelay n => rw [toNat_of_fitsU32 hwf]
  | tcont b => rw [getLsbD_boolImm]
  | tmode c q m =>
    rw [Quantity.code.ofNum_field, bySel_some, TrigMode.code.ofNum_field, byIdx_some, toNat_of_fits4 hwf]
  | trg src b => rw [toNat_of_fits4 hwf, getLsbD_boolImm]
  | llen c a k | lget c a k =>
    obtain ⟨hc, hk⟩ := hwf
    rw [ListArray.code.ofNum_field, bySel_some, toNat_of_fits4 hc, toNat_of_fits16 hk]
  | lset c a k v =>
    obtain ⟨⟨hc, hk⟩, hv⟩ := hwf
    rw [ListArray.code.ofNum_field, bySel_some, toNat_of_fits4 hc, toNat_of_fits16 hk,
      elemOf_of_fitsElem hv]
  | lcount c n =>
    obtain ⟨hc, hn⟩ := hwf
    rw [toNat_of_fits4 hc, toNat_of_fitsU32 hn]
  | rd c reg =>
    obtain ⟨hc, hreg⟩ := hwf
    rw [toNat_of_fits4 hc, toNat_of_fits16 hreg]

/-- Settles O1: the word's fields are the command's, they are in the command's row, and that row builds the
command back. -/
theorem decodeEncodeRoundTrip : Obligations.DecodeEncodeRoundTrip := by
  intro i hwf
  obtain ⟨op, hop, hz⟩ := i.exists_row
  calc decode (encode i) = i.fields.decode := by rw [decode, encode, Fields.ofWord_word]
    _ = op.build i.fields := Fields.decode_of_row hop hz
    _ = .ok i := i.build_fields hop hwf

/-! ### Encoding what was decoded -/

/-- What a row builds from fields it admits is well formed, and its fields are those: each field is used by an
operand, or reserved and so zero. -/
theorem Opcode.wf_and_fields_of_build {op : Opcode} {f : Fields} {i : Instr} (hop : f.op = op.byte)
    (hz : op.format.reservedZero f = true) (hb : op.build f = .ok i) : i.wf = true ∧ i.fields = f := by
  obtain ⟨o, ch, sel, idx, imm⟩ := f
  subst hop
  cases op with (
    simp only [Opcode.build] at hb
    simp only [Format.reservedZero_iff, Opcode.format, ImmUse.ReservedZero, true_or, true_and, and_true,
      Bool.false_eq_true, false_or] at hz)
  | fadd | faddr | frst | tlev =>
    obtain ⟨q, hq, ⟨⟩⟩ := bySel_eq_ok hb
    simp [Instr.wf, Instr.fields, Opcode.fields, Quantity.code.field_of_ofNum hq, hz]
  | calpt =>
    obtain ⟨t, ht, hb⟩ := bySel_eq_ok hb
    obtain ⟨g, hg, ⟨⟩⟩ := byIdx_eq_ok hb
    simp [Instr.wf, Instr.fields, Opcode.fields, ConvSet.code.field_of_ofNum ht,
      CalField.code.field_of_ofNum hg]
  | calcommit | calclr | tophys | toraw =>
    obtain ⟨t, ht, ⟨⟩⟩ := bySel_eq_ok hb
    simp [Instr.wf, Instr.fields, Opcode.fields, ConvSet.code.field_of_ofNum ht, hz]
  | rmode =>
    obtain ⟨m, hm, ⟨⟩⟩ := bySel_eq_ok hb
    simp [Instr.wf, Instr.fields, Opcode.fields, RangeMode.code.field_of_ofNum hm, hz]
  | calen | rauto | outen | sense | rprog | pclr | tout =>
    obtain ⟨hsel, hidx, himm⟩ := hz
    cases hb
    simp [Instr.wf, Instr.fields, Opcode.fields, boolImm_bit_zero himm, hsel, hidx]
  | pstate =>
    obtain ⟨k, hk, ⟨⟩⟩ := bySel_eq_ok hb
    obtain ⟨hidx, himm⟩ := hz
    simp [Instr.wf, Instr.fields, Opcode.fields, Kind.code.field_of_ofNum hk, boolImm_bit_zero himm, hidx]
  | pdelay | plevel =>
    obtain ⟨k, hk, ⟨⟩⟩ := bySel_eq_ok hb
    simp [Instr.wf, Instr.fields, Opcode.fields, Kind.code.field_of_ofNum hk, hz]
  | setv | seti | limv | limi | limp | pdis | tsrc | tdelay | init | tabort | lcount | lstart | labort | lsaved
  | tick | rd =>
    cases hb
    simp [Instr.wf, Instr.fields, Opcode.fields, hz]
  | tcont =>
    obtain ⟨hch, hsel, hidx, himm⟩ := hz
    cases hb
    simp [Instr.wf, Instr.fields, Opcode.fields, boolImm_bit_zero himm, hch, hsel, hidx]
  | trg =>
    obtain ⟨hch, hidx, himm⟩ := hz
    cases hb
    simp [Instr.wf, Instr.fields, Opcode.fields, boolImm_bit_zero himm, hch, hidx]
  | tmode =>
    obtain ⟨q, hq, hb⟩ := bySel_eq_ok hb
    obtain ⟨m, hm, ⟨⟩⟩ := byIdx_eq_ok hb
    simp [Instr.wf, Instr.fields, Opcode.fields, Quantity.code.field_of_ofNum hq,
      TrigMode.code.field_of_ofNum hm, hz]
  | llen | lget | lset =>
    obtain ⟨a, ha, ⟨⟩⟩ := bySel_eq_ok hb
    simp [Instr.wf, Instr.fields, Opcode.fields, ListArray.code.field_of_ofNum ha, hz]

/-- Settles O2: the word's fields are admitted by the row that builds the command, so they are the command's. -/
theorem encodeDecodeRoundTrip : Obligations.EncodeDecodeRoundTrip := by
  intro w i hdec
  obtain ⟨op, hop, hz⟩ := Fields.row_of_decode_ok hdec
  have hb : op.build (Fields.ofWord w) = .ok i := (Fields.decode_of_row hop hz).symm.trans hdec
  obtain ⟨hwf, hfields⟩ := Opcode.wf_and_fields_of_build hop hz hb
  exact ⟨hwf, by rw [encode, hfields, Fields.word_ofWord]⟩

/-! ### `match` and `mask` (R86) -/

theorem Fields.word_inj {f g : Fields} : f.word = g.word ↔ f = g :=
  ⟨fun h => by rw [← f.ofWord_word, h, g.ofWord_word], congrArg Fields.word⟩

theorem Fields.word_and_word (f g : Fields) :
    f.word &&& g.word =
      Fields.word ⟨f.op &&& g.op, f.ch &&& g.ch, f.sel &&& g.sel, f.idx &&& g.idx, f.imm &&& g.imm⟩ := by
  simp only [Fields.word, ← BitVec.and_append]

/-- The mask of a field: ones where the row reserves it. -/
def fieldMask (n : Nat) (used : Bool) : BitVec n := if used then 0 else BitVec.allOnes n

/-- The mask of the immediate: ones in what the row reserves of it. -/
def ImmUse.mask : ImmUse → BitVec 32
  | .bool => 0xFFFFFFFE
  | .unused => 0xFFFFFFFF
  | .s32 | .u32 | .elem => 0

theorem Opcode.maskWord_eq (op : Opcode) :
    op.maskWord =
      Fields.word ⟨0xFF, fieldMask 4 op.format.ch, fieldMask 4 op.format.sel, fieldMask 16 op.format.idx,
        op.format.imm.mask⟩ := by
  cases op <;> rfl

theorem and_fieldMask_eq_zero {n : Nat} (x : BitVec n) (used : Bool) :
    x &&& fieldMask n used = 0 ↔ used = true ∨ x = 0 := by
  cases used with simp [fieldMask]

/-- Bits [31:1] are zero exactly when the value is below 2: `x` is then its own bit 0. -/
theorem and_boolMask_eq_zero (x : BitVec 32) : x &&& 0xFFFFFFFE = 0 ↔ x.toNat < 2 := by
  constructor
  · intro h
    have hx : x = x &&& 1 :=
      calc x = x &&& (0xFFFFFFFE ||| 1) := (BitVec.and_allOnes (x := x)).symm
        _ = (x &&& 0xFFFFFFFE) ||| (x &&& 1) := BitVec.and_or_distrib_left
        _ = 0 ||| (x &&& 1) := by rw [h]
        _ = x &&& 1 := BitVec.zero_or
    have hle : (x &&& 1).toNat ≤ 1 := Nat.and_le_right
    rw [← hx] at hle
    omega
  · intro h
    obtain rfl | rfl := eq_zero_or_one_of_toNat_lt h
    · decide
    · decide

theorem ImmUse.and_mask_eq_zero (u : ImmUse) (x : BitVec 32) : x &&& u.mask = 0 ↔ u.ReservedZero x := by
  cases u with
  | bool => exact and_boolMask_eq_zero x
  | unused => exact and_fieldMask_eq_zero x false |>.trans (by simp [ImmUse.ReservedZero])
  | s32 | u32 | elem => simp [ImmUse.mask, ImmUse.ReservedZero]

/-- A word matches a row exactly when its fields are in that row (R82, R86). -/
theorem Opcode.and_maskWord_eq_matchWord (w : CmdWord) (op : Opcode) :
    w &&& op.maskWord = op.matchWord ↔
      (Fields.ofWord w).op = op.byte ∧ op.format.reservedZero (Fields.ofWord w) = true := by
  have hop : (Fields.ofWord w).op &&& 0xFF = (Fields.ofWord w).op := BitVec.and_allOnes
  have hw : w &&& op.maskWord = (Fields.ofWord w).word &&& op.maskWord := by rw [Fields.word_ofWord]
  rw [hw, op.maskWord_eq, Fields.word_and_word, Opcode.matchWord, Fields.word_inj, Fields.mk.injEq, hop,
    and_fieldMask_eq_zero, and_fieldMask_eq_zero, and_fieldMask_eq_zero, ImmUse.and_mask_eq_zero,
    Format.reservedZero_iff]

/-- Settles O3: `match` and `mask` say that the fields are in the row, the opcode byte tells the row, and the
decoder takes the row or none. -/
theorem matchAndMaskDecideTheRow : Obligations.MatchAndMaskDecideTheRow := by
  refine ⟨Opcode.and_maskWord_eq_matchWord, fun w op op' h h' => ?_, fun w hno => ?_, fun w op h => ?_⟩
  · obtain ⟨hop, -⟩ := (Opcode.and_maskWord_eq_matchWord w op).mp h
    obtain ⟨hop', -⟩ := (Opcode.and_maskWord_eq_matchWord w op').mp h'
    exact Opcode.byte_inj.mp (hop.symm.trans hop')
  · exact Fields.decode_of_no_row fun op hop => Bool.eq_false_iff.mpr fun hz =>
      hno op ((Opcode.and_maskWord_eq_matchWord w op).mpr ⟨hop, hz⟩)
  · obtain ⟨hop, hz⟩ := (Opcode.and_maskWord_eq_matchWord w op).mp h
    have hdec : decode w = op.build (Fields.ofWord w) := Fields.decode_of_row hop hz
    exact ⟨hdec, fun e he => Opcode.error_of_build (hdec.symm.trans he)⟩

/-! ### Words written out (R80, R83, R84) -/

/-- The word of a well-formed command decodes to it. -/
theorem decode_of_encode_eq {w : CmdWord} {i : Instr} (hwf : i.wf = true) (h : encode i = w) :
    decode w = .ok i := by
  rw [← h]
  exact decodeEncodeRoundTrip i hwf

/-- Settles O4: each word is the encoding of its well-formed command. -/
theorem specWordsDecode : Obligations.SpecWordsDecode :=
  ⟨decode_of_encode_eq rfl rfl, decode_of_encode_eq rfl rfl, decode_of_encode_eq rfl rfl,
    decode_of_encode_eq rfl rfl, decode_of_encode_eq rfl rfl, decode_of_encode_eq rfl rfl,
    decode_of_encode_eq rfl rfl, decode_of_encode_eq rfl rfl, decode_of_encode_eq rfl rfl⟩

end Sys2Proof

namespace Sys2Proof.Machine

open Sys2Proof

/-! ### Illegal words and idle steps (R82, R370) -/

theorem step_of_port_nil {s : State} (h : s.port = []) : step s = .next s := by
  rw [step, stepPort, h]

theorem runWord_of_decode_error {w : CmdWord} {e : DecodeError} (h : decode w = .error e) (s : State) :
    runWord w s = raise .illegal s := by
  rw [runWord, h]

/-- Settles O6: an illegal word is raised at the state that accepted it; with an empty port the state stays. -/
theorem illegalWordsAndIdleSteps : Obligations.IllegalWordsAndIdleSteps := by
  refine ⟨fun s req rest e hport hdec => ?_, fun s => step_of_port_nil⟩
  calc step s = runWord req.word (s.accept req rest) := step_of_port_cons hport
    _ = raise .illegal (s.accept req rest) := runWord_of_decode_error hdec _

end Sys2Proof.Machine

/-! ## The rules of `40_filter.md`: the value filters -/

namespace Sys2Proof.Machine

open Sys2Proof

/-! ### Rounding and saturating what needs neither (R10, R12) -/

/-- Rounding leaves a multiple of the precision: another multiple is at least a whole step away from it. -/
theorem roundP_of_dvd {z p : Int} (hp : 0 < p) (hdvd : p ∣ z) : roundP (z : Rat) p = z := by
  have hnear : 2 * |roundP (z : Rat) p - z| ≤ p := by exact_mod_cast (roundP_nearest (z : Rat) hp).1
  have hdiff : p ∣ roundP (z : Rat) p - z := dvd_sub (dvd_roundP _ p) hdvd
  exact sub_eq_zero.mp (Int.eq_zero_of_abs_lt_dvd hdiff (by omega))

theorem sat_of_abs_lt {z : Int} (h : |z| < 2147483648) : sat z = z := by
  obtain ⟨hlo, hhi⟩ := abs_lt.mp h
  rw [sat, clamp, if_neg (by omega), if_neg (by omega)]

theorem sat_bounds (z : Int) : -2147483648 ≤ sat z ∧ sat z ≤ 2147483647 := by
  unfold sat clamp
  split_ifs <;> omega

/-- A saturated integer reads back from its value register. -/
theorem toInt_toVal_sat (z : Int) : (toVal (sat z)).toInt = sat z := by
  obtain ⟨hlo, hhi⟩ := sat_bounds z
  exact BitVec.toInt_ofInt_eq_self (by decide) hlo (Int.lt_add_one_of_le hhi)

/-! ### The two branches of `filterAdd` (R101) -/

@[simp] theorem filterAdd_of_unseeded {f : Filter} (h : f.seeded = false) (w : Nat) (v : Rat) (p : Int) :
    (filterAdd w f v p).1 =
      ⟨List.replicate w (toVal (sat (roundP v p))), 0, (w : Int) * sat (roundP v p), true⟩ := by
  simp [filterAdd, h]

@[simp] theorem filterAdd_of_seeded {f : Filter} (h : f.seeded = true) (w : Nat) (v : Rat) (p : Int) :
    (filterAdd w f v p).1 =
      ⟨f.buf.set f.idx (toVal (sat (roundP v p))), (f.idx + 1) % w,
        f.sum - (f.buf.getD f.idx 0).toInt + sat (roundP v p), true⟩ := by
  simp [filterAdd, h]

theorem filterAdd_mean (w : Nat) (f : Filter) (v : Rat) (p : Int) :
    (filterAdd w f v p).2 = toVal (sat (roundP (((filterAdd w f v p).1.sum : Rat) / (w : Rat)) p)) := rfl

@[simp] theorem filterAdd_seeded (w : Nat) (f : Filter) (v : Rat) (p : Int) :
    (filterAdd w f v p).1.seeded = true := by
  cases h : f.seeded with
  | false => rw [filterAdd_of_unseeded h]
  | true => rw [filterAdd_of_seeded h]

/-- Settles O12: the two branches, slot by slot. -/
theorem filterAddRule : Obligations.FilterAddRule := by
  intro w f v p _ _
  refine ⟨fun h => ?_, fun h hidx => ?_, filterAdd_seeded .., filterAdd_mean ..⟩
  · rw [filterAdd_of_unseeded h]
    exact ⟨rfl, rfl, rfl⟩
  · rw [filterAdd_of_seeded h]
    exact ⟨List.length_set, List.getElem?_set_self hidx, fun j hj => List.getElem?_set_ne hj.symm,
      fun old hold => by rw [List.getD_eq_getElem?_getD, hold, Option.getD_some], rfl⟩

/-! ### The running sum (R22, R102 (a)) -/

/-- Storing a sample moves the sum of the ring by the difference of the new entry and the old one. -/
theorem sum_toInt_set {l : List Val} {k : Nat} (hk : k < l.length) (x : Val) :
    ((l.set k x).map BitVec.toInt).sum = (l.map BitVec.toInt).sum - (l.getD k 0).toInt + x.toInt := by
  have hk' : k < (l.map BitVec.toInt).length := by rwa [List.length_map]
  rw [List.map_set, List.sum_set', dif_pos hk', List.getElem_map, List.getD_eq_getElem _ _ hk, ← add_assoc,
    ← sub_eq_add_neg]

/-- The sum of a ring of equal entries. -/
theorem sum_toInt_replicate (w : Nat) (z : Int) :
    ((List.replicate w (toVal (sat z))).map BitVec.toInt).sum = (w : Int) * sat z := by
  rw [List.map_replicate, toInt_toVal_sat, List.sum_replicate, nsmul_eq_mul]

/-- Whatever the ring was before the first sample, every call leaves one whose running sum is its sum. -/
theorem filterAdd_ok {w : Nat} (hw : 1 ≤ w) {f : Filter} (hf : f.seeded = true → f.ok w) (v : Rat) (p : Int) :
    (filterAdd w f v p).1.ok w := by
  cases h : f.seeded with
  | false =>
    rw [filterAdd_of_unseeded h]
    exact ⟨List.length_replicate, hw, (sum_toInt_replicate ..).symm⟩
  | true =>
    obtain ⟨hlen, hidx, hsum⟩ := hf h
    rw [filterAdd_of_seeded h]
    refine ⟨List.length_set.trans hlen, Nat.mod_lt _ hw, ?_⟩
    rw [sum_toInt_set (hlen ▸ hidx), toInt_toVal_sat, hsum]

/-! ### A ring of equal entries (R102 (b), (d), (e)) -/

/-- A measured ring whose `w` entries are all `x`. -/
structure Filter.Steady (w : Nat) (x : Int) (f : Filter) : Prop where
  ok : f.ok w
  seeded : f.seeded = true
  buf : f.buf = List.replicate w (toVal x)

/-- The first sample makes the ring steady (R102 (b)). -/
theorem filterAdd_steady_of_unseeded {w : Nat} (hw : 1 ≤ w) {f : Filter} (h : f.seeded = false) (v : Rat)
    (p : Int) : Filter.Steady w (sat (roundP v p)) (filterAdd w f v p).1 :=
  ⟨filterAdd_ok hw (by simp [h]) v p, filterAdd_seeded .., by rw [filterAdd_of_unseeded h]⟩

/-- A sample equal to the entries keeps the ring steady (R102 (d)). -/
theorem filterAdd_steady {w : Nat} (hw : 1 ≤ w) {f : Filter} {v : Rat} {p : Int}
    (hf : f.Steady w (sat (roundP v p))) : Filter.Steady w (sat (roundP v p)) (filterAdd w f v p).1 :=
  ⟨filterAdd_ok hw (fun _ => hf.ok) v p, filterAdd_seeded .., by
    rw [filterAdd_of_seeded hf.seeded, hf.buf, List.set_replicate_self]⟩

/-- Every sample makes a ring of one entry steady (R102 (e)). -/
theorem filterAdd_steady_one {f : Filter} (hf : f.ok 1) (v : Rat) (p : Int) :
    Filter.Steady 1 (sat (roundP v p)) (filterAdd 1 f v p).1 := by
  cases h : f.seeded with
  | false => exact filterAdd_steady_of_unseeded le_rfl h v p
  | true =>
    refine ⟨filterAdd_ok le_rfl (fun _ => hf) v p, filterAdd_seeded .., ?_⟩
    obtain ⟨hlen, hidx, -⟩ := hf
    obtain ⟨old, hbuf⟩ := List.length_eq_one_iff.mp hlen
    rw [filterAdd_of_seeded h, hbuf, Nat.lt_one_iff.mp hidx]
    rfl

/-- Feeding one sample over and over keeps the ring that its first call made. -/
theorem filterAdd_iterate_steady {w : Nat} (hw : 1 ≤ w) {f : Filter} (h : f.seeded = false) (v : Rat) (p : Int)
    (n : Nat) : Filter.Steady w (sat (roundP v p))
      (filterAdd w (Nat.iterate (fun g => (filterAdd w g v p).1) n f) v p).1 := by
  induction n with
  | zero => exact filterAdd_steady_of_unseeded hw h v p
  | succ n ih =>
    rw [Function.iterate_succ_apply']
    exact filterAdd_steady hw ih

theorem Filter.Steady.sum_eq {w : Nat} {z : Int} {f : Filter} (hf : f.Steady w (sat z)) :
    f.sum = (w : Int) * sat z := by
  obtain ⟨-, -, hsum⟩ := hf.ok
  rw [hsum, hf.buf, sum_toInt_replicate]

/-- The mean of equal entries is the entry, and rounding a multiple of the precision leaves it. -/
theorem filterAdd_mean_of_steady {w : Nat} {p : Int} (hw : 1 ≤ w) (hp : 0 < p) {f : Filter} {v : Rat}
    (hfit : |roundP v p| < 2147483648) (hf : Filter.Steady w (sat (roundP v p)) (filterAdd w f v p).1) :
    (filterAdd w f v p).2 = toVal (roundP v p) := by
  have hw' : (w : Rat) ≠ 0 := by positivity
  have hmean : ((filterAdd w f v p).1.sum : Rat) / w = (roundP v p : Rat) := by
    rw [hf.sum_eq, sat_of_abs_lt hfit, Int.cast_mul, Int.cast_natCast, mul_div_cancel_left₀ _ hw']
  rw [filterAdd_mean, hmean, roundP_of_dvd hp (dvd_roundP v p), sat_of_abs_lt hfit]

/-! ### The last window of samples (R102 (c))

Read from the slot of the index on, the ring holds its entries from the oldest to the latest. -/

/-- The entries of the ring, the oldest first. -/
def Filter.window (f : Filter) : List Int := (f.buf.map BitVec.toInt).rotate f.idx

theorem Filter.length_window {w : Nat} {f : Filter} (hf : f.ok w) : f.window.length = w := by
  obtain ⟨hlen, -, -⟩ := hf
  rw [Filter.window, List.length_rotate, List.length_map, hlen]

theorem Filter.sum_window {w : Nat} {f : Filter} (hf : f.ok w) : f.window.sum = f.sum := by
  obtain ⟨-, -, hsum⟩ := hf
  rw [hsum]
  exact (List.rotate_perm ..).sum_eq

/-- Overwriting the first entry that a rotation reads, and starting behind it, drops that entry and reads the
new one last. -/
theorem rotate_succ_set {α : Type} {l : List α} {k : Nat} (hk : k < l.length) (x : α) :
    (l.set k x).rotate (k + 1) = (l.rotate k).tail ++ [x] := by
  have hset : l.set k x = (l.take k ++ [x]) ++ l.drop (k + 1) := by
    rw [List.set_eq_take_append_cons_drop, if_pos hk, List.append_assoc, List.singleton_append]
  have hlen : (l.take k ++ [x]).length = k + 1 := by
    rw [List.length_append, List.length_take_of_le hk.le, List.length_singleton]
  calc (l.set k x).rotate (k + 1) = l.drop (k + 1) ++ (l.take k ++ [x]) := by
        rw [hset, ← hlen, List.rotate_append_length_eq, hlen]
    _ = (l.rotate k).tail ++ [x] := by
        rw [List.rotate_eq_drop_append_take hk.le, List.drop_eq_getElem_cons hk, List.cons_append,
          List.tail_cons, List.append_assoc]

/-- The first sample fills the window. -/
theorem filterAdd_window_of_unseeded {f : Filter} (h : f.seeded = false) (w : Nat) (v : Rat) (p : Int) :
    (filterAdd w f v p).1.window = List.replicate w (sat (roundP v p)) := by
  rw [filterAdd_of_unseeded h, Filter.window, List.rotate_zero, List.map_replicate, toInt_toVal_sat]

/-- A later sample pushes the oldest entry out of the window. -/
theorem filterAdd_window_of_seeded {w : Nat} {f : Filter} (h : f.seeded = true) (hf : f.ok w) (v : Rat)
    (p : Int) : (filterAdd w f v p).1.window = f.window.tail ++ [sat (roundP v p)] := by
  obtain ⟨hlen, hidx, -⟩ := hf
  have hlen' : (f.buf.map BitVec.toInt).length = w := by rw [List.length_map, hlen]
  have hset : ((f.buf.map BitVec.toInt).set f.idx (sat (roundP v p))).length = w := by
    rw [List.length_set, hlen']
  rw [filterAdd_of_seeded h, Filter.window, Filter.window, List.map_set, toInt_toVal_sat,
    ← rotate_succ_set (hlen'.symm ▸ hidx)]
  dsimp only
  rw [← hset, List.rotate_mod]

/-- The filter after a run of samples (R102 (c)). -/
def filterRun (w : Nat) (p : Int) (f : Filter) (vs : List Rat) : Filter :=
  vs.foldl (fun g x => (filterAdd w g x p).1) f

theorem filterRun_cons (w : Nat) (p : Int) (f : Filter) (v : Rat) (vs : List Rat) :
    filterRun w p f (v :: vs) = filterRun w p (filterAdd w f v p).1 vs := rfl

theorem filterRun_concat (w : Nat) (p : Int) (f : Filter) (vs : List Rat) (v : Rat) :
    filterRun w p f (vs ++ [v]) = (filterAdd w (filterRun w p f vs) v p).1 := List.foldl_concat ..

theorem filterRun_ok {w : Nat} (hw : 1 ≤ w) (p : Int) {f : Filter} (hf : f.seeded = true → f.ok w)
    (vs : List Rat) : (filterRun w p f vs).seeded = true → (filterRun w p f vs).ok w := by
  induction vs generalizing f with
  | nil => exact hf
  | cons v vs ih => exact ih fun _ => filterAdd_ok hw hf v p

/-- A run on a measured ring: each sample pushes one entry out. -/
theorem filterRun_window_of_seeded {w : Nat} (hw : 1 ≤ w) (p : Int) {f : Filter} (h : f.seeded = true)
    (hf : f.ok w) (vs : List Rat) :
    (filterRun w p f vs).window = (f.window ++ vs.map fun x => sat (roundP x p)).drop vs.length := by
  induction vs generalizing f with
  | nil => simp [filterRun]
  | cons v vs ih =>
    have hne : f.window ≠ [] := List.ne_nil_of_length_pos (by rwa [Filter.length_window hf])
    obtain ⟨old, rest, hwin⟩ := List.exists_cons_of_ne_nil hne
    rw [filterRun_cons, ih (filterAdd_seeded w f v p) (filterAdd_ok hw (fun _ => hf) v p),
      filterAdd_window_of_seeded h hf, hwin]
    simp

/-- After a window of samples or more, the window holds the last ones: an unmeasured ring counts as one full of
the first sample. -/
theorem filterRun_window {w : Nat} (hw : 1 ≤ w) (p : Int) {f : Filter} (hf : f.seeded = true → f.ok w)
    {vs : List Rat} (hlen : w ≤ vs.length) :
    (filterRun w p f vs).window = (vs.drop (vs.length - w)).map fun x => sat (roundP x p) := by
  cases h : f.seeded with
  | true =>
    have hall : f.window.length ≤ vs.length := by rwa [Filter.length_window (hf h)]
    rw [filterRun_window_of_seeded hw p h (hf h), List.drop_append, List.drop_eq_nil_of_le hall,
      List.nil_append, Filter.length_window (hf h), List.map_drop]
  | false =>
    cases vs with
    | nil => exact absurd (hw.trans hlen) (by decide)
    | cons v vs =>
      obtain ⟨k, rfl⟩ := Nat.exists_eq_add_of_le' hw
      have hall : (List.replicate k (sat (roundP v p))).length ≤ vs.length := by
        rw [List.length_replicate]
        exact Nat.le_of_succ_le_succ hlen
      rw [filterRun_cons, filterRun_window_of_seeded hw p (filterAdd_seeded ..) (filterAdd_ok hw hf v p),
        filterAdd_window_of_unseeded h, List.replicate_succ', List.append_assoc, List.singleton_append,
        List.drop_append, List.drop_eq_nil_of_le hall, List.nil_append, List.length_replicate, List.map_drop,
        List.map_cons, List.length_cons, Nat.add_sub_add_right]

/-- The mean after a window of samples or more is that of the last ones (R102 (c)). -/
theorem filterAdd_mean_of_run {w : Nat} (hw : 1 ≤ w) (p : Int) {f : Filter} (hf : f.seeded = true → f.ok w)
    {vs : List Rat} (hlen : w ≤ vs.length + 1) (v : Rat) :
    (filterAdd w (filterRun w p f vs) v p).2 =
      toVal (sat (roundP (((((vs ++ [v]).drop (vs.length + 1 - w)).map fun x => sat (roundP x p)).sum : Int) /
        (w : Rat)) p)) := by
  have hok : (filterAdd w (filterRun w p f vs) v p).1.ok w := filterAdd_ok hw (filterRun_ok hw p hf vs) v p
  have hlen' : (vs ++ [v]).length = vs.length + 1 := List.length_append
  rw [filterAdd_mean, ← Filter.sum_window hok, ← filterRun_concat, filterRun_window hw p hf (hlen' ▸ hlen),
    hlen']

/-- Settles O13: (a) is kept by each call; (b), (d) and (e) are the mean of a steady ring; (c) is the sum of the
window; (f) is the branch of a measured filter. -/
theorem filterLaws : Obligations.FilterLaws := by
  intro w p hw hp
  refine ⟨fun f v hf => ⟨filterAdd_ok hw hf v p, filterAdd_seeded ..⟩, fun f v h hfit => ?_,
    fun f vs v hf hlen => ?_, fun f v n h hfit => ?_, fun f v hf hfit => ?_, fun f v p' _ h => ?_⟩
  · exact filterAdd_mean_of_steady hw hp hfit (filterAdd_steady_of_unseeded hw h v p)
  · exact filterAdd_mean_of_run hw p hf hlen v
  · exact filterAdd_mean_of_steady hw hp hfit (filterAdd_iterate_steady hw h v p n)
  · exact filterAdd_mean_of_steady le_rfl hp hfit (filterAdd_steady_one hf v p)
  · exact ⟨by rw [filterAdd_of_seeded h], filterAdd_mean ..⟩

/-! ### The filter commands (R104 to R106) -/

/-- Settles O14: each command is its rule on the named channel, completed with the response data. -/
theorem filterCommandsComplete : Obligations.FilterCommandsComplete := by
  intro s c q v hc
  have fadd : exec (.fadd c q v) s = execFadd c q v s := rfl
  have faddr : exec (.faddr c q v) s = execFaddr c q v s := rfl
  have frst : exec (.frst c q) s = execFrst c q s := rfl
  rw [fadd, faddr, frst, execFadd, execFaddr, execFrst, onChannel_of_lt hc, onChannel_of_lt hc,
    onChannel_of_lt hc]
  dsimp only
  rw [State.begin_upd_answer_done hc, State.begin_upd_answer_done hc, State.begin_upd_done hc]
  cases q with
  | u => exact ⟨rfl, rfl, rfl⟩
  | i => exact ⟨rfl, rfl, rfl⟩

end Sys2Proof.Machine

/-! ## The rules of `41_calibration.md`: the conversions, the calibration sets, the bounds, `CALEN` -/

namespace Sys2Proof.Machine

open Sys2Proof

/-! ### The linear rescale (R11) -/

/-- A rescale carries distances through its slope. -/
theorem remap_sub_remap (x x' x0 y0 x1 y1 : Rat) :
    remap x x0 y0 x1 y1 - remap x' x0 y0 x1 y1 = (x - x') * ((y1 - y0) / (x1 - x0)) := by
  unfold remap
  ring

/-- Rescaling twice, the second time from the points that the first one leads to, is one rescale. -/
theorem remap_remap {x0 x1 y0 y1 : Rat} (hx : x0 < x1) (hy : y0 < y1) (x z0 z1 : Rat) :
    remap (remap x x0 y0 x1 y1) y0 z0 y1 z1 = remap x x0 z0 x1 z1 := by
  have hx' : x1 - x0 ≠ 0 := (sub_pos.mpr hx).ne'
  have hy' : y1 - y0 ≠ 0 := (sub_pos.mpr hy).ne'
  unfold remap
  field_simp
  ring

/-- Rescaling an interval onto itself does nothing. -/
theorem remap_self {x0 x1 : Rat} (hx : x0 < x1) (x : Rat) : remap x x0 x0 x1 x1 = x := by
  rw [remap, mul_div_cancel_right₀ _ (sub_pos.mpr hx).ne', add_sub_cancel]

theorem remap_mono {x0 x1 y0 y1 : Rat} (hx : x0 < x1) (hy : y0 < y1) :
    Monotone fun x => remap x x0 y0 x1 y1 := by
  intro x x' hle
  have hslope : 0 ≤ (y1 - y0) / (x1 - x0) := (div_pos (sub_pos.mpr hy) (sub_pos.mpr hx)).le
  have hdiff := remap_sub_remap x' x x0 y0 x1 y1
  exact sub_nonneg.mp (hdiff ▸ mul_nonneg (sub_nonneg.mpr hle) hslope)

/-! ### Clamping, and rounding as a function of the value (R10, R12) -/

theorem clamp_bounds (v : Int) {lo hi : Int} (h : lo ≤ hi) : lo ≤ clamp v lo hi ∧ clamp v lo hi ≤ hi := by
  unfold clamp
  split_ifs <;> omega

theorem clamp_of_mem {v lo hi : Int} (hlo : lo ≤ v) (hhi : v ≤ hi) : clamp v lo hi = v := by
  rw [clamp, if_neg (not_lt.mpr hlo), if_neg (not_lt.mpr hhi)]

theorem clamp_mono {lo hi : Int} (h : lo ≤ hi) : Monotone fun v => clamp v lo hi := by
  intro v v' hle
  dsimp only [clamp]
  split_ifs <;> omega

theorem roundP_le_of_nonneg {v v' : Rat} {p : Int} (hv : 0 ≤ v) (hle : v ≤ v') (hp : 0 < p) :
    roundP v p ≤ roundP v' p := by
  have hp' : (0 : Rat) < p := by exact_mod_cast hp
  rw [roundP_of_nonneg hv, roundP_of_nonneg (hv.trans hle)]
  have harg : v / p + 1 / 2 ≤ v' / p + 1 / 2 := by gcongr
  exact mul_le_mul_of_nonneg_left (Rat.floor_monotone harg) hp.le

theorem roundP_nonneg {v : Rat} {p : Int} (hv : 0 ≤ v) (hp : 0 < p) : 0 ≤ roundP v p := by
  simpa only [roundP_zero] using roundP_le_of_nonneg le_rfl hv hp

/-- Rounding is monotone: on each side of zero it is, by oddness on the negative one, and it keeps the sign. -/
theorem roundP_mono {p : Int} (hp : 0 < p) : Monotone fun v => roundP v p := by
  intro v v' hle
  dsimp only
  rcases le_total 0 v with hv | hv
  · exact roundP_le_of_nonneg hv hle hp
  have hneg : roundP v p = -roundP (-v) p := by rw [roundP_neg, neg_neg]
  rcases le_total 0 v' with hv' | hv'
  · have hlow := roundP_nonneg (neg_nonneg.mpr hv) hp
    have hhigh := roundP_nonneg hv' hp
    omega
  · have hflip := roundP_le_of_nonneg (neg_nonneg.mpr hv') (neg_le_neg hle) hp
    rw [roundP_neg, roundP_neg] at hflip
    exact neg_le_neg_iff.mp hflip

/-- Rounding to whole units moves a value by at most half a unit. -/
theorem abs_roundP_one_sub_le (v : Rat) : |(roundP v 1 : Rat) - v| ≤ 1 / 2 := by
  have hnear := (roundP_nearest v one_pos).1
  push_cast at hnear
  linarith

/-! ### The conversions on an active and on an inactive set (R124 to R126) -/

theorem toPhysical_of_active {ch : Channel} {t : ConvSet} (h : ch.calActive t = true) (cfg : Params)
    (code : Rat) :
    toPhysical cfg ch t code = (ch.cal.get t).adcToVal (adcToNom cfg t code) - (cfg.gndOffset.get t : Rat) := by
  rw [toPhysical, if_pos h]

theorem toNominal_of_active {ch : Channel} {t : ConvSet} (h : ch.calActive t = true) (cfg : Params)
    (v : Rat) : toNominal cfg ch t v = (ch.cal.get t).valToDac (v + (cfg.gndOffset.get t : Rat)) := by
  rw [toNominal, if_pos h]

theorem toNominal_of_inactive {ch : Channel} {t : ConvSet} (h : ch.calActive t = false) (cfg : Params)
    (v : Rat) : toNominal cfg ch t v = v + (cfg.gndOffset.get t : Rat) := by
  rw [toNominal, h, if_neg Bool.false_ne_true]

/-- The validity conditions (R131), one by one. -/
theorem calValid_iff (cfg : Params) (ch : Channel) (t : ConvSet) :
    calValid cfg ch t = true ↔
      (ch.cal.get t).minVal.toInt < (ch.cal.get t).maxVal.toInt ∧
      (ch.cal.get t).minDac.toInt < (ch.cal.get t).maxDac.toInt ∧
      (ch.cal.get t).minAdc.toInt < (ch.cal.get t).maxAdc.toInt ∧
      (ch.cal.get t).rangeMin.toInt < (ch.cal.get t).rangeMax.toInt ∧
      (ch.board.calbMin.get t).toInt ≤ (ch.cal.get t).rangeMin.toInt ∧
      (ch.cal.get t).rangeMax.toInt ≤ (ch.board.calbMax.get t).toInt ∧
      max (hwRange cfg ch t).1 (ch.cal.get t).rangeMin.toInt ≤
        min (hwRange cfg ch t).2 (ch.cal.get t).rangeMax.toInt := by
  simp only [calValid, Bool.and_eq_true, decide_eq_true_eq, and_assoc]

/-- The two calibration points of a set differ in all three coordinates, the second above the first. -/
structure CalSet.Proper (x : CalSet) : Prop where
  val : (x.minVal.toInt : Rat) < x.maxVal.toInt
  dac : (x.minDac.toInt : Rat) < x.maxDac.toInt
  adc : (x.minAdc.toInt : Rat) < x.maxAdc.toInt

theorem proper_of_calValid {cfg : Params} {ch : Channel} {t : ConvSet} (h : calValid cfg ch t = true) :
    (ch.cal.get t).Proper := by
  obtain ⟨hval, hdac, hadc, -⟩ := (calValid_iff cfg ch t).mp h
  exact ⟨Int.cast_lt.mpr hval, Int.cast_lt.mpr hdac, Int.cast_lt.mpr hadc⟩

/-! ### The round trip (R127) -/

/-- The linear plant through the calibration points: nominal commanded value to nominal monitored value. -/
def CalSet.plant (x : CalSet) (y : Rat) : Rat :=
  remap y x.minDac.toInt x.minAdc.toInt x.maxDac.toInt x.maxAdc.toInt

/-- The nominal value of a DAC code. -/
def dacToNom (cfg : Params) (t : ConvSet) (d : Rat) : Rat :=
  remap d cfg.dacCode.min (cfg.dacNom.get t).min cfg.dacCode.max (cfg.dacNom.get t).max

theorem dacToNom_nomToDac {cfg : Params} {t : ConvSet} (hcode : cfg.dacCode.min < cfg.dacCode.max)
    (hnom : (cfg.dacNom.get t).min < (cfg.dacNom.get t).max) (y : Rat) :
    dacToNom cfg t (nomToDac cfg t y) = y := by
  have hcode' : (cfg.dacCode.min : Rat) < cfg.dacCode.max := Int.cast_lt.mpr hcode
  have hnom' : ((cfg.dacNom.get t).min : Rat) < (cfg.dacNom.get t).max := Int.cast_lt.mpr hnom
  rw [dacToNom, nomToDac, remap_remap hnom' hcode', remap_self hnom']

/-- Correction, plant and back-conversion go round the three coordinates of the calibration points. -/
theorem CalSet.Proper.adcToVal_plant_valToDac {x : CalSet} (hx : x.Proper) (v : Rat) :
    x.adcToVal (x.plant (x.valToDac v)) = v := by
  rw [CalSet.adcToVal, CalSet.plant, CalSet.valToDac, remap_remap hx.val hx.dac, remap_remap hx.val hx.adc,
    remap_self hx.val]

/-- The slopes that carry an error of the nominal command to an error of the true value. -/
theorem CalSet.adcToVal_plant_sub (x : CalSet) (y y' : Rat) :
    x.adcToVal (x.plant y) - x.adcToVal (x.plant y') =
      (y - y') *
        (((x.maxAdc.toInt - x.minAdc.toInt : Int) : Rat) / ((x.maxDac.toInt - x.minDac.toInt : Int) : Rat)) *
        (((x.maxVal.toInt - x.minVal.toInt : Int) : Rat) / ((x.maxAdc.toInt - x.minAdc.toInt : Int) : Rat)) := by
  simp only [CalSet.adcToVal, CalSet.plant, remap_sub_remap, Int.cast_sub]

/-- Rounding the code moves the nominal command by at most half a DAC step. -/
theorem abs_dacToNom_roundP_sub_le {cfg : Params} {t : ConvSet} (hcode : cfg.dacCode.min < cfg.dacCode.max)
    (hnom : (cfg.dacNom.get t).min < (cfg.dacNom.get t).max) (y : Rat) :
    |dacToNom cfg t (roundP (nomToDac cfg t y) 1) - y| ≤
      1 / 2 * (((cfg.dacNom.get t).max - (cfg.dacNom.get t).min : Int) : Rat) /
        ((cfg.dacCode.max - cfg.dacCode.min : Int) : Rat) := by
  have hstep : (0 : Rat) ≤ (((cfg.dacNom.get t).max - (cfg.dacNom.get t).min : Int) : Rat) /
      ((cfg.dacCode.max - cfg.dacCode.min : Int) : Rat) :=
    div_nonneg (Int.cast_nonneg (sub_pos.mpr hnom).le) (Int.cast_nonneg (sub_pos.mpr hcode).le)
  have hdiff : dacToNom cfg t (roundP (nomToDac cfg t y) 1) - dacToNom cfg t (nomToDac cfg t y) =
      (roundP (nomToDac cfg t y) 1 - nomToDac cfg t y) *
        ((((cfg.dacNom.get t).max - (cfg.dacNom.get t).min : Int) : Rat) /
          ((cfg.dacCode.max - cfg.dacCode.min : Int) : Rat)) := by
    simp only [dacToNom, remap_sub_remap, Int.cast_sub]
  rw [dacToNom_nomToDac hcode hnom] at hdiff
  rw [hdiff, abs_mul, abs_of_nonneg hstep, mul_div_assoc]
  exact mul_le_mul_of_nonneg_right (abs_roundP_one_sub_le _) hstep

/-- Where the rounded code is inside the code range, it is what `toRaw` answers. -/
theorem toRaw_of_mem {cfg : Params} {ch : Channel} {t : ConvSet} {v : Rat}
    (hlo : cfg.dacCode.min ≤ roundP (nomToDac cfg t (toNominal cfg ch t v)) 1)
    (hhi : roundP (nomToDac cfg t (toNominal cfg ch t v)) 1 ≤ cfg.dacCode.max) :
    toRaw cfg ch t v = roundP (nomToDac cfg t (toNominal cfg ch t v)) 1 :=
  clamp_of_mem hlo hhi

/-- With any command at the plant's input, what comes back differs from `v` by what the command differs
from that for `v`, carried through the slopes. -/
theorem toPhysical_of_plant_sub {cfg : Params} {ch : Channel} {t : ConvSet} {v code y : Rat}
    (hact : ch.calActive t = true) (hval : calValid cfg ch t = true)
    (hcode : adcToNom cfg t code = (ch.cal.get t).plant y) :
    toPhysical cfg ch t code - v =
      (ch.cal.get t).adcToVal ((ch.cal.get t).plant y) -
        (ch.cal.get t).adcToVal ((ch.cal.get t).plant (toNominal cfg ch t v)) := by
  rw [toPhysical_of_active hact, hcode, toNominal_of_active hact,
    (proper_of_calValid hval).adcToVal_plant_valToDac]
  ring

/-- The round trip before rounding: the command is that for `v`. -/
theorem toPhysical_of_plant_toNominal {cfg : Params} {ch : Channel} {t : ConvSet} {v code : Rat}
    (hact : ch.calActive t = true) (hval : calValid cfg ch t = true)
    (hcode : adcToNom cfg t code = (ch.cal.get t).plant (toNominal cfg ch t v)) :
    toPhysical cfg ch t code = v := by
  rw [← sub_eq_zero, toPhysical_of_plant_sub hact hval hcode, sub_self]

/-- Settles O15: the unrounded command comes back as it is; the rounded one is off by half a DAC step at most,
and the slopes carry that to the true value. -/
theorem calibrationRoundTrip : Obligations.CalibrationRoundTrip := by
  intro cfg ch t v code hact hval
  refine ⟨toPhysical_of_plant_toNominal hact hval, fun hcode hnom hlo hhi hplant => ?_⟩
  have hraw := toRaw_of_mem hlo hhi
  rw [toPhysical_of_plant_sub hact hval hplant, CalSet.adcToVal_plant_sub, abs_mul, abs_mul, hraw]
  gcongr
  exact abs_dacToNom_roundP_sub_le hcode hnom _

/-! ### The code of a value (R125, R126) -/

theorem nomToDac_mono {cfg : Params} {t : ConvSet} (hcode : cfg.dacCode.min < cfg.dacCode.max)
    (hnom : (cfg.dacNom.get t).min < (cfg.dacNom.get t).max) : Monotone (nomToDac cfg t) :=
  remap_mono (Int.cast_lt.mpr hnom) (Int.cast_lt.mpr hcode)

theorem toNominal_mono {cfg : Params} {ch : Channel} {t : ConvSet}
    (h : ch.calActive t = true → (ch.cal.get t).Proper) : Monotone (toNominal cfg ch t) := by
  intro v v' hle
  have hle' : v + (cfg.gndOffset.get t : Rat) ≤ v' + (cfg.gndOffset.get t : Rat) := by gcongr
  cases hact : ch.calActive t with
  | false => rwa [toNominal_of_inactive hact, toNominal_of_inactive hact]
  | true =>
    rw [toNominal_of_active hact, toNominal_of_active hact]
    exact remap_mono (h hact).val (h hact).dac hle'

/-- Settles O16: the clamp gives the range; line, rounding and clamp are monotone; inside the range the clamp
does nothing, the ends being whole codes, and rounding is to the nearest. -/
theorem dacCodesAreInRangeAndMonotone : Obligations.DacCodesAreInRangeAndMonotone := by
  intro cfg ch t hcode hnom hval
  refine ⟨fun v => clamp_bounds _ hcode.le, fun v v' hle => ?_, fun v hlo hhi => ?_⟩
  · have hnominal := toNominal_mono (cfg := cfg) (fun h => proper_of_calValid (hval h)) hle
    exact clamp_mono hcode.le (roundP_mono one_pos (nomToDac_mono hcode hnom hnominal))
  · have hmin := roundP_mono one_pos hlo
    have hmax := roundP_mono one_pos hhi
    simp only [roundP_intCast_one] at hmin hmax
    rw [toRaw_of_mem hmin hmax]
    exact_mod_cast (roundP_nearest _ one_pos).1

/-! ### The commands on a calibration set (R130 to R132) -/

theorem execCalpt_of_lt {s : State} {c : Nat} (hc : c < s.nCh) (t : ConvSet) (f : CalField) (v : Int) :
    execCalpt c t f v s =
      require (!(s.chan c).calEn) .busy s.begin
        (.next (s.done c
          ((s.chan c).setCal t fun x => { x.setField f (toVal v) with present := false }) 0 [])) := by
  rw [execCalpt, onChannel_of_lt hc, State.begin_upd_done hc]

theorem execCalcommit_of_lt {s : State} {c : Nat} (hc : c < s.nCh) (t : ConvSet) :
    execCalcommit c t s =
      require (!(s.chan c).calEn) .busy s.begin
        (require (calValid s.cfg (s.chan c) t) .calInvalid s.begin
          (.next (s.done c ((s.chan c).setCal t fun x => { x with present := true }) 0 []))) := by
  rw [execCalcommit, onChannel_of_lt hc, State.begin_upd_done hc, State.begin_cfg]

theorem execCalclr_of_lt {s : State} {c : Nat} (hc : c < s.nCh) (t : ConvSet) :
    execCalclr c t s =
      require (!(s.chan c).calEn) .busy s.begin
        (.next (s.done c ((s.chan c).setCal t fun x => { x with present := false }) 0 [])) := by
  rw [execCalclr, onChannel_of_lt hc, State.begin_upd_done hc]

/-- Settles O17: each command is its one update behind the busy check, `CALCOMMIT` behind that of validity. -/
theorem calibrationSetCommands : Obligations.CalibrationSetCommands := by
  intro s c t f v hc ch x lo hi valid
  have calpt : exec (.calpt c t f v) s = execCalpt c t f v s := rfl
  have calcommit : exec (.calcommit c t) s = execCalcommit c t s := rfl
  have calclr : exec (.calclr c t) s = execCalclr c t s := rfl
  have hvalid : calValid s.cfg ch t = true ↔ valid := by
    cases t with
    | u | ih | il => exact calValid_iff ..
  rw [calpt, calcommit, calclr, execCalpt_of_lt hc, execCalcommit_of_lt hc, execCalclr_of_lt hc]
  refine ⟨fun hen i hi => ?_, fun hen => ?_⟩
  · simp only [List.mem_cons, List.not_mem_nil, or_false] at hi
    obtain rfl | rfl | rfl := hi
    · rw [calpt, execCalpt_of_lt hc, hen]; rfl
    · rw [calcommit, execCalcommit_of_lt hc, hen]; rfl
    · rw [calclr, execCalclr_of_lt hc, hen]; rfl
  · rw [hen]
    refine ⟨rfl, fun h => ?_, fun h => ?_, rfl⟩
    · rw [hvalid.mpr h]; rfl
    · rw [Bool.eq_false_iff.mpr (mt hvalid.mp h)]; rfl

/-! ### The bounds (R133) -/

theorem boundSet_eq (mode : RangeMode) :
    boundSet mode = if mode = .alwaysLow then .il else .ih := by cases mode <;> rfl

theorem boundWith_eq (ch : Channel) (t : ConvSet) (lo hi : Int) :
    boundWith ch t lo hi =
      (if ch.calActive t then max lo (ch.cal.get t).rangeMin.toInt else lo,
        if ch.calActive t then min hi (ch.cal.get t).rangeMax.toInt else hi) := by
  unfold boundWith
  split <;> rfl

theorem iBounds_eq (cfg : Params) (ch : Channel) :
    iBounds cfg ch =
      boundWith ch (if ch.rangeMode = .alwaysLow then .il else .ih) ch.board.iMin.toInt
        (if ch.rangeMode = .alwaysLow then min ch.board.iMax.toInt cfg.iLowMax else ch.board.iMax.toInt) := by
  rw [iBounds, boundSet_eq]
  cases ch.rangeMode <;> rfl

/-- Settles O18: the board's range of each quantity, cut by its set's. -/
theorem recomputeBoundsRule : Obligations.RecomputeBoundsRule := by
  intro cfg ch
  dsimp only
  rw [recomputeBounds, uBounds, iBounds_eq, boundWith_eq, boundWith_eq]
  rfl

/-! ### `CALEN` (R134, R135) -/

theorem anyCal_eq_false_iff (ch : Channel) :
    ch.anyCal = false ↔
      ch.cal.u.present = false ∧ ch.cal.ih.present = false ∧ ch.cal.il.present = false := by
  simp only [Channel.anyCal, Bool.or_eq_false_iff, and_assoc]

/-- `CALEN` on a ready channel: the check for a set, then nothing or the switch. -/
theorem execCalen_of_ready {s : State} {c : Nat} (h : s.ready c) (b : Bool) :
    execCalen c b s =
      require (!b || (s.chan c).anyCal) .noCal s.begin
        (if (s.chan c).calEn = b then .next (s.done c (s.chan c) 0 [])
        else
          let ch1 := switchCal s.cfg b (s.chan c)
          .next (s.done c
            (currentApplied s.cfg s.pins.nowUs (s.pin c) (voltageApplied ch1 (clampedU ch1)) (clampedI ch1)) 0
            (voltageEvents s.cfg c ch1 (clampedU ch1) ++
              currentEvents s.cfg (s.pin c) c (voltageApplied ch1 (clampedU ch1)) (clampedI ch1)))) := by
  obtain ⟨hc, hhealthy⟩ := h
  rw [execCalen, onChannel_of_lt hc, State.begin_pin, hhealthy, require_true]
  dsimp only
  rw [applyVoltage_done hc, done_applyCurrent hc, ← State.begin_done hc]
  rfl

/-- Settles O19: the set check decides between refusal and completion, the flag between nothing and the switch,
whose limits and setpoints are those of `switchCal`, `clampedU` and `clampedI`. -/
theorem calenCompletes : Obligations.CalenCompletes := by
  intro s c b hready ch noSet ch1 uLim iLim ch2 newU newI
  have calen : exec (.calen c b) s = execCalen c b s := rfl
  have allowed (h : b = true → ¬noSet) : (!b || ch.anyCal) = true := by
    cases b with
    | false => rfl
    | true => exact Bool.of_not_eq_false (mt (anyCal_eq_false_iff ch).mp (h rfl))
  rw [calen, execCalen_of_ready hready]
  refine ⟨fun hb hno => ?_, fun hset hsame => ?_, fun hset hdiff => ?_⟩
  · rw [(anyCal_eq_false_iff ch).mpr hno, hb]; rfl
  · rw [allowed hset, require_true, if_pos hsame]
  · rw [allowed hset, require_true, if_neg hdiff]; rfl

/-! ### The conversion commands (R136, R137) -/

/-- Settles O20: an existing channel passes the only check, and the answer is the only write. -/
theorem conversionCommandsComplete : Obligations.ConversionCommandsComplete := by
  intro s c t v hc
  have tophys : exec (.tophys c t v) s = execTophys c t v s := rfl
  have toraw : exec (.toraw c t v) s = execToraw c t v s := rfl
  rw [tophys, toraw, execTophys, execToraw, onChannel_of_lt hc, onChannel_of_lt hc]
  exact ⟨rfl, rfl⟩

end Sys2Proof.Machine

/-! ## The rules of `42_ranging.md`: the selection policy, `RMODE` and `RAUTO`, the auto-range check -/

namespace Sys2Proof.Machine

open Sys2Proof

/-! ### The selection policy (R152, R153) -/

section
variable {cfg : Params} {mode : RangeMode} {pin : ChanPins} {i : Int}

theorem rangeTarget_of_selfTest (h : pin.selfTest = true) : rangeTarget cfg mode pin i = some .high :=
  if_pos h

theorem rangeTarget_of_calProc (h : pin.selfTest = false) (h' : pin.calProc = true) :
    rangeTarget cfg mode pin i = none := by
  simp [rangeTarget, h, h']

/-- With neither self-test nor a calibration procedure no other pin counts. -/
theorem rangeTarget_of_idle (h : pin.selfTest = false) (h' : pin.calProc = false) :
    rangeTarget cfg mode pin i = rangeTarget cfg mode ChanPins.low i := by
  simp [rangeTarget, ChanPins.low, h, h']

theorem rangeTarget_alwaysHigh : rangeTarget cfg .alwaysHigh ChanPins.low i = some .high := rfl

theorem rangeTarget_alwaysLow : rangeTarget cfg .alwaysLow ChanPins.low i = some .low := rfl

theorem rangeTarget_useBoth :
    rangeTarget cfg .useBoth ChanPins.low i = some (if cfg.iThr < i then .high else .low) := rfl

end

/-- Settles O21: the two pins are read first, then each mode has its own target. -/
theorem rangeSelectionPolicy : Obligations.RangeSelectionPolicy := by
  intro cfg mode pin i
  refine ⟨rangeTarget_of_selfTest, rangeTarget_of_calProc, fun hself hcal => ?_⟩
  rw [rangeTarget_of_idle hself hcal]
  refine ⟨?_, ?_, ?_, ?_⟩
  · rintro rfl; exact rangeTarget_alwaysHigh
  · rintro rfl; exact rangeTarget_alwaysLow
  · rintro rfl habove; rw [rangeTarget_useBoth, if_pos habove]
  · rintro rfl hbelow; rw [rangeTarget_useBoth, if_neg hbelow.not_gt]

/-! ### `RMODE` and `RAUTO` (R157, R158) -/

theorem execRmode_of_ready {s : State} {c : Nat} (h : s.ready c) (m : RangeMode) :
    execRmode c m s =
      let ch := selectMode s.cfg m (s.chan c)
      .next (s.done c (currentApplied s.cfg s.pins.nowUs (s.pin c) ch (clampedI ch)) 0
        (currentEvents s.cfg (s.pin c) c ch (clampedI ch))) := by
  obtain ⟨hc, hhealthy⟩ := h
  rw [execRmode, onChannel_of_lt hc, State.begin_pin, hhealthy, require_true, applyCurrent_done hc,
    State.begin_cfg]

theorem execRauto_of_lt {s : State} {c : Nat} (hc : c < s.nCh) (b : Bool) :
    execRauto c b s = .next (s.done c { s.chan c with autoRange := b } 0 []) := by
  rw [execRauto, onChannel_of_lt hc, State.begin_upd_done hc]

/-- Settles O23: the channel and setpoint that `RMODE` applies are those of `selectMode` and `clampedI`. -/
theorem rangeCommandsComplete : Obligations.RangeCommandsComplete := by
  intro s c
  refine ⟨fun m hready => ?_, fun b hc => ?_⟩
  · have rmode : exec (.rmode c m) s = execRmode c m s := rfl
    rw [rmode, execRmode_of_ready hready]
    rfl
  · have rauto : exec (.rauto c b) s = execRauto c b s := rfl
    rw [rauto, execRauto_of_lt hc]

/-! ### The auto-range check (R160, R161) -/

theorem autoGate_iff (s : State) (c : Nat) :
    autoGate s c = true ↔
      (s.chan c).autoRange = true ∧ (s.chan c).rangeMode = .useBoth ∧ (s.chan c).outEn = true ∧
        (s.pin c).calProc = false ∧ (s.pin c).selfTest = false := by
  simp only [autoGate, Bool.and_eq_true, decide_eq_true_eq, Bool.not_eq_true', and_assoc]

/-- Only from `Low` does the check go up, and it does so without delay. -/
theorem autoTarget_eq_high_iff (s : State) (c : Nat) :
    autoTarget s c = some .high ↔
      (s.chan c).range = .low ∧ (s.chan c).cc = true ∧ s.cfg.iThr < (s.chan c).i.set.toInt := by
  cases h : (s.chan c).range <;> simp [autoTarget, h]

/-- Only from `High` does the check go down, on a measurement and after the no-oscillation delay (R161). -/
theorem autoTarget_eq_low_iff (s : State) (c : Nat) :
    autoTarget s c = some .low ↔
      (s.chan c).range = .high ∧ (s.chan c).i.f.seeded = true ∧ (s.chan c).i.mon.toInt < s.cfg.iThr ∧
        s.cfg.noOscDelay ≤ elapsed s.pins.nowUs (s.chan c).rngEvalTime := by
  cases h : (s.chan c).range <;> simp [autoTarget, h, and_assoc]

theorem autoRangeCheck_of_target {s : State} {c : Nat} {r : Range} (hgate : autoGate s c = true)
    (htarget : autoTarget s c = some r) : autoRangeCheck s c = autoSwitch s c r := by
  rw [autoRangeCheck, if_pos hgate, htarget]

theorem autoRangeCheck_of_no_target {s : State} {c : Nat}
    (h : autoGate s c = true → autoTarget s c = none) : autoRangeCheck s c = s := by
  unfold autoRangeCheck
  split
  next hgate => rw [h hgate]
  next => rfl

/-- The switch of the check as one write of the channel and three events; the code is that of the setpoint as
it stands, in the scale of the range switched to. -/
theorem autoSwitch_eq {s : State} {c : Nat} (hc : c < s.nCh) (r : Range) :
    autoSwitch s c r =
      let ch := { s.chan c with range := r, adcAwait := some .uMon, rngEvalTime := s.pins.nowUs }
      { s with
        chans := s.chans.set c ch
        events := s.events ++
          [.digOut c .range r.isLow, .startSample c .uMon,
           .dacWrite c .i (toRaw s.cfg (s.chan c) ch.curSet (s.chan c).i.set.toInt)] } := by
  simp only [autoSwitch, switchRange_eq, State.emit_upd, State.upd_upd, State.emit_chan, State.emit_cfg,
    State.upd_cfg, State.chan_upd_same hc, State.emit_emit]
  rw [toRaw_congr s.cfg (b := s.chan c) rfl rfl, State.upd_eq_set hc]
  rfl

/-- Settles O24: under the gate the target is `High` exactly when the channel must go up and `Low` exactly when
it must go down; without the gate or a target nothing happens. -/
theorem autoRangeCheckRule : Obligations.AutoRangeCheckRule := by
  intro s c hc ch gate up down switched
  have hgate : autoGate s c = true ↔ gate := autoGate_iff s c
  have hup : autoTarget s c = some .high ↔ up := autoTarget_eq_high_iff s c
  have hdown : autoTarget s c = some .low ↔ down := autoTarget_eq_low_iff s c
  refine ⟨fun hg hu => ?_, fun hg hd => ?_, fun hno => ?_⟩
  · rw [autoRangeCheck_of_target (hgate.mpr hg) (hup.mpr hu), autoSwitch_eq hc]; rfl
  · rw [autoRangeCheck_of_target (hgate.mpr hg) (hdown.mpr hd), autoSwitch_eq hc]; rfl
  · refine autoRangeCheck_of_no_target fun hg => ?_
    cases htarget : autoTarget s c with
    | none => rfl
    | some r =>
      cases r with
      | high => exact absurd ⟨hgate.mp hg, .inl (hup.mp htarget)⟩ hno
      | low => exact absurd ⟨hgate.mp hg, .inr (hdown.mp htarget)⟩ hno

end Sys2Proof.Machine

/-! ## The rules of `43_channel.md`: applying a setpoint, the limit check, the channel's commands -/

namespace Sys2Proof.Machine

open Sys2Proof

/-! ### Applying a setpoint (R171, R172) -/

/-- Settles O22: each operation is one update of the named channel and one list of events. -/
theorem applyingASetpoint : Obligations.ApplyingASetpoint := by
  intro s c x hc ch
  rw [applyVoltage_eq, applyCurrent_eq s c x hc, State.upd_eq_set hc, State.upd_eq_set hc]
  exact ⟨rfl, rfl⟩

/-- A command that applies a voltage and does nothing else. -/
theorem applyVoltage_begin_done {s : State} {c : Nat} (hc : c < s.nCh) (v : Int) :
    applyVoltage s.begin c v =
      s.done c (voltageApplied (s.chan c) v) 0 (voltageEvents s.cfg c (s.chan c) v) := by
  rw [applyVoltage_eq, State.begin_upd_emit_done hc, State.begin_cfg, State.begin_chan]

/-- A command that applies a current and does nothing else. -/
theorem applyCurrent_begin_done {s : State} {c : Nat} (hc : c < s.nCh) (i : Int) :
    applyCurrent s.begin c i =
      s.done c (currentApplied s.cfg s.pins.nowUs (s.pin c) (s.chan c) i) 0
        (currentEvents s.cfg (s.pin c) c (s.chan c) i) := by
  rw [State.begin_done hc, done_applyCurrent hc, List.nil_append]

/-! ### The limit check (R173) -/

/-- The unit of the power comparison, as the model and the rule write it. -/
theorem ten_pow_six : (10 : Int) ^ 6 = 1000000 := by norm_num

/-- Settles O25: the six cases are the branches of the check, each reached when those before it fail. -/
theorem limitCheckOrder : Obligations.LimitCheckOrder := by
  intro ch v i
  dsimp only
  rw [ten_pow_six]
  unfold checkPoint
  refine ⟨fun vLow => ?_, fun vLow vHigh => ?_, fun vLow vHigh iLow => ?_,
    fun vLow vHigh iLow iHigh => ?_, fun vLow vHigh iLow iHigh pHigh => ?_,
    fun vLow vHigh iLow iHigh pHigh => ?_⟩
  · rw [if_pos vLow]
  · rw [if_neg vLow, if_pos vHigh]
  · rw [if_neg vLow, if_neg vHigh, if_pos iLow]
  · rw [if_neg vLow, if_neg vHigh, if_neg iLow, if_pos iHigh]
  · rw [if_neg vLow, if_neg vHigh, if_neg iLow, if_neg iHigh, if_pos pHigh]
  · rw [if_neg vLow, if_neg vHigh, if_neg iLow, if_neg iHigh, if_neg pHigh]

/-! ### The gate of a command on a ready channel -/

theorem State.ready.lt {s : State} {c : Nat} (h : s.ready c) : c < s.nCh := h.1

/-- A ready channel passes both gates of a command. -/
theorem onChannel_of_ready {s : State} {c : Nat} (h : s.ready c) (k : State → Channel → Out) :
    (onChannel c s fun s ch => require (s.pin c).healthy .health s (k s ch)) = k s.begin (s.chan c) := by
  obtain ⟨hc, hhealthy⟩ := h
  rw [onChannel_of_lt hc, State.begin_pin, hhealthy, require_true]

/-! ### `SETV` and `SETI` (R174, R175) -/

theorem execSetv_of_ready {s : State} {c : Nat} (h : s.ready c) (x : Int) :
    execSetv c x s =
      let v := roundP (x : Rat) (uPrec s.cfg (s.chan c))
      let e := checkPoint (s.chan c) v (s.chan c).i.set.toInt
      require (decide (e = .ok)) e s.begin
        (.next (s.done c (voltageApplied (s.chan c) v) 0 (voltageEvents s.cfg c (s.chan c) v))) := by
  rw [execSetv, onChannel_of_ready h]
  dsimp only
  rw [applyVoltage_begin_done h.lt, State.begin_cfg]

theorem execSeti_of_ready {s : State} {c : Nat} (h : s.ready c) (x : Int) :
    execSeti c x s =
      let i := roundP (x : Rat) (iPrec s.cfg (s.chan c))
      let e := checkPoint (s.chan c) (s.chan c).u.set.toInt i
      require (decide (e = .ok)) e s.begin
        (.next (s.done c (currentApplied s.cfg s.pins.nowUs (s.pin c) (s.chan c) i) 0
          (currentEvents s.cfg (s.pin c) c (s.chan c) i))) := by
  rw [execSeti, onChannel_of_ready h]
  dsimp only
  rw [applyCurrent_begin_done h.lt, State.begin_cfg]

/-- Settles O26: the status of the rounded point decides between the refusal and the application. -/
theorem setpointCommandsComplete : Obligations.SetpointCommandsComplete := by
  intro s c x hready ch pu pi v i
  have setv : exec (.setv c x) s = execSetv c x s := rfl
  have seti : exec (.seti c x) s = execSeti c x s := rfl
  have hv : roundP (x : Rat) (uPrec s.cfg ch) = v := rfl
  have hi : roundP (x : Rat) (iPrec s.cfg ch) = i := rfl
  rw [setv, seti, execSetv_of_ready hready, execSeti_of_ready hready]
  dsimp only
  rw [hv, hi]
  refine ⟨fun hpass => ?_, fun hfail => ?_, fun hpass => ?_, fun hfail => ?_⟩
  · rw [decide_eq_true hpass, require_true]
  · rw [decide_eq_false hfail]; rfl
  · rw [decide_eq_true hpass, require_true]
  · rw [decide_eq_false hfail]; rfl

/-! ### `LIMV`, `LIMI` and `LIMP` (R177, R178, R179) -/

theorem execLimv_of_ready {s : State} {c : Nat} (h : s.ready c) (x : Int) :
    execLimv c x s =
      let l := clamp x (s.chan c).uMin.toInt (s.chan c).uMax.toInt
      let ch := { s.chan c with u := { (s.chan c).u with limit := toVal l } }
      .next (if l < (s.chan c).u.set.toInt then s.done c (voltageApplied ch l) 0 (voltageEvents s.cfg c ch l)
        else s.done c ch 0 [.save]) := by
  rw [execLimv, onChannel_of_ready h]
  dsimp only
  rw [applyVoltage_done h.lt, State.begin_upd_emit_done h.lt]

theorem execLimi_of_ready {s : State} {c : Nat} (h : s.ready c) (x : Int) :
    execLimi c x s =
      let l := clamp x (s.chan c).iMin.toInt (s.chan c).iMax.toInt
      let ch := { s.chan c with i := { (s.chan c).i with limit := toVal l } }
      .next (if l < (s.chan c).i.set.toInt then
          s.done c (currentApplied s.cfg s.pins.nowUs (s.pin c) ch l) 0 (currentEvents s.cfg (s.pin c) c ch l)
        else s.done c ch 0 [.save]) := by
  rw [execLimi, onChannel_of_ready h]
  dsimp only
  rw [applyCurrent_done h.lt, State.begin_upd_emit_done h.lt]

theorem execLimp_of_ready {s : State} {c : Nat} (h : s.ready c) (x : Int) :
    execLimp c x s =
      let p := clamp x (s.chan c).board.pMin.toInt (s.chan c).board.pMax.toInt
      let ch := { s.chan c with pLimit := toVal p }
      let i := limpCurrent s.cfg (s.chan c) p
      .next (if p * 1000000 < (s.chan c).u.set.toInt * (s.chan c).i.set.toInt then
          s.done c (currentApplied s.cfg s.pins.nowUs (s.pin c) ch i) 0 (currentEvents s.cfg (s.pin c) c ch i)
        else s.done c ch 0 [.save]) := by
  rw [execLimp, onChannel_of_ready h]
  dsimp only
  rw [applyCurrent_done h.lt, State.begin_upd_emit_done h.lt, State.begin_cfg]

/-- Settles O27: a limit below the setpoint (for `LIMP`, below the product) re-issues it, any other is only
stored. -/
theorem limitCommandsComplete : Obligations.LimitCommandsComplete := by
  refine ⟨fun s c x hready => ?_, fun s c x hready => ?_⟩
  · have limv : exec (.limv c x) s = execLimv c x s := rfl
    have limi : exec (.limi c x) s = execLimi c x s := rfl
    rw [limv, limi, execLimv_of_ready hready, execLimi_of_ready hready]
    exact ⟨fun hkeep => congrArg _ (if_neg hkeep.not_gt), fun hcut => congrArg _ (if_pos hcut),
      fun hkeep => congrArg _ (if_neg hkeep.not_gt), fun hcut => congrArg _ (if_pos hcut)⟩
  · have limp : exec (.limp c x) s = execLimp c x s := rfl
    rw [limp, execLimp_of_ready hready, ten_pow_six]
    exact ⟨fun hkeep => congrArg _ (if_neg hkeep.not_gt), fun hcut => congrArg _ (if_pos hcut)⟩

/-! ### `OUTEN` (R181, R182, R185) -/

section
variable {ch : Channel} {now : Time}

theorem outputSet_of_eq {en : Bool} (h : ch.outEn = en) : outputSet now en ch = ch := if_pos h

theorem outputSet_on_of_off (h : ch.outEn = false) : outputSet now true ch = turnedOn now ch := by
  simp [outputSet, h]

theorem outputSet_off_of_on (h : ch.outEn = true) : outputSet now false ch = turnedOff now ch := by
  simp [outputSet, h]

end

/-- A healthy channel is refused only when a tripped one is to be enabled. -/
theorem outputRefusal_of_healthy {s : State} {c : Nat} (h : (s.pin c).healthy = true) (b : Bool) :
    outputRefusal s c b = if b && (s.chan c).anyTripped then .tripped else .ok := by
  rw [outputRefusal, h]; rfl

theorem execOuten_of_refused {s : State} {c : Nat} (hc : c < s.nCh) {b : Bool} {e : Status}
    (he : outputRefusal s c b = e) (hne : e ≠ .ok) : execOuten c b s = .next (s.failed e) := by
  have he' : outputRefusal s.begin c b = e := he
  rw [execOuten, onChannel_of_lt hc]
  dsimp only
  rw [he', decide_eq_false hne]; rfl

/-- A granted request is `setOutput`, as the command's only action. -/
theorem execOuten_of_granted {s : State} {c : Nat} (hc : c < s.nCh) {b : Bool}
    (h : outputRefusal s c b = .ok) :
    execOuten c b s =
      .next (s.done c (outputSet s.pins.nowUs b (s.chan c)) 0
        (if (s.chan c).outEn = b then [] else if b then onEvents c (s.chan c).range else offEvents c)) := by
  have h' : outputRefusal s.begin c b = .ok := h
  rw [execOuten, onChannel_of_lt hc]
  dsimp only
  rw [h', decide_eq_true rfl, require_true, requestOutput, if_pos h', setOutput_eq s.begin c b hc,
    State.begin_upd_emit_done hc, State.begin_chan, State.begin_pins]

/-- Settles O28: the trip decides between refusal and request, the output flag between nothing and the
switch. -/
theorem outputEnableCompletes : Obligations.OutputEnableCompletes := by
  intro s c hready ch now
  obtain ⟨hc, hhealthy⟩ := hready
  have outen (b : Bool) : exec (.outen c b) s = execOuten c b s := rfl
  have refusal := outputRefusal_of_healthy hhealthy
  have grantOn (h : ch.anyTripped = false) : outputRefusal s c true = .ok := by
    rw [refusal, h]; rfl
  have grantOff : outputRefusal s c false = .ok := refusal false
  rw [outen, outen]
  refine ⟨fun htripped => ?_, fun hclear hon => ?_, fun hoff => ?_, fun hclear hoff => ?_, fun hon => ?_⟩
  · have refused : outputRefusal s c true = .tripped := by rw [refusal, htripped]; rfl
    exact execOuten_of_refused hc refused (by decide)
  · rw [execOuten_of_granted hc (grantOn hclear), outputSet_of_eq hon, if_pos hon]
  · rw [execOuten_of_granted hc grantOff, outputSet_of_eq hoff, if_pos hoff]
  · rw [execOuten_of_granted hc (grantOn hclear), outputSet_on_of_off hoff, hoff]; rfl
  · rw [execOuten_of_granted hc grantOff, outputSet_off_of_on hon, hon]; rfl

/-! ### `SENSE` and `RPROG` (R183, R184) -/

theorem execSense_of_ready {s : State} {c : Nat} (h : s.ready c) (b : Bool) :
    execSense c b s =
      if (s.chan c).sense = b then .next (s.done c (s.chan c) 0 [])
      else .next (s.done c { s.chan c with sense := b } 0 [.digOut c .sense b, .save]) := by
  rw [execSense, onChannel_of_ready h, State.begin_upd_emit_done h.lt, ← State.begin_done h.lt]

theorem execRprog_of_same {s : State} {c : Nat} (h : s.ready c) {b : Bool} (hsame : (s.chan c).rprog = b) :
    execRprog c b s = .next (s.done c (s.chan c) 0 []) := by
  rw [execRprog, onChannel_of_ready h, if_pos hsame, ← State.begin_done h.lt]

/-- Enabling applies the minimum voltage between the flag and the `OVP` level. -/
theorem execRprog_on {s : State} {c : Nat} (h : s.ready c) (hoff : (s.chan c).rprog = false) :
    execRprog c true s =
      let on := { s.chan c with rprog := true }
      .next (s.done c
        ((voltageApplied on on.uMin.toInt).setProt .ovp fun p => { p with level := on.board.uMax }) 0
        (.digOut c .rprog true :: voltageEvents s.cfg c on on.uMin.toInt)) := by
  rw [execRprog, onChannel_of_ready h, hoff, if_neg Bool.false_ne_true, if_pos rfl]
  dsimp only
  rw [applyVoltage_eq, State.emit_upd, State.upd_upd, State.emit_upd, State.upd_upd, State.emit_emit,
    State.begin_upd_emit_done h.lt, State.emit_chan, State.chan_upd_same (by exact h.lt)]
  rfl

theorem execRprog_off {s : State} {c : Nat} (h : s.ready c) (hon : (s.chan c).rprog = true) :
    execRprog c false s =
      .next (s.done c { s.chan c with rprog := false } 0 [.digOut c .rprog false, .save]) := by
  rw [execRprog, onChannel_of_ready h, hon, if_neg nofun, if_neg Bool.false_ne_true]
  dsimp only
  rw [State.emit_emit, State.begin_upd_emit_done h.lt]
  rfl

/-- Settles O29: each flag decides between nothing and its switch. -/
theorem senseAndRemoteProgrammingComplete : Obligations.SenseAndRemoteProgrammingComplete := by
  intro s c b hready ch on
  have sense : exec (.sense c b) s = execSense c b s := rfl
  have rprog (b : Bool) : exec (.rprog c b) s = execRprog c b s := rfl
  rw [sense, rprog, rprog, rprog, execSense_of_ready hready]
  exact ⟨fun hsame => if_pos hsame, fun hdiff => if_neg hdiff, execRprog_of_same hready,
    execRprog_on hready, execRprog_off hready⟩

end Sys2Proof.Machine

/-! ## The rules of `44_protection.md`: the protection latch, the trip, the debounce check, its commands -/

namespace Sys2Proof

/-! ### One datum for each kind -/

@[simp] theorem PerKind.get_modify {α : Type} (x : PerKind α) (k k' : Kind) (f : α → α) :
    (x.modify k f).get k' = if k = k' then f (x.get k') else x.get k' := by
  cases k <;> cases k' <;> rfl

@[simp] theorem PerKind.get_map {α : Type} (x : PerKind α) (f : α → α) (k : Kind) :
    (x.map f).get k = f (x.get k) := by cases k <;> rfl

end Sys2Proof

namespace Sys2Proof.Machine

open Sys2Proof

/-! ### The protection records and the status bits of a channel (R26, R27) -/

@[simp] theorem Channel.setProt_prot (ch : Channel) (k : Kind) (f : ProtRec → ProtRec) :
    (ch.setProt k f).prot = ch.prot.modify k f := rfl

@[simp] theorem latched_prot (k : Kind) (ch : Channel) :
    (latched k ch).prot = ch.prot.modify k fun p => { p with tripped := true } := rfl

@[simp] theorem latched_status (k : Kind) (ch : Channel) : (latched k ch).status = statusSet ch.status k := rfl

@[simp] theorem latched_rprog (k : Kind) (ch : Channel) : (latched k ch).rprog = ch.rprog := rfl

@[simp] theorem clearProtection_prot (ch : Channel) :
    ch.clearProtection.prot = ch.prot.map fun p => { p with tripped := false, alarmed := false } := rfl

@[simp] theorem rprogDropped_prot (ch : Channel) : (rprogDropped ch).prot = ch.prot := by
  unfold rprogDropped
  split <;> rfl

@[simp] theorem rprogDropped_status (ch : Channel) : (rprogDropped ch).status = ch.status := by
  unfold rprogDropped
  split <;> rfl

@[simp] theorem rprogDropped_outEn (ch : Channel) : (rprogDropped ch).outEn = ch.outEn := by
  unfold rprogDropped
  split <;> rfl

@[simp] theorem statusBit_statusSet (st : BitVec 3) (k k' : Kind) :
    statusBit (statusSet st k) k' = (statusBit st k' || decide (k = k')) := by
  cases k <;> cases k' <;> simp [statusBit, statusSet, Kind.num]

@[simp] theorem statusBit_zero (k : Kind) : statusBit 0 k = false := by cases k <;> rfl

theorem anyTripped_iff (ch : Channel) : ch.anyTripped = true ↔ ∃ k, (ch.prot.get k).tripped = true := by
  simp only [Channel.anyTripped, Bool.or_eq_true]
  refine ⟨?_, ?_⟩
  · rintro ((h | h) | h)
    exacts [⟨.ovp, h⟩, ⟨.ocp, h⟩, ⟨.opp, h⟩]
  · rintro ⟨_ | _ | _, h⟩
    exacts [.inl (.inl h), .inl (.inr h), .inr h]

theorem anyTripped_eq_false_iff (ch : Channel) :
    ch.anyTripped = false ↔ ∀ k, (ch.prot.get k).tripped = false := by
  rw [Bool.eq_false_iff, ne_eq, anyTripped_iff, not_exists]
  exact forall_congr' fun _ => Iff.of_eq (Bool.not_eq_true _)

/-! ### What a move does to the latch (R215)

Of everything that a command or a tick does to a channel, only a trip latches a kind and only `PCLR` releases
one. -/

/-- A channel whose latch is as it was: the same kinds tripped, the same status bits, and the output switched on
only with no kind tripped. -/
structure LatchKept (a b : Channel) : Prop where
  tripped : ∀ k, (b.prot.get k).tripped = (a.prot.get k).tripped
  status : b.status = a.status
  outEn : b.outEn = true → a.outEn = true ∨ a.anyTripped = false

/-- Untouched protection records and status bits. -/
theorem LatchKept.of_prot_eq {a b : Channel} (hprot : b.prot = a.prot) (hstatus : b.status = a.status)
    (hout : b.outEn = true → a.outEn = true ∨ a.anyTripped = false) : LatchKept a b :=
  ⟨fun k => by rw [hprot], hstatus, hout⟩

theorem LatchKept.refl (ch : Channel) : LatchKept ch ch := .of_prot_eq rfl rfl .inl

/-- A record written but for its `tripped` bit. -/
theorem LatchKept.setProt {a b : Channel} (h : LatchKept a b) (k : Kind) {f : ProtRec → ProtRec}
    (hf : ∀ p, (f p).tripped = p.tripped) : LatchKept a (b.setProt k f) where
  tripped k' := by
    rw [Channel.setProt_prot, PerKind.get_modify, ← h.tripped]
    split
    · exact hf _
    · rfl
  status := h.status
  outEn := h.outEn

theorem takeSample_protection (cfg : Params) (p : Int) (ch : Channel) (r : AdcInput) (code : Val) :
    (ch.takeSample cfg p r code).prot = ch.prot ∧ (ch.takeSample cfg p r code).status = ch.status ∧
    (ch.takeSample cfg p r code).outEn = ch.outEn := by
  cases r <;> exact ⟨rfl, rfl, rfl⟩

theorem takeSnapshot_protection (ch : Channel) (q : Quantity) :
    (ch.takeSnapshot q).prot = ch.prot ∧ (ch.takeSnapshot q).status = ch.status ∧
    (ch.takeSnapshot q).outEn = ch.outEn := by
  unfold Channel.takeSnapshot
  split
  · exact ⟨rfl, rfl, rfl⟩
  · cases q <;> exact ⟨rfl, rfl, rfl⟩

/-- The per-channel part of a tick trips an armed kind (R204, R206) or keeps the latch. -/
theorem ScanMove.kept_or_trip {cfg : Params} {a b : Channel} (h : ScanMove cfg a b) :
    LatchKept a b ∨
    ∃ k now, a.outEn = true ∧ (a.prot.get k).state = true ∧ b = latched k (turnedOff now a) := by
  cases h with
  | trip k now hon hstate => exact .inr ⟨k, now, hon, hstate, rfl⟩
  | alarm k => exact .inl ((LatchKept.refl a).setProt k fun _ => rfl)
  | sample p r code =>
    obtain ⟨hprot, hstatus, hout⟩ := takeSample_protection cfg p a r code
    exact .inl (.of_prot_eq hprot hstatus fun h => .inl (hout ▸ h))
  | snapshot q =>
    obtain ⟨hprot, hstatus, hout⟩ := takeSnapshot_protection a q
    exact .inl (.of_prot_eq hprot hstatus fun h => .inl (hout ▸ h))
  | dropRprog =>
    exact .inl (.of_prot_eq (by simp) (by simp) fun h => .inl (by simpa using h))
  | off => exact .inl (.of_prot_eq rfl rfl nofun)
  | _ => exact .inl (.of_prot_eq rfl rfl .inl)

theorem RunMove.prot_eq {cfg : Params} {a b : Channel} (h : RunMove cfg a b) : b.prot = a.prot := by
  cases h <;> rfl

/-- The trigger and list steps keep the latch: an output that goes on has no kind tripped (R185). -/
theorem RunMove.latchKept {cfg : Params} {a b : Channel} (h : RunMove cfg a b) : LatchKept a b := by
  refine .of_prot_eq h.prot_eq (by cases h <;> rfl) fun hon => ?_
  cases h with
  | on now hclear => exact .inr hclear
  | off => cases hon
  | _ => exact .inl hon

/-- A command releases the kinds of the channel it names by `PCLR` (R210) or keeps the latch. -/
theorem CmdMove.kept_or_release {cfg : Params} {c : Nat} {i : Instr} {a b : Channel}
    (h : CmdMove cfg c i a b) : LatchKept a b ∨ ((∃ x, i = .pclr c x) ∧ b = a.clearProtection) := by
  cases h with
  | pclr _ x => exact .inr ⟨⟨x, rfl⟩, rfl⟩
  | on _ now hclear => exact .inl (.of_prot_eq rfl rfl fun _ => .inr hclear)
  | off => exact .inl (.of_prot_eq rfl rfl nofun)
  | rprogOn =>
    have hon : LatchKept a (voltageApplied { a with rprog := true } a.uMin.toInt) :=
      .of_prot_eq rfl rfl .inl
    exact .inl (hon.setProt .ovp fun _ => rfl)
  | pstate _ k | pdelay _ k | plevel _ k => exact .inl ((LatchKept.refl a).setProt k fun _ => rfl)
  | pdis => exact .inl ⟨fun k => by rw [PerKind.get_map], rfl, .inl⟩
  | fadd _ q | faddr _ q | frst _ q => cases q <;> exact .inl (.of_prot_eq rfl rfl .inl)
  | _ => exact .inl (.of_prot_eq rfl rfl .inl)

/-! ### The latch invariant (R215, R348) -/

theorem LatchKept.latchOk {a b : Channel} (h : LatchKept a b) (ha : a.latchOk) : b.latchOk := by
  obtain ⟨hstatus, hout, hone⟩ := ha
  refine ⟨fun k => ?_, fun htripped => ?_, fun k k' hk hk' => ?_⟩
  · rw [h.status, h.tripped, hstatus]
  · obtain ⟨k, hk⟩ := (anyTripped_iff b).mp htripped
    have hany : a.anyTripped = true := (anyTripped_iff a).mpr ⟨k, h.tripped k ▸ hk⟩
    by_contra hon
    rcases h.outEn (Bool.not_eq_false _ ▸ hon) with hon' | hclear
    · exact absurd (hout hany) (by simp [hon'])
    · exact absurd hany (by simp [hclear])
  · exact hone k k' (h.tripped k ▸ hk) (h.tripped k' ▸ hk')

/-- An output that is on has no kind tripped, so a trip leaves exactly one. -/
theorem latchOk_latched {a : Channel} (ha : a.latchOk) (hon : a.outEn = true) (k : Kind) (now : Time) :
    (latched k (turnedOff now a)).latchOk := by
  obtain ⟨hstatus, hout, -⟩ := ha
  have hclear : ∀ k', (a.prot.get k').tripped = false :=
    (anyTripped_eq_false_iff a).mp (Bool.eq_false_iff.mpr fun h => by simp [hout h] at hon)
  have htripped (k' : Kind) : ((latched k (turnedOff now a)).prot.get k').tripped = decide (k = k') := by
    have hprot : (turnedOff now a).prot = a.prot := rfl
    rw [latched_prot, PerKind.get_modify, hprot]
    split <;> simp [*]
  refine ⟨fun k' => ?_, fun _ => rfl, fun k₁ k₂ h₁ h₂ => ?_⟩
  · have hst : (turnedOff now a).status = a.status := rfl
    rw [latched_status, hst, statusBit_statusSet, hstatus, hclear, htripped, Bool.false_or]
  · rw [htripped, decide_eq_true_eq] at h₁ h₂
    exact h₁.symm.trans h₂

theorem latchOk_clearProtection (ch : Channel) : ch.clearProtection.latchOk := by
  have hclear (k : Kind) : (ch.clearProtection.prot.get k).tripped = false := by
    rw [clearProtection_prot, PerKind.get_map]
  refine ⟨fun k => (statusBit_zero k).trans (hclear k).symm, fun h => ?_, fun k _ hk => ?_⟩
  · rw [(anyTripped_eq_false_iff _).mpr hclear] at h; cases h
  · rw [hclear k] at hk; cases hk

theorem ScanMove.latchOk {cfg : Params} {a b : Channel} (h : ScanMove cfg a b) (ha : a.latchOk) :
    b.latchOk := by
  obtain hkept | ⟨k, now, hon, -, rfl⟩ := h.kept_or_trip
  · exact hkept.latchOk ha
  · exact latchOk_latched ha hon k now

theorem CmdMove.latchOk {cfg : Params} {c : Nat} {i : Instr} {a b : Channel} (h : CmdMove cfg c i a b)
    (ha : a.latchOk) : b.latchOk := by
  obtain hkept | ⟨-, rfl⟩ := h.kept_or_release
  · exact hkept.latchOk ha
  · exact latchOk_clearProtection a

/-- Settles O55: every move keeps the latch, trips a channel whose output is on, or releases all kinds. -/
theorem everyStepKeepsTheLatch : Obligations.EveryStepKeepsTheLatch := by
  intro s t hs hstep
  exact (step_all (P := fun _ => Channel.latchOk) (fun _ _ _ _ _ => CmdMove.latchOk)
    (fun _ _ _ => ScanMove.latchOk) (fun _ _ _ h => h.latchKept.latchOk) hstep hs).2

/-! ### Who moves `tripped` (R215 (a), (e), (f)) -/

/-- The per-channel part of a tick switches no output on. -/
theorem ScanMove.outEn_of_outEn {cfg : Params} {a b : Channel} (h : ScanMove cfg a b)
    (hb : b.outEn = true) : a.outEn = true := by
  cases h with
  | sample p r code => exact (takeSample_protection cfg p a r code).2.2 ▸ hb
  | snapshot q => exact (takeSnapshot_protection a q).2.2 ▸ hb
  | dropRprog => exact rprogDropped_outEn a ▸ hb
  | off | trip => cases hb
  | _ => exact hb

/-- The per-channel part of a tick configures no protection. -/
theorem ScanMove.state_eq {cfg : Params} {a b : Channel} (h : ScanMove cfg a b) (k : Kind) :
    (b.prot.get k).state = (a.prot.get k).state := by
  cases h with
  | sample p r code => rw [(takeSample_protection cfg p a r code).1]
  | snapshot q => rw [(takeSnapshot_protection a q).1]
  | dropRprog => rw [rprogDropped_prot]
  | alarm k' | trip k' =>
    simp only [Channel.setProt_prot, latched_prot, PerKind.get_modify]
    split <;> rfl
  | _ => rfl

/-- A channel later in the per-channel part of a tick: its output is on only if it was, kind `k` is configured as
it was, and stays tripped or has tripped only from an output that was on with the kind configured on. -/
structure TripsArmed (k : Kind) (a b : Channel) : Prop where
  outEn : b.outEn = true → a.outEn = true
  state : (b.prot.get k).state = (a.prot.get k).state
  keeps : (a.prot.get k).tripped = true → (b.prot.get k).tripped = true
  rises : (a.prot.get k).tripped = false → (b.prot.get k).tripped = true →
    (a.prot.get k).state = true ∧ a.outEn = true

theorem TripsArmed.refl (k : Kind) (a : Channel) : TripsArmed k a a :=
  ⟨id, rfl, id, fun h h' => absurd h' (by simp [h])⟩

theorem TripsArmed.trans {k : Kind} {a b d : Channel} (h : TripsArmed k a b) (h' : TripsArmed k b d) :
    TripsArmed k a d where
  outEn hd := h.outEn (h'.outEn hd)
  state := h'.state.trans h.state
  keeps ha := h'.keeps (h.keeps ha)
  rises ha hd := by
    cases hb : (b.prot.get k).tripped with
    | true => exact h.rises ha hb
    | false =>
      obtain ⟨hstate, hon⟩ := h'.rises hb hd
      exact ⟨h.state ▸ hstate, h.outEn hon⟩

theorem ScanMove.tripsArmed {cfg : Params} {a b : Channel} (h : ScanMove cfg a b) (k : Kind) :
    TripsArmed k a b := by
  refine ⟨h.outEn_of_outEn, h.state_eq k, ?_, ?_⟩ <;>
    obtain hkept | ⟨k', now, hon, hstate, rfl⟩ := h.kept_or_trip
  · exact fun ha => (hkept.tripped k).trans ha
  · intro ha
    rw [latched_prot, PerKind.get_modify]
    split
    · rfl
    · exact ha
  · exact fun ha hb => absurd hb (by simp [hkept.tripped k, ha])
  · intro ha hb
    rw [latched_prot, PerKind.get_modify] at hb
    split at hb
    · subst k'; exact ⟨hstate, hon⟩
    · exact absurd hb (by rw [show (turnedOff now a).prot = a.prot from rfl, ha]; exact Bool.false_ne_true)

/-- The per-channel part of a tick, over all its moves. -/
theorem ScanTo.tripsArmed {s t : State} (h : ScanTo s t) (c : Nat) (k : Kind) :
    TripsArmed k (s.chan c) (t.chan c) := by
  have hmoves := h.moves c
  generalize t.chan c = b at hmoves ⊢
  induction hmoves with
  | refl => exact .refl k _
  | tail _ hlast ih => exact ih.trans (hlast.tripsArmed k)

/-- The trigger and list steps write no protection record. -/
theorem RunTo.prot_eq {s t : State} (h : RunTo s t) (c : Nat) : (t.chan c).prot = (s.chan c).prot :=
  h.same Channel.prot (fun _ _ => RunMove.prot_eq) c

/-- A tick releases no kind, and trips only one that is configured on with the output on before the tick. -/
theorem tickAll_tripped (s : State) (c : Nat) (k : Kind) :
    (((s.chan c).prot.get k).tripped = true → (((tickAll s).chan c).prot.get k).tripped = true) ∧
    (((s.chan c).prot.get k).tripped = false → (((tickAll s).chan c).prot.get k).tripped = true →
      ((s.chan c).prot.get k).state = true ∧ (s.chan c).outEn = true) := by
  have hscan := (scan_moves s.currentPrecs s).tripsArmed c k
  rw [tickAll, (run_moves _ _).prot_eq c]
  exact ⟨hscan.keeps, hscan.rises⟩

theorem listAbortAll_prot (s : State) (c : Nat) : ((listAbortAll s).chan c).prot = (s.chan c).prot := by
  simp only [listAbortAll, State.chan, List.getElem?_map]
  cases s.chans[c]? <;> rfl

/-- A command that names no channel is a `TICK` or writes no protection record. -/
theorem GlobalTo.prot_eq_or_tick {s t : State} {i : Instr} (h : GlobalTo s i t) (c : Nat) :
    (t.chan c).prot = (s.chan c).prot ∨ (i = .tick ∧ t = tickAll s.begin) := by
  cases h with
  | keep _ _ _ _ _ hchans => exact .inl (by simp only [State.chan, hchans])
  | start _ s1 _ _ _ _ hchans =>
    exact .inl (((startImmediately_run _ s1).prot_eq c).trans (by simp only [State.chan, hchans]))
  | tabort | labort => exact .inl ((triggerAbort_run s.begin).prot_eq c)
  | labortLists => exact .inl (listAbortAll_prot s.begin c)
  | tick => exact .inr ⟨rfl, rfl⟩

/-- A command that names a channel trips nothing, and releases only by `PCLR` of that channel. -/
theorem CmdTo.tripped_eq_or_release {i : Instr} {c' : Nat} {s t : State} (h : CmdTo i c' s t) (c : Nat)
    (k : Kind) :
    ((t.chan c).prot.get k).tripped = ((s.chan c).prot.get k).tripped ∨
    ((∃ b, i = .pclr c b) ∧ ((t.chan c).prot.get k).tripped = false) := by
  by_cases hc : c = c'
  · subst c'
    obtain hkept | ⟨hpclr, hrelease⟩ := h.named.kept_or_release
    · exact .inl (hkept.tripped k)
    · exact .inr ⟨hpclr, by rw [hrelease, clearProtection_prot, PerKind.get_map]⟩
  · exact .inl (by rw [h.other c hc])

/-- What any command does to `tripped`: nothing, a release by `PCLR`, or what a tick does. -/
theorem exec_tripped {i : Instr} {s t : State} (h : exec i s = .next t) (c : Nat) (k : Kind) :
    ((t.chan c).prot.get k).tripped = ((s.chan c).prot.get k).tripped ∨
    ((∃ b, i = .pclr c b) ∧ ((t.chan c).prot.get k).tripped = false) ∨
    (i = .tick ∧ t = tickAll s.begin) := by
  obtain ⟨c', hcmd⟩ | hglobal := exec_to h
  · exact (hcmd.tripped_eq_or_release c k).imp_right .inl
  · exact (hglobal.prot_eq_or_tick c).imp (fun hprot => by rw [hprot]) .inr

/-- Settles O35: only a tick raises `tripped`, and its moves trip only what is armed; only `PCLR` lowers it. -/
theorem trippedMovesOnlyInTickAndClear : Obligations.TrippedMovesOnlyInTickAndClear := by
  intro i s t c k hexec _
  obtain hsame | ⟨hpclr, hclear⟩ | ⟨rfl, rfl⟩ := exec_tripped hexec c k
  · rw [hsame]
    exact ⟨fun hs ht => Bool.noConfusion (hs.symm.trans ht), fun hs ht => Bool.noConfusion (hs.symm.trans ht)⟩
  · exact ⟨fun _ ht => Bool.noConfusion (hclear.symm.trans ht), fun _ _ => hpclr⟩
  · obtain ⟨hkeeps, hrises⟩ := tickAll_tripped s.begin c k
    exact ⟨fun hs ht => ⟨rfl, hrises hs ht⟩, fun hs ht => Bool.noConfusion (ht.symm.trans (hkeeps hs))⟩

/-! ### Trip entry (R206, R347) -/

theorem setOutput_off_eq {s : State} {c : Nat} (hc : c < s.nCh) :
    setOutput s c false =
      (s.upd c (outputSet s.pins.nowUs false)).emit (if (s.chan c).outEn = true then offEvents c else []) := by
  rw [setOutput_eq s c false hc]
  cases (s.chan c).outEn <;> rfl

/-- The outputs that a trip on channel `c` forces off. -/
def forcedOff (s : State) (c : Nat) : State :=
  if tripsPartner s c then setOutput (setOutput s c false) (s.pin c).partner false else setOutput s c false

theorem forcedOff_frame (s : State) (c : Nat) : Frame s (forcedOff s c) :=
  ((setOutput_frame s c false).trans (setOutput_frame ..)).ite (setOutput_frame s c false)

/-- What a trip of kind `k` writes on its channel once the output is off. -/
def tripLatched (k : Kind) (ch : Channel) : Channel :=
  if k = .ovp then rprogDropped (latched k ch) else latched k ch

/-- What it then emits. -/
def tripEvents (c : Nat) (k : Kind) (ch : Channel) : List Event :=
  .pushEvent (.trip k) c :: (if k = .ovp ∧ ch.rprog = true then [.digOut c .rprog false, .save] else [])

theorem dropRprog_eq (s : State) (c : Nat) :
    dropRprog s c =
      (s.upd c rprogDropped).emit
        (if (s.chan c).rprog = true then [.digOut c .rprog false, .save] else []) := by
  unfold dropRprog
  split
  next h => exact congrArg (State.emit · _) (State.upd_congr (by simp [rprogDropped, h]))
  next h => rw [State.emit_nil, State.upd_self (by simp [rprogDropped, h])]

/-- A trip as the outputs forced off, one update of its channel, and its events. -/
theorem trip_eq_upd {s : State} {c : Nat} (hc : c < s.nCh) (k : Kind) :
    trip s c k =
      ((forcedOff s c).upd c (tripLatched k)).emit (tripEvents c k ((forcedOff s c).chan c)) := by
  have htripped : tripped s c k =
      ((forcedOff s c).upd c (latched k)).emit [.pushEvent (.trip k) c] := rfl
  have hc' : c < (forcedOff s c).nCh := by rwa [(forcedOff_frame s c).nCh]
  have hrprog : ((tripped s c k).chan c).rprog = ((forcedOff s c).chan c).rprog := by
    rw [htripped, State.emit_chan, State.chan_upd_same hc', latched_rprog]
  rw [trip_eq]
  by_cases hk : k = .ovp
  · subst k
    have hlatched : tripLatched .ovp = fun ch => rprogDropped (latched .ovp ch) :=
      funext fun ch => if_pos rfl
    rw [if_pos rfl, dropRprog_eq, hrprog, htripped, State.emit_upd, State.upd_upd, State.emit_emit, hlatched,
      List.singleton_append]
    simp only [tripEvents, true_and]
  · have hlatched : tripLatched k = latched k := funext fun ch => if_neg hk
    rw [if_neg hk, htripped, tripEvents, if_neg fun h => hk h.1, hlatched]

/-- Without a coupled follower only the channel's own output goes off. -/
theorem forcedOff_of_alone {s : State} {c : Nat} (hc : c < s.nCh)
    (h : s.pins.coupling = .none ∨ (s.pin (s.pin c).partner).follower = false) :
    forcedOff s c =
      (s.upd c (outputSet s.pins.nowUs false)).emit (if (s.chan c).outEn = true then offEvents c else []) := by
  have halone : tripsPartner s c = false := by
    rcases h with h | h <;> simp [tripsPartner, h]
  rw [forcedOff, halone, ← setOutput_off_eq hc]; rfl

/-- A coupled follower's output goes off after the channel's own. -/
theorem forcedOff_of_coupled {s : State} {c p : Nat} (hc : c < s.nCh) (hp : p < s.nCh) (hne : p ≠ c)
    (hpartner : (s.pin c).partner = p) (hcoupled : s.pins.coupling ≠ .none)
    (hfollower : (s.pin p).follower = true) :
    forcedOff s c =
      ((s.upd c (outputSet s.pins.nowUs false)).upd p (outputSet s.pins.nowUs false)).emit
        ((if (s.chan c).outEn = true then offEvents c else []) ++
          (if (s.chan p).outEn = true then offEvents p else [])) := by
  have hpair : tripsPartner s c = true := by simp [tripsPartner, hcoupled, hpartner, hfollower]
  have hp' : p < (setOutput s c false).nCh := by rwa [(setOutput_frame s c false).nCh]
  rw [forcedOff, hpair, if_pos rfl, hpartner, setOutput_off_eq hp', setOutput_off_eq hc, State.emit_upd,
    State.emit_emit, State.emit_chan, State.chan_upd_ne hne.symm]
  rfl

/-- The writes of a trip, field by field: the alarm flag looks at the level and the board, which the latch leaves
alone. -/
theorem tripLatched_eq (k : Kind) (ch : Channel) :
    tripLatched k ch =
      if k = .ovp ∧ ch.rprog = true then
        { latched k ch with
          rprog := false, rprogAlarm := ch.rprogAlarm || decide (ch.prot.ovp.level = ch.board.uMax) }
      else latched k ch := by
  by_cases hk : k = .ovp
  · subst k
    simp only [true_and]
    rfl
  · rw [tripLatched, if_neg hk, if_neg fun h => hk h.1]

/-- What switching an output off leaves of the fields that a trip reads. -/
theorem outputSet_protection (now : Time) (en : Bool) (ch : Channel) :
    (outputSet now en ch).prot = ch.prot ∧ (outputSet now en ch).status = ch.status ∧
    (outputSet now en ch).rprog = ch.rprog ∧ (outputSet now en ch).rprogAlarm = ch.rprogAlarm ∧
    (outputSet now en ch).board = ch.board := by
  unfold outputSet
  split_ifs <;> exact ⟨rfl, rfl, rfl, rfl, rfl⟩

/-- Two channels updated, as one list of channels. -/
theorem State.upd_upd_eq_set {s : State} {c p : Nat} (hc : c < s.nCh) (hp : p < s.nCh) (hne : p ≠ c)
    (f g : Channel → Channel) :
    (s.upd c f).upd p g =
      { s with chans := (s.chans.set c (f (s.chan c))).set p (g (s.chan p)) } := by
  rw [State.upd_eq_set (s := s.upd c f) (by rwa [State.upd_nCh]), State.chan_upd_ne hne.symm,
    State.upd_eq_set hc]

/-- Settles O31: the outputs forced off are the channel's own and a coupled follower's; the latch and the end of
remote programming are one more write of the channel. -/
theorem tripEntryRule : Obligations.TripEntryRule := by
  intro s c k hc now ch p off offEvs latch ends final pushed
  have hoff (x : Channel) : outputSet now false x = off x := by
    cases hx : x.outEn with
    | false => simp [off, outputSet, hx]
    | true => simp [off, outputSet, hx, turnedOff]
  obtain ⟨hprot, hstatus, hrprog, halarm, hboard⟩ := outputSet_protection now false ch
  have hfinal : tripLatched k (outputSet now false ch) = final := by
    rw [tripLatched_eq, latched, hprot, hstatus, hrprog, halarm, hboard, hoff]
  have hevents : tripEvents c k (outputSet now false ch) = pushed := by rw [tripEvents, hrprog]
  rw [trip_eq_upd hc]
  refine ⟨fun halone => ?_, fun hcoupled hfollower hp hne => ?_⟩
  · rw [forcedOff_of_alone hc halone, State.emit_upd, State.upd_upd, State.emit_emit, State.emit_chan,
      State.chan_upd_same hc, State.upd_eq_set hc, hfinal, hevents]
    rfl
  · rw [forcedOff_of_coupled hc hp hne rfl hcoupled hfollower, State.emit_upd, State.upd_comm hne,
      State.upd_upd, State.emit_emit, State.emit_chan, State.chan_upd_ne hne, State.chan_upd_same hc,
      State.upd_upd_eq_set hc hp hne, hfinal, hevents, hoff]
    rfl

/-! ### The debounce check (R203, R204, R207) -/

/-- Kind `k` is armed with its condition true: what the debounce check looks at first. -/
def Channel.fires (ch : Channel) (k : Kind) : Bool := ch.armed k && ch.condition k

theorem Channel.fires_iff (ch : Channel) (k : Kind) :
    ch.fires k = true ↔ ch.armed k = true ∧ ch.condition k = true := Iff.of_eq (Bool.and_eq_true ..)

/-- What a debounce check decides (R207). -/
inductive Verdict where
  | trip | alarm | wait | clear

/-- The decision of the debounce check at time `now` on record `p`. -/
def verdict (now : Time) (fires : Bool) (p : ProtRec) : Verdict :=
  if fires then
    if p.delay.toInt ≤ 0 then .trip
    else if !p.alarmed then .alarm
    else if p.delay.toInt ≤ (elapsed now p.alarmTime : Int) then .trip
    else .wait
  else .clear

/-- What a decision does to the protection record. -/
def Verdict.record (now : Time) (p : ProtRec) : Verdict → ProtRec
  | .trip => { p with tripped := true }
  | .alarm => { p with alarmed := true, alarmTime := now }
  | .wait => p
  | .clear => { p with alarmed := false }

/-- What a decision does to the state. -/
def Verdict.run (s : State) (c : Nat) (k : Kind) : Verdict → State
  | .trip => Machine.trip s c k
  | .alarm => s.upd c fun ch => ch.setProt k fun p => { p with alarmed := true, alarmTime := s.pins.nowUs }
  | .wait => s
  | .clear => s.upd c fun ch => ch.setProt k fun p => { p with alarmed := false }

theorem protCheck_eq (s : State) (c : Nat) (k : Kind) :
    protCheck s c k =
      (verdict s.pins.nowUs ((s.chan c).fires k) ((s.chan c).prot.get k)).run s c k := by
  unfold protCheck verdict Channel.fires
  dsimp only
  split_ifs <;> rfl

section
variable {now : Time} {p : ProtRec}

theorem verdict_of_not_fires : verdict now false p = .clear := rfl

theorem verdict_of_no_delay (hd : p.delay.toInt ≤ 0) : verdict now true p = .trip := if_pos hd

theorem verdict_of_unalarmed (hd : 0 < p.delay.toInt) (ha : p.alarmed = false) :
    verdict now true p = .alarm := by
  rw [verdict, if_pos rfl, if_neg hd.not_ge, ha]; rfl

theorem verdict_of_due (ha : p.alarmed = true) (he : p.delay.toInt ≤ (elapsed now p.alarmTime : Int)) :
    verdict now true p = .trip := by
  rw [verdict, if_pos rfl, ha, if_neg (by decide : ¬(!true) = true), if_pos he, ite_self]

theorem verdict_of_early (hd : 0 < p.delay.toInt) (ha : p.alarmed = true)
    (he : (elapsed now p.alarmTime : Int) < p.delay.toInt) : verdict now true p = .wait := by
  rw [verdict, if_pos rfl, if_neg hd.not_ge, ha, if_neg (by decide : ¬(!true) = true), if_neg he.not_ge]

end

theorem condition_ovp_iff {ch : Channel} {b : Bool} (h : ch.rprog = b) :
    ch.condition .ovp = true ↔
      (if b = true then ch.u.monDac else ch.u.mon).toInt ≥ ch.prot.ovp.level.toInt := by
  rw [Channel.condition, h, decide_eq_true_eq]

theorem condition_ocp_iff (ch : Channel) : ch.condition .ocp = true ↔ ch.i.mon.toInt ≥ ch.i.set.toInt :=
  decide_eq_true_iff

theorem condition_opp_iff (ch : Channel) :
    ch.condition .opp = true ↔ ch.u.mon.toInt * ch.i.mon.toInt > ch.prot.opp.level.toInt * 10 ^ 6 := by
  rw [ten_pow_six]
  exact decide_eq_true_iff

/-- Settles O30: each row of the table is one decision of the check, and each condition one comparison. -/
theorem debounceCheckTable : Obligations.DebounceCheckTable := by
  refine ⟨?_, fun ch => ⟨condition_ovp_iff, condition_ovp_iff, condition_ocp_iff ch, condition_opp_iff ch⟩⟩
  intro s c k hc ch p a e
  have hcheck : protCheck s c k = (verdict s.pins.nowUs (ch.fires k) p).run s c k := protCheck_eq s c k
  have hfires : ch.fires k = true ↔ a := ch.fires_iff k
  rw [hcheck]
  refine ⟨fun ha hd => ?_, fun ha hd hal => ?_, fun ha _ hal he => ?_, fun ha hd hal he => ?_, fun ha => ?_⟩
  · rw [hfires.mpr ha, verdict_of_no_delay hd]; rfl
  · rw [hfires.mpr ha, verdict_of_unalarmed hd hal]; exact State.upd_eq_set hc _
  · rw [hfires.mpr ha, verdict_of_due hal he]; rfl
  · rw [hfires.mpr ha, verdict_of_early hd hal he]; rfl
  · rw [Bool.eq_false_iff.mpr (mt hfires.mp ha), verdict_of_not_fires]; exact State.upd_eq_set hc _

/-! ### The commands of the protections (R210 to R214) -/

theorem execPclr_of_lt {s : State} {c : Nat} (hc : c < s.nCh) (b : Bool) :
    execPclr c b s =
      .next (s.done c (s.chan c).clearProtection 0
        ((if b then [Event.clearOtp c] else []) ++
          (if (s.chan c).anyTripped then [Event.markLastAsRead] else []) ++ [Event.save])) := by
  rw [execPclr, onChannel_of_lt hc, releaseTrip, State.begin_upd_emit_done hc, State.begin_chan]

/-- Settles O33: `PCLR` is one update of the channel and its list of events. -/
theorem clearProtectionCompletes : Obligations.ClearProtectionCompletes := by
  intro s c b hc ch cleared
  have pclr : exec (.pclr c b) s = execPclr c b s := rfl
  have hany : (s.chan c).anyTripped = true ↔
      ch.prot.ovp.tripped = true ∨ ch.prot.ocp.tripped = true ∨ ch.prot.opp.tripped = true := by
    simp only [Channel.anyTripped, Bool.or_eq_true, or_assoc]; rfl
  rw [pclr, execPclr_of_lt hc]
  simp only [hany]
  rfl

theorem execPdis_of_lt {s : State} {c : Nat} (hc : c < s.nCh) :
    execPdis c s =
      require (!(s.chan c).anyTripped) .tripped s.begin
        (.next (s.done c
          { s.chan c with prot := (s.chan c).prot.map fun p => { p with state := false } } 0 [.save])) := by
  rw [execPdis, onChannel_of_lt hc, State.begin_upd_emit_done hc]

theorem execPstate_of_lt {s : State} {c : Nat} (hc : c < s.nCh) (k : Kind) (b : Bool) :
    execPstate c k b s =
      require (b || !((s.chan c).prot.get k).tripped) .tripped s.begin
        (.next (s.done c ((s.chan c).setProt k fun p => { p with state := b }) 0 [.save])) := by
  rw [execPstate, onChannel_of_lt hc, State.begin_upd_emit_done hc]

theorem execPdelay_of_lt {s : State} {c : Nat} (hc : c < s.nCh) (k : Kind) (v : Int) :
    execPdelay c k v s =
      require (decide (((s.chan c).board.pdlyMin.get k).toInt ≤ v ∧
          v ≤ ((s.chan c).board.pdlyMax.get k).toInt)) .range s.begin
        (.next (s.done c ((s.chan c).setProt k fun p => { p with delay := toVal v }) 0 [.save])) := by
  rw [execPdelay, onChannel_of_lt hc, State.begin_upd_emit_done hc, Bool.decide_and]

theorem execPlevel_of_lt {s : State} {c : Nat} (hc : c < s.nCh) (k : Kind) (v : Int) :
    execPlevel c k v s =
      require (decide (((s.chan c).board.plvlMin.get k).toInt ≤ v ∧
          v ≤ ((s.chan c).board.plvlMax.get k).toInt)) .range s.begin
        (.next (s.done c ((s.chan c).setProt k fun p => { p with level := toVal v }) 0 [.save])) := by
  rw [execPlevel, onChannel_of_lt hc, State.begin_upd_emit_done hc, Bool.decide_and]

/-- Settles O34: each command is one check and one write. -/
theorem protectionSettingsComplete : Obligations.ProtectionSettingsComplete := by
  intro s c k b v hc ch off inDelay inLevel fails
  have pdis : exec (.pdis c) s = execPdis c s := rfl
  have pstate (b : Bool) : exec (.pstate c k b) s = execPstate c k b s := rfl
  have pdelay : exec (.pdelay c k v) s = execPdelay c k v s := rfl
  have plevel : exec (.plevel c k v) s = execPlevel c k v s := rfl
  rw [pdis, pstate, pstate, pdelay, plevel, execPdis_of_lt hc, execPstate_of_lt hc, execPstate_of_lt hc,
    execPdelay_of_lt hc, execPlevel_of_lt hc]
  refine ⟨fun htripped => ?_, fun hclear => ?_, fun htripped => ?_, fun hallowed => ?_,
    fun hin => ?_, fun hout => ?_, fun hin => ?_, fun hout => ?_⟩
  · rw [htripped]; rfl
  · rw [hclear]; rfl
  · rw [htripped]; rfl
  · have hpass : (b || !(ch.prot.get k).tripped) = true := by
      rcases hallowed with h | h <;> simp [h]
    rw [hpass, require_true]
  · rw [decide_eq_true hin, require_true]
  · rw [decide_eq_false hout]; rfl
  · rw [decide_eq_true hin, require_true]
  · rw [decide_eq_false hout]; rfl

/-! ### What writes a protection record inside a tick (R204, R320)

Of the parts of a tick only the debounce checks write the protection records, and each check only the record of
its own kind on its own channel. -/

/-- From `s` to `t` with every protection record as it was. -/
abbrev ProtKept : State → State → Prop := Reaches fun _ a b => b.prot = a.prot

theorem ProtKept.prot_eq {s t : State} (h : ProtKept s t) (c : Nat) : (t.chan c).prot = (s.chan c).prot :=
  h.same Channel.prot (fun _ _ => id) c

theorem sampleIntake_protKept (ip : Nat → Int) (s : State) (c : Nat) : ProtKept s (sampleIntake ip s c) := by
  unfold sampleIntake
  split
  next => exact (Reaches.upd1 rfl).thenEmit _
  next =>
    exact Reaches.ite (fun _ => (Reaches.upd1 (takeSample_protection ..).1).thenEmit _) fun _ => Reaches.refl s

theorem modeSample_protKept (s : State) (c : Nat) : ProtKept s (modeSample s c) := Reaches.upd1 rfl

theorem setOutput_protKept (s : State) (c : Nat) (en : Bool) : ProtKept s (setOutput s c en) :=
  Reaches.ite (fun _ => Reaches.refl s) fun _ =>
    Reaches.ite (fun _ => (Reaches.upd1 rfl).thenEmit _) fun _ => (Reaches.upd1 rfl).thenEmit _

theorem dpOff_protKept (s : State) (c : Nat) : ProtKept s (dpOff s c) := (Reaches.upd1 rfl).thenEmit _

theorem dpOffCheck_protKept (s : State) (c : Nat) : ProtKept s (dpOffCheck s c) :=
  Reaches.ite (fun _ => Reaches.ite (fun _ => (Reaches.upd1 rfl).trans (dpOff_protKept _ c))
    fun _ => Reaches.upd1 rfl) fun _ => Reaches.refl s

theorem balanceOne_protKept (s : State) (x : Nat) (q : Quantity) (avg : Int) :
    ProtKept s (balanceOne s x q avg) := by
  have hsnapshot : ProtKept s (s.upd x fun ch => ch.takeSnapshot q) :=
    Reaches.upd1 (takeSnapshot_protection ..).1
  refine hsnapshot.trans ?_
  cases q with
  | u => exact applyVoltage_upd _ x _ (.single rfl)
  | i => exact applyCurrent_upd _ x _ (.single rfl)

theorem dpBalance_protKept (ip : Nat → Int) (s : State) (c : Nat) : ProtKept s (dpBalance ip s c) := by
  have hbalance (q : Quantity) : ProtKept s (balance ip s c q) :=
    Reaches.ite (fun _ => (balanceOne_protKept ..).trans (balanceOne_protKept ..)) fun _ => Reaches.refl s
  unfold dpBalance
  refine Reaches.ite (fun _ => Reaches.refl s) fun _ => ?_
  split
  · exact Reaches.refl s
  · exact hbalance .u
  · exact hbalance .i
  · exact Reaches.refl s

theorem dpNegCheck_protKept (ip : Nat → Int) (s : State) (c : Nat) : ProtKept s (dpNegCheck ip s c) := by
  have hfirst : ProtKept s (dpFirstStage s c) :=
    ((dpOff_protKept s c).thenEmit _).trans (Reaches.upd1 rfl)
  have hsecond : ProtKept s (dpSecondStage s c) := (setOutput_protKept s c false).thenEmit _
  unfold dpNegCheck
  exact Reaches.ite (fun _ => Reaches.upd1 rfl) fun _ => Reaches.ite (fun _ => Reaches.upd1 rfl) fun _ =>
    Reaches.ite (fun _ => Reaches.ite (fun _ => hfirst) fun _ => hsecond) fun _ =>
    Reaches.ite (fun _ => dpBalance_protKept ip s c) fun _ => Reaches.refl s

theorem onTimeUpdate_protKept (s : State) (c : Nat) : ProtKept s (onTimeUpdate s c) :=
  Reaches.ite (fun _ => Reaches.upd1 rfl) fun _ => Reaches.refl s

theorem historyPush_protKept (s : State) (c : Nat) : ProtKept s (historyPush s c) := Reaches.upd1 rfl

theorem autoRangeCheck_protKept (s : State) (c : Nat) : ProtKept s (autoRangeCheck s c) := by
  have hswitch (r : Range) : ProtKept s (autoSwitch s c r) := by
    have h : ProtKept s (switchRange s c r) := (Reaches.upd1 rfl).thenEmit _
    exact (h.trans (Reaches.upd1 rfl)).thenEmit _
  unfold autoRangeCheck
  refine Reaches.ite (fun _ => ?_) fun _ => Reaches.refl s
  split
  · exact hswitch _
  · exact Reaches.refl s

/-- The parts of a channel's tick before its checks. -/
theorem beforeChecks_protKept (ip : Nat → Int) (s : State) (c : Nat) :
    ProtKept s (modeSample (sampleIntake ip s c) c) :=
  (sampleIntake_protKept ip s c).trans (modeSample_protKept _ c)

/-- The parts of a channel's tick after its checks. -/
theorem afterChecks_protKept (ip : Nat → Int) (s : State) (c : Nat) :
    ProtKept s
      (autoRangeCheck (historyPush (onTimeUpdate (dpNegCheck ip (dpOffCheck s c) c) c) c) c) :=
  ((((dpOffCheck_protKept s c).trans (dpNegCheck_protKept ip _ c)).trans (onTimeUpdate_protKept _ c)).trans
    (historyPush_protKept _ c)).trans (autoRangeCheck_protKept _ c)

theorem trip_prot (s : State) (c : Nat) (k : Kind) (c' : Nat) :
    ((trip s c k).chan c').prot =
      if c = c' ∧ c < s.nCh then (s.chan c').prot.modify k fun p => { p with tripped := true }
      else (s.chan c').prot := by
  rw [trip_chan]
  split_ifs <;> simp [(outputSet_protection ..).1]

/-- A decision writes the record of the kind that was checked, and no other. -/
theorem Verdict.run_record (v : Verdict) (s : State) (c : Nat) (k : Kind) (c' : Nat) (k' : Kind) :
    ((v.run s c k).chan c').prot.get k' =
      if (c = c' ∧ c < s.nCh) ∧ k = k' then v.record s.pins.nowUs ((s.chan c').prot.get k')
      else (s.chan c').prot.get k' := by
  by_cases hc : c = c' ∧ c < s.nCh
  · obtain ⟨rfl, hc⟩ := hc
    cases v with
    | trip => simp [Verdict.run, Verdict.record, trip_prot, hc]
    | alarm | clear => simp [Verdict.run, Verdict.record, hc]
    | wait => simp [Verdict.run, Verdict.record]
  · rw [if_neg fun h => hc h.1]
    cases v with
    | trip => rw [Verdict.run, trip_prot, if_neg hc]
    | alarm | clear => rw [Verdict.run, State.chan_upd, if_neg hc]
    | wait => rfl

/-- The record that the debounce check of kind `k` leaves on its channel. -/
def debounced (now : Time) (ch : Channel) (k : Kind) (p : ProtRec) : ProtRec :=
  (verdict now (ch.fires k) p).record now p

theorem protCheck_record {s : State} {c : Nat} (hc : c < s.nCh) (k : Kind) :
    ((protCheck s c k).chan c).prot.get k =
      debounced s.pins.nowUs (s.chan c) k ((s.chan c).prot.get k) := by
  rw [protCheck_eq, Verdict.run_record, if_pos ⟨⟨rfl, hc⟩, rfl⟩]; rfl

theorem protCheck_other_kind {k k' : Kind} (h : k ≠ k') (s : State) (c c' : Nat) :
    ((protCheck s c k).chan c').prot.get k' = (s.chan c').prot.get k' := by
  rw [protCheck_eq, Verdict.run_record, if_neg fun h' => h h'.2]

theorem protCheck_other_channel {c c' : Nat} (h : c ≠ c') (s : State) (k k' : Kind) :
    ((protCheck s c k).chan c').prot.get k' = (s.chan c').prot.get k' := by
  rw [protCheck_eq, Verdict.run_record, if_neg fun h' => h h'.1.1]

/-! ### One tick of a protection record (R205, R320) -/

/-- The tick of a channel writes no protection record of another. -/
theorem tickChannel_other (ip : Nat → Int) (s : State) {c c' : Nat} (h : c ≠ c') (k : Kind) :
    ((tickChannel ip s c).chan c').prot.get k = (s.chan c').prot.get k := by
  have hchecks (u : State) : ((protTick u c).chan c').prot.get k = (u.chan c').prot.get k := by
    unfold protTick
    split
    · rfl
    · rw [protCheck_other_channel h, protCheck_other_channel h, protCheck_other_channel h]
  unfold tickChannel
  split
  · unfold tickHealthy
    dsimp only
    rw [(afterChecks_protKept ip _ c).prot_eq, hchecks, (beforeChecks_protKept ip s c).prot_eq]
  · rfl

theorem foldl_tickChannel_other (ip : Nat → Int) {l : List Nat} {c : Nat} (h : c ∉ l) (k : Kind) (s : State) :
    ((l.foldl (tickChannel ip) s).chan c).prot.get k = (s.chan c).prot.get k := by
  induction l generalizing s with
  | nil => rfl
  | cons x l ih =>
    obtain ⟨hx, hl⟩ := not_or.mp (mt List.mem_cons.mpr h)
    rw [List.foldl_cons, ih hl, tickChannel_other ip s (Ne.symm hx)]

/-- The channels of a tick, around one of them. -/
theorem range_eq_around {c n : Nat} (h : c < n) :
    ∃ rest, c ∉ rest ∧ List.range n = List.range c ++ c :: rest := by
  obtain ⟨m, rfl⟩ := Nat.exists_eq_add_of_lt h
  refine ⟨(List.range m).map (c + ·.succ), ?_, ?_⟩
  · simp
  · rw [Nat.add_assoc, List.range_add, List.range_succ_eq_map, List.map_cons, List.map_map]; rfl

theorem beforeProtection_frame (s : State) (c : Nat) : Frame s (beforeProtection s c) :=
  ((Frame.foldl (tickChannel_frame _) _ s).trans (sampleIntake_frame _ _ c)).trans (modeSample_frame _ c)

theorem beforeCheck_frame (s : State) (c : Nat) (k : Kind) : Frame s (beforeCheck s c k) := by
  have h := beforeProtection_frame s c
  cases k with
  | ovp => exact h
  | ocp => exact h.trans (protCheck_frame ..)
  | opp => exact (h.trans (protCheck_frame ..)).trans (protCheck_frame ..)

/-- The check of a kind sees the record that the tick started with. -/
theorem beforeCheck_record (s : State) (c : Nat) (k : Kind) :
    ((beforeCheck s c k).chan c).prot.get k = (s.chan c).prot.get k := by
  have h : ((beforeProtection s c).chan c).prot.get k = (s.chan c).prot.get k := by
    unfold beforeProtection
    dsimp only
    rw [(beforeChecks_protKept _ _ c).prot_eq, foldl_tickChannel_other _ (by simp)]
  cases k with
  | ovp => exact h
  | ocp => rw [beforeCheck, protCheck_other_kind (by decide : Kind.ovp ≠ .ocp), h]
  | opp =>
    rw [beforeCheck, protCheck_other_kind (by decide : Kind.ocp ≠ .opp),
      protCheck_other_kind (by decide : Kind.ovp ≠ .opp), h]

/-- The checks of the kinds after `k` leave its record alone. -/
theorem protTick_record {s : State} {c : Nat} (hc : checked s c) (k : Kind) :
    ((protTick (beforeProtection s c) c).chan c).prot.get k =
      ((protCheck (beforeCheck s c k) c k).chan c).prot.get k := by
  obtain ⟨-, hleads⟩ := hc
  have hframe := beforeProtection_frame s c
  have hruns : (decide ((beforeProtection s c).pins.coupling ≠ .none) &&
      ((beforeProtection s c).pin c).follower) = false := by
    rw [hframe.pin, hframe.pins]
    rcases hleads with h | h <;> simp [h]
  rw [protTick, hruns, if_neg Bool.false_ne_true]
  cases k with
  | ovp =>
    rw [protCheck_other_kind (by decide : Kind.opp ≠ .ovp), protCheck_other_kind (by decide : Kind.ocp ≠ .ovp)]
    rfl
  | ocp => rw [protCheck_other_kind (by decide : Kind.opp ≠ .ocp)]; rfl
  | opp => rfl

/-- A tick of a checked channel leaves each protection record as its debounce check does. -/
theorem tickAll_record {s : State} {c : Nat} (hc : checked s c) (k : Kind) :
    ((tickAll s).chan c).prot.get k =
      debounced s.pins.nowUs ((beforeCheck s c k).chan c) k ((s.chan c).prot.get k) := by
  obtain ⟨hlt, hhealthy⟩ := hc.1
  obtain ⟨rest, hrest, hrange⟩ := range_eq_around hlt
  have hcheck := beforeCheck_frame s c k
  have hhealthy' : ((((List.range c).foldl (tickChannel s.currentPrecs) s).pin c).healthy) = true := by
    rw [(Frame.foldl (tickChannel_frame _) _ s).pin, hhealthy]
  calc ((tickAll s).chan c).prot.get k
      = ((forChannels (tickChannel s.currentPrecs) s).chan c).prot.get k := by
        rw [tickAll, (run_moves _ _).prot_eq c]
    _ = ((tickChannel s.currentPrecs ((List.range c).foldl (tickChannel s.currentPrecs) s) c).chan c).prot.get k := by
        rw [forChannels, hrange, List.foldl_append, List.foldl_cons, foldl_tickChannel_other _ hrest]
    _ = ((protTick (beforeProtection s c) c).chan c).prot.get k := by
        rw [tickChannel, if_pos hhealthy', tickHealthy, (afterChecks_protKept _ _ c).prot_eq]; rfl
    _ = ((protCheck (beforeCheck s c k) c k).chan c).prot.get k := protTick_record hc k
    _ = debounced s.pins.nowUs ((beforeCheck s c k).chan c) k ((s.chan c).prot.get k) := by
        rw [protCheck_record (hcheck.nCh ▸ hlt), beforeCheck_record, hcheck.pins]

/-! ### The timing law (R208) -/

theorem asserted_iff_fires (s : State) (c : Nat) (k : Kind) :
    asserted s c k ↔ ((beforeCheck s c k).chan c).fires k = true := (Channel.fires_iff _ k).symm

/-- One tick of a protection record: an asserted check is decided on the record as the tick found it. -/
theorem tickAll_record_of_asserted {s : State} {c : Nat} {k : Kind} (hc : checked s c) (ha : asserted s c k) :
    ((tickAll s).chan c).prot.get k =
      (verdict s.pins.nowUs true ((s.chan c).prot.get k)).record s.pins.nowUs ((s.chan c).prot.get k) := by
  rw [tickAll_record hc, debounced, (asserted_iff_fires s c k).mp ha]

/-- A check that is not asserted clears the alarm. -/
theorem tickAll_record_of_not_asserted {s : State} {c : Nat} {k : Kind} (hc : checked s c)
    (ha : ¬asserted s c k) :
    ((tickAll s).chan c).prot.get k = { (s.chan c).prot.get k with alarmed := false } := by
  have hclear : ((beforeCheck s c k).chan c).fires k = false :=
    Bool.eq_false_iff.mpr (mt (asserted_iff_fires s c k).mpr ha)
  rw [tickAll_record hc, debounced, hclear, verdict_of_not_fires]; rfl

/-- The record of a kind that waits out delay `d` since time `t0`: untripped, and alarmed at `t0` once a tick has
passed. -/
structure Waiting (d : Int) (t0 : Time) (ticked : Prop) (p : ProtRec) : Prop where
  delay : p.delay.toInt = d
  tripped : p.tripped = false
  unalarmed : ¬ticked → p.alarmed = false
  alarmed : ticked → p.alarmed = true ∧ p.alarmTime = t0

section
variable {d : Int} {t0 now : Time} {ticked : Prop} {p : ProtRec}

/-- An asserted check before the delay has passed goes on waiting, the first one from its own time. -/
theorem Waiting.early (h : Waiting d t0 ticked p) (hd : 0 < d) (hfirst : ¬ticked → now = t0)
    (hearly : ticked → (elapsed now t0 : Int) < d) : Waiting d t0 True ((verdict now true p).record now p) := by
  obtain ⟨hdelay, htripped, hunalarmed, halarmed⟩ := h
  by_cases hticked : ticked
  · obtain ⟨hal, htime⟩ := halarmed hticked
    rw [verdict_of_early (hdelay ▸ hd) hal (by rw [htime, hdelay]; exact hearly hticked)]
    exact ⟨hdelay, htripped, fun h => absurd trivial h, fun _ => ⟨hal, htime⟩⟩
  · rw [verdict_of_unalarmed (hdelay ▸ hd) (hunalarmed hticked), hfirst hticked]
    exact ⟨hdelay, htripped, fun h => absurd trivial h, fun _ => ⟨rfl, rfl⟩⟩

/-- Without a delay the first asserted check trips. -/
theorem Waiting.trips_of_no_delay (h : Waiting d t0 ticked p) (hd : d ≤ 0) :
    ((verdict now true p).record now p).tripped = true := by
  rw [verdict_of_no_delay (h.delay ▸ hd)]; rfl

/-- An asserted check after the delay has passed trips. -/
theorem Waiting.trips_of_due (h : Waiting d t0 ticked p) (hticked : ticked)
    (hdue : d ≤ (elapsed now t0 : Int)) : ((verdict now true p).record now p).tripped = true := by
  obtain ⟨hal, htime⟩ := h.alarmed hticked
  rw [verdict_of_due hal (by rw [htime, h.delay]; exact hdue)]; rfl

end

/-- Settles O32: by induction the record waits at every tick up to `n`; the last tick decides on it. -/
theorem debounceTimingLaw : Obligations.DebounceTimingLaw := by
  intro c k d ps ss n hrun hchecked hdelay halarmed htripped hasserted hearly hpos p last
  have htick (i : Nat) (hi : i ≤ n) (ha : asserted { (ss i).begin with pins := ps i } c k) :
      p (i + 1) = (verdict (ps i).nowUs true (p i)).record (ps i).nowUs (p i) := by
    have h := tickAll_record_of_asserted (s := { (ss i).begin with pins := ps i }) (hchecked i hi) ha
    rw [← tickWith, ← hrun] at h
    exact h
  have hwaiting (i : Nat) (hi : i ≤ n) : Waiting d (ps 0).nowUs (0 < i) (p i) := by
    induction i with
    | zero => exact ⟨hdelay, htripped, fun _ => halarmed, fun h => absurd h (Nat.lt_irrefl 0)⟩
    | succ i ih =>
      have hnext := (ih (by omega)).early (now := (ps i).nowUs) (hpos (by omega))
        (fun h => by rw [Nat.eq_zero_of_not_pos h]) (hearly i hi)
      rw [htick i (by omega) (hasserted i hi)]
      simpa using hnext
  have hlast := hwaiting n le_rfl
  refine ⟨fun i hi => (hwaiting i hi).tripped, fun i h0 hi => (hwaiting i hi).alarmed h0,
    fun ha hd => ?_, fun ha hn hdue => ?_, fun ha hd hwait => ?_, fun ha => ?_⟩
  · rw [htick n le_rfl ha]; exact hlast.trips_of_no_delay hd
  · rw [htick n le_rfl ha]; exact hlast.trips_of_due hn hdue
  · rw [htick n le_rfl ha]
    exact (hlast.early hd (fun h => by rw [Nat.eq_zero_of_not_pos h]) hwait).tripped
  · have h : p (n + 1) = { p n with alarmed := false } := by
      have h := tickAll_record_of_not_asserted (s := last) (hchecked n le_rfl) ha
      rw [← tickWith, ← hrun] at h
      exact h
    rw [h]
    exact ⟨hlast.tripped, rfl⟩

end Sys2Proof.Machine

/-! ## The rules of `45_dpmonitor.md`: balancing, the negative-power monitor -/

namespace Sys2Proof.Machine

open Sys2Proof

/-! ### One channel's share of balancing (R236) -/

/-- A channel that remembers its voltage setpoint, unless it remembers one already. -/
theorem Channel.takeSnapshot_u (ch : Channel) :
    ch.takeSnapshot .u = { ch with uBal := if ch.uBal.valid then ch.uBal else ⟨true, ch.u.set⟩ } := by
  unfold Channel.takeSnapshot
  cases h : ch.uBal.valid <;> simp [Channel.bal, h]

/-- A channel that remembers its current setpoint, unless it remembers one already. -/
theorem Channel.takeSnapshot_i (ch : Channel) :
    ch.takeSnapshot .i = { ch with iBal := if ch.iBal.valid then ch.iBal else ⟨true, ch.i.set⟩ } := by
  unfold Channel.takeSnapshot
  cases h : ch.iBal.valid <;> simp [Channel.bal, h]

/-- The setpoint of quantity `q` that balancing gives a channel. -/
def balanceTarget (ch : Channel) (q : Quantity) (avg : Int) : Int :=
  clamp avg (ch.lower q) (ch.record q).limit.toInt

/-- A channel after its share of balancing. -/
def balanced (cfg : Params) (now : Time) (pin : ChanPins) (ch : Channel) (q : Quantity) (avg : Int) : Channel :=
  match q with
  | .u => voltageApplied (ch.takeSnapshot .u) (balanceTarget ch .u avg)
  | .i => currentApplied cfg now pin (ch.takeSnapshot .i) (balanceTarget ch .i avg)

/-- The events of a channel's share of balancing. -/
def balanceEvents (cfg : Params) (pin : ChanPins) (x : Nat) (ch : Channel) (q : Quantity) (avg : Int) :
    List Event :=
  match q with
  | .u => voltageEvents cfg x ch (balanceTarget ch .u avg)
  | .i => currentEvents cfg pin x ch (balanceTarget ch .i avg)

/-- A channel's share of balancing as one update: the snapshot changes nothing that the application reads. -/
theorem balanceOne_eq {s : State} {x : Nat} (hx : x < s.nCh) (q : Quantity) (avg : Int) :
    balanceOne s x q avg =
      { s with
        chans := s.chans.set x (balanced s.cfg s.pins.nowUs (s.pin x) (s.chan x) q avg)
        events := s.events ++ balanceEvents s.cfg (s.pin x) x (s.chan x) q avg } := by
  have hx' : x < (s.upd x fun ch => ch.takeSnapshot q).nCh := by simpa
  cases q with
  | u =>
    rw [balanceOne, applySetpoint, applyVoltage_eq, State.upd_upd, State.chan_upd_same hx, State.upd_eq_set hx,
      balanced, Channel.takeSnapshot_u]
    rfl
  | i =>
    rw [balanceOne, applySetpoint, applyCurrent_eq _ _ _ hx', State.upd_upd, State.chan_upd_same hx,
      State.upd_eq_set hx, balanced, Channel.takeSnapshot_i]
    rfl

/-! ### Balancing (R236) -/

theorem balance_of_unhealthy {s : State} {c : Nat} (h : (s.pin (s.pin c).partner).healthy = false)
    (ip : Nat → Int) (q : Quantity) : balance ip s c q = s := by
  rw [balance, h]; exact if_neg Bool.false_ne_true

/-- Balancing with a healthy partner: the leader's share does not touch what the partner's share reads. -/
theorem balance_of_healthy {s : State} {c p : Nat} (hpartner : (s.pin c).partner = p)
    (hhealthy : (s.pin p).healthy = true) (hc : c < s.nCh) (hp : p < s.nCh) (hne : p ≠ c)
    (ip : Nat → Int) (q : Quantity) :
    balance ip s c q =
      let avg := balanceAvg ip s c p q
      { s with
        chans := (s.chans.set c (balanced s.cfg s.pins.nowUs (s.pin c) (s.chan c) q avg)).set p
          (balanced s.cfg s.pins.nowUs (s.pin p) (s.chan p) q avg)
        events := s.events ++
          (balanceEvents s.cfg (s.pin c) c (s.chan c) q avg ++
            balanceEvents s.cfg (s.pin p) p (s.chan p) q avg) } := by
  have hframe := balanceOne_frame s c q (balanceAvg ip s c p q)
  have hkept : (balanceOne s c q (balanceAvg ip s c p q)).chan p = s.chan p := by
    rw [balanceOne_eq hc]; simp [State.chan, hne.symm]
  rw [balance, hpartner, if_pos hhealthy, balanceOne_eq (hframe.nCh ▸ hp), hkept, hframe.pin, hframe.pins,
    hframe.cfg, balanceOne_eq hc, List.append_assoc]

/-- Settles O37: the partner's health decides between nothing and the two shares, leader first. -/
theorem balancingRule : Obligations.BalancingRule := by
  intro ip s c p hc hp hne a b keepU keepI avgU avgI yU yI now
  refine ⟨fun q hsick => balance_of_unhealthy hsick ip q, fun hhealthy => ⟨?_, ?_⟩⟩
  · rw [balance_of_healthy rfl hhealthy hc hp hne]
    simp only [balanced, Channel.takeSnapshot_u]
    rfl
  · rw [balance_of_healthy rfl hhealthy hc hp hne]
    simp only [balanced, Channel.takeSnapshot_i]
    rfl

/-! ### The branches of the negative-power monitor (R233) -/

/-- The output is on and the tracked power is below the threshold. -/
def sinks (cfg : Params) (ch : Channel) : Prop := ch.outEn = true ∧ ch.power < cfg.dpNegLev

theorem dpNegCheck_of_not_sinks {s : State} {c : Nat} (h : ¬sinks s.cfg (s.chan c)) (ip : Nat → Int) :
    dpNegCheck ip s c = s.upd c fun ch => { ch with dpNegActive := false } := by
  have hends : (!(s.chan c).outEn || decide (s.cfg.dpNegLev ≤ (s.chan c).power)) = true := by
    by_cases hon : (s.chan c).outEn = true
    · rw [decide_eq_true (not_lt.mp fun hlow => h ⟨hon, hlow⟩), Bool.or_true]
    · rw [Bool.eq_false_iff.mpr hon]; rfl
  rw [dpNegCheck, if_pos hends]

/-- Below the threshold the watch flag decides between the start and the two windows. -/
theorem dpNegCheck_of_sinks {s : State} {c : Nat} (h : sinks s.cfg (s.chan c)) (ip : Nat → Int) :
    dpNegCheck ip s c =
      if (s.chan c).dpNegActive = false then
        s.upd c fun ch => { ch with dpNegActive := true, dpNegTime := s.pins.nowUs }
      else if s.cfg.dpNegDelay < elapsed s.pins.nowUs (s.chan c).dpNegTime then
        if (s.chan c).dpOn then dpFirstStage s c else dpSecondStage s c
      else if s.cfg.dpBalDelay < elapsed s.pins.nowUs (s.chan c).dpNegTime ∧ (s.chan c).dpOn = true then
        dpBalance ip s c
      else s := by
  obtain ⟨hon, hlow⟩ := h
  have hgoesOn : (!(s.chan c).outEn || decide (s.cfg.dpNegLev ≤ (s.chan c).power)) = false := by
    rw [hon, decide_eq_false hlow.not_ge]; rfl
  rw [dpNegCheck, if_neg (Bool.eq_false_iff.mp hgoesOn)]
  simp only [Bool.not_eq_true', Bool.and_eq_true, decide_eq_true_eq]

/-- Past the longer window the down-programmer decides between the stages. -/
theorem dpNegCheck_of_past {s : State} {c : Nat} (h : sinks s.cfg (s.chan c))
    (hactive : (s.chan c).dpNegActive = true)
    (hpast : s.cfg.dpNegDelay < elapsed s.pins.nowUs (s.chan c).dpNegTime) (ip : Nat → Int) :
    dpNegCheck ip s c = if (s.chan c).dpOn then dpFirstStage s c else dpSecondStage s c := by
  rw [dpNegCheck_of_sinks h, if_neg (by rw [hactive]; nofun), if_pos hpast]

/-- Within the longer window the sub-delay and the down-programmer decide whether the pair balances. -/
theorem dpNegCheck_of_within {s : State} {c : Nat} (h : sinks s.cfg (s.chan c))
    (hactive : (s.chan c).dpNegActive = true)
    (hwithin : elapsed s.pins.nowUs (s.chan c).dpNegTime ≤ s.cfg.dpNegDelay) (ip : Nat → Int) :
    dpNegCheck ip s c =
      if s.cfg.dpBalDelay < elapsed s.pins.nowUs (s.chan c).dpNegTime ∧ (s.chan c).dpOn = true then
        dpBalance ip s c
      else s := by
  rw [dpNegCheck_of_sinks h, if_neg (by rw [hactive]; nofun), if_neg hwithin.not_gt]

theorem dpFirstStage_eq {s : State} {c : Nat} (hc : c < s.nCh) :
    dpFirstStage s c =
      { s with
        chans := s.chans.set c { s.chan c with dpOn := false, dpNegTime := s.pins.nowUs }
        events := s.events ++ [.digOut c .dp false, .pushEvent .dpOff c] } := by
  rw [dpFirstStage, dpOff, State.emit_emit, State.emit_upd, State.upd_upd, State.upd_eq_set hc]
  rfl

theorem dpSecondStage_eq {s : State} {c : Nat} (hc : c < s.nCh) (hon : (s.chan c).outEn = true) :
    dpSecondStage s c =
      { s with
        chans := s.chans.set c (turnedOff s.pins.nowUs (s.chan c))
        events := s.events ++ (offEvents c ++ [.pushEvent .outputFault c]) } := by
  rw [dpSecondStage, setOutput_eq s c false hc, State.emit_emit, State.upd_eq_set hc, outputSet_off_of_on hon,
    hon]
  rfl

theorem dpBalance_of_follower {s : State} {c : Nat} (h : (s.pin c).follower = true) (ip : Nat → Int) :
    dpBalance ip s c = s := if_pos h

/-- A leader balances the quantity that its coupling shares, if any. -/
theorem dpBalance_of_leader {s : State} {c : Nat} (h : (s.pin c).follower = false) (ip : Nat → Int) :
    (s.pins.coupling = .series → dpBalance ip s c = balance ip s c .u) ∧
    (s.pins.coupling = .parallel → dpBalance ip s c = balance ip s c .i) ∧
    (s.pins.coupling = .none ∨ s.pins.coupling = .tracked → dpBalance ip s c = s) := by
  rw [dpBalance, h, if_neg Bool.false_ne_true]
  refine ⟨fun hseries => ?_, fun hparallel => ?_, ?_⟩
  · rw [hseries]
  · rw [hparallel]
  · rintro (hnone | htracked)
    · rw [hnone]
    · rw [htracked]

/-- Settles O36: each clause is one branch of the check; a watched channel within the longer window that is
not in the balancing window misses its sub-delay or its down-programmer, or follows. -/
theorem negativePowerMonitor : Obligations.NegativePowerMonitor := by
  intro ip s c hc ch now below e watching mid
  have hmid : mid → dpNegCheck ip s c = dpBalance ip s c := by
    rintro ⟨⟨hbelow, hactive⟩, hwithin, hdelay, hdp, -⟩
    rw [dpNegCheck_of_within hbelow hactive hwithin, if_pos ⟨hdelay, hdp⟩]
  have hleader : mid → (s.pin c).follower = false := fun ⟨_, _, _, _, hleads⟩ => hleads
  refine ⟨fun hnot => ?_, fun hbelow hidle => ?_, fun ⟨hbelow, hactive⟩ hpast hdp => ?_,
    fun ⟨hbelow, hactive⟩ hpast hdp => ?_, fun h hseries => ?_, fun h hparallel => ?_, fun h hother => ?_,
    fun ⟨hbelow, hactive⟩ hwithin hnot => ?_⟩
  · rw [dpNegCheck_of_not_sinks hnot, State.upd_eq_set hc]
  · rw [dpNegCheck_of_sinks hbelow, if_pos hidle, State.upd_eq_set hc]
  · rw [dpNegCheck_of_past hbelow hactive hpast, if_pos hdp, dpFirstStage_eq hc]
  · have hon : ch.outEn = true := hbelow.1
    rw [dpNegCheck_of_past hbelow hactive hpast, if_neg (Bool.eq_false_iff.mp hdp), dpSecondStage_eq hc hon]
    rfl
  · obtain ⟨hbalance, -, -⟩ := dpBalance_of_leader (hleader h) ip
    rw [hmid h, hbalance hseries]
  · obtain ⟨-, hbalance, -⟩ := dpBalance_of_leader (hleader h) ip
    rw [hmid h, hbalance hparallel]
  · obtain ⟨-, -, hbalance⟩ := dpBalance_of_leader (hleader h) ip
    rw [hmid h, hbalance hother]
  · rw [dpNegCheck_of_within hbelow hactive hwithin]
    by_cases hwindow : s.cfg.dpBalDelay < e ∧ ch.dpOn = true
    · obtain ⟨hdelay, hdp⟩ := hwindow
      have hfollows : (s.pin c).follower = true := by
        by_contra hleads
        exact hnot ⟨⟨hbelow, hactive⟩, hwithin, hdelay, hdp, Bool.eq_false_iff.mpr hleads⟩
      rw [dpBalance_of_follower hfollows, ite_self]
    · exact if_neg hwindow

end Sys2Proof.Machine

/-! ## The rules of `46_trigger.md`: the settings, aborting, the precondition check, execution -/

namespace Sys2Proof.Machine

open Sys2Proof

/-! ### The settings (R247 to R252) -/

theorem execTmode_of_lt {s : State} {c : Nat} (hc : c < s.nCh) (q : Quantity) (m : TrigMode) :
    execTmode c q m s =
      .next (s.done c
        (match q with
          | .u => { s.chan c with trigModeU := m }
          | .i => { s.chan c with trigModeI := m }) 0 [.save]) := by
  cases q <;> exact (onChannel_of_lt hc _).trans (congrArg _ (State.begin_upd_emit_done hc _ _))

theorem execTlev_of_lt {s : State} {c : Nat} (hc : c < s.nCh) (q : Quantity) (v : Int) :
    execTlev c q v s =
      .next (s.done c
        (match q with
          | .u => { s.chan c with trigU := toVal v }
          | .i => { s.chan c with trigI := toVal v }) 0 [.save]) := by
  cases q <;> exact (onChannel_of_lt hc _).trans (congrArg _ (State.begin_upd_emit_done hc _ _))

theorem execTout_of_lt {s : State} {c : Nat} (hc : c < s.nCh) (b : Bool) :
    execTout c b s = .next (s.done c { s.chan c with trigOut := b } 0 [.save]) := by
  rw [execTout, onChannel_of_lt hc, State.begin_upd_emit_done hc]

/-- Settles O38: the global settings are one write each; a channel setting is one update of its channel. -/
theorem triggerSettingsComplete : Obligations.TriggerSettingsComplete := by
  intro s c n b m v
  refine ⟨rfl, rfl, rfl, fun hc => ?_⟩
  have tmode (q : Quantity) : exec (.tmode c q m) s = execTmode c q m s := rfl
  have tlev (q : Quantity) : exec (.tlev c q v) s = execTlev c q v s := rfl
  have tout : exec (.tout c b) s = execTout c b s := rfl
  rw [tmode, tmode, tlev, tlev, tout]
  exact ⟨execTmode_of_lt hc .u m, execTmode_of_lt hc .i m, execTlev_of_lt hc .u v, execTlev_of_lt hc .i v,
    execTout_of_lt hc b⟩

/-! ### Aborting and finishing (R263, R265, R298) -/

/-- An abort as one pass over the channels. -/
theorem triggerAbort_eq (s : State) :
    triggerAbort s =
      { s with
        chans := s.chans.map fun ch => { ch with cursor := ch.cursor.stop, trigInProg := false }
        trigState := .idle } := by
  simp only [triggerAbort, listAbortAll, List.map_map]
  rfl

/-- The end of the sequence (R263): while `Executing` with no channel in progress, continuous initiation
chooses between `Initiated` and `Idle`. -/
def State.sequenceEnded (s : State) : State :=
  if s.trigState = .executing ∧ s.chans.all (fun ch => !ch.trigInProg) then
    { s with trigState := if s.trigCont then .initiated else .idle }
  else s

theorem triggerFinished_eq (s : State) (c : Nat) :
    triggerFinished s c = (s.upd c fun ch => { ch with trigInProg := false }).sequenceEnded := rfl

theorem State.all_idle_iff (s : State) :
    (s.chans.all fun ch => !ch.trigInProg) = true ↔ ∀ c, c < s.nCh → (s.chan c).trigInProg = false := by
  simp only [List.all_eq_true, Bool.not_eq_true']
  constructor
  · exact fun h c hc => h _ (State.chan_mem hc)
  · intro h ch hch
    obtain ⟨c, hc, rfl⟩ := State.mem_chans hch
    exact h c hc

/-- While a channel is in progress the sequence goes on. -/
theorem State.sequenceEnded_of_inProgress {s : State} {c : Nat} (hc : c < s.nCh)
    (h : (s.chan c).trigInProg = true) : s.sequenceEnded = s := by
  refine if_neg fun ⟨_, hidle⟩ => ?_
  have hdone := s.all_idle_iff.mp hidle c hc
  rw [h] at hdone
  exact absurd hdone (by decide)

/-- After channel `c` has finished, none is in progress when no other was. -/
theorem all_idle_after_finish_iff {s : State} {c : Nat} (hc : c < s.nCh) :
    ((s.upd c fun ch => { ch with trigInProg := false }).chans.all fun ch => !ch.trigInProg) = true ↔
      ∀ c', c' ≠ c → (s.chan c').trigInProg = false := by
  rw [State.all_idle_iff, State.upd_nCh]
  constructor
  · intro h c' hne
    by_cases hc' : c' < s.nCh
    · rw [← h c' hc', State.chan_upd_ne hne.symm]
    · rw [State.chan_of_ge (Nat.not_lt.mp hc')]; rfl
  · intro h c' _
    by_cases hcc : c' = c
    · rw [hcc, State.chan_upd_same hc]
    · rw [State.chan_upd_ne (Ne.symm hcc), h c' hcc]

/-- Settles O42: the abort is one pass over the channels, and the hook ends the sequence exactly when no other
channel is in progress. -/
theorem abortAndFinish : Obligations.AbortAndFinish := by
  refine ⟨?_, ?_⟩
  · intro s stopped all
    have tabort : exec .tabort s = .next (triggerAbort s.begin) := rfl
    have labort : exec .labort s = execLabort s := rfl
    have habort : triggerAbort s.begin = all := triggerAbort_eq s.begin
    rw [tabort, labort, execLabort, habort]
    exact ⟨rfl, fun hexec => by rw [if_pos hexec], fun hexec => by rw [if_neg hexec]; rfl⟩
  · intro s c hc s1 last
    have hs1 : (s.upd c fun ch => { ch with trigInProg := false }) = s1 := State.upd_eq_set hc _
    have hlast : (s1.trigState = .executing ∧ s1.chans.all (fun ch => !ch.trigInProg) = true) ↔ last := by
      rw [← hs1, all_idle_after_finish_iff hc]; rfl
    rw [triggerFinished_eq, hs1]
    exact ⟨fun h => if_pos (hlast.mpr h), fun h => if_neg (mt hlast.mp h)⟩

/-! ### The first failing test of a channel (R254) -/

/-- In a rising list the least element on which `f` answers decides. -/
theorem findSome?_of_least {β : Type} {f : Nat → Option β} {l : List Nat} (hl : l.Pairwise (· < ·)) {a : Nat}
    {b : β} (ha : a ∈ l) (hfirst : ∀ x ∈ l, x < a → f x = none) (hb : f a = some b) :
    l.findSome? f = some b := by
  obtain ⟨before, after, rfl⟩ := List.append_of_mem ha
  obtain ⟨-, -, hbelow⟩ := List.pairwise_append.mp hl
  exact List.findSome?_eq_some_iff.mpr ⟨before, a, after, rfl, hb, fun x hx =>
    hfirst x (List.mem_append_left _ hx) (hbelow x hx a List.mem_cons_self)⟩

section
variable {cfg : Params} {p : Int} {ch : Channel}

theorem listFault_of_first {j : Nat} (hj : j < ch.iterLen)
    (hfirst : ∀ j', j' < j → pointCheck cfg p ch j' = .ok) (hbad : pointCheck cfg p ch j ≠ .ok) :
    listFault cfg p ch = some (pointCheck cfg p ch j) :=
  findSome?_of_least List.pairwise_lt_range (List.mem_range.mpr hj) (fun j' _ hlt => if_pos (hfirst j' hlt))
    (if_neg hbad)

theorem listFault_eq_none_iff :
    listFault cfg p ch = none ↔ ∀ j, j < ch.iterLen → pointCheck cfg p ch j = .ok := by
  simp only [listFault, List.findSome?_eq_none_iff, List.mem_range, ite_eq_left_iff, reduceCtorEq, imp_false,
    not_not]

theorem channelFault_of_mismatch (h : ch.trigModeU ≠ ch.trigModeI) :
    channelFault cfg p ch = some .trigModeMismatch := if_pos h

theorem channelFault_of_fixed (h : ch.trigModeU = ch.trigModeI) (hmode : ch.trigModeU = .fixed) :
    channelFault cfg p ch = none := by
  rw [channelFault, if_neg (not_not.mpr h), hmode]

/-- A channel in `List` mode is tested for remote programming, its lengths and its points, in this order. -/
theorem channelFault_of_list (h : ch.trigModeU = ch.trigModeI) (hmode : ch.trigModeU = .list) :
    channelFault cfg p ch =
      if ch.rprog then some .trigRprog
      else if !ch.lengthsOk then some .listLengths
      else listFault cfg p ch := by
  rw [channelFault, if_neg (not_not.mpr h), hmode]

/-- A channel in `Step` mode is tested for remote programming and its levels, in this order. -/
theorem channelFault_of_step (h : ch.trigModeU = ch.trigModeI) (hmode : ch.trigModeU = .step) :
    channelFault cfg p ch =
      if ch.rprog then some .trigRprog
      else if stepCheck cfg p ch = .ok then none
      else some (stepCheck cfg p ch) := by
  rw [channelFault, if_neg (not_not.mpr h), hmode]

theorem channelFault_of_rprog (h : ch.trigModeU = ch.trigModeI) (hmode : ch.trigModeU ≠ .fixed)
    (hrprog : ch.rprog = true) : channelFault cfg p ch = some .trigRprog := by
  cases hm : ch.trigModeU with
  | fixed => exact absurd hm hmode
  | list => rw [channelFault_of_list h hm, if_pos hrprog]
  | step => rw [channelFault_of_step h hm, if_pos hrprog]

/-- The tests of R254 that a channel without a fault passes. -/
theorem channelFault_eq_none_iff :
    channelFault cfg p ch = none ↔
      ch.trigModeU = ch.trigModeI ∧ (ch.trigModeU ≠ .fixed → ch.rprog = false) ∧
      (ch.trigModeU = .list → ch.lengthsOk = true ∧ ∀ j, j < ch.iterLen → pointCheck cfg p ch j = .ok) ∧
      (ch.trigModeU = .step → stepCheck cfg p ch = .ok) := by
  by_cases h : ch.trigModeU = ch.trigModeI
  · cases hm : ch.trigModeU with
    | fixed => simp [channelFault_of_fixed h hm, ← h, hm]
    | list =>
      rw [channelFault_of_list h hm, ← h, hm, ← listFault_eq_none_iff]
      cases ch.rprog <;> cases ch.lengthsOk <;> simp
    | step =>
      rw [channelFault_of_step h hm, ← h, hm]
      cases ch.rprog <;> simp
  · simp [channelFault_of_mismatch h, h]

end

/-! ### The first failing channel (R253, R254) -/

theorem takesPart_eq (s : State) (c : Nat) :
    takesPart s c =
      ((s.pin c).healthy && (decide (s.pins.coupling = .none) || !(s.pin c).follower)) := by
  simp only [takesPart, Bool.not_and, decide_not, Bool.not_not]

theorem mem_participants (s : State) (c : Nat) :
    c ∈ participants s ↔
      c < s.nCh ∧ (s.pin c).healthy = true ∧ (s.pins.coupling = .none ∨ (s.pin c).follower = false) := by
  simp only [participants, List.mem_filter, List.mem_range, takesPart_eq, Bool.and_eq_true, Bool.or_eq_true,
    decide_eq_true_eq, Bool.not_eq_true']

theorem participants_rising (s : State) : (participants s).Pairwise (· < ·) := List.pairwise_lt_range.filter _

/-- The fault of the first failing channel is the answer. -/
theorem checkTrigger_of_first {ip : Nat → Int} {s : State} {c : Nat} {e : Status} (hc : c ∈ participants s)
    (hfirst : ∀ c' ∈ participants s, c' < c → channelFault s.cfg (ip c') (s.chan c') = none)
    (he : channelFault s.cfg (ip c) (s.chan c) = some e) : checkTrigger ip s = e := by
  rw [checkTrigger, findSome?_of_least (participants_rising s) hc hfirst he]

theorem checkTrigger_of_no_fault {ip : Nat → Int} {s : State}
    (h : ∀ c ∈ participants s, channelFault s.cfg (ip c) (s.chan c) = none) :
    checkTrigger ip s =
      if ∃ c ∈ participants s, (s.chan c).trigModeU ≠ .fixed then .ok else .trigAllFixed := by
  rw [checkTrigger, List.findSome?_eq_none_iff.mpr h]
  simp only [List.any_eq_true, decide_eq_true_eq]

/-- Settles O39: the fault of a channel is its first failing test, and the first channel with a fault decides;
with no fault only the modes count. -/
theorem preconditionCheckOrder : Obligations.PreconditionCheckOrder := by
  intro ip s part point level good earlier
  have hpart (c : Nat) : c ∈ participants s ↔ part c := mem_participants s c
  have hgood (c : Nat) : channelFault s.cfg (ip c) (s.chan c) = none ↔ good c := channelFault_eq_none_iff
  refine ⟨?_, fun hall => ?_⟩
  · intro c hc hearlier ch
    have hdecides {e : Status} : channelFault s.cfg (ip c) ch = some e → checkTrigger ip s = e :=
      checkTrigger_of_first ((hpart c).mpr hc) fun c' hc' hlt =>
        (hgood c').mpr (hearlier c' hlt ((hpart c').mp hc'))
    refine ⟨fun hne => hdecides (channelFault_of_mismatch hne), fun hmodes hmode hrprog =>
      hdecides (channelFault_of_rprog hmodes hmode hrprog), fun hmodes hlist hrprog => ?_,
      fun hmodes hstep hrprog hbad => ?_⟩
    · have hfault := channelFault_of_list (cfg := s.cfg) (p := ip c) hmodes hlist
      rw [hrprog, if_neg Bool.false_ne_true] at hfault
      refine ⟨fun hlengths => ?_, fun hlengths j hj hfirst hbad => ?_⟩
      · rw [hlengths] at hfault; exact hdecides hfault
      · rw [hlengths] at hfault
        exact hdecides (hfault.trans (listFault_of_first hj hfirst hbad))
    · refine hdecides ?_
      rw [channelFault_of_step hmodes hstep, hrprog, if_neg Bool.false_ne_true]
      exact if_neg hbad
  · rw [checkTrigger_of_no_fault fun c hc => (hgood c).mpr (hall c ((hpart c).mp hc))]
    refine ⟨fun ⟨c, hc, hmode⟩ => if_pos ⟨c, (hpart c).mpr hc, hmode⟩, fun hfixed => if_neg ?_⟩
    rintro ⟨c, hc, hmode⟩
    exact hmode (hfixed c ((hpart c).mp hc))

/-! ### `INIT`, `TRG` and the delay check (R255, R256, R258) -/

theorem trigDelayCheck_of_due {s : State} (hstate : s.trigState = .triggered)
    (hdue : s.trigDelay.toNat ≤ elapsed s.pins.nowUs s.trigTime) (ip : Nat → Int) :
    trigDelayCheck ip s = startImmediately ip s := if_pos ⟨hstate, hdue⟩

theorem trigDelayCheck_of_waiting {s : State}
    (h : s.trigState ≠ .triggered ∨ elapsed s.pins.nowUs s.trigTime < s.trigDelay.toNat) (ip : Nat → Int) :
    trigDelayCheck ip s = s := by
  refine if_neg fun ⟨hstate, hdue⟩ => ?_
  rcases h with hother | hearly
  · exact hother hstate
  · exact hdue.not_gt hearly

theorem elapsed_self (t : Time) : elapsed t t = 0 := by rw [elapsed, BitVec.sub_self]; rfl

theorem execInit_eq (s : State) :
    execInit s =
      require (decide (s.trigState = .idle)) .trigState s.begin
        (require (decide (checkTrigger s.currentPrecs s = .ok)) (checkTrigger s.currentPrecs s) s.begin
          (.next (if s.trigSource = 0 then startImmediately s.currentPrecs s.begin
            else { s.begin with trigState := .initiated }))) := rfl

theorem execTrg_of_miss {s : State} {n : Nat}
    (h : ¬(s.trigState = .initiated ∧ BitVec.ofNat 4 n = s.trigSource)) (b : Bool) :
    execTrg n b s = .next (s.failed .trigIgnored) := by
  rw [execTrg, ← Bool.decide_and, State.begin_trigState, State.begin_trigSource, decide_eq_false h]
  rfl

/-- A hit records the time; with `b` = 1 the delay check follows in the command. -/
theorem execTrg_of_hit {s : State} {n : Nat}
    (h : s.trigState = .initiated ∧ BitVec.ofNat 4 n = s.trigSource) (b : Bool) :
    execTrg n b s =
      let s1 := { s.begin with trigState := .triggered, trigTime := s.pins.nowUs }
      .next (if b then trigDelayCheck s.currentPrecs s1 else s1) := by
  rw [execTrg, ← Bool.decide_and, State.begin_trigState, State.begin_trigSource, decide_eq_true h,
    require_true]
  rfl

/-- Settles O40: `INIT` is two checks and a choice by the source; the delay check of a `TRG` sees no time
elapsed, so it executes exactly when the delay is zero. -/
theorem triggerCommandsComplete : Obligations.TriggerCommandsComplete := by
  refine ⟨?_, ?_⟩
  · intro s
    have init : exec .init s = execInit s := rfl
    rw [init, execInit_eq]
    refine ⟨fun hbusy => ?_, fun hidle hfail => ?_, fun hidle hpass hsource => ?_,
      fun hidle hpass hsource => ?_⟩
    · rw [decide_eq_false hbusy]; rfl
    · rw [decide_eq_true hidle, require_true, decide_eq_false hfail]; rfl
    · rw [decide_eq_true hidle, require_true, decide_eq_true hpass, require_true, if_neg hsource]; rfl
    · rw [decide_eq_true hidle, require_true, decide_eq_true hpass, require_true, if_pos hsource]; rfl
  · intro s n b hit s1
    have trg : exec (.trg n b) s = execTrg n b s := rfl
    have helapsed : elapsed s1.pins.nowUs s1.trigTime = 0 := elapsed_self _
    rw [trg]
    refine ⟨fun hmiss => execTrg_of_miss hmiss b, fun hhit hwait => ?_, fun hhit hb hzero => ?_,
      fun ip hstate hdue => trigDelayCheck_of_due hstate hdue ip, fun ip h => trigDelayCheck_of_waiting h ip,
      fun _ => rfl⟩
    · rw [execTrg_of_hit hhit]
      cases b with
      | false => rfl
      | true =>
        have hdelay : s.trigDelay ≠ 0 := hwait.resolve_left (by decide)
        have hearly : elapsed s1.pins.nowUs s1.trigTime < s1.trigDelay.toNat := by
          rw [helapsed]; exact Nat.pos_of_ne_zero fun h => hdelay (BitVec.eq_of_toNat_eq h)
        exact congrArg Host.Outcome.next (trigDelayCheck_of_waiting (.inr hearly) _)
    · have hdue : s1.trigDelay.toNat ≤ elapsed s1.pins.nowUs s1.trigTime := by
        have hz : s1.trigDelay = 0 := hzero
        rw [helapsed, hz]; rfl
      rw [execTrg_of_hit hhit, hb]
      exact congrArg Host.Outcome.next (trigDelayCheck_of_due rfl hdue _)

/-! ### What starting one channel does (R262) -/

/-- A channel with the levels of its trigger applied; `s` gives the parameters and the pins. -/
def levelsApplied (ip : Nat → Int) (s : State) (c : Nat) (ch : Channel) : Channel :=
  currentApplied s.cfg s.pins.nowUs (s.pin c) (voltageApplied ch (triggerVolt s.cfg ch)) (triggerCurr (ip c) ch)

/-- The events of applying the levels of a trigger. -/
def levelEvents (ip : Nat → Int) (s : State) (c : Nat) (ch : Channel) : List Event :=
  voltageEvents s.cfg c ch (triggerVolt s.cfg ch) ++
  currentEvents s.cfg (s.pin c) c (voltageApplied ch (triggerVolt s.cfg ch)) (triggerCurr (ip c) ch)

/-- A healthy channel after its output request: refused when a tripped one is to be enabled (R185). -/
def outputRequested (now : Time) (ch : Channel) : Channel :=
  if ch.trigOut = true ∧ ch.anyTripped = true then ch else outputSet now ch.trigOut ch

/-- The events of the output request of a healthy channel. -/
def outputRequestEvents (c : Nat) (ch : Channel) : List Event :=
  if ch.trigOut = true ∧ ch.anyTripped = true then [.pushEvent (.error .tripped) c]
  else if ch.outEn = ch.trigOut then []
  else if ch.trigOut then onEvents c ch.range
  else offEvents c

/-- A channel of `S` once it has started: a list runs, a step is finished. -/
def triggerStarted (ip : Nat → Int) (s : State) (c : Nat) (ch : Channel) : Channel :=
  let requested := outputRequested s.pins.nowUs (levelsApplied ip s c ch)
  if ch.trigModeU = .list then
    { requested with
      cursor := ⟨-1, BitVec.ofNat 32 ch.list.count, 0, 0, s.pins.nowUs, s.pins.nowMs⟩, trigInProg := true }
  else { requested with trigInProg := false }

/-- The events of starting a channel of `S`: voltage, current, output. -/
def triggerEvents (ip : Nat → Int) (s : State) (c : Nat) (ch : Channel) : List Event :=
  levelEvents ip s c ch ++ outputRequestEvents c (levelsApplied ip s c ch)

theorem outputRequested_of_refused {ch : Channel} (h : ch.trigOut = true ∧ ch.anyTripped = true) (now : Time) :
    outputRequested now ch = ch := if_pos h

theorem outputRequested_of_granted {ch : Channel} (h : ¬(ch.trigOut = true ∧ ch.anyTripped = true))
    (now : Time) : outputRequested now ch = outputSet now ch.trigOut ch := if_neg h

theorem outputSet_inProgress (now : Time) (en : Bool) (ch : Channel) (b : Bool) :
    outputSet now en { ch with trigInProg := b } = { outputSet now en ch with trigInProg := b } := by
  by_cases h : ch.outEn = en
  · rw [outputSet_of_eq h, outputSet_of_eq (by exact h)]
  · cases en with
    | true =>
      have hoff : ch.outEn = false := Bool.eq_false_iff.mpr h
      rw [outputSet_on_of_off hoff, outputSet_on_of_off (by exact hoff)]; rfl
    | false =>
      have hon : ch.outEn = true := Bool.not_eq_false _ ▸ h
      rw [outputSet_off_of_on hon, outputSet_off_of_on (by exact hon)]; rfl

theorem outputRequested_inProgress (now : Time) (ch : Channel) (b : Bool) :
    outputRequested now { ch with trigInProg := b } = { outputRequested now ch with trigInProg := b } := by
  by_cases h : ch.trigOut = true ∧ ch.anyTripped = true
  · rw [outputRequested_of_refused h, outputRequested_of_refused (by exact h)]
  · rw [outputRequested_of_granted h, outputRequested_of_granted (by exact h)]
    exact outputSet_inProgress now ch.trigOut ch b

/-- The in-progress bit plays no part in a start. -/
theorem triggerStarted_inProgress (ip : Nat → Int) (s : State) (c : Nat) (ch : Channel) (b : Bool) :
    triggerStarted ip s c { ch with trigInProg := b } = triggerStarted ip s c ch := by
  have h : outputRequested s.pins.nowUs (levelsApplied ip s c { ch with trigInProg := b }) =
      { outputRequested s.pins.nowUs (levelsApplied ip s c ch) with trigInProg := b } :=
    outputRequested_inProgress _ (levelsApplied ip s c ch) b
  rw [triggerStarted, h]
  rfl

theorem applyLevels_eq {s : State} {c : Nat} (hc : c < s.nCh) (ip : Nat → Int) :
    applyCurrent (applyVoltage s c (triggerVolt s.cfg (s.chan c))) c (triggerCurr (ip c) (s.chan c)) =
      (s.upd c (levelsApplied ip s c)).emit (levelEvents ip s c (s.chan c)) := by
  rw [applyCurrent_eq _ _ _ (by simpa [applyVoltage_eq]), applyVoltage_eq, State.emit_upd, State.upd_upd,
    State.emit_emit, State.emit_chan, State.chan_upd_same hc]
  exact congrArg (State.emit · _) (State.upd_congr rfl)

/-- The output request of a healthy channel as one update and a list of events. -/
theorem triggerOutput_eq {s : State} {c : Nat} (hc : c < s.nCh) (hhealthy : (s.pin c).healthy = true) :
    triggerOutput s c =
      (s.upd c (outputRequested s.pins.nowUs)).emit (outputRequestEvents c (s.chan c)) := by
  have hrefusal := outputRefusal_of_healthy hhealthy (s.chan c).trigOut
  by_cases hrefused : (s.chan c).trigOut = true ∧ (s.chan c).anyTripped = true
  · have ⟨hon, htripped⟩ := hrefused
    rw [hon, htripped] at hrefusal
    rw [triggerOutput, outputRequestEvents, if_pos hrefused,
      State.upd_self (outputRequested_of_refused hrefused _), hon, hrefusal]
    rfl
  · have hgranted : outputRefusal s c (s.chan c).trigOut = .ok := by
      rw [hrefusal, if_neg (by rwa [Bool.and_eq_true])]
    rw [triggerOutput, outputRequestEvents, if_neg hrefused,
      State.upd_congr (outputRequested_of_granted hrefused _), if_pos hgranted, requestOutput,
      if_pos hgranted, setOutput_eq s c _ hc]

/-- Levels, then the output request, as one update and a list of events. -/
theorem applyLevels_triggerOutput_eq {s : State} {c : Nat} (hc : c < s.nCh)
    (hhealthy : (s.pin c).healthy = true) (ip : Nat → Int) :
    triggerOutput
        (applyCurrent (applyVoltage s c (triggerVolt s.cfg (s.chan c))) c (triggerCurr (ip c) (s.chan c))) c =
      (s.upd c fun ch => outputRequested s.pins.nowUs (levelsApplied ip s c ch)).emit
        (triggerEvents ip s c (s.chan c)) := by
  rw [applyLevels_eq hc, triggerOutput_eq (by simpa) (by exact hhealthy), State.emit_chan, State.chan_upd_same hc,
    State.emit_upd, State.upd_upd, State.emit_emit]
  rfl

/-- A channel of `S` that waits for its start: it exists, is healthy, and is marked in progress. -/
structure AwaitsStart (s : State) (c : Nat) : Prop where
  lt : c < s.nCh
  healthy : (s.pin c).healthy = true
  mode : (s.chan c).trigModeU ≠ .fixed
  inProgress : (s.chan c).trigInProg = true

/-- A channel's start before the trigger-finished hook looks at the sequence; `s0` gives the parameters and the
pins. -/
def beginChannel (ip : Nat → Int) (s0 s : State) (c : Nat) : State :=
  (s.upd c (triggerStarted ip s0 c)).emit (triggerEvents ip s0 c (s.chan c))

theorem outputRequested_trigInProg (now : Time) (ch : Channel) :
    (outputRequested now ch).trigInProg = ch.trigInProg := by
  unfold outputRequested outputSet
  split_ifs <;> rfl

theorem outputRequested_list (now : Time) (ch : Channel) : (outputRequested now ch).list = ch.list := by
  unfold outputRequested
  split
  · rfl
  · exact outputSet_list ..

/-- A list channel marked in progress is started by its cursor. -/
theorem triggerStarted_of_list {ch : Channel} (hmode : ch.trigModeU = .list) (hprog : ch.trigInProg = true)
    (ip : Nat → Int) (s : State) (c : Nat) :
    triggerStarted ip s c ch =
      let requested := outputRequested s.pins.nowUs (levelsApplied ip s c ch)
      { requested with
        cursor := ⟨-1, BitVec.ofNat 32 requested.list.count, 0, 0, s.pins.nowUs, s.pins.nowMs⟩ } := by
  have hlist := outputRequested_list s.pins.nowUs (levelsApplied ip s c ch)
  have hmarked := (outputRequested_trigInProg s.pins.nowUs (levelsApplied ip s c ch)).trans hprog
  rw [triggerStarted, if_pos hmode]
  dsimp only
  rw [hlist, hmarked]
  rfl

theorem triggerStarted_of_step {ch : Channel} (hmode : ch.trigModeU = .step) (ip : Nat → Int) (s : State)
    (c : Nat) :
    triggerStarted ip s c ch =
      { outputRequested s.pins.nowUs (levelsApplied ip s c ch) with trigInProg := false } :=
  if_neg (by rw [hmode]; decide)

/-- A start is `beginChannel`, then the end of the sequence if none is in progress any more. A list stays in
progress, so for it nothing ends. -/
theorem startChannel_eq {s : State} {c : Nat} (h : AwaitsStart s c) (ip : Nat → Int) :
    startChannel ip s c = (beginChannel ip s s c).sequenceEnded := by
  obtain ⟨hc, hhealthy, hmode, hprog⟩ := h
  have hlevels := applyLevels_triggerOutput_eq hc hhealthy ip
  cases hm : (s.chan c).trigModeU with
  | fixed => exact absurd hm hmode
  | list =>
    have hstart : startChannel ip s c = beginChannel ip s s c := by
      simp only [triggerVolt, triggerCurr, hm] at hlevels
      simp only [startChannel, hm]
      rw [startList, hlevels, listStart, State.emit_upd, State.upd_upd]
      exact congrArg (State.emit · _) (State.upd_congr (triggerStarted_of_list hm hprog ip s c).symm)
    have hrunning : ((beginChannel ip s s c).chan c).trigInProg = true := by
      rw [beginChannel, State.emit_chan, State.chan_upd_same hc, triggerStarted, if_pos hm]
    rw [hstart, State.sequenceEnded_of_inProgress (by simpa [beginChannel]) hrunning]
  | step =>
    simp only [triggerVolt, triggerCurr, hm] at hlevels
    simp only [startChannel, hm]
    rw [startStep, hlevels, triggerFinished_eq, State.emit_upd, State.upd_upd]
    exact congrArg (fun t => (State.emit t _).sequenceEnded)
      (State.upd_congr (triggerStarted_of_step hm ip s c).symm)

/-! ### Starting all channels of `S` (R262) -/

theorem State.map_chan_range (s : State) : (List.range s.nCh).map s.chan = s.chans := by
  refine List.ext_getElem (by simp [State.nCh]) fun c _ hc => ?_
  rw [List.getElem_map, List.getElem_range, State.chan_eq_getElem hc]

/-- Updates of distinct channels, each emitting its own events, as one pass over the channels: none of them
touches what another reads. -/
theorem foldl_upd_emit (f : Nat → Channel → Channel) (e : Nat → Channel → List Event) (l : List Nat)
    (hnodup : l.Nodup) (s : State) (hlt : ∀ c ∈ l, c < s.nCh) :
    l.foldl (fun s c => (s.upd c (f c)).emit (e c (s.chan c))) s =
      { s with
        chans := (List.range s.nCh).map fun c => if c ∈ l then f c (s.chan c) else s.chan c
        events := s.events ++ l.flatMap fun c => e c (s.chan c) } := by
  induction l generalizing s with
  | nil => simp [State.map_chan_range]
  | cons c l ih =>
    obtain ⟨hfresh, hnodup⟩ := List.nodup_cons.mp hnodup
    have hc : c < s.nCh := hlt c List.mem_cons_self
    have hne {c' : Nat} (h : c' ∈ l) : c ≠ c' := by rintro rfl; exact hfresh h
    let s1 := (s.upd c (f c)).emit (e c (s.chan c))
    have hn : s1.nCh = s.nCh := State.upd_nCh ..
    have hsame : s1.chan c = f c (s.chan c) := State.chan_upd_same hc _
    have hother {c' : Nat} (h : c ≠ c') : s1.chan c' = s.chan c' := State.chan_upd_ne h _
    have hchans : ((List.range s.nCh).map fun c' => if c' ∈ l then f c' (s1.chan c') else s1.chan c') =
        (List.range s.nCh).map fun c' => if c' ∈ c :: l then f c' (s.chan c') else s.chan c' := by
      refine List.map_congr_left fun c' _ => ?_
      by_cases h : c = c'
      · subst h; rw [if_neg hfresh, if_pos List.mem_cons_self, hsame]
      · simp only [hother h, List.mem_cons, Ne.symm h, false_or]
    have hevents : (l.flatMap fun c' => e c' (s1.chan c')) = l.flatMap fun c' => e c' (s.chan c') :=
      List.flatMap_congr fun c' h => by rw [hother (hne h)]
    have hrest := ih hnodup s1 fun c' h => by rw [hn]; exact hlt c' (List.mem_cons_of_mem _ h)
    rw [hn, hchans, hevents] at hrest
    rw [List.foldl_cons, List.flatMap_cons, ← List.append_assoc]
    exact hrest

/-- Of the state that execution starts from, a start reads the parameters and the pins alone. -/
theorem beginChannel_congr {s0 s1 : State} (hcfg : s1.cfg = s0.cfg) (hpins : s1.pins = s0.pins)
    (ip : Nat → Int) (s : State) (c : Nat) : beginChannel ip s1 s c = beginChannel ip s0 s c := by
  have hlevels : levelsApplied ip s1 c = levelsApplied ip s0 c := by
    funext ch
    simp only [levelsApplied, State.pin, hcfg, hpins]
  have hstarted : triggerStarted ip s1 c = triggerStarted ip s0 c := by
    funext ch
    simp only [triggerStarted, hlevels, hpins]
  have hevents : triggerEvents ip s1 c = triggerEvents ip s0 c := by
    funext ch
    simp only [triggerEvents, levelEvents, State.pin, hlevels, hcfg, hpins]
  rw [beginChannel, hstarted, hevents]
  rfl

theorem beginChannel_awaits {s0 s : State} {c c' : Nat} (hne : c ≠ c') (h : AwaitsStart s c') (ip : Nat → Int) :
    AwaitsStart (beginChannel ip s0 s c) c' := by
  have hchan : (beginChannel ip s0 s c).chan c' = s.chan c' := State.chan_upd_ne hne _
  exact ⟨by simpa [beginChannel] using h.lt, h.healthy, hchan ▸ h.mode, hchan ▸ h.inProgress⟩

/-- While a channel waits for its start no start before it ends the sequence, so only the last one can. -/
theorem startAll_eq (ip : Nat → Int) (s0 : State) (l : List Nat) (hne : l ≠ []) (hnodup : l.Nodup) (s : State)
    (hcfg : s.cfg = s0.cfg) (hpins : s.pins = s0.pins) (hawaits : ∀ c ∈ l, AwaitsStart s c) :
    l.foldl (startChannel ip) s = (l.foldl (beginChannel ip s0) s).sequenceEnded := by
  induction l generalizing s with
  | nil => exact absurd rfl hne
  | cons c l ih =>
    obtain ⟨hfresh, hnodup⟩ := List.nodup_cons.mp hnodup
    have hstart : startChannel ip s c = (beginChannel ip s0 s c).sequenceEnded := by
      rw [startChannel_eq (hawaits c List.mem_cons_self), beginChannel_congr hcfg hpins]
    rw [List.foldl_cons, List.foldl_cons, hstart]
    cases l with
    | nil => rfl
    | cons d l =>
      have hrest (c' : Nat) (h : c' ∈ d :: l) : AwaitsStart (beginChannel ip s0 s c) c' :=
        beginChannel_awaits (by rintro rfl; exact hfresh h) (hawaits c' (List.mem_cons_of_mem _ h)) ip
      have hd := hrest d List.mem_cons_self
      rw [State.sequenceEnded_of_inProgress hd.lt hd.inProgress]
      exact ih (List.cons_ne_nil _ _) hnodup _ hcfg hpins hrest

/-! ### The execution (R262) -/

theorem triggered_eq (s : State) :
    triggered s = (List.range s.nCh).filter fun c =>
      (s.pin c).healthy && (decide (s.pins.coupling = .none) || !(s.pin c).follower) &&
        decide ((s.chan c).trigModeU ≠ .fixed) := by
  rw [triggered, participants, List.filter_filter]
  exact List.filter_congr fun c _ => by rw [takesPart_eq, Bool.and_comm]

theorem markInProgress_eq (s : State) (l : List Nat) (hnodup : l.Nodup) (hlt : ∀ c ∈ l, c < s.nCh) :
    markInProgress s l =
      { s with
        chans := (List.range s.nCh).map fun c =>
          if c ∈ l then { s.chan c with trigInProg := true } else s.chan c } := by
  have h := foldl_upd_emit (fun _ ch => { ch with trigInProg := true }) (fun _ _ => []) l hnodup s hlt
  have hnone : (l.flatMap fun _ => ([] : List Event)) = [] := List.flatMap_eq_nil_iff.mpr fun _ _ => rfl
  rw [hnone, List.append_nil] at h
  simp only [State.emit_nil] at h
  exact h

theorem mem_triggered (s : State) (c : Nat) :
    c ∈ triggered s ↔ c ∈ participants s ∧ (s.chan c).trigModeU ≠ .fixed := by
  rw [triggered, List.mem_filter, decide_eq_true_eq]

/-- A passed check found a channel of `S`. -/
theorem triggered_ne_nil {ip : Nat → Int} {s : State} (h : checkTrigger ip s = .ok) : triggered s ≠ [] := by
  rw [checkTrigger_of_no_fault (checkTrigger_ok h)] at h
  split at h
  next hexists =>
    obtain ⟨c, hc, hmode⟩ := hexists
    exact List.ne_nil_of_mem ((mem_triggered s c).mpr ⟨hc, hmode⟩)
  next => cases h

/-- The state whose channels start: `Executing`, with the channels of `S` marked in progress. -/
def markedState (s : State) : State := markInProgress { s with trigState := .executing } (triggered s)

theorem markedState_eq (s : State) :
    markedState s =
      { s with
        chans := (List.range s.nCh).map fun c =>
          if c ∈ triggered s then { s.chan c with trigInProg := true } else s.chan c
        trigState := .executing } :=
  markInProgress_eq _ _ (triggered_nodup s) fun _ h => triggered_lt h

theorem markedState_nCh (s : State) : (markedState s).nCh = s.nCh := by
  rw [markedState_eq, State.nCh, List.length_map, List.length_range]

theorem markedState_chan {s : State} {c : Nat} (hc : c < s.nCh) :
    (markedState s).chan c =
      if c ∈ triggered s then { s.chan c with trigInProg := true } else s.chan c := by
  rw [markedState_eq, State.chan]
  dsimp only
  rw [List.getElem?_map, List.getElem?_range hc]
  rfl

theorem markedState_awaits {s : State} {c : Nat} (h : c ∈ triggered s) : AwaitsStart (markedState s) c := by
  have hc : c < s.nCh := triggered_lt h
  obtain ⟨hpart, hmode⟩ := (mem_triggered s c).mp h
  obtain ⟨-, hhealthy, -⟩ := (mem_participants s c).mp hpart
  have hchan : (markedState s).chan c = { s.chan c with trigInProg := true } := by
    rw [markedState_chan hc, if_pos h]
  refine ⟨by rwa [markedState_nCh], ?_, ?_, ?_⟩
  · rw [markedState_eq]; exact hhealthy
  · rw [hchan]; exact hmode
  · rw [hchan]

/-- The channels that an execution leaves. -/
def executedChans (ip : Nat → Int) (s : State) : List Channel :=
  (List.range s.nCh).map fun c => if c ∈ triggered s then triggerStarted ip s c (s.chan c) else s.chan c

/-- The marks play no part in the starts. -/
theorem beginAll_eq (ip : Nat → Int) (s : State) :
    (triggered s).foldl (beginChannel ip s) (markedState s) =
      { s with
        chans := executedChans ip s
        trigState := .executing
        events := s.events ++ (triggered s).flatMap fun c => triggerEvents ip s c (s.chan c) } := by
  have hchans : ((List.range s.nCh).map fun c =>
      if c ∈ triggered s then triggerStarted ip s c ((markedState s).chan c) else (markedState s).chan c) =
        executedChans ip s := by
    refine List.map_congr_left fun c hc => ?_
    rw [markedState_chan (List.mem_range.mp hc)]
    by_cases h : c ∈ triggered s
    · rw [if_pos h, if_pos h, if_pos h, triggerStarted_inProgress]
    · rw [if_neg h, if_neg h, if_neg h]
  have hevents : ((triggered s).flatMap fun c => triggerEvents ip s c ((markedState s).chan c)) =
      (triggered s).flatMap fun c => triggerEvents ip s c (s.chan c) := by
    refine List.flatMap_congr fun c h => ?_
    rw [markedState_chan (triggered_lt h), if_pos h]
    rfl
  have hall := foldl_upd_emit (triggerStarted ip s) (triggerEvents ip s) (triggered s) (triggered_nodup s)
    (markedState s) fun c h => (markedState_awaits h).lt
  rw [markedState_nCh, hchans, hevents] at hall
  refine Eq.trans hall ?_
  rw [markedState_eq]

theorem State.sequenceEnded_of_executing {s : State} (h : s.trigState = .executing) :
    s.sequenceEnded =
      { s with
        trigState :=
          if s.chans.any Channel.trigInProg then .executing else if s.trigCont then .initiated else .idle } := by
  rw [State.sequenceEnded, ← List.not_any_eq_all_not]
  cases s.chans.any Channel.trigInProg with
  | true => rw [if_neg (by simp), if_pos rfl, ← h]
  | false => rw [if_pos ⟨h, rfl⟩, if_neg Bool.false_ne_true]

theorem startImmediately_of_fail {ip : Nat → Int} {s : State} (h : checkTrigger ip s ≠ .ok) :
    startImmediately ip s = triggerAbort (s.emit [.pushEvent (.error (checkTrigger ip s)) 0]) := if_neg h

/-- An execution as one write of the state: the starts, and the end of the sequence after the last. -/
theorem startImmediately_of_pass {ip : Nat → Int} {s : State} (h : checkTrigger ip s = .ok) :
    startImmediately ip s =
      { s with
        chans := executedChans ip s
        trigState :=
          if (executedChans ip s).any Channel.trigInProg then .executing
          else if s.trigCont then .initiated else .idle
        events := s.events ++ (triggered s).flatMap fun c => triggerEvents ip s c (s.chan c) } := by
  have hcfg : (markedState s).cfg = s.cfg := by rw [markedState_eq]
  have hpins : (markedState s).pins = s.pins := by rw [markedState_eq]
  calc startImmediately ip s = (triggered s).foldl (startChannel ip) (markedState s) := if_pos h
    _ = ((triggered s).foldl (beginChannel ip s) (markedState s)).sequenceEnded :=
      startAll_eq ip s _ (triggered_ne_nil h) (triggered_nodup s) _ hcfg hpins fun _ => markedState_awaits
    _ = _ := by rw [beginAll_eq, State.sequenceEnded_of_executing rfl]

/-- Settles O41: a failed check is an abort; a passed one starts the channels of `S`, which is the filter that
the statement writes out, each by its levels and its output request. -/
theorem triggerExecutionRule : Obligations.TriggerExecutionRule := by
  intro ip s now inS applied requested final emitted after
  have hS : triggered s = (List.range s.nCh).filter inS := triggered_eq s
  have hfinal (c : Nat) : triggerStarted ip s c (s.chan c) = final c := rfl
  have hemitted (c : Nat) : triggerEvents ip s c (s.chan c) = emitted c := rfl
  have hafter : executedChans ip s = after := by
    refine List.map_congr_left fun c hc => ?_
    simp only [hS, List.mem_filter, hc, true_and, hfinal]
  refine ⟨fun hfail => ?_, fun hpass => ?_, fun ch => ⟨fun hlist => ?_, fun hstep => ?_⟩⟩
  · rw [startImmediately_of_fail hfail, triggerAbort_eq]
    rfl
  · rw [startImmediately_of_pass hpass, hafter, hS]
    simp only [hemitted]
  · rw [triggerVolt, hlist]
    exact ⟨rfl, fun p => by rw [triggerCurr, hlist]⟩
  · rw [triggerVolt, hstep]
    exact ⟨rfl, fun p => by rw [triggerCurr, hstep]⟩

end Sys2Proof.Machine

/-! ## The rules of `47_list.md`: the cursors, the list commands, the per-tick advance -/

namespace Sys2Proof.Machine

open Sys2Proof

/-! ### What leaves the cursor of a channel alone (R37) -/

@[simp] theorem Channel.setRecord_cursor (ch : Channel) (q : Quantity) (f : ValueRec → ValueRec) :
    (ch.setRecord q f).cursor = ch.cursor := by cases q <;> rfl

@[simp] theorem Channel.takeSnapshot_cursor (ch : Channel) (q : Quantity) :
    (ch.takeSnapshot q).cursor = ch.cursor := by
  unfold Channel.takeSnapshot
  split
  · rfl
  · cases q <;> rfl

@[simp] theorem Channel.takeSample_cursor (cfg : Params) (p : Int) (ch : Channel) (r : AdcInput) (code : Val) :
    (ch.takeSample cfg p r code).cursor = ch.cursor := by cases r <;> rfl

@[simp] theorem rprogDropped_cursor (ch : Channel) : (rprogDropped ch).cursor = ch.cursor := by
  unfold rprogDropped
  split <;> rfl

/-- The per-channel part of a tick moves no cursor. -/
theorem ScanMove.cursor_eq {cfg : Params} {a b : Channel} (h : ScanMove cfg a b) : b.cursor = a.cursor := by
  cases h with
  | sample => exact Channel.takeSample_cursor ..
  | snapshot => exact Channel.takeSnapshot_cursor ..
  | dropRprog => exact rprogDropped_cursor a
  | _ => rfl

/-! ### A cursor at rest or inside its list (R37, R300) -/

section
variable {cfg : Params} {a b : Channel}

theorem Channel.active_iff (ch : Channel) : ch.active = true ↔ 0 ≤ ch.cursor.counter.toInt :=
  decide_eq_true_iff

theorem Channel.active_eq_false_iff (ch : Channel) : ch.active = false ↔ ch.cursor.counter.toInt < 0 := by
  rw [← Bool.not_eq_true, Channel.active_iff, not_le]

/-- The condition depends on the list program and on the cursor's index and counter. -/
theorem Channel.cursorOk_of_eq (hlist : b.list = a.list) (hit : b.cursor.it = a.cursor.it)
    (hcounter : b.cursor.counter = a.cursor.counter) (ha : a.cursorOk cfg) : b.cursorOk cfg := by
  unfold Channel.cursorOk Channel.lengthsOk Channel.iterLen at *
  rw [hlist, hit, hcounter]
  exact ha

/-- An inactive cursor that is as it must be is at rest. -/
theorem Channel.cursorOk.rest_of_inactive (ha : a.cursorOk cfg) (h : a.active = false) :
    a.cursor.it = -1 ∧ a.cursor.counter.toInt = -1 := by
  obtain ⟨-, -, hrest | ⟨-, -, -, hpass, -⟩⟩ := ha
  · exact hrest
  · rw [Channel.active_eq_false_iff] at h
    omega

/-- A cursor at rest is as it must be on every list with an admissible count. -/
theorem Channel.cursorOk_of_rest (hcount : 1 ≤ b.list.count ∧ b.list.count ≤ cfg.countMax)
    (hrest : b.cursor.it = -1 ∧ b.cursor.counter.toInt = -1) : b.cursorOk cfg :=
  ⟨hcount.1, hcount.2, .inl hrest⟩

theorem Channel.iterLen_pos {ch : Channel} (h : ch.lengthsOk = true) : 0 < ch.iterLen := by
  simp only [Channel.lengthsOk, compat2, Bool.and_eq_true, decide_eq_true_eq] at h
  obtain ⟨⟨⟨⟨hdwell, -⟩, -⟩, -⟩, -⟩ := h
  exact (Nat.pos_of_ne_zero hdwell).trans_le (Nat.le_max_left ..)

theorem Channel.nextIndex_lt {ch : Channel} (h : ch.lengthsOk = true) : ch.nextIndex < ch.iterLen :=
  Nat.mod_lt _ (Channel.iterLen_pos h)

/-- A repeat count that fits the counter is what the counter reads. -/
theorem toInt_ofNat_of_le {n : Nat} (h : n ≤ 2147483647) : (BitVec.ofNat 32 n).toInt = n := by
  rw [BitVec.toInt_eq_toNat_bmod, BitVec.toNat_ofNat, Int.bmod_def]
  omega

/-- A started cursor stands before the first point, with all its passes to go. -/
theorem Channel.cursorOk_started (hmax : cfg.countMax ≤ 2147483647) (ha : a.cursorOk cfg)
    (hlen : a.lengthsOk = true) (us ms : Time) :
    { a with cursor := ⟨-1, BitVec.ofNat 32 a.list.count, 0, 0, us, ms⟩ : Channel }.cursorOk cfg := by
  obtain ⟨hone, hcount, -⟩ := ha
  have hcounter : (BitVec.ofNat 32 a.list.count).toInt = a.list.count :=
    toInt_ofNat_of_le (hcount.trans hmax)
  refine ⟨hone, hcount, .inr ⟨hlen, le_refl (-1), ?_, ?_, ?_⟩⟩
  · exact (by decide : (-1 : Int) < 0).trans_le (Int.natCast_nonneg _)
  · exact hcounter ▸ Int.ofNat_le.mpr hone
  · exact hcounter.le

/-- One pass less, while some are left. -/
theorem toInt_sub_one {x : BitVec 32} (hpos : 1 ≤ x.toInt) : (x - 1).toInt = x.toInt - 1 := by
  have hlt : x.toInt < 2147483648 := BitVec.toInt_lt
  rw [BitVec.toInt_sub, show (1 : BitVec 32).toInt = 1 from rfl, Int.bmod_def]
  omega

/-- The next point of a running list is inside it, and a counted pass leaves at least one. -/
theorem Channel.cursorOk_point (ha : a.cursorOk cfg) (hactive : a.active = true) {count : BitVec 32}
    (hpass : count = a.cursor.counter ∨ count = a.cursor.counter - 1 ∧ count ≠ 0) (next : Time)
    (d : BitVec 32) :
    { a with
      cursor :=
        { a.cursor with it := (a.nextIndex : Int), counter := count, dwell := d, next := next } :
      Channel }.cursorOk cfg := by
  rw [Channel.active_iff] at hactive
  obtain ⟨hone, hcount, ⟨-, hrest⟩ | ⟨hlen, -, -, hleast, hmost⟩⟩ := ha
  · omega
  have hleft : 1 ≤ count.toInt ∧ count.toInt ≤ a.list.count := by
    obtain rfl | ⟨rfl, hne⟩ := hpass
    · exact ⟨hleast, hmost⟩
    · have hne' : (a.cursor.counter - 1).toInt ≠ 0 := fun h => hne (BitVec.eq_of_toInt_eq h)
      rw [toInt_sub_one hleast] at hne' ⊢
      omega
  refine ⟨hone, hcount, .inr ⟨hlen, ?_, ?_, hleft⟩⟩
  · exact (by decide : (-1 : Int) ≤ 0).trans (Int.natCast_nonneg _)
  · exact Int.ofNat_lt.mpr (Channel.nextIndex_lt hlen)

/-- The per-channel part of a tick writes neither list nor cursor. -/
theorem ScanMove.cursorOk (h : ScanMove cfg a b) : a.cursorOk cfg → b.cursorOk cfg :=
  Channel.cursorOk_of_eq h.list_eq (congrArg _ h.cursor_eq) (congrArg _ h.cursor_eq)

/-- The trigger and list steps start, advance, stamp or stop a cursor. -/
theorem RunMove.cursorOk (h : RunMove cfg a b) (hmax : cfg.countMax ≤ 2147483647) (ha : a.cursorOk cfg) :
    b.cursorOk cfg := by
  cases h with
  | start us ms hlen => exact Channel.cursorOk_started hmax ha hlen us ms
  | stop => exact Channel.cursorOk_of_rest ⟨ha.1, ha.2.1⟩ ⟨rfl, rfl⟩
  | point count d next hactive hpass => exact Channel.cursorOk_point ha hactive hpass next d
  | _ => exact Channel.cursorOk_of_eq rfl rfl rfl ha

/-- A command rewrites lengths or count only under a cursor at rest (R283, R285), and only `LSTART` starts one. -/
theorem CmdMove.cursorOk {c : Nat} {i : Instr} (h : CmdMove cfg c i a b)
    (hmax : cfg.countMax ≤ 2147483647) (ha : a.cursorOk cfg) : b.cursorOk cfg := by
  have ⟨hone, hcount, _⟩ := ha
  cases h with
  | llen _ _ _ hidle => exact Channel.cursorOk_of_rest ⟨hone, hcount⟩ (ha.rest_of_inactive hidle)
  | lset _ _ _ _ hidle => exact Channel.cursorOk_of_rest ⟨hone, hcount⟩ (ha.rest_of_inactive hidle)
  | lcount _ _ hidle hleast hmost => exact Channel.cursorOk_of_rest ⟨hleast, hmost⟩ (ha.rest_of_inactive hidle)
  | lstart _ us ms hlen => exact Channel.cursorOk_started hmax ha hlen us ms
  | lsaved => exact ha
  | fadd | faddr | frst => exact Channel.cursorOk_of_eq (by simp) (by simp) (by simp) ha
  | _ => exact Channel.cursorOk_of_eq rfl rfl rfl ha

end

/-- Settles O58: every move keeps the condition on each channel, for parameters that no step writes. -/
theorem everyStepKeepsTheCursors : Obligations.EveryStepKeepsTheCursors := by
  rintro s t ⟨hmax, hs⟩ hstep
  obtain ⟨hcfg, ht⟩ := step_all (P := fun cfg ch => cfg.countMax ≤ 2147483647 → ch.cursorOk cfg)
    (fun _ _ _ _ _ h ha hmax => h.cursorOk hmax (ha hmax)) (fun _ _ _ h ha hmax => h.cursorOk (ha hmax))
    (fun _ _ _ h ha hmax => h.cursorOk hmax (ha hmax)) hstep fun ch hch _ => hs ch hch
  exact ⟨hcfg ▸ hmax, fun ch hch => hcfg ▸ ht ch hch hmax⟩

/-! ### `LLEN`, `LCOUNT` and `LSAVED` (R283, R285, R287) -/

theorem execLlen_of_lt {s : State} {c : Nat} (hc : c < s.nCh) (a : ListArray) (n : Nat) :
    execLlen c a n s =
      require (!(s.chan c).active) .busy s.begin
        (require (decide (n ≤ s.cfg.listMax)) .range s.begin
          (.next (s.done c
            { s.chan c with
              list := { (s.chan c).list with
                len := (s.chan c).list.len.modify a fun _ => n, changed := true } } 0 []))) := by
  rw [execLlen, onChannel_of_lt hc, State.begin_upd_done hc, State.begin_cfg]

theorem execLcount_of_lt {s : State} {c : Nat} (hc : c < s.nCh) (n : Nat) :
    execLcount c n s =
      require (!(s.chan c).active) .busy s.begin
        (require (decide (n ≠ 0 ∧ n ≤ s.cfg.countMax)) .range s.begin
          (.next (s.done c
            { s.chan c with list := { (s.chan c).list with count := n, changed := true } } 0 []))) := by
  rw [execLcount, onChannel_of_lt hc, State.begin_upd_done hc, State.begin_cfg, Bool.decide_and]

theorem execLsaved_of_lt {s : State} {c : Nat} (hc : c < s.nCh) :
    execLsaved c s =
      .next (s.done c { s.chan c with list := { (s.chan c).list with changed := false } } 0 []) := by
  rw [execLsaved, onChannel_of_lt hc, State.begin_upd_done hc]

/-- Settles O43: the cursor and the range decide between the two refusals and the one write. -/
theorem listSettingsComplete : Obligations.ListSettingsComplete := by
  intro s c a n hc ch fails
  have llen : exec (.llen c a n) s = execLlen c a n s := rfl
  have lcount : exec (.lcount c n) s = execLcount c n s := rfl
  have lsaved : exec (.lsaved c) s = execLsaved c s := rfl
  rw [llen, lcount, lsaved, execLlen_of_lt hc, execLcount_of_lt hc]
  refine ⟨fun hrun => ?_, fun hidle => ⟨fun hout => ?_, fun hin => ?_, fun hout => ?_, fun hpos hin => ?_⟩,
    execLsaved_of_lt hc⟩
  · rw [(Channel.active_iff _).mpr hrun]
    exact ⟨rfl, rfl⟩
  all_goals rw [(Channel.active_eq_false_iff _).mpr hidle, Bool.not_false, require_true]
  · rw [decide_eq_false hout.not_ge]; rfl
  · rw [decide_eq_true hin]; rfl
  · rw [decide_eq_false (by omega)]; rfl
  · rw [decide_eq_true ⟨Nat.pos_iff_ne_zero.mp hpos, hin⟩]; rfl

/-! ### `LSET` and `LGET` (R284, R286) -/

theorem execLset_of_lt {s : State} {c : Nat} (hc : c < s.nCh) (a : ListArray) (k : Nat) (v : Int) :
    execLset c a k v s =
      let written := (s.chan c).listWrite a k (BitVec.ofInt 32 v)
      require (!(s.chan c).active) .busy s.begin
        (require (decide (k < (s.chan c).list.len.get a)) .range s.begin
          (require (elemInBounds (s.chan c).board a v) .range s.begin
            (.next (s.done c { written with list := { written.list with changed := true } } 0 [])))) := by
  rw [execLset, onChannel_of_lt hc, State.begin_upd_done hc]

theorem execLget_of_lt {s : State} {c : Nat} (hc : c < s.nCh) (a : ListArray) (k : Nat) :
    execLget c a k s =
      require (decide (k < (s.chan c).list.len.get a)) .range s.begin
        (.next (s.begin.answer ((s.chan c).listRead a k))) := by
  rw [execLget, onChannel_of_lt hc]

/-- Settles O44: the three checks of `LSET` refuse one after the other; past them the laws of the list memory say
what the write does. -/
theorem listElementCommandsComplete : Obligations.ListElementCommandsComplete := by
  intro s c a k v hc hwf ch fails visible fits
  have lset : exec (.lset c a k v) s = execLset c a k v s := rfl
  have lget : exec (.lget c a k) s = execLget c a k s := rfl
  have hfits : elemInBounds ch.board a v = true ↔ fits := by
    cases a with
    | dwell => exact iff_of_true rfl trivial
    | volt | curr => exact (Bool.and_eq_true ..).to_iff.trans (and_congr decide_eq_true_iff decide_eq_true_iff)
  rw [lset, lget, execLset_of_lt hc, execLget_of_lt hc]
  dsimp only
  refine ⟨fun hrun => ?_, fun hidle hout => ?_, fun hidle hvis hin => ?_, fun hvis => ?_, fun hvis => ?_⟩
  · rw [(Channel.active_iff _).mpr hrun]; rfl
  · rw [(Channel.active_eq_false_iff _).mpr hidle, Bool.not_false, require_true]
    by_cases hvis : visible
    · have hno : elemInBounds ch.board a v = false :=
        Bool.eq_false_iff.mpr fun h => hout ⟨hvis, hfits.mp h⟩
      rw [decide_eq_true hvis, require_true, hno]; rfl
    · rw [decide_eq_false hvis]; rfl
  · rw [(Channel.active_eq_false_iff _).mpr hidle, Bool.not_false, require_true, decide_eq_true hvis,
      require_true, hfits.mpr hin, require_true]
    exact ⟨(ch.listWrite a k (BitVec.ofInt 32 v)).list.mem, rfl, listWrite_read_same ch a k _ hwf,
      fun a' k' hne => listWrite_read_ne ch a a' k k' _ hne⟩
  · rw [decide_eq_false hvis]; rfl
  · rw [decide_eq_true hvis]; rfl

/-! ### `LSTART`, and which lengths are compatible (R288, R290) -/

theorem execLstart_of_ready {s : State} {c : Nat} (h : s.ready c) :
    execLstart c s =
      require (!(s.chan c).active) .busy s.begin
        (require (s.chan c).lengthsOk .listLengths s.begin
          (.next (s.done c
            { s.chan c with
              cursor := ⟨-1, BitVec.ofNat 32 (s.chan c).list.count, 0, 0, s.pins.nowUs, s.pins.nowMs⟩ }
            0 []))) := by
  rw [execLstart, onChannel_of_ready h, listStart, State.begin_upd_done h.lt, State.begin_pins]

theorem compat2_iff (x y : Nat) : compat2 x y = true ↔ x ≠ 0 ∧ y ≠ 0 ∧ (x = y ∨ x = 1 ∨ y = 1) := by
  simp only [compat2, Bool.and_eq_true, Bool.or_eq_true, decide_eq_true_eq, and_assoc, or_assoc]

/-- Three lengths are compatible in pairs exactly when each is 1 or the longest of them. -/
theorem lengthsOk_iff (ch : Channel) :
    ch.lengthsOk = true ↔
      ∀ a, ch.list.len.get a ≠ 0 ∧ (ch.list.len.get a = 1 ∨ ch.list.len.get a = ch.iterLen) := by
  have hall (P : ListArray → Prop) : (∀ a, P a) ↔ P .dwell ∧ P .volt ∧ P .curr :=
    ⟨fun h => ⟨h _, h _, h _⟩, fun ⟨hd, hv, hc⟩ a => by cases a <;> assumption⟩
  rw [hall]
  simp only [Channel.lengthsOk, Channel.iterLen, Bool.and_eq_true, compat2_iff, PerArray.get]
  omega

/-- Settles O45: the cursor and the lengths decide between the two refusals and the start. -/
theorem listStartCompletes : Obligations.ListStartCompletes := by
  refine ⟨?_, lengthsOk_iff, fun ch => ⟨?_, fun h => ?_⟩⟩
  · intro s c hready ch
    have lstart : exec (.lstart c) s = execLstart c s := rfl
    rw [lstart, execLstart_of_ready hready]
    refine ⟨fun hrun => ?_, fun hidle hlen => ?_, fun hidle hlen => ?_⟩
    · rw [(Channel.active_iff _).mpr hrun]; rfl
    · rw [(Channel.active_eq_false_iff _).mpr hidle, hlen]; rfl
    · rw [(Channel.active_eq_false_iff _).mpr hidle, hlen]; rfl
  · rintro (h | h | h) <;> rw [Channel.lengthsOk, h] <;> rfl
  · rw [Channel.lengthsOk, h]; rfl

/-! ### The branches of the per-tick advance (R291 to R293) -/

theorem listTick_of_inactive {s : State} {c : Nat} (h : (s.chan c).active = false) (ip : Nat → Int) :
    listTick ip s c = s := by
  rw [listTick, h]; rfl

theorem listTick_of_unhealthy {s : State} {c : Nat} (h : (s.chan c).active = true)
    (hhealthy : (s.pin c).healthy = false) (ip : Nat → Int) :
    listTick ip s c = triggerAbort (s.emit [.pushEvent (.error .health) c]) := by
  rw [listTick, h, hhealthy]; rfl

theorem listTick_of_tripped {s : State} {c : Nat} (h : (s.chan c).active = true)
    (hhealthy : (s.pin c).healthy = true) (htripped : (s.chan c).anyTripped = true) (ip : Nat → Int) :
    listTick ip s c = triggerAbort s := by
  rw [listTick, h, hhealthy, htripped]; rfl

/-- A cursor that runs: active, on a healthy channel with no kind tripped. -/
structure CursorRuns (s : State) (c : Nat) : Prop where
  active : (s.chan c).active = true
  healthy : (s.pin c).healthy = true
  clear : (s.chan c).anyTripped = false

theorem listTick_of_inhibited {s : State} {c : Nat} (h : CursorRuns s c) (hinhibit : s.pins.inhibit = true)
    (ip : Nat → Int) : listTick ip s c = listFreeze s c := by
  rw [listTick, h.active, h.healthy, h.clear, hinhibit]; rfl

theorem listTick_of_runs {s : State} {c : Nat} (h : CursorRuns s c) (hinhibit : s.pins.inhibit = false)
    (ip : Nat → Int) :
    listTick ip s c = if pointDue s c then listAdvance ip s c else stampCursor s c := by
  rw [listTick, h.active, h.healthy, h.clear, hinhibit]; rfl

theorem stampCursor_eq {s : State} {c : Nat} (hc : c < s.nCh) :
    stampCursor s c =
      { s with
        chans := s.chans.set c
          { s.chan c with
            cursor := { (s.chan c).cursor with lastUs := s.pins.nowUs, lastMs := s.pins.nowMs } } } :=
  State.upd_eq_set hc _

theorem onMsClock_iff (s : State) (c : Nat) :
    onMsClock s c = true ↔ s.cfg.shortDwellThr < (s.chan c).cursor.dwell.toNat := decide_eq_true_iff

/-- The deadline that the inhibited tick leaves: that of a started cursor is moved on by the time since its last
stamp, on the clock of its dwell (R293). -/
theorem shift_next (k : Cursor) (ms : Bool) (nowUs nowMs : Time) :
    k.shift ms nowUs nowMs =
      { k with
        next := if k.it = -1 then k.next
          else if ms = true then k.next + (nowMs - k.lastMs) else k.next + (nowUs - k.lastUs) } := by
  unfold Cursor.shift
  by_cases hit : k.it = -1
  · rw [if_pos hit, if_pos hit]
  · rw [if_neg hit, if_neg hit]
    have hback (x : Time) : BitVec.ofNat 32 x.toNat = x := by rw [BitVec.ofNat_toNat, BitVec.setWidth_eq]
    cases ms with
    | true => rw [if_pos rfl, if_pos rfl, elapsed, hback]
    | false => rw [if_neg Bool.false_ne_true, if_neg Bool.false_ne_true, elapsed, hback]

theorem listFreeze_eq {s : State} {c : Nat} (hc : c < s.nCh) :
    listFreeze s c =
      { s with
        chans := s.chans.set c
          { s.chan c with
            cursor :=
              { (s.chan c).cursor.shift (onMsClock s c) s.pins.nowUs s.pins.nowMs with
                lastUs := s.pins.nowUs, lastMs := s.pins.nowMs } } } := by
  rw [listFreeze, stampCursor, State.upd_upd, State.upd_eq_set hc]; rfl

theorem pointDue_iff (s : State) (c : Nat) :
    pointDue s c = true ↔
      (s.chan c).cursor.it = -1 ∨
      sdiff (s.chan c).cursor.next (if onMsClock s c then s.pins.nowMs else s.pins.nowUs) ≤ 0 := by
  rw [pointDue, Bool.or_eq_true, decide_eq_true_eq, decide_eq_true_eq]

/-! ### A due point (R291, R294, R296) -/

/-- The next point is the first of another pass. -/
abbrev Channel.wraps (ch : Channel) : Prop := ch.cursor.it ≠ -1 ∧ ch.nextIndex = 0

/-- The counter after a due point that is not the end of the list: a wrap counts a pass. -/
def Channel.passesLeft (ch : Channel) : BitVec 32 :=
  if ch.wraps then ch.cursor.counter - 1 else ch.cursor.counter

/-- A wrap of the last pass finishes the list. -/
theorem listAdvance_of_last {s : State} {c : Nat} (hwraps : (s.chan c).wraps)
    (hlast : (s.chan c).cursor.counter = 1) (ip : Nat → Int) :
    listAdvance ip s c = triggerFinished (s.upd c fun ch => { ch with cursor := ch.cursor.stop }) c := by
  have hnone : (s.chan c).cursor.counter - 1 = 0 := by rw [hlast]; rfl
  unfold listAdvance
  dsimp only
  rw [if_pos hwraps, if_pos hnone, listFinish, State.upd_upd]
  rfl

/-- Any other due point is tried with the passes that are left. -/
theorem listAdvance_of_more {s : State} {c : Nat}
    (h : ¬((s.chan c).wraps ∧ (s.chan c).cursor.counter = 1)) (ip : Nat → Int) :
    listAdvance ip s c =
      pointOrAbort ip
        (s.upd c fun ch => { ch with cursor := { ch.cursor with counter := (s.chan c).passesLeft } }) c
        (s.chan c).nextIndex := by
  unfold listAdvance Channel.passesLeft
  dsimp only
  by_cases hwraps : (s.chan c).wraps
  · have hmore : (s.chan c).cursor.counter - 1 ≠ 0 := fun hzero => h ⟨hwraps, sub_eq_zero.mp hzero⟩
    rw [if_pos hwraps, if_neg hmore, if_pos hwraps]
    exact congrArg (pointOrAbort ip · c _) (State.upd_congr rfl)
  · rw [if_neg hwraps, if_neg hwraps, State.upd_self rfl]

/-- A voltage and then a current applied, as one update and a list of events. -/
theorem applyBoth_eq {s : State} {c : Nat} (hc : c < s.nCh) (v i : Int) :
    applyCurrent (applyVoltage s c v) c i =
      (s.upd c fun ch => currentApplied s.cfg s.pins.nowUs (s.pin c) (voltageApplied ch v) i).emit
        (voltageEvents s.cfg c (s.chan c) v ++
          currentEvents s.cfg (s.pin c) c (voltageApplied (s.chan c) v) i) := by
  rw [applyCurrent_eq _ _ _ (by simpa [applyVoltage_eq]), applyVoltage_eq, State.emit_upd, State.upd_upd,
    State.emit_emit, State.emit_chan, State.chan_upd_same hc]
  rfl

/-- A channel that applies point `j` with `count` passes left (R291, R295). -/
def pointApplied (cfg : Params) (pins : Pins) (pin : ChanPins) (p : Int) (j : Nat) (count : BitVec 32)
    (ch : Channel) : Channel :=
  { currentApplied cfg pins.nowUs pin (voltageApplied ch (pointVolt cfg ch j)) (pointCurr p ch j) with
    cursor :=
      { it := (j : Int), counter := count
        next := dwellDeadline cfg pins.nowUs pins.nowMs (ch.pointElem .dwell j)
        dwell := ch.pointElem .dwell j, lastUs := pins.nowUs, lastMs := pins.nowMs } }

/-- The events of applying point `j`. -/
def pointEvents (cfg : Params) (pin : ChanPins) (c : Nat) (p : Int) (j : Nat) (ch : Channel) : List Event :=
  voltageEvents cfg c ch (pointVolt cfg ch j) ++
  currentEvents cfg pin c (voltageApplied ch (pointVolt cfg ch j)) (pointCurr p ch j)

theorem applyPoint_eq {s : State} {c : Nat} (hc : c < s.nCh) (ip : Nat → Int) (j : Nat) (count : BitVec 32) :
    stampCursor
        (applyPoint ip (s.upd c fun ch => { ch with cursor := { ch.cursor with counter := count } }) c j) c =
      (s.upd c (pointApplied s.cfg s.pins (s.pin c) (ip c) j count)).emit
        (pointEvents s.cfg (s.pin c) c (ip c) j (s.chan c)) := by
  simp only [applyPoint, stampCursor, applyBoth_eq (s := State.upd _ _ _) (by simpa), State.emit_upd,
    State.upd_upd, State.chan_upd_same hc]
  exact congrArg (State.emit · _) (State.upd_congr rfl)

/-- An abort leaves no trace of a counter. -/
theorem triggerAbort_counter (s : State) (c : Nat) (count : BitVec 32) :
    triggerAbort (s.upd c fun ch => { ch with cursor := { ch.cursor with counter := count } }) =
      triggerAbort s := by
  have hchans : (s.chans.modify c fun ch => { ch with cursor := { ch.cursor with counter := count } }).map
      (fun ch => { ch with cursor := ch.cursor.stop, trigInProg := false }) =
        s.chans.map fun ch => { ch with cursor := ch.cursor.stop, trigInProg := false } := by
    refine List.ext_getElem? fun i => ?_
    rw [List.getElem?_map, List.getElem?_map, List.getElem?_modify]
    by_cases h : c = i <;> cases s.chans[i]? <;> simp [h, Cursor.stop]
  rw [triggerAbort_eq, triggerAbort_eq, State.upd, hchans]

/-- A point inside the limits is applied; any other aborts everything. -/
theorem pointOrAbort_eq {s : State} {c : Nat} (hc : c < s.nCh) (ip : Nat → Int) (j : Nat) (count : BitVec 32) :
    pointOrAbort ip (s.upd c fun ch => { ch with cursor := { ch.cursor with counter := count } }) c j =
      if pointCheck s.cfg (ip c) (s.chan c) j = .ok then
        (s.upd c (pointApplied s.cfg s.pins (s.pin c) (ip c) j count)).emit
          (pointEvents s.cfg (s.pin c) c (ip c) j (s.chan c))
      else triggerAbort (s.emit [.pushEvent (.error (pointCheck s.cfg (ip c) (s.chan c) j)) c]) := by
  have hcheck : pointCheck s.cfg (ip c)
      ((s.upd c fun ch => { ch with cursor := { ch.cursor with counter := count } }).chan c) j =
        pointCheck s.cfg (ip c) (s.chan c) j := by rw [State.chan_upd_same hc]; rfl
  unfold pointOrAbort
  dsimp only
  rw [State.upd_cfg, hcheck, applyPoint_eq hc]
  split
  · rfl
  · exact triggerAbort_counter (s.emit _) c count

/-- Settles O46: the branches of the advance in their order; a due point is the end of the list, an abort, or one
update of the channel with its events. -/
theorem listAdvanceRule : Obligations.ListAdvanceRule := by
  intro ip s c hc ch k ms remaining run go due j wraps v i d aborted
  have habort (es : List Event) : triggerAbort (s.emit es) = aborted es := triggerAbort_eq (s.emit es)
  have hruns (h : run) : CursorRuns s c := ⟨(Channel.active_iff ch).mpr h.1, h.2.1, h.2.2⟩
  have hms : onMsClock s c = true ↔ ms := onMsClock_iff s c
  have hremaining :
      sdiff k.next (if onMsClock s c then s.pins.nowMs else s.pins.nowUs) = remaining := by
    simp only [hms]
    exact apply_ite (sdiff k.next) ms _ _
  have hdue : pointDue s c = true ↔ due := by
    rw [pointDue_iff, hremaining]
  have hcheck : pointCheck s.cfg (ip c) ch j = checkPoint ch v i := rfl
  have hadvance (h : go) (hdue' : due) : listTick ip s c = listAdvance ip s c := by
    rw [listTick_of_runs (hruns h.1) h.2, if_pos (hdue.mpr hdue')]
  have hmore (h : go) (hdue' : due) (hlast : ¬(wraps ∧ k.counter = 1)) :=
    (hadvance h hdue').trans ((listAdvance_of_more hlast ip).trans (pointOrAbort_eq hc ip j ch.passesLeft))
  refine ⟨fun hidle => ?_, fun hactive hun => ?_, fun hactive hhealthy htripped => ?_, fun h hinhibit => ?_,
    fun h hwait => ?_, fun h hdue' hwraps hlast => ?_, fun h hdue' hlast hfail => ?_,
    fun h hdue' hlast hpass => ?_⟩
  · exact listTick_of_inactive ((Channel.active_eq_false_iff ch).mpr hidle) ip
  · rw [listTick_of_unhealthy ((Channel.active_iff ch).mpr hactive) hun, habort]
  · rw [listTick_of_tripped ((Channel.active_iff ch).mpr hactive) hhealthy htripped, ← habort, State.emit_nil]
  · rw [listTick_of_inhibited (hruns h) hinhibit, listFreeze_eq hc, shift_next]
    simp only [hms]
    rfl
  · rw [listTick_of_runs (hruns h.1) h.2, if_neg (mt hdue.mp hwait), stampCursor_eq hc]
  · rw [hadvance h hdue', listAdvance_of_last hwraps hlast, State.upd_eq_set hc]
    rfl
  · rw [hmore h hdue' hlast, hcheck, if_neg hfail, habort]
  · rw [hmore h hdue' hlast, hcheck, if_pos hpass, State.upd_eq_set hc]
    rfl

end Sys2Proof.Machine

/-! ## The rules of `48_tick.md`: the order of a tick, its parts, what a quiet tick changes, the writers, `RD` -/

namespace Sys2Proof.Machine

open Sys2Proof

/-! ### The order of a tick (R320, R321) -/

theorem partnerPresent_iff (s : State) (c : Nat) :
    partnerPresent s c = true ↔
      s.pins.coupling = .none ∨
        ((s.pin c).healthy = true → (s.pin c).follower = false → (s.pin c).partner < s.nCh) := by
  simp only [partnerPresent, Bool.or_eq_true, Bool.not_eq_true', decide_eq_true_eq]
  cases (s.pin c).healthy <;> cases (s.pin c).follower <;> simp

theorem partnersPresent_iff (s : State) :
    partnersPresent s = true ↔
      s.pins.coupling = .none ∨
        ∀ c, c < s.nCh → (s.pin c).healthy = true → (s.pin c).follower = false → (s.pin c).partner < s.nCh := by
  simp only [partnersPresent, List.all_eq_true, List.mem_range, partnerPresent_iff, ← forall_or_left]

/-- The two passes over the channels go over the same ones. -/
theorem tickAll_eq (s : State) :
    tickAll s =
      (List.range s.nCh).foldl (listTick s.currentPrecs) (trigDelayCheck s.currentPrecs
        ((List.range s.nCh).foldl (tickChannel s.currentPrecs) s)) := by
  have hn : (trigDelayCheck s.currentPrecs (forChannels (tickChannel s.currentPrecs) s)).nCh = s.nCh :=
    ((Frame.forChannels (tickChannel_frame _) s).trans (trigDelayCheck_frame _ _)).nCh
  rw [tickAll, forChannels, hn, forChannels]

/-- Settles O47: the pins decide between the tick and the stop; the frame of the parts gives the rest. -/
theorem tickCompletes : Obligations.TickCompletes := by
  intro s wellCoupled ip parts channels t
  have tick : exec .tick s = execTick s := rfl
  have hpartners : partnersPresent s = true ↔ wellCoupled := partnersPresent_iff s
  have ht : tickAll s.begin = t := tickAll_eq s.begin
  have hframe : Frame s.begin t := ht ▸ tickAll_frame s.begin
  rw [tick, execTick]
  refine ⟨fun hcoupled => ?_, fun hcoupled => if_neg (mt hpartners.mp hcoupled)⟩
  rw [if_pos (hpartners.mpr hcoupled), ht]
  exact ⟨rfl, hframe.resp, hframe.nCh, hframe.cfg, hframe.pins, hframe.port⟩

/-! ### Sample intake (R322) -/

theorem sampleIntake_of_unarmed {s : State} {c : Nat} (hc : c < s.nCh) (h : (s.chan c).adcAwait = none)
    (ip : Nat → Int) :
    sampleIntake ip s c =
      { s with
        chans := s.chans.set c { s.chan c with adcAwait := some .uMon }
        events := s.events ++ [.startSample c .uMon] } := by
  rw [sampleIntake, h]
  dsimp only
  rw [State.upd_eq_set hc]
  rfl

/-- A valid sample of the awaited input is taken. -/
theorem sampleIntake_of_got {s : State} {c : Nat} (hc : c < s.nCh) {r : AdcInput}
    (h : (s.chan c).adcAwait = some r) (hvalid : (s.pin c).smpValid = true) (hreg : (s.pin c).smpReg = r)
    (ip : Nat → Int) :
    sampleIntake ip s c =
      { s with
        chans := s.chans.set c ((s.chan c).takeSample s.cfg (ip c) r (s.pin c).smpCode)
        events := s.events ++ [.startSample c (AdcInput.after r)] } := by
  rw [sampleIntake, h]
  dsimp only
  rw [hvalid, decide_eq_true hreg, Bool.true_and, if_pos rfl, State.upd_eq_set hc]
  rfl

/-- Any other sample is ignored. -/
theorem sampleIntake_of_missed {s : State} {c : Nat} {r : AdcInput} (h : (s.chan c).adcAwait = some r)
    (hmiss : ¬((s.pin c).smpValid = true ∧ (s.pin c).smpReg = r)) (ip : Nat → Int) :
    sampleIntake ip s c = s := by
  rw [sampleIntake, h]
  dsimp only
  rw [if_neg (by rwa [Bool.and_eq_true, decide_eq_true_eq])]

/-- Settles O48: what is awaited decides between arming, taking and ignoring; each of the four inputs is one
equation of `takeSample`. -/
theorem sampleIntakeRule : Obligations.SampleIntakeRule := by
  intro ip s c hc ch pin code w it um im ud idc taken got
  have htaken {r : AdcInput} (h : got r) :=
    sampleIntake_of_got hc h.1 h.2.1 h.2.2 ip
  exact ⟨fun h => sampleIntake_of_unarmed hc h ip, htaken, htaken, htaken, htaken,
    fun r h hmiss => sampleIntake_of_missed h (fun hgot => hmiss ⟨h, hgot⟩) ip⟩

/-! ### The bookkeeping of a tick (R323, R231, R325, R326) -/

theorem modeSample_of_on {s : State} {c : Nat} (h : (s.chan c).outEn = true) :
    modeSample s c = s.upd c fun ch => { ch with cv := (s.pin c).cvPin, cc := (s.pin c).ccPin } :=
  State.upd_congr (by rw [h, Bool.true_and, Bool.true_and])

theorem modeSample_of_off {s : State} {c : Nat} (h : (s.chan c).outEn = false) :
    modeSample s c = s.upd c fun ch => { ch with cv := false, cc := false } :=
  State.upd_congr (by rw [h, Bool.false_and, Bool.false_and])

theorem onTimeUpdate_of_running {s : State} {c : Nat} (h : (s.chan c).onTimeRun = true) :
    onTimeUpdate s c = s.upd c fun ch =>
      { ch with
        onTime := ch.onTime + BitVec.ofNat 64 (elapsed s.pins.nowUs ch.onTimeLast)
        onTimeLast := s.pins.nowUs } := if_pos h

theorem onTimeUpdate_of_stopped {s : State} {c : Nat} (h : (s.chan c).onTimeRun = false) :
    onTimeUpdate s c = s := if_neg (by rw [h]; exact Bool.false_ne_true)

/-- The switch-off of the down-programmer is pending and its delay has run out (R231). -/
def dpOffDue (s : State) (ch : Channel) : Prop :=
  ch.dpOffPending = true ∧ s.cfg.dpOffDelay ≤ elapsed s.pins.nowUs ch.dpOffTime

theorem dpOffCheck_of_waiting {s : State} {c : Nat} (h : ¬dpOffDue s (s.chan c)) : dpOffCheck s c = s :=
  if_neg (by rwa [Bool.and_eq_true, decide_eq_true_eq])

/-- A down-programmer that is on goes off; in either case nothing is pending any more. -/
theorem dpOffCheck_of_due {s : State} {c : Nat} (h : dpOffDue s (s.chan c)) :
    dpOffCheck s c =
      (s.upd c fun ch => { ch with dpOffPending := false, dpOn := false }).emit
        (if (s.chan c).dpOn then [.digOut c .dp false] else []) := by
  have hdue : ((s.chan c).dpOffPending &&
      decide (s.cfg.dpOffDelay ≤ elapsed s.pins.nowUs (s.chan c).dpOffTime)) = true := by
    rwa [Bool.and_eq_true, decide_eq_true_eq]
  unfold dpOffCheck
  rw [if_pos hdue]
  dsimp only
  cases hon : (s.chan c).dpOn with
  | true => rw [if_pos rfl, if_pos rfl, dpOff, State.upd_upd]
  | false =>
    rw [if_neg Bool.false_ne_true, if_neg Bool.false_ne_true, State.emit_nil]
    exact State.upd_congr (by rw [← hon])

/-- Settles O49: each part is one update of its channel, or none. -/
theorem tickBookkeeping : Obligations.TickBookkeeping := by
  refine ⟨?_, ?_⟩
  · intro s c hc ch
    refine ⟨fun hon => ?_, fun hoff => ?_, State.upd_eq_set hc _, fun hrun => ?_, onTimeUpdate_of_stopped⟩
    · rw [modeSample_of_on hon, State.upd_eq_set hc]
    · rw [modeSample_of_off hoff, State.upd_eq_set hc]
    · rw [onTimeUpdate_of_running hrun, State.upd_eq_set hc]
  · intro s c hc ch due
    refine ⟨fun hdue hon => ?_, fun hdue hoff => ?_, dpOffCheck_of_waiting⟩
    · rw [dpOffCheck_of_due hdue, hon, State.upd_eq_set hc]
      rfl
    · rw [dpOffCheck_of_due hdue, hoff, if_neg Bool.false_ne_true, State.emit_nil, State.upd_eq_set hc]

/-! ### `RD` (R331) -/

theorem execRd_of_global {reg : Nat} (h : 0x100 ≤ reg) (s : State) (c : Nat) :
    execRd c reg s =
      require (decide (c = 0)) .illegal s
        (match s.readGlobal reg with
        | some d => .next (s.begin.answer d)
        | none => .next (s.failed .range)) := if_pos h

theorem execRd_of_channel {reg : Nat} (h : reg < 0x100) (s : State) (c : Nat) :
    execRd c reg s =
      onChannel c s fun s ch =>
        match ch.readReg reg with
        | some d => .next (s.answer d)
        | none => raise .range s := if_neg h.not_ge

/-- The last global register is 0x104. -/
theorem readGlobal_of_gt {reg : Nat} (h : 0x104 < reg) (s : State) : s.readGlobal reg = none := by
  rw [State.readGlobal, State.globalRegTable, List.lookup_eq_none_iff]
  simp only [List.forall_mem_cons, List.not_mem_nil, false_imp_iff, implies_true, and_true, bne_iff_ne]
  omega

/-- Settles O52: the number decides whose register it is, and the register map whether there is one. -/
theorem readRegisterCompletes : Obligations.ReadRegisterCompletes := by
  intro s c reg fails answers
  have rd (c : Nat) : exec (.rd c reg) s = execRd c reg s := rfl
  rw [rd, rd]
  refine ⟨fun hglobal hc => ?_, fun hout => ?_, fun d hglobal hd => ?_, fun hreg hc => ?_, fun hreg hc hd => ?_,
    fun d hreg hc hd => ?_⟩
  · rw [execRd_of_global hglobal, decide_eq_false hc]; rfl
  · rw [execRd_of_global (by omega), readGlobal_of_gt hout]; rfl
  · rw [execRd_of_global hglobal, hd]; rfl
  · rw [execRd_of_channel hreg, onChannel_of_ge hc]; rfl
  · rw [execRd_of_channel hreg, onChannel_of_lt hc, hd]; rfl
  · rw [execRd_of_channel hreg, onChannel_of_lt hc, hd]; rfl

/-! ### The per-channel part of a tick leaves the trigger state alone (R320) -/

@[simp] theorem applyCurrent_trigState (s : State) (c : Nat) (i : Int) :
    (applyCurrent s c i).trigState = s.trigState := by
  rw [applyCurrent, storeCurrent, selectRange_eq]; rfl

@[simp] theorem applySetpoint_trigState (s : State) (c : Nat) (q : Quantity) (x : Int) :
    (applySetpoint s c q x).trigState = s.trigState := by
  cases q with
  | u => rfl
  | i => exact applyCurrent_trigState ..

@[simp] theorem setOutput_trigState (s : State) (c : Nat) (en : Bool) :
    (setOutput s c en).trigState = s.trigState := by
  unfold setOutput
  split_ifs <;> rfl

@[simp] theorem dropRprog_trigState (s : State) (c : Nat) : (dropRprog s c).trigState = s.trigState := by
  unfold dropRprog
  split <;> rfl

@[simp] theorem trip_trigState (s : State) (c : Nat) (k : Kind) : (trip s c k).trigState = s.trigState := by
  have hlatched : (tripped s c k).trigState = s.trigState := by
    rw [tripped, latchTrip, State.emit_trigState, State.upd_trigState]
    split <;> simp
  rw [trip_eq]
  split <;> simp [hlatched]

@[simp] theorem protCheck_trigState (s : State) (c : Nat) (k : Kind) :
    (protCheck s c k).trigState = s.trigState := by
  rw [protCheck_eq]
  cases verdict s.pins.nowUs ((s.chan c).fires k) ((s.chan c).prot.get k) with
  | trip => exact trip_trigState s c k
  | alarm | wait | clear => rfl

@[simp] theorem protTick_trigState (s : State) (c : Nat) : (protTick s c).trigState = s.trigState := by
  unfold protTick
  split <;> simp

@[simp] theorem sampleIntake_trigState (ip : Nat → Int) (s : State) (c : Nat) :
    (sampleIntake ip s c).trigState = s.trigState := by
  unfold sampleIntake
  split
  · rfl
  · split <;> rfl

@[simp] theorem dpOffCheck_trigState (s : State) (c : Nat) : (dpOffCheck s c).trigState = s.trigState := by
  by_cases h : dpOffDue s (s.chan c)
  · rw [dpOffCheck_of_due h]; rfl
  · rw [dpOffCheck_of_waiting h]

@[simp] theorem dpBalance_trigState (ip : Nat → Int) (s : State) (c : Nat) :
    (dpBalance ip s c).trigState = s.trigState := by
  have hone (u : State) (x : Nat) (q : Quantity) (avg : Int) :
      (balanceOne u x q avg).trigState = u.trigState := by simp [balanceOne]
  have hbalance (q : Quantity) : (balance ip s c q).trigState = s.trigState := by
    unfold balance
    dsimp only
    split
    · rw [hone, hone]
    · rfl
  unfold dpBalance
  split
  · rfl
  · split <;> simp [hbalance]

@[simp] theorem dpNegCheck_trigState (ip : Nat → Int) (s : State) (c : Nat) :
    (dpNegCheck ip s c).trigState = s.trigState := by
  have hfirst : (dpFirstStage s c).trigState = s.trigState := rfl
  have hsecond : (dpSecondStage s c).trigState = s.trigState := setOutput_trigState s c false
  by_cases h : sinks s.cfg (s.chan c)
  · rw [dpNegCheck_of_sinks h]
    split_ifs <;> simp [hfirst, hsecond]
  · rw [dpNegCheck_of_not_sinks h]; rfl

@[simp] theorem onTimeUpdate_trigState (s : State) (c : Nat) :
    (onTimeUpdate s c).trigState = s.trigState := by
  unfold onTimeUpdate
  split <;> rfl

@[simp] theorem autoRangeCheck_trigState (s : State) (c : Nat) :
    (autoRangeCheck s c).trigState = s.trigState := by
  unfold autoRangeCheck
  split
  · split <;> rfl
  · rfl

theorem tickChannel_trigState (ip : Nat → Int) (s : State) (c : Nat) :
    (tickChannel ip s c).trigState = s.trigState := by
  unfold tickChannel tickHealthy
  split
  · simp [historyPush, modeSample]
  · rfl

theorem foldl_tickChannel_trigState (ip : Nat → Int) (l : List Nat) (s : State) :
    (l.foldl (tickChannel ip) s).trigState = s.trigState := by
  induction l generalizing s with
  | nil => rfl
  | cons c l ih => rw [List.foldl_cons, ih, tickChannel_trigState]

/-! ### What a quiet tick changes (R327) -/

/-- A channel whose output is off, with the flags that go with the output cleared. -/
structure Channel.SwitchedOff (ch : Channel) : Prop where
  outEn : ch.outEn = false
  cv : ch.cv = false
  cc : ch.cc = false
  onTimeRun : ch.onTimeRun = false

/-- From `a` to `b` by what a quiet tick may change: the sampler armed, the down-programmer, alarm and
negative-power flags cleared, the history. -/
structure Quieted (a b : Channel) : Prop where
  rest : a = { b with
    adcAwait := a.adcAwait, dpOn := a.dpOn, dpOffPending := a.dpOffPending
    dpNegActive := a.dpNegActive, prot := a.prot
    hist := a.hist, histIdx := a.histIdx, histCount := a.histCount }
  prot : ∀ k, b.prot.get k = { a.prot.get k with alarmed := (b.prot.get k).alarmed } ∧
    ((b.prot.get k).alarmed = true → (a.prot.get k).alarmed = true)
  adcAwait : b.adcAwait = a.adcAwait ∨ a.adcAwait = none ∧ b.adcAwait = some .uMon
  dpOn : b.dpOn = true → a.dpOn = true
  dpOffPending : b.dpOffPending = true → a.dpOffPending = true
  dpNegActive : b.dpNegActive = true → a.dpNegActive = true

theorem Quieted.refl (a : Channel) : Quieted a a := ⟨rfl, fun _ => ⟨rfl, id⟩, .inl rfl, id, id, id⟩

theorem Quieted.trans {a b d : Channel} (h : Quieted a b) (h' : Quieted b d) : Quieted a d where
  rest := by
    have hrest := h.rest
    rw [h'.rest] at hrest
    exact hrest
  prot k := by
    obtain ⟨hb, hb'⟩ := h.prot k
    obtain ⟨hd, hd'⟩ := h'.prot k
    refine ⟨?_, hb' ∘ hd'⟩
    rw [hb] at hd
    exact hd
  adcAwait := by
    obtain hd | ⟨hb, hd⟩ := h'.adcAwait
    · rw [hd]; exact h.adcAwait
    · obtain hb' | ⟨ha, hb'⟩ := h.adcAwait
      · exact .inr ⟨hb' ▸ hb, hd⟩
      · rw [hb] at hb'; cases hb'
  dpOn := h.dpOn ∘ h'.dpOn
  dpOffPending := h.dpOffPending ∘ h'.dpOffPending
  dpNegActive := h.dpNegActive ∘ h'.dpNegActive

theorem Quieted.switchedOff {a b : Channel} (h : Quieted a b) (ha : a.SwitchedOff) : b.SwitchedOff := by
  have hrest := h.rest
  obtain ⟨hout, hcv, hcc, hrun⟩ := ha
  rw [hrest] at hout hcv hcc hrun
  exact ⟨hout, hcv, hcc, hrun⟩

theorem Quieted.cursor_eq {a b : Channel} (h : Quieted a b) : b.cursor = a.cursor := by
  have hrest := h.rest
  rw [hrest]

/-- From `s` to `t` with every channel changed as by a quiet tick at most. -/
abbrev QuietTo : State → State → Prop := Reaches fun _ => Quieted

theorem QuietTo.quieted {s t : State} (h : QuietTo s t) (c : Nat) : Quieted (s.chan c) (t.chan c) := by
  have hmoves := h.moves c
  generalize t.chan c = b at hmoves ⊢
  induction hmoves with
  | refl => exact .refl _
  | tail _ hlast ih => exact ih.trans hlast

section
variable {s : State} {c : Nat}

theorem sampleIntake_quiet (h : (s.pin c).smpValid = false) (ip : Nat → Int) :
    QuietTo s (sampleIntake ip s c) := by
  cases hawait : (s.chan c).adcAwait with
  | none =>
    unfold sampleIntake
    rw [hawait]
    exact (Reaches.upd1 ⟨rfl, fun _ => ⟨rfl, id⟩, .inr ⟨hawait, rfl⟩, id, id, id⟩).thenEmit _
  | some r =>
    rw [sampleIntake_of_missed hawait fun hgot => by rw [h] at hgot; cases hgot.1]
    exact Reaches.refl s

theorem modeSample_quiet (h : (s.chan c).SwitchedOff) : QuietTo s (modeSample s c) := by
  have hsame : { s.chan c with cv := false, cc := false } = s.chan c :=
    calc { s.chan c with cv := false, cc := false }
      _ = { s.chan c with cv := (s.chan c).cv, cc := (s.chan c).cc } := by rw [h.cv, h.cc]
      _ = s.chan c := rfl
  rw [modeSample_of_off h.outEn, State.upd_self hsame]
  exact Reaches.refl s

/-- A check of a channel that is off clears the alarm. -/
theorem protCheck_quiet (h : (s.chan c).SwitchedOff) (k : Kind) : QuietTo s (protCheck s c k) := by
  have hfires : (s.chan c).fires k = false := by
    rw [Channel.fires, Channel.armed, h.outEn, Bool.and_false, Bool.false_and]
  rw [protCheck_eq, hfires, verdict_of_not_fires]
  refine Reaches.upd1 ⟨rfl, fun k' => ?_, .inl rfl, id, id, id⟩
  rw [Channel.setProt_prot, PerKind.get_modify]
  split
  · exact ⟨rfl, nofun⟩
  · exact ⟨rfl, id⟩

theorem protTick_quiet (h : (s.chan c).SwitchedOff) : QuietTo s (protTick s c) := by
  refine Reaches.ite (fun _ => Reaches.refl s) fun _ => ?_
  have hovp := protCheck_quiet h .ovp
  have hocp : QuietTo s _ := hovp.trans (protCheck_quiet ((hovp.quieted c).switchedOff h) .ocp)
  exact hocp.trans (protCheck_quiet ((hocp.quieted c).switchedOff h) .opp)

theorem dpOffCheck_quiet (s : State) (c : Nat) : QuietTo s (dpOffCheck s c) := by
  by_cases h : dpOffDue s (s.chan c)
  · rw [dpOffCheck_of_due h]
    exact (Reaches.upd1 ⟨rfl, fun _ => ⟨rfl, id⟩, .inl rfl, nofun, nofun, id⟩).thenEmit _
  · rw [dpOffCheck_of_waiting h]
    exact Reaches.refl s

theorem dpNegCheck_quiet (h : (s.chan c).SwitchedOff) (ip : Nat → Int) :
    QuietTo s (dpNegCheck ip s c) := by
  have hsinks : ¬sinks s.cfg (s.chan c) := fun hsinks => by rw [sinks, h.outEn] at hsinks; cases hsinks.1
  rw [dpNegCheck_of_not_sinks hsinks]
  exact Reaches.upd1 ⟨rfl, fun _ => ⟨rfl, id⟩, .inl rfl, id, id, nofun⟩

theorem onTimeUpdate_quiet (h : (s.chan c).SwitchedOff) : QuietTo s (onTimeUpdate s c) := by
  rw [onTimeUpdate_of_stopped h.onTimeRun]
  exact Reaches.refl s

theorem historyPush_quiet (s : State) (c : Nat) : QuietTo s (historyPush s c) :=
  Reaches.upd1 ⟨rfl, fun _ => ⟨rfl, id⟩, .inl rfl, id, id, id⟩

theorem autoRangeCheck_quiet (h : (s.chan c).SwitchedOff) : QuietTo s (autoRangeCheck s c) := by
  have hgate : autoGate s c = false := by
    rw [autoGate, h.outEn, Bool.and_false, Bool.false_and, Bool.false_and]
  rw [autoRangeCheck, hgate]
  exact Reaches.refl s

/-- The parts of a tick on a channel that is off, one after the other. -/
theorem tickChannel_quiet (h : (s.chan c).SwitchedOff) (hsmp : (s.pin c).smpValid = false) (ip : Nat → Int) :
    QuietTo s (tickChannel ip s c) := by
  have off {t : State} (hst : QuietTo s t) : (t.chan c).SwitchedOff := (hst.quieted c).switchedOff h
  have h1 := sampleIntake_quiet hsmp ip
  have h2 := h1.trans (modeSample_quiet (off h1))
  have h3 := h2.trans (protTick_quiet (off h2))
  have h4 := h3.trans (dpOffCheck_quiet _ c)
  have h5 := h4.trans (dpNegCheck_quiet (off h4) ip)
  have h6 := h5.trans (onTimeUpdate_quiet (off h5))
  have h7 := h6.trans (historyPush_quiet _ c)
  exact Reaches.ite (fun _ => h7.trans (autoRangeCheck_quiet (off h7))) fun _ => Reaches.refl s

end

theorem foldl_tickChannel_quiet (ip : Nat → Int) (l : List Nat) (s : State)
    (hoff : ∀ c ∈ l, (s.chan c).SwitchedOff) (hsmp : ∀ c ∈ l, (s.pin c).smpValid = false) :
    QuietTo s (l.foldl (tickChannel ip) s) := by
  induction l generalizing s with
  | nil => exact Reaches.refl s
  | cons c l ih =>
    have hc := tickChannel_quiet (hoff c List.mem_cons_self) (hsmp c List.mem_cons_self) ip
    refine hc.trans (ih _ (fun c' h => ?_) fun c' h => ?_)
    · exact (hc.quieted c').switchedOff (hoff c' (List.mem_cons_of_mem _ h))
    · rw [hc.frame.pin]
      exact hsmp c' (List.mem_cons_of_mem _ h)

theorem foldl_listTick_inactive (ip : Nat → Int) (l : List Nat) (s : State)
    (h : ∀ c ∈ l, (s.chan c).active = false) : l.foldl (listTick ip) s = s := by
  induction l with
  | nil => rfl
  | cons c l ih =>
    rw [List.foldl_cons, listTick_of_inactive (h c List.mem_cons_self)]
    exact ih fun c' h' => h c' (List.mem_cons_of_mem _ h')

/-- What a tick, a trigger or a list can change at all. -/
theorem Frame.state_eq {s t : State} (h : Frame s t) :
    t = { s with chans := t.chans, trigState := t.trigState, events := t.events } := by
  obtain ⟨hcfg, hpins, hport, hresp, -, hdelay, hsource, hcont, htime⟩ := h
  cases t
  simp only at *
  subst_vars
  rfl

theorem execTick_next {s t : State} (h : execTick s = .next t) : t = tickAll s.begin := by
  unfold execTick at h
  split at h
  · cases h; rfl
  · cases h

/-- Settles O50: the per-channel part changes each channel as a quiet tick may; neither the trigger nor a list
acts. -/
theorem quietTickChangesLittle : Obligations.QuietTickChangesLittle := by
  intro s t hexec htrig hquiet
  have hlt {c : Nat} (h : c ∈ List.range s.nCh) : c < s.nCh := List.mem_range.mp h
  obtain ⟨u, hscan⟩ : ∃ u, u = (List.range s.nCh).foldl (tickChannel s.currentPrecs) s.begin := ⟨_, rfl⟩
  have hu : QuietTo s.begin u := by
    rw [hscan]
    refine foldl_tickChannel_quiet _ _ _ (fun c h => ?_) fun c h => ?_
    · obtain ⟨hout, hcv, hcc, hrun, -, -⟩ := hquiet c (hlt h)
      exact ⟨hout, hcv, hcc, hrun⟩
    · obtain ⟨-, -, -, -, -, hsmp⟩ := hquiet c (hlt h)
      exact hsmp
  have hutrig : u.trigState = s.trigState := by rw [hscan, foldl_tickChannel_trigState]; rfl
  have hinactive (c : Nat) (h : c ∈ List.range s.nCh) : (u.chan c).active = false := by
    obtain ⟨-, -, -, -, hidle, -⟩ := hquiet c (hlt h)
    rw [Channel.active_eq_false_iff, (hu.quieted c).cursor_eq]
    exact hidle
  have ht : t = u := by
    rw [execTick_next hexec, tickAll_eq, State.begin_nCh, State.currentPrecs_begin, ← hscan,
      trigDelayCheck_of_waiting (.inl (hutrig ▸ htrig)), foldl_listTick_inactive _ _ _ hinactive]
  have hstate := hu.frame.state_eq
  rw [hutrig] at hstate
  rw [ht]
  refine ⟨hstate, hu.frame.nCh, fun c _ => ?_⟩
  have hc := hu.quieted c
  exact ⟨hc.rest, hc.prot, hc.adcAwait, hc.dpOn, hc.dpOffPending, hc.dpNegActive⟩

/-! ### What a command does to the output and to the setpoints of the channel it names (R181, R327) -/

/-- The output and both setpoints are as they were. -/
structure DriveKept (a b : Channel) : Prop where
  outEn : b.outEn = a.outEn
  uSet : b.u.set = a.u.set
  iSet : b.i.set = a.i.set

theorem DriveKept.of_eq {a b : Channel} (h : b = a) : DriveKept a b := h ▸ ⟨rfl, rfl, rfl⟩

/-- What the filter commands do to a value record leaves its setpoint alone. -/
theorem Channel.setRecord_driveKept (ch : Channel) (q : Quantity) {f : ValueRec → ValueRec}
    (hf : (f (ch.record q)).set = (ch.record q).set) : DriveKept ch (ch.setRecord q f) := by
  cases q with
  | u => exact ⟨rfl, hf, rfl⟩
  | i => exact ⟨rfl, rfl, hf⟩

/-- The commands that move the voltage setpoint of channel `c`. -/
def movesU (c : Nat) (i : Instr) : Prop :=
  (∃ v, i = .setv c v) ∨ (∃ v, i = .limv c v) ∨ i = .rprog c true ∨ ∃ x, i = .calen c x

/-- The commands that move the current setpoint of channel `c`. -/
def movesI (c : Nat) (i : Instr) : Prop :=
  (∃ v, i = .seti c v) ∨ (∃ v, i = .limi c v) ∨ (∃ v, i = .limp c v) ∨ (∃ m, i = .rmode c m) ∨
  ∃ x, i = .calen c x

/-- A change of output or setpoints that a command on channel `c` makes is one that its name announces. -/
structure DriveBy (c : Nat) (i : Instr) (a b : Channel) : Prop where
  outEn : b.outEn = a.outEn ∨ i = .outen c b.outEn
  uSet : b.u.set = a.u.set ∨ movesU c i
  iSet : b.i.set = a.i.set ∨ movesI c i

theorem DriveKept.by {a b : Channel} (h : DriveKept a b) (c : Nat) (i : Instr) : DriveBy c i a b :=
  ⟨.inl h.outEn, .inl h.uSet, .inl h.iSet⟩

theorem CmdMove.driveBy {cfg : Params} {c : Nat} {i : Instr} {a b : Channel} (h : CmdMove cfg c i a b) :
    DriveBy c i a b := by
  cases h with
  | fadd _ q | faddr _ q | frst _ q => exact (Channel.setRecord_driveKept a q rfl).by c _
  | on | off => exact ⟨.inr rfl, .inl rfl, .inl rfl⟩
  | setv _ v => exact ⟨.inl rfl, .inr (.inl ⟨v, rfl⟩), .inl rfl⟩
  | limvCut _ v => exact ⟨.inl rfl, .inr (.inr (.inl ⟨v, rfl⟩)), .inl rfl⟩
  | rprogOn => exact ⟨.inl rfl, .inr (.inr (.inr (.inl rfl))), .inl rfl⟩
  | calen _ x =>
    exact ⟨.inl rfl, .inr (.inr (.inr (.inr ⟨x, rfl⟩))), .inr (.inr (.inr (.inr (.inr ⟨x, rfl⟩))))⟩
  | seti _ v => exact ⟨.inl rfl, .inl rfl, .inr (.inl ⟨v, rfl⟩)⟩
  | limiCut _ v => exact ⟨.inl rfl, .inl rfl, .inr (.inr (.inl ⟨v, rfl⟩))⟩
  | limpCut _ v => exact ⟨.inl rfl, .inl rfl, .inr (.inr (.inr (.inl ⟨v, rfl⟩)))⟩
  | rmode _ m => exact ⟨.inl rfl, .inl rfl, .inr (.inr (.inr (.inr (.inl ⟨m, rfl⟩))))⟩
  | _ => exact ⟨.inl rfl, .inl rfl, .inl rfl⟩

theorem CmdTo.driveBy {i : Instr} {c' : Nat} {s t : State} (h : CmdTo i c' s t) (c : Nat) :
    DriveBy c i (s.chan c) (t.chan c) := by
  by_cases hc : c = c'
  · subst hc; exact h.named.driveBy
  · exact (DriveKept.of_eq (h.other c hc)).by c i

/-! ### What a trigger execution does to the output (R262) -/

theorem outputSet_outEn (now : Time) (en : Bool) (ch : Channel) : (outputSet now en ch).outEn = en := by
  by_cases h : ch.outEn = en
  · rw [outputSet_of_eq h, h]
  · rw [outputSet, if_neg h]
    cases en <;> rfl

/-- A started channel has its output on only where the trigger asks for it. -/
theorem triggerStarted_outEn {ip : Nat → Int} {s : State} {c : Nat} {ch : Channel}
    (h : (triggerStarted ip s c ch).outEn = true) : ch.trigOut = true := by
  have hrequested : (triggerStarted ip s c ch).outEn =
      (outputRequested s.pins.nowUs (levelsApplied ip s c ch)).outEn := by
    unfold triggerStarted
    dsimp only
    split <;> rfl
  have htrigOut : (levelsApplied ip s c ch).trigOut = ch.trigOut := rfl
  rw [hrequested] at h
  by_cases hrefused : (levelsApplied ip s c ch).trigOut = true ∧ (levelsApplied ip s c ch).anyTripped = true
  · exact hrefused.1
  · rwa [outputRequested_of_granted hrefused, outputSet_outEn] at h

theorem triggerAbort_driveKept (s : State) (c : Nat) : DriveKept (s.chan c) ((triggerAbort s).chan c) := by
  rw [triggerAbort_chan]
  split <;> exact ⟨rfl, rfl, rfl⟩

theorem listAbortAll_driveKept (s : State) (c : Nat) : DriveKept (s.chan c) ((listAbortAll s).chan c) := by
  simp only [listAbortAll, State.chan, List.getElem?_map]
  cases s.chans[c]? <;> exact ⟨rfl, rfl, rfl⟩

theorem executedChans_chan {ip : Nat → Int} {s t : State} (h : t.chans = executedChans ip s) (c : Nat) :
    t.chan c = if c ∈ triggered s then triggerStarted ip s c (s.chan c) else s.chan c := by
  rw [State.chan, h, executedChans, List.getElem?_map]
  by_cases hc : c < s.nCh
  · rw [List.getElem?_range hc]; rfl
  · rw [List.getElem?_eq_none (by simpa using hc), if_neg fun h => hc (triggered_lt h),
      State.chan_of_ge (Nat.not_lt.mp hc)]
    rfl

theorem startImmediately_outEn {ip : Nat → Int} {s : State} {c : Nat} (hoff : (s.chan c).outEn = false)
    (h : ((startImmediately ip s).chan c).outEn = true) : (s.chan c).trigOut = true := by
  by_cases hcheck : checkTrigger ip s = .ok
  · rw [startImmediately_of_pass hcheck, executedChans_chan (ip := ip) (s := s) rfl] at h
    split at h
    · exact triggerStarted_outEn h
    · exact absurd h (by simp [hoff])
  · rw [startImmediately_of_fail hcheck, (triggerAbort_driveKept _ c).outEn, State.emit_chan, hoff] at h
    cases h

/-! ### What a tick does to the output (R327) -/

/-- From `s` to `t` with every output as it was. -/
abbrev OutputKept : State → State → Prop := Reaches fun _ a b => b.outEn = a.outEn

theorem OutputKept.outEn_eq {s t : State} (h : OutputKept s t) (c : Nat) :
    (t.chan c).outEn = (s.chan c).outEn := h.same Channel.outEn (fun _ _ => id) c

theorem triggerAbort_outputKept (s : State) : OutputKept s (triggerAbort s) :=
  ⟨triggerAbort_frame s, fun c => .single (triggerAbort_driveKept s c).outEn⟩

theorem pointOrAbort_outputKept (ip : Nat → Int) (s : State) (c j : Nat) :
    OutputKept s (pointOrAbort ip s c j) := by
  have happlied (v i : Int) (u : State) : OutputKept u (applyCurrent (applyVoltage u c v) c i) :=
    (applyVoltage_upd u c v (.single rfl)).trans (applyCurrent_upd _ c i (.single rfl))
  unfold pointOrAbort
  refine Reaches.ite (fun _ => ?_) fun _ => (Reaches.emit ..).trans (triggerAbort_outputKept _)
  exact (((Reaches.upd1 rfl).trans (happlied ..)).trans (Reaches.upd1 rfl)).trans (Reaches.upd1 rfl)

theorem triggerFinished_outputKept (s : State) (c : Nat) : OutputKept s (triggerFinished s c) := by
  refine ⟨triggerFinished_frame s c, fun c' => .single ?_⟩
  rw [triggerFinished_chan]
  split <;> rfl

theorem listFinish_outputKept (s : State) (c : Nat) : OutputKept s (listFinish s c) :=
  Reaches.trans (Reaches.upd1 rfl) (triggerFinished_outputKept _ c)

/-- The list steps switch no output. -/
theorem listTick_outputKept (ip : Nat → Int) (s : State) (c : Nat) : OutputKept s (listTick ip s c) := by
  have hadvance : OutputKept s (listAdvance ip s c) :=
    Reaches.ite (fun _ => Reaches.ite (fun _ => (Reaches.upd1 rfl).trans (listFinish_outputKept ..))
      fun _ => (Reaches.upd1 rfl).trans (pointOrAbort_outputKept ..)) fun _ => pointOrAbort_outputKept ..
  have hfreeze : OutputKept s (listFreeze s c) := Reaches.trans (Reaches.upd1 rfl) (Reaches.upd1 rfl)
  unfold listTick
  exact Reaches.ite (fun _ => Reaches.refl s) fun _ =>
    Reaches.ite (fun _ => (Reaches.emit ..).trans (triggerAbort_outputKept _)) fun _ =>
    Reaches.ite (fun _ => triggerAbort_outputKept s) fun _ =>
    Reaches.ite (fun _ => hfreeze) fun _ =>
    Reaches.ite (fun _ => hadvance) fun _ => Reaches.upd1 rfl

theorem ScanMove.trigOut_eq {cfg : Params} {a b : Channel} (h : ScanMove cfg a b) : b.trigOut = a.trigOut := by
  cases h with
  | sample _ r => cases r <;> rfl
  | snapshot q =>
    unfold Channel.takeSnapshot
    split
    · rfl
    · cases q <;> rfl
  | dropRprog => unfold rprogDropped; split <;> rfl
  | _ => rfl

/-- A tick switches an output on only by the execution that its delay check starts. -/
theorem tickAll_outEn {s : State} {c : Nat} (hoff : (s.chan c).outEn = false)
    (h : ((tickAll s).chan c).outEn = true) : (s.chan c).trigOut = true ∧ s.trigState = .triggered := by
  obtain ⟨u, hscan⟩ : ∃ u, u = (List.range s.nCh).foldl (tickChannel s.currentPrecs) s := ⟨_, rfl⟩
  have hu : ScanTo s u := hscan ▸ scan_moves s.currentPrecs s
  have huoff : (u.chan c).outEn = false :=
    Bool.eq_false_iff.mpr fun hon => by
      rw [(hu.tripsArmed c .ovp).outEn hon] at hoff; cases hoff
  have hutrigOut : (u.chan c).trigOut = (s.chan c).trigOut := hu.same _ (fun _ _ => ScanMove.trigOut_eq) c
  have hutrig : u.trigState = s.trigState := by rw [hscan, foldl_tickChannel_trigState]
  rw [tickAll_eq, ← hscan, OutputKept.outEn_eq (Reaches.foldl (listTick_outputKept _) ..)] at h
  unfold trigDelayCheck at h
  split at h
  next hfires => exact ⟨hutrigOut ▸ startImmediately_outEn huoff h, hutrig ▸ hfires.1⟩
  next => rw [huoff] at h; cases h

/-! ### Any command -/

/-- The command can execute the trigger at once (R255, R256). -/
def firesTrigger (s : State) (i : Instr) : Prop := (i = .init ∧ s.trigSource = 0) ∨ ∃ n, i = .trg n true

/-- With a source to wait for, `INIT` moves no channel. -/
theorem execInit_chans_of_source {s t : State} (h : execInit s = .next t) (hsource : s.trigSource ≠ 0) :
    t.chans = s.chans := by
  rw [execInit_eq] at h
  obtain ⟨-, rfl⟩ | ⟨-, h⟩ := require_next h
  · rfl
  obtain ⟨-, rfl⟩ | ⟨-, h⟩ := require_next h
  · rfl
  rw [if_neg hsource] at h
  cases h; rfl

/-- A command that names no channel moves no output and no setpoint, unless it is a tick or executes the
trigger. -/
theorem GlobalTo.drive {i : Instr} {s t : State} (h : GlobalTo s i t) (hexec : exec i s = .next t) :
    (∀ c, DriveKept (s.chan c) (t.chan c)) ∨
    (firesTrigger s i ∧ ∃ ip s1, s1.chans = s.chans ∧ t = startImmediately ip s1) ∨
    (i = .tick ∧ t = tickAll s.begin) := by
  have kept (h : t.chans = s.chans) (c : Nat) : DriveKept (s.chan c) (t.chan c) :=
    .of_eq (by rw [State.chan, State.chan, h])
  cases h with
  | keep _ _ _ _ _ hchans => exact .inl (kept hchans)
  | start _ s1 hi _ _ _ hchans =>
    obtain rfl | htrg := hi
    · by_cases hsource : s.trigSource = 0
      · exact .inr (.inl ⟨.inl ⟨rfl, hsource⟩, _, s1, hchans, rfl⟩)
      · exact .inl (kept (execInit_chans_of_source hexec hsource))
    · exact .inr (.inl ⟨.inr htrg, _, s1, hchans, rfl⟩)
  | tabort | labort => exact .inl (triggerAbort_driveKept s.begin)
  | labortLists => exact .inl (listAbortAll_driveKept s.begin)
  | tick => exact .inr (.inr ⟨rfl, rfl⟩)

theorem exec_drive {i : Instr} {s t : State} (h : exec i s = .next t) (c : Nat) :
    DriveBy c i (s.chan c) (t.chan c) ∨
    (firesTrigger s i ∧ ∃ ip s1, s1.chans = s.chans ∧ t = startImmediately ip s1) ∨
    (i = .tick ∧ t = tickAll s.begin) := by
  obtain ⟨c', hcmd⟩ | hglobal := exec_to h
  · exact .inl (hcmd.driveBy c)
  · exact (hglobal.drive h).imp_left fun hkept => (hkept c).by c i

/-- Settles O54: a command that names a channel announces what it moves; of the others only a tick and an
execution of the trigger move anything, and these switch on what the trigger asks for. -/
theorem writersOfSetpointsAndOutput : Obligations.WritersOfSetpointsAndOutput := by
  intro ins s t c hexec a b fired
  obtain ⟨hout, hu, hi⟩ | ⟨hfires, ip, s1, hchans, rfl⟩ | ⟨htick, rfl⟩ := exec_drive hexec c
  · refine ⟨fun ha hb => .inl ?_, fun ha hb => .inl ?_, fun hne => ?_, fun hne => ?_⟩
    · exact hb ▸ hout.resolve_left fun heq => Bool.noConfusion (hb.symm.trans (heq.trans ha))
    · exact hb ▸ hout.resolve_left fun heq => Bool.noConfusion (hb.symm.trans (heq.trans ha))
    · exact (hu.resolve_left hne).imp_right (Or.imp_right (Or.imp_right .inl))
    · exact (hi.resolve_left hne).imp_right (Or.imp_right (Or.imp_right (Or.imp_right .inl)))
  · have hfired : fired := hfires
    have hchan : s1.chan c = a := by rw [State.chan, hchans]; rfl
    refine ⟨fun ha hb => .inr ⟨?_, .inr hfired⟩, fun _ _ => ?_, fun _ => ?_, fun _ => ?_⟩
    · rw [← hchan] at ha ⊢
      exact startImmediately_outEn ha hb
    all_goals simp only [hfired, or_true]
  · refine ⟨fun ha hb => .inr ?_, fun _ _ => ?_, fun _ => ?_, fun _ => ?_⟩
    · obtain ⟨htrigOut, htrig⟩ := tickAll_outEn (s := s.begin) ha hb
      exact ⟨htrigOut, .inl ⟨htick, htrig⟩⟩
    all_goals simp only [htick, true_or, or_true]

end Sys2Proof.Machine

/-! ## The rules of `60_exceptions.md`: the gates of the commands, the status codes of each -/

namespace Sys2Proof.Machine

open Sys2Proof

/-! ### The channel gates (R346) -/

/-- A command that begins by looking its channel up. -/
def UsesChannel (c : Nat) (s : State) (o : Out) : Prop := ∃ k, o = onChannel c s k

/-- A command that goes on by asking for a healthy channel. -/
def NeedsHealth (c : Nat) (s : State) (o : Out) : Prop :=
  ∃ k : State → Channel → Out, o = onChannel c s fun s ch => require (s.pin c).healthy .health s (k s ch)

theorem UsesChannel.absent {c : Nat} {s : State} {o : Out} (h : UsesChannel c s o) (hc : s.nCh ≤ c) :
    o = .next (s.failed .channel) := by
  obtain ⟨k, rfl⟩ := h
  exact onChannel_of_ge hc k

theorem NeedsHealth.unhealthy {c : Nat} {s : State} {o : Out} (h : NeedsHealth c s o) (hc : c < s.nCh)
    (hun : (s.pin c).healthy = false) : o = .next (s.failed .health) := by
  obtain ⟨k, rfl⟩ := h
  rw [onChannel_of_lt hc, State.begin_pin, hun, require_false]
  rfl

/-- Settles O9: every listed command is `onChannel` of its own rule, and that of a gated one starts with the
health check; `RD` looks a channel up for a register below 0x100, and `OUTEN` has the health check inside
`outputRefusal`. -/
theorem channelGatesOfTheCommands : Obligations.ChannelGatesOfTheCommands := by
  refine ⟨?_, ?_⟩
  · intro s c q k t f a m tm v n b hc i hi
    have hrd : UsesChannel c s (exec (.rd c (n % 0x100)) s) :=
      ⟨_, execRd_of_channel (Nat.mod_lt n (by decide)) s c⟩
    refine UsesChannel.absent ?_ hc
    simp only [List.mem_cons, List.not_mem_nil, or_false] at hi
    rcases hi with rfl | rfl | rfl | rfl | rfl | rfl | rfl | rfl | rfl | rfl | rfl | rfl | rfl | rfl | rfl |
      rfl | rfl | rfl | rfl | rfl | rfl | rfl | rfl | rfl | rfl | rfl | rfl | rfl | rfl | rfl | rfl | rfl | rfl | rfl
    on_goal -1 => exact hrd
    all_goals exact ⟨_, by unfold exec; rfl⟩
  · intro s c m v b hc hun i hi
    have houten : exec (.outen c b) s = .next (s.failed .health) :=
      execOuten_of_refused hc (by rw [outputRefusal, hun]; rfl) (by decide)
    simp only [List.mem_cons, List.not_mem_nil, or_false] at hi
    rcases hi with rfl | rfl | rfl | rfl | rfl | rfl | rfl | rfl | rfl | rfl | rfl
    on_goal 8 => exact houten
    all_goals exact NeedsHealth.unhealthy ⟨_, by unfold exec; rfl⟩ hc hun

/-! ### The status codes of each command (R342) -/

/-- A command that answers `OK` or one of `codes`, if it answers at all. -/
def AnswersIn (codes : List Status) (o : Out) : Prop :=
  ∀ t, o = .next t → t.resp.status ≠ .ok → t.resp.status ∈ codes

namespace AnswersIn

variable {codes : List Status} {s : State}

theorem ok {t : State} (h : t.resp.status = .ok) : AnswersIn codes (.next t) := by
  intro t' ht hne
  cases ht
  exact absurd h hne

theorem refused {e : Status} (he : e ≠ .ok → e ∈ codes) : AnswersIn codes (.next (s.failed e)) := by
  intro t ht hne
  cases ht
  exact he hne

/-- An operation of a tick, a trigger or a list leaves the response as it finds it. -/
theorem of_frame {u t : State} (h : Frame u t) (hu : u.resp.status = .ok) : AnswersIn codes (.next t) :=
  ok (by rw [h.resp, hu])

theorem onChannel {c : Nat} {k : State → Channel → Out} (he : Status.channel ∈ codes)
    (h : c < s.nCh → AnswersIn codes (k s.begin (s.chan c))) : AnswersIn codes (onChannel c s k) := by
  by_cases hc : c < s.nCh
  · rw [onChannel_of_lt hc]; exact h hc
  · rw [onChannel_of_ge (Nat.not_lt.mp hc)]; exact refused fun _ => he

theorem require {b : Bool} {e : Status} {k : Out} (he : e ≠ .ok → e ∈ codes) (h : AnswersIn codes k) :
    AnswersIn codes (require b e s k) := by
  cases b with
  | false => exact refused he
  | true => exact h

theorem ite {p : Prop} [Decidable p] {o o' : Out} (h : AnswersIn codes o) (h' : AnswersIn codes o') :
    AnswersIn codes (if p then o else o') := by
  split
  · exact h
  · exact h'

end AnswersIn

/-- The codes of the limit check (R173). -/
theorem checkPoint_mem (ch : Channel) (v i : Int) (hne : checkPoint ch v i ≠ .ok) :
    checkPoint ch v i ∈ [.range, .voltageLimit, .currentLimit, .powerLimit] := by
  unfold checkPoint at *
  split_ifs at * <;> simp at *

/-- With the current setpoint inside its limit the check has no current to refuse (R174). -/
theorem checkPoint_mem_of_current {ch : Channel} (h : ch.i.set.toInt ≤ ch.i.limit.toInt) (v : Int)
    (hne : checkPoint ch v ch.i.set.toInt ≠ .ok) :
    checkPoint ch v ch.i.set.toInt ∈ [.range, .voltageLimit, .powerLimit] := by
  unfold checkPoint at *
  rw [if_neg h.not_gt] at *
  split_ifs at * <;> simp at *

/-- With the voltage setpoint inside its limit the check has no voltage to refuse (R175). -/
theorem checkPoint_mem_of_voltage {ch : Channel} (h : ch.u.set.toInt ≤ ch.u.limit.toInt) (i : Int)
    (hne : checkPoint ch ch.u.set.toInt i ≠ .ok) :
    checkPoint ch ch.u.set.toInt i ∈ [.range, .currentLimit, .powerLimit] := by
  unfold checkPoint at *
  rw [if_neg h.not_gt] at *
  split_ifs at * <;> simp at *

/-- The codes of the precondition check of a trigger (R254). -/
def triggerCodes : List Status :=
  [.trigModeMismatch, .trigRprog, .listLengths, .range, .voltageLimit, .currentLimit, .powerLimit, .trigAllFixed]

theorem limitCodes_subset : [.range, .voltageLimit, .currentLimit, .powerLimit] ⊆ triggerCodes := by
  decide

theorem listFault_mem {cfg : Params} {p : Int} {ch : Channel} {e : Status} (h : listFault cfg p ch = some e) :
    e ∈ triggerCodes := by
  obtain ⟨j, -, hj⟩ := List.exists_of_findSome?_eq_some h
  dsimp only at hj
  split at hj
  · cases hj
  · cases hj
    exact limitCodes_subset (checkPoint_mem _ _ _ ‹_›)

theorem channelFault_mem {cfg : Params} {p : Int} {ch : Channel} {e : Status}
    (h : channelFault cfg p ch = some e) : e ∈ triggerCodes := by
  by_cases hmodes : ch.trigModeU = ch.trigModeI
  · cases hm : ch.trigModeU with
    | fixed => rw [channelFault_of_fixed hmodes hm] at h; cases h
    | list =>
      rw [channelFault_of_list hmodes hm] at h
      split_ifs at h
      · cases h; decide
      · cases h; decide
      · exact listFault_mem h
    | step =>
      rw [channelFault_of_step hmodes hm] at h
      split_ifs at h with hrprog hcheck
      · cases h; decide
      · cases h; exact limitCodes_subset (checkPoint_mem _ _ _ hcheck)
  · rw [channelFault_of_mismatch hmodes] at h
    cases h; decide

theorem checkTrigger_mem (ip : Nat → Int) (s : State) (hne : checkTrigger ip s ≠ .ok) :
    checkTrigger ip s ∈ triggerCodes := by
  unfold checkTrigger at *
  split at *
  next he =>
    obtain ⟨c, -, hc⟩ := List.exists_of_findSome?_eq_some he
    exact channelFault_mem hc
  next =>
    split_ifs at hne ⊢
    · exact absurd rfl hne
    · decide

/-- An output request is refused for the channel's health or for a trip (R185). -/
theorem outputRefusal_mem (s : State) (c : Nat) (b : Bool) (hne : outputRefusal s c b ≠ .ok) :
    outputRefusal s c b ∈ [.channel, .health, .tripped] := by
  unfold outputRefusal at *
  split_ifs at * <;> simp at *

theorem execInit_answersIn (s : State) : AnswersIn (.trigState :: triggerCodes) (execInit s) := by
  rw [execInit_eq]
  refine .require (fun _ => List.mem_cons_self) (.require (fun h => ?_) (.of_frame (u := s.begin) ?_ rfl))
  · exact List.mem_cons_of_mem _ (checkTrigger_mem _ _ h)
  · exact (startImmediately_frame ..).ite ⟨rfl, rfl, rfl, rfl, rfl, rfl, rfl, rfl, rfl⟩

theorem execRd_answersIn (c reg : Nat) (s : State) : AnswersIn [.illegal, .channel, .range] (execRd c reg s) := by
  refine .ite (.require (fun _ => by decide) ?_) (.onChannel (by decide) fun _ => ?_)
  · split
    · exact .ok rfl
    · exact .refused fun _ => by decide
  · split
    · exact .ok rfl
    · exact .refused fun _ => by decide

/-- Settles O8: a command refuses with the codes of its gates and checks, and past them answers `OK`. -/
theorem statusCodesOfEachCommand : Obligations.StatusCodesOfEachCommand := by
  intro i s t hsets hexec
  have hset {c : Nat} (hc : c < s.nCh) := hsets _ (State.chan_mem hc)
  revert t
  cases i with dsimp only [exec]
  | fadd | faddr | frst | tophys | toraw | rauto | pclr | tmode | tlev | tout | lsaved =>
    exact AnswersIn.onChannel (by decide) fun _ => .ok rfl
  | calpt | calclr | pstate | pdelay | plevel | pdis | lget =>
    exact AnswersIn.onChannel (by decide) fun _ => .require (fun _ => by decide) (.ok rfl)
  | calcommit | llen | lcount =>
    exact AnswersIn.onChannel (by decide) fun _ =>
      .require (fun _ => by decide) (.require (fun _ => by decide) (.ok rfl))
  | calen =>
    refine AnswersIn.onChannel (by decide) fun _ =>
      .require (fun _ => by decide) (.require (fun _ => by decide) (.ite (.ok rfl) ?_))
    exact .of_frame ((applyVoltage_frame ..).trans (applyCurrent_frame ..)) rfl
  | rmode =>
    exact AnswersIn.onChannel (by decide) fun _ =>
      .require (fun _ => by decide) (.of_frame (applyCurrent_frame ..) rfl)
  | setv =>
    refine AnswersIn.onChannel (by decide) fun hc =>
      .require (fun _ => by decide) (.require (fun he => ?_) (.ok rfl))
    exact List.mem_cons_of_mem _ (List.mem_cons_of_mem _ (checkPoint_mem_of_current (hset hc).2 _ he))
  | seti =>
    refine AnswersIn.onChannel (by decide) fun hc =>
      .require (fun _ => by decide) (.require (fun he => ?_) (.of_frame (applyCurrent_frame ..) rfl))
    exact List.mem_cons_of_mem _ (List.mem_cons_of_mem _ (checkPoint_mem_of_voltage (hset hc).1 _ he))
  | limv =>
    exact AnswersIn.onChannel (by decide) fun _ =>
      .require (fun _ => by decide) (.of_frame ((applyVoltage_frame ..).ite (Frame.emit ..)) rfl)
  | limi | limp =>
    exact AnswersIn.onChannel (by decide) fun _ =>
      .require (fun _ => by decide) (.of_frame ((applyCurrent_frame ..).ite (Frame.emit ..)) rfl)
  | outen =>
    exact AnswersIn.onChannel (by decide) fun _ =>
      .require (outputRefusal_mem _ _ _) (.of_frame (requestOutput_frame ..) rfl)
  | sense =>
    exact AnswersIn.onChannel (by decide) fun _ => .require (fun _ => by decide) (.ite (.ok rfl) (.ok rfl))
  | rprog =>
    exact AnswersIn.onChannel (by decide) fun _ =>
      .require (fun _ => by decide) (.ite (.ok rfl) (.ite (.ok rfl) (.ok rfl)))
  | tsrc | tdelay | tcont => exact AnswersIn.ok rfl
  | init => exact execInit_answersIn s
  | trg =>
    exact AnswersIn.require (s := s.begin) (fun _ => by decide)
      (.of_frame ((trigDelayCheck_frame ..).ite (Frame.refl _)) rfl)
  | tabort => exact AnswersIn.of_frame (triggerAbort_frame s.begin) rfl
  | lset | lstart =>
    exact AnswersIn.onChannel (by decide) fun _ =>
      .require (fun _ => by decide) (.require (fun _ => by decide) (.require (fun _ => by decide) (.ok rfl)))
  | labort => exact AnswersIn.of_frame ((triggerAbort_frame s.begin).ite (listAbortAll_frame s.begin)) rfl
  | tick => exact fun t ht => AnswersIn.of_frame (execTick_next ht ▸ tickAll_frame s.begin) rfl t rfl
  | rd c reg => exact execRd_answersIn c reg s

end Sys2Proof.Machine

/-! ## The rules of `70_reset_and_hazards.md`: the reset state -/

namespace Sys2Proof.Machine

open Sys2Proof

/-! ### The reset values (R371) -/

section
variable {cfg : Params} {boards : List Board} {pins : Pins}

theorem resetOf_nCh : (State.resetOf cfg boards pins).nCh = boards.length := by
  rw [State.nCh, State.resetOf, List.length_map]

theorem resetOf_chan {c : Nat} {b : Board} (h : boards[c]? = some b) :
    (State.resetOf cfg boards pins).chan c = Channel.resetOf cfg b := by
  rw [State.chan, State.resetOf, List.getElem?_map, h]
  rfl

theorem forall_mem_resetOf_chans {P : Channel → Prop} :
    (∀ ch ∈ (State.resetOf cfg boards pins).chans, P ch) ↔ ∀ b ∈ boards, P (Channel.resetOf cfg b) :=
  List.forall_mem_map

end

/-- A filter at reset: `w` zeros, and nothing measured. -/
theorem filterZero_reset (w : Nat) :
    (Filter.zero w).buf.length = w ∧ (∀ x ∈ (Filter.zero w).buf, x = 0) ∧ (Filter.zero w).idx = 0 ∧
    (Filter.zero w).sum = 0 ∧ (Filter.zero w).seeded = false :=
  ⟨List.length_replicate, fun _ h => List.eq_of_mem_replicate h, rfl, rfl, rfl⟩

/-- Settles O10: every value is the one that `Channel.resetOf` and `State.resetOf` write down. -/
theorem resetValues : Obligations.ResetValues := by
  intro cfg boards pins s
  refine ⟨resetOf_nCh, rfl, rfl, rfl, rfl, rfl, fun c b hb => ?_⟩
  have hchan : s.chan c = Channel.resetOf cfg b := resetOf_chan hb
  rw [hchan]
  have hfilters : ∀ f ∈ [Filter.zero cfg.filterW, Filter.zero cfg.filterW, Filter.zero cfg.filterW,
      Filter.zero cfg.filterW],
      f.buf.length = cfg.filterW ∧ (∀ x ∈ f.buf, x = 0) ∧ f.idx = 0 ∧ f.sum = 0 ∧ f.seeded = false := by
    intro f hf
    obtain rfl : f = Filter.zero cfg.filterW := by simpa using hf
    exact filterZero_reset _
  have hprot (k : Kind) : (Channel.resetOf cfg b).prot.get k =
      ProtRec.resetOf (b.pdlyDef.get k) (b.plvlMax.get k) := by cases k <;> rfl
  have hcal (t : ConvSet) : (Channel.resetOf cfg b).cal.get t = CalSet.zero := by cases t <;> rfl
  have hcal' (t : ConvSet) : ((Channel.resetOf cfg b).cal.get t).present = false ∧
      ∀ f, ((Channel.resetOf cfg b).cal.get t).field f = 0 := by
    rw [hcal]
    exact ⟨rfl, fun f => by cases f <;> rfl⟩
  have hlist (a : ListArray) : (Channel.resetOf cfg b).list.len.get a = 0 ∧
      ∀ k, (Channel.resetOf cfg b).listRead a k = 0 := by cases a <;> exact ⟨rfl, fun _ => rfl⟩
  exact ⟨rfl,
    rfl, rfl, rfl, rfl, rfl, rfl, rfl, rfl, rfl, rfl, rfl, rfl, rfl,
    hfilters, rfl, rfl, rfl, rfl, rfl, rfl,
    rfl, rfl, rfl, rfl, rfl, rfl, rfl, rfl, rfl, rfl, rfl, rfl,
    fun k => by rw [hprot]; exact ⟨rfl, rfl, rfl, rfl, rfl, rfl⟩, hcal',
    rfl, rfl, rfl, rfl, rfl, rfl, rfl, rfl, rfl, rfl, rfl,
    List.length_replicate, fun _ h => List.eq_of_mem_replicate h, rfl, rfl, rfl,
    hlist, rfl, rfl, rfl, rfl, rfl, rfl, rfl, rfl, rfl, rfl, rfl, rfl, rfl, rfl⟩

/-! ### The invariants at reset (R5, R6, R371) -/

theorem Filter.zero_ok {w : Nat} (hw : 1 ≤ w) : (Filter.zero w).ok w :=
  ⟨List.length_replicate, hw, by simp [Filter.zero]⟩

theorem resetOf_anyTripped (cfg : Params) (b : Board) : (Channel.resetOf cfg b).anyTripped = false := rfl

theorem resetOf_latchOk (cfg : Params) (b : Board) : (Channel.resetOf cfg b).latchOk := by
  have hclear := (anyTripped_eq_false_iff _).mp (resetOf_anyTripped cfg b)
  refine ⟨fun k => (statusBit_zero k).trans (hclear k).symm, fun h => ?_, fun k _ hk => ?_⟩
  · rw [resetOf_anyTripped] at h; cases h
  · rw [hclear k] at hk; cases hk

theorem resetOf_memoryOk (cfg : Params) (b : Board) : (Channel.resetOf cfg b).memoryOk := by
  intro a
  cases a <;> rfl

theorem resetOf_cursorOk {cfg : Params} (h : 1 ≤ cfg.countMax) (b : Board) :
    (Channel.resetOf cfg b).cursorOk cfg :=
  Channel.cursorOk_of_rest ⟨le_refl 1, h⟩ ⟨rfl, rfl⟩

/-- What the constraints of R6 say of the bounds of a board. -/
structure BoardBounds (b : Board) : Prop where
  uDef : b.uMin.toInt ≤ b.uDef.toInt ∧ b.uDef.toInt ≤ b.uMax.toInt
  iDef : b.iMin.toInt ≤ b.iDef.toInt ∧ b.iDef.toInt ≤ b.iMax.toInt
  power : b.pMin.toInt ≤ b.pMax.toInt

theorem Board.bounds_of_ok {b : Board} (h : b.ok = true) : BoardBounds b := by
  simp only [Board.ok, Bool.and_eq_true, decide_eq_true_eq] at h
  obtain ⟨⟨⟨⟨⟨⟨⟨⟨⟨-, hu⟩, hu'⟩, -⟩, hi⟩, hi'⟩, -⟩, hp⟩, -⟩, -⟩ := h
  exact ⟨⟨hu, hu'⟩, ⟨hi, hi'⟩, hp⟩

/-- With no set in existence the effective bounds are the board's. -/
theorem resetOf_recomputeBounds (cfg : Params) {b : Board} (h : BoardBounds b) :
    recomputeBounds cfg (Channel.resetOf cfg b) = Channel.resetOf cfg b := by
  have hu : uBounds (Channel.resetOf cfg b) = (b.uMin.toInt, b.uMax.toInt) := rfl
  have hi : iBounds cfg (Channel.resetOf cfg b) = (b.iMin.toInt, b.iMax.toInt) := rfl
  have hboard : (Channel.resetOf cfg b).board = b := rfl
  rw [recomputeBounds, hu, hi, hboard]
  dsimp only
  rw [clamp_of_mem h.uDef.1 h.uDef.2, clamp_of_mem h.iDef.1 h.iDef.2]
  simp only [toVal, BitVec.ofInt_toInt]
  rfl

theorem resetOf_calOk {cfg : Params} {b : Board} (h : b.ok = true) (hlow : b.iMin.toInt ≤ cfg.iLowMax) :
    (Channel.resetOf cfg b).calOk cfg := by
  refine ⟨h, hlow, fun t hpresent => ?_, resetOf_recomputeBounds cfg (Board.bounds_of_ok h)⟩
  cases t <;> cases hpresent

theorem resetOf_boundsOk {cfg : Params} {b : Board} (h : BoardBounds b) :
    (Channel.resetOf cfg b).boundsOk := by
  obtain ⟨⟨hu, hu'⟩, ⟨hi, hi'⟩, hp⟩ := h
  exact ⟨hu.trans hu', le_refl _, hu', .inl hu, hi.trans hi', le_refl _, hi', .inl hi, hp, le_refl _⟩

theorem resetOf_configured {cfg : Params} {boards : List Board} {pins : Pins} (hcfg : cfg.ok = true)
    (hboards : ∀ b ∈ boards, b.ok = true) (hn : 1 ≤ boards.length ∧ boards.length ≤ 16) :
    (State.resetOf cfg boards pins).configured := by
  have hmap : (State.resetOf cfg boards pins).chans.map Channel.board = boards := by
    rw [State.resetOf, List.map_map]
    exact List.map_id _
  rw [State.configured, hmap]
  show cfg.okFor boards = true
  rw [Params.okFor, hcfg, decide_eq_true hn, List.all_eq_true.mpr hboards]
  rfl

/-- Settles O60: each invariant holds of `Channel.resetOf` of every board that meets the constraints. -/
theorem resetMeetsTheInvariants : Obligations.ResetMeetsTheInvariants := by
  intro cfg boards pins hcfg hboards s
  have hparams : 1 ≤ cfg.filterW ∧ 1 ≤ cfg.countMax ∧ cfg.countMax ≤ 2147483647 := by
    simp only [Params.ok, Bool.and_eq_true, decide_eq_true_eq] at hcfg
    tauto
  obtain ⟨hw, hcount, hmax⟩ := hparams
  have hzero := Filter.zero_ok hw
  refine ⟨?_, ⟨hw, ?_⟩, ?_, ⟨hmax, ?_⟩, ?_, fun hone hmost => ⟨?_, ?_, ?_⟩⟩
  · exact forall_mem_resetOf_chans.mpr fun b _ => resetOf_latchOk cfg b
  · exact forall_mem_resetOf_chans.mpr fun _ _ => ⟨hzero, hzero, hzero, hzero⟩
  · exact forall_mem_resetOf_chans.mpr fun b _ => resetOf_memoryOk cfg b
  · exact forall_mem_resetOf_chans.mpr fun b _ => resetOf_cursorOk hcount b
  · refine forall_mem_resetOf_chans.mpr fun b hb => ?_
    obtain ⟨hok, hlow⟩ := hboards b hb
    exact ⟨resetOf_calOk hok hlow, resetOf_boundsOk (Board.bounds_of_ok hok)⟩
  · exact resetOf_configured hcfg (fun b hb => (hboards b hb).1) ⟨hone, hmost⟩
  · exact resetOf_nCh ▸ hone
  · exact resetOf_nCh ▸ hmost

end Sys2Proof.Machine

/-! ## The rules of `40_filter.md` over a step: the running sums -/

namespace Sys2Proof.Machine

open Sys2Proof

/-! ### The filters of a channel (R20, R22) -/

/-- Both filters of a value record are as they must be. -/
structure ValueRec.FiltersOk (w : Nat) (r : ValueRec) : Prop where
  f : r.f.ok w
  fd : r.fd.ok w

/-- All four filters of a channel are. -/
structure Channel.FiltersOk (w : Nat) (ch : Channel) : Prop where
  u : ch.u.FiltersOk w
  i : ch.i.FiltersOk w

theorem filterInv_iff (s : State) :
    FilterInv s ↔ 1 ≤ s.cfg.filterW ∧ ∀ ch ∈ s.chans, ch.FiltersOk s.cfg.filterW := by
  refine and_congr_right fun _ => forall₂_congr fun ch _ => ⟨?_, ?_⟩
  · rintro ⟨huf, hufd, hif, hifd⟩
    exact ⟨⟨huf, hufd⟩, ⟨hif, hifd⟩⟩
  · rintro ⟨⟨huf, hufd⟩, ⟨hif, hifd⟩⟩
    exact ⟨huf, hufd, hif, hifd⟩

/-! ### What writes a filter (R101, R103)

A sample goes into one filter of a record by `filterAdd`, and a reset empties both; nothing else writes one. -/

section
variable {w : Nat} {r : ValueRec} {a b : Channel}

theorem ValueRec.FiltersOk.addMon (hr : r.FiltersOk w) (hw : 1 ≤ w) (v : Rat) (p : Int) :
    (r.addMon w v p).FiltersOk w :=
  ⟨filterAdd_ok hw (fun _ => hr.f) v p, hr.fd⟩

theorem ValueRec.FiltersOk.addMonDac (hr : r.FiltersOk w) (hw : 1 ≤ w) (v : Rat) (p : Int) :
    (r.addMonDac w v p).FiltersOk w :=
  ⟨hr.f, filterAdd_ok hw (fun _ => hr.fd) v p⟩

theorem ValueRec.filtersOk_filterReset (hw : 1 ≤ w) (r : ValueRec) : (filterReset w r).FiltersOk w :=
  ⟨Filter.zero_ok hw, Filter.zero_ok hw⟩

/-- The condition depends on the four filters alone. -/
theorem Channel.FiltersOk.of_eq (ha : a.FiltersOk w) (huf : b.u.f = a.u.f) (hufd : b.u.fd = a.u.fd)
    (hif : b.i.f = a.i.f) (hifd : b.i.fd = a.i.fd) : b.FiltersOk w :=
  ⟨⟨huf ▸ ha.u.f, hufd ▸ ha.u.fd⟩, ⟨hif ▸ ha.i.f, hifd ▸ ha.i.fd⟩⟩

theorem Channel.FiltersOk.record (ha : a.FiltersOk w) (q : Quantity) : (a.record q).FiltersOk w := by
  cases q with
  | u => exact ha.u
  | i => exact ha.i

theorem Channel.FiltersOk.setRecord (ha : a.FiltersOk w) (q : Quantity) {f : ValueRec → ValueRec}
    (hf : (f (a.record q)).FiltersOk w) : (a.setRecord q f).FiltersOk w := by
  cases q with
  | u => exact ⟨hf, ha.i⟩
  | i => exact ⟨ha.u, hf⟩

/-- A sample of each monitor input goes into its own filter (R322). -/
theorem Channel.FiltersOk.takeSample {cfg : Params} (ha : a.FiltersOk cfg.filterW) (hw : 1 ≤ cfg.filterW)
    (p : Int) (r : AdcInput) (code : Val) : (a.takeSample cfg p r code).FiltersOk cfg.filterW := by
  have hu : { a.u with adc := code }.FiltersOk cfg.filterW := ⟨ha.u.f, ha.u.fd⟩
  have hi : { a.i with adc := code }.FiltersOk cfg.filterW := ⟨ha.i.f, ha.i.fd⟩
  cases r with
  | uMon => exact ⟨hu.addMon hw _ _, ha.i⟩
  | iMon => exact ⟨ha.u, hi.addMon hw _ _⟩
  | uMonDac => exact ⟨ha.u.addMonDac hw _ _, ha.i⟩
  | iMonDac => exact ⟨ha.u, ha.i.addMonDac hw _ _⟩

end

theorem takeSnapshot_records (ch : Channel) (q : Quantity) :
    (ch.takeSnapshot q).u = ch.u ∧ (ch.takeSnapshot q).i = ch.i := by
  unfold Channel.takeSnapshot
  split
  · exact ⟨rfl, rfl⟩
  · cases q <;> exact ⟨rfl, rfl⟩

theorem rprogDropped_records (ch : Channel) : (rprogDropped ch).u = ch.u ∧ (rprogDropped ch).i = ch.i := by
  unfold rprogDropped
  split <;> exact ⟨rfl, rfl⟩

/-! ### The invariant of the sums (R22, R102 (a)) -/

section
variable {cfg : Params} {a b : Channel}

/-- The per-channel part of a tick adds samples by `filterAdd` (R322). -/
theorem ScanMove.filtersOk (h : ScanMove cfg a b) (hw : 1 ≤ cfg.filterW) (ha : a.FiltersOk cfg.filterW) :
    b.FiltersOk cfg.filterW := by
  cases h with
  | sample p r code => exact ha.takeSample hw p r code
  | snapshot q =>
    obtain ⟨hu, hi⟩ := takeSnapshot_records a q
    exact ⟨hu ▸ ha.u, hi ▸ ha.i⟩
  | dropRprog =>
    obtain ⟨hu, hi⟩ := rprogDropped_records a
    exact ⟨hu ▸ ha.u, hi ▸ ha.i⟩
  | _ => exact ha.of_eq rfl rfl rfl rfl

/-- The trigger and list steps write no filter. -/
theorem RunMove.filtersOk (h : RunMove cfg a b) {w : Nat} (ha : a.FiltersOk w) : b.FiltersOk w := by
  cases h <;> exact ha.of_eq rfl rfl rfl rfl

/-- Of the commands only the filter commands write filters (R104 to R106). -/
theorem CmdMove.filtersOk {c : Nat} {i : Instr} (h : CmdMove cfg c i a b) (hw : 1 ≤ cfg.filterW)
    (ha : a.FiltersOk cfg.filterW) : b.FiltersOk cfg.filterW := by
  cases h with
  | fadd _ q v => exact ha.setRecord q ((ha.record q).addMon hw _ _)
  | faddr _ q v => exact ha.setRecord q ((ha.record q).addMonDac hw _ _)
  | frst _ q => exact ha.setRecord q (ValueRec.filtersOk_filterReset hw _)
  | _ => exact ha.of_eq rfl rfl rfl rfl

end

/-- Settles O56: a filter is written by `filterAdd` or emptied, and both leave a ring with its sum. -/
theorem everyStepKeepsTheFilterSums : Obligations.EveryStepKeepsTheFilterSums := by
  intro s t hs hstep
  rw [filterInv_iff] at hs ⊢
  obtain ⟨hw, hs⟩ := hs
  obtain ⟨hcfg, ht⟩ := step_all (P := fun cfg ch => 1 ≤ cfg.filterW → ch.FiltersOk cfg.filterW)
    (fun _ _ _ _ _ h ha hw => h.filtersOk hw (ha hw)) (fun _ _ _ h ha hw => h.filtersOk hw (ha hw))
    (fun _ _ _ h ha hw => h.filtersOk (ha hw)) hstep fun ch hch _ => hs ch hch
  exact hcfg ▸ ⟨hw, fun ch hch => ht ch hch hw⟩

end Sys2Proof.Machine

/-! ## The rules of `10_state.md`: the register map -/

namespace Sys2Proof.Machine

open Sys2Proof

/-! ### Numbers of one bit and of two (R45) -/

@[simp] theorem toNat_boolVal (b : Bool) : (boolVal b).toNat = b.toNat := by cases b <;> rfl

@[simp] theorem getLsbD_bit (b : Bool) (k : Nat) : (bit b).getLsbD k = (decide (k = 0) && b) := by
  unfold bit
  rw [BitVec.getLsbD_ofBool]

/-- `PFLAGS[k]`: bit 0 `tripped`, bit 1 `alarmed`. -/
@[simp] theorem ProtRec.toNat_flagsWord (p : ProtRec) :
    p.flagsWord.toNat = p.tripped.toNat + 2 * p.alarmed.toNat := by
  unfold ProtRec.flagsWord
  cases p.tripped <;> cases p.alarmed <;> rfl

@[simp] theorem Channel.toNat_statusWord (ch : Channel) : ch.statusWord.toNat = ch.status.toNat :=
  BitVec.toNat_setWidth_of_le (by decide)

@[simp] theorem RangeMode.toNat_num (m : RangeMode) : (BitVec.ofNat 2 m.num).toNat = m.num := by
  cases m <;> rfl

@[simp] theorem TrigMode.toNat_num (m : TrigMode) : (BitVec.ofNat 2 m.num).toNat = m.num := by
  cases m <;> rfl

@[simp] theorem toNat_awaitNum (a : Option AdcInput) : (BitVec.ofNat 3 (awaitNum a)).toNat = awaitNum a := by
  rcases a with _ | _ | _ | _ | _ <;> rfl

@[simp] theorem TrigState.toNat_num (x : TrigState) : (BitVec.ofNat 32 x.num).toNat = x.num := by
  cases x <;> rfl

/-! ### The bits of the flag words (R45) -/

/-- A slice of a word is known by its bits. -/
theorem extractLsb'_eq_of_bits {n start len : Nat} {x : BitVec n} {y : BitVec len}
    (h : ∀ k < len, x.getLsbD (start + k) = y.getLsbD k) : x.extractLsb' start len = y := by
  refine BitVec.eq_of_getLsbD_eq fun k hk => ?_
  rw [BitVec.getLsbD_extractLsb', decide_eq_true hk, Bool.true_and, h k hk]

/-- The one-bit flags of `FLAGS`. -/
theorem Channel.flagsWord_bits (ch : Channel) :
    ∀ p ∈ ([(0, ch.outEn), (1, ch.sense), (2, ch.rprog), (3, ch.cv), (4, ch.cc), (5, ch.calEn),
        (6, ch.range.isLow), (9, ch.autoRange), (10, ch.dpOn), (11, ch.rprogAlarm), (12, ch.u.f.seeded),
        (13, ch.i.f.seeded), (14, ch.u.fd.seeded), (15, ch.i.fd.seeded), (16, ch.dpOffPending),
        (17, ch.dpNegActive), (18, ch.uBal.valid), (19, ch.iBal.valid)] : List (Nat × Bool)),
      ch.flagsWord.getLsbD p.1 = p.2 := by
  simp only [List.forall_mem_cons, Channel.flagsWord, BitVec.getLsbD_append, getLsbD_bit]
  simp

theorem Channel.flagsWord_rangeMode (ch : Channel) :
    ch.flagsWord.extractLsb' 7 2 = BitVec.ofNat 2 ch.rangeMode.num := by
  refine extractLsb'_eq_of_bits fun k hk => ?_
  simp only [Channel.flagsWord, BitVec.getLsbD_append]
  interval_cases k <;> simp

theorem Channel.flagsWord_adcAwait (ch : Channel) :
    ch.flagsWord.extractLsb' 20 3 = BitVec.ofNat 3 (awaitNum ch.adcAwait) := by
  refine extractLsb'_eq_of_bits fun k hk => ?_
  simp only [Channel.flagsWord, BitVec.getLsbD_append]
  interval_cases k <;> simp

theorem Channel.flagsWord_reserved (ch : Channel) : ch.flagsWord.extractLsb' 23 9 = 0 := by
  refine extractLsb'_eq_of_bits fun k hk => ?_
  simp only [Channel.flagsWord, BitVec.getLsbD_append]
  interval_cases k <;> simp

theorem Channel.trigFlagsWord_bits (ch : Channel) :
    ch.trigFlagsWord.getLsbD 0 = ch.trigInProg ∧ ch.trigFlagsWord.getLsbD 1 = ch.trigOut := by
  simp only [Channel.trigFlagsWord, BitVec.getLsbD_append, getLsbD_bit]
  simp

theorem Channel.trigFlagsWord_modes (ch : Channel) :
    ch.trigFlagsWord.extractLsb' 2 2 = BitVec.ofNat 2 ch.trigModeU.num ∧
    ch.trigFlagsWord.extractLsb' 4 2 = BitVec.ofNat 2 ch.trigModeI.num := by
  refine ⟨extractLsb'_eq_of_bits fun k hk => ?_, extractLsb'_eq_of_bits fun k hk => ?_⟩ <;>
    simp only [Channel.trigFlagsWord, BitVec.getLsbD_append] <;> interval_cases k <;> simp

theorem Channel.trigFlagsWord_reserved (ch : Channel) : ch.trigFlagsWord.extractLsb' 6 26 = 0 := by
  refine extractLsb'_eq_of_bits fun k hk => ?_
  simp only [Channel.trigFlagsWord, BitVec.getLsbD_append]
  interval_cases k <;> simp

/-! ### The two halves of the on-time counter (R45) -/

theorem toNat_lowHalf (x : BitVec 64) : (x.extractLsb' 0 32).toNat = x.toNat % 2 ^ 32 := by
  rw [BitVec.extractLsb'_toNat, Nat.shiftRight_zero]

theorem toNat_highHalf (x : BitVec 64) : (x.extractLsb' 32 32).toNat = x.toNat / 2 ^ 32 := by
  rw [BitVec.extractLsb'_toNat, Nat.shiftRight_eq_div_pow]
  exact Nat.mod_eq_of_lt (by omega)

/-! ### The assigned numbers (R45) -/

/-- The numbers that the per-channel register map assigns; no channel changes them. -/
def regNumbers : List Nat := (Channel.regTable default).map Prod.fst

theorem Channel.regTable_numbers (ch : Channel) : ch.regTable.map Prod.fst = regNumbers := rfl

theorem Channel.readReg_eq_none_iff (ch : Channel) (reg : Nat) : ch.readReg reg = none ↔ reg ∉ regNumbers := by
  simp only [Channel.readReg, List.lookup_eq_none_iff, ← ch.regTable_numbers, List.mem_map, bne_iff_ne, ne_eq]
  exact ⟨fun h ⟨p, hp, he⟩ => h p hp he.symm, fun h p hp he => h ⟨p, hp, he.symm⟩⟩

/-- The assigned numbers as runs: value records, limits and clocks, protections and their alarm times, list and
cursor, trigger, the three calibration sets. -/
theorem regNumbers_eq_runs :
    regNumbers =
      List.range' 0x00 9 ++ List.range' 0x10 9 ++ List.range' 0x20 8 ++ List.range' 0x3C 3 ++
      List.range' 0x40 11 ++ List.range' 0x50 3 ++ List.range' 0x30 12 ++
      List.range' 0x60 9 ++ List.range' 0x70 9 ++ List.range' 0x80 9 := rfl

/-- The gaps between the runs, below the global numbers. -/
theorem not_mem_regNumbers_iff {reg : Nat} (h : reg < 0x100) :
    reg ∉ regNumbers ↔
      (0x09 ≤ reg ∧ reg ≤ 0x0F) ∨ (0x19 ≤ reg ∧ reg ≤ 0x1F) ∨ (0x28 ≤ reg ∧ reg ≤ 0x2F) ∨ reg = 0x3F ∨
      (0x4B ≤ reg ∧ reg ≤ 0x4F) ∨ (0x53 ≤ reg ∧ reg ≤ 0x5F) ∨ (0x69 ≤ reg ∧ reg ≤ 0x6F) ∨
      (0x79 ≤ reg ∧ reg ≤ 0x7F) ∨ 0x89 ≤ reg := by
  simp only [regNumbers_eq_runs, List.mem_append, List.mem_range'_1]
  omega

/-! ### What each assigned number reads (R45) -/

section
variable (ch : Channel)

theorem Channel.readReg_prot (k : Kind) :
    ch.readReg (0x30 + 4 * k.num) = some (boolVal (ch.prot.get k).state) ∧
    ch.readReg (0x31 + 4 * k.num) = some (ch.prot.get k).delay ∧
    ch.readReg (0x32 + 4 * k.num) = some (ch.prot.get k).level ∧
    ch.readReg (0x33 + 4 * k.num) = some (ch.prot.get k).flagsWord ∧
    ch.readReg (0x3C + k.num) = some (ch.prot.get k).alarmTime := by
  cases k <;> exact ⟨rfl, rfl, rfl, rfl, rfl⟩

theorem Channel.readReg_listLen (a : ListArray) :
    ch.readReg (0x40 + a.num) = some (BitVec.ofNat 32 (ch.list.len.get a)) := by
  cases a <;> rfl

theorem Channel.readReg_calField (t : ConvSet) (f : CalField) :
    ch.readReg (0x60 + 16 * t.num + f.num) = some ((ch.cal.get t).field f) := by
  cases t <;> cases f <;> rfl

theorem Channel.readReg_calPresent (t : ConvSet) :
    ch.readReg (0x68 + 16 * t.num) = some (boolVal (ch.cal.get t).present) := by
  cases t <;> rfl

end

/-- Settles O51: every number is looked up in the table of R45, and every flag word is read bit by bit. -/
theorem registerMapOfTheSpec : Obligations.RegisterMapOfTheSpec := by
  intro s ch
  have hlow : ch.readReg 0x24 = some (ch.onTime.extractLsb' 0 32) := rfl
  have hhigh : ch.readReg 0x25 = some (ch.onTime.extractLsb' 32 32) := rfl
  have hchanged : ch.readReg 0x44 = some (boolVal ch.list.changed) := rfl
  have hstatus : ch.readReg 0x22 = some ch.statusWord := rfl
  have htrigState : s.readGlobal 0x100 = some (BitVec.ofNat 32 s.trigState.num) := rfl
  have hsource : s.readGlobal 0x102 = some (s.trigSource.zeroExtend 32) := rfl
  have hcont : s.readGlobal 0x103 = some (boolVal s.trigCont) := rfl
  refine ⟨?_, ⟨?_, ?_⟩, fun k => ?_, ch.readReg_listLen, ?_, fun t => ⟨ch.readReg_calField t, ?_⟩,
    ⟨ch.flagsWord, rfl, ch.flagsWord_bits, ?_, ?_, ch.flagsWord_reserved⟩, ?_,
    ⟨ch.trigFlagsWord, rfl, ch.trigFlagsWord_bits.1, ch.trigFlagsWord_bits.2, ?_, ?_,
      ch.trigFlagsWord_reserved⟩, fun reg hreg => ?_, ⟨?_, rfl, ?_, ?_, rfl, fun reg hreg => ?_⟩⟩
  · simp only [List.forall_mem_cons]
    exact ⟨rfl, rfl, rfl, rfl, rfl, rfl, rfl, rfl, rfl, rfl, rfl, rfl, rfl, rfl, rfl, rfl, rfl, rfl, rfl, rfl,
      rfl, rfl, rfl, rfl, rfl, rfl, rfl, rfl, rfl, rfl, rfl, nofun⟩
  · rw [hlow, Option.map_some, toNat_lowHalf]
  · rw [hhigh, Option.map_some, toNat_highHalf]
  · obtain ⟨hstate, hdelay, hlevel, hflags, htime⟩ := ch.readReg_prot k
    rw [hstate, hflags, Option.map_some, Option.map_some, toNat_boolVal, ProtRec.toNat_flagsWord]
    exact ⟨rfl, hdelay, hlevel, rfl, htime⟩
  · rw [hchanged, Option.map_some, toNat_boolVal]
  · rw [ch.readReg_calPresent, Option.map_some, toNat_boolVal]
  · rw [ch.flagsWord_rangeMode, RangeMode.toNat_num]
  · rw [ch.flagsWord_adcAwait, toNat_awaitNum]
  · rw [hstatus, Option.map_some, ch.toNat_statusWord]
  · rw [ch.trigFlagsWord_modes.1, TrigMode.toNat_num]
  · rw [ch.trigFlagsWord_modes.2, TrigMode.toNat_num]
  · rw [ch.readReg_eq_none_iff, not_mem_regNumbers_iff hreg]
  · rw [htrigState, Option.map_some, TrigState.toNat_num]
  · rw [hsource, Option.map_some, BitVec.toNat_setWidth_of_le (by decide)]
  · rw [hcont, Option.map_some, toNat_boolVal]
  · exact readGlobal_of_gt hreg s

end Sys2Proof.Machine

/-! ## The settings of a channel and their writers (R20 to R38, R327) -/

namespace Sys2Proof

/-! ### One datum for each kind, conversion set and list array -/

@[simp] theorem PerSet.get_modify {α : Type} (x : PerSet α) (t t' : ConvSet) (f : α → α) :
    (x.modify t f).get t' = if t = t' then f (x.get t') else x.get t' := by
  cases t <;> cases t' <;> rfl

@[simp] theorem PerArray.get_modify {α : Type} (x : PerArray α) (r r' : ListArray) (f : α → α) :
    (x.modify r f).get r' = if r = r' then f (x.get r') else x.get r' := by
  cases r <;> cases r' <;> rfl

/-- What a datum's update leaves alone is as it was for every kind. -/
theorem PerKind.modify_frame {α β : Type} (π : α → β) {f : α → α} (hf : ∀ p, π (f p) = π p) (x : PerKind α)
    (k k' : Kind) : π ((x.modify k f).get k') = π (x.get k') := by
  rw [PerKind.get_modify]
  split
  · exact hf _
  · rfl

end Sys2Proof

namespace Sys2Proof.Machine

open Sys2Proof

/-! ### The settings (R20, R21, R23, R25, R27, R28, R36, R38) -/

/-- What decides the effective bounds of a channel, and the bounds (R23, R133). -/
structure Rating where
  board : Board
  calEn : Bool
  rangeMode : RangeMode
  cal : PerSet CalSet
  uMin : Val
  uMax : Val
  uDef : Val
  iMin : Val
  iMax : Val
  iDef : Val

/-- What only commands write, but for the remote-programming flag, which a trip clears too. -/
structure Settings extends Rating where
  uStep : Val
  iStep : Val
  uLimit : Val
  iLimit : Val
  pLimit : Val
  autoRange : Bool
  sense : Bool
  trigOut : Bool
  trigModeU : TrigMode
  trigModeI : TrigMode
  trigU : Val
  trigI : Val
  protState : Kind → Bool
  protDelay : Kind → Val
  protLevel : Kind → Val
  list : ListProgram

def Channel.rating (ch : Channel) : Rating :=
  { board := ch.board, calEn := ch.calEn, rangeMode := ch.rangeMode, cal := ch.cal
    uMin := ch.uMin, uMax := ch.uMax, uDef := ch.uDef
    iMin := ch.iMin, iMax := ch.iMax, iDef := ch.iDef }

def Channel.settings (ch : Channel) : Settings :=
  { toRating := ch.rating
    uStep := ch.u.step, iStep := ch.i.step
    uLimit := ch.u.limit, iLimit := ch.i.limit, pLimit := ch.pLimit
    autoRange := ch.autoRange, sense := ch.sense, trigOut := ch.trigOut
    trigModeU := ch.trigModeU, trigModeI := ch.trigModeI, trigU := ch.trigU, trigI := ch.trigI
    protState := fun k => (ch.prot.get k).state
    protDelay := fun k => (ch.prot.get k).delay
    protLevel := fun k => (ch.prot.get k).level
    list := ch.list }

/-- A protection record written but for its state, its delay and its level. -/
theorem Channel.settings_setProt (ch : Channel) (k : Kind) {f : ProtRec → ProtRec}
    (hstate : ∀ p, (f p).state = p.state) (hdelay : ∀ p, (f p).delay = p.delay)
    (hlevel : ∀ p, (f p).level = p.level) : (ch.setProt k f).settings = ch.settings := by
  have h1 : (fun k' => ((ch.setProt k f).prot.get k').state) = fun k' => (ch.prot.get k').state :=
    funext (PerKind.modify_frame ProtRec.state hstate ch.prot k)
  have h2 : (fun k' => ((ch.setProt k f).prot.get k').delay) = fun k' => (ch.prot.get k').delay :=
    funext (PerKind.modify_frame ProtRec.delay hdelay ch.prot k)
  have h3 : (fun k' => ((ch.setProt k f).prot.get k').level) = fun k' => (ch.prot.get k').level :=
    funext (PerKind.modify_frame ProtRec.level hlevel ch.prot k)
  rw [Channel.settings, h1, h2, h3]
  rfl

theorem Channel.settings_latched (k : Kind) (ch : Channel) : (latched k ch).settings = ch.settings :=
  ch.settings_setProt k (fun _ => rfl) (fun _ => rfl) fun _ => rfl

theorem Channel.settings_clearProtection (ch : Channel) : ch.clearProtection.settings = ch.settings := by
  have h1 : (fun k => (ch.clearProtection.prot.get k).state) = fun k => (ch.prot.get k).state :=
    funext fun k => by rw [clearProtection_prot, PerKind.get_map]
  have h2 : (fun k => (ch.clearProtection.prot.get k).delay) = fun k => (ch.prot.get k).delay :=
    funext fun k => by rw [clearProtection_prot, PerKind.get_map]
  have h3 : (fun k => (ch.clearProtection.prot.get k).level) = fun k => (ch.prot.get k).level :=
    funext fun k => by rw [clearProtection_prot, PerKind.get_map]
  rw [Channel.settings, h1, h2, h3]
  rfl

/-- A value record written but for its step and its limit. -/
theorem Channel.settings_setRecord (ch : Channel) (q : Quantity) {f : ValueRec → ValueRec}
    (hstep : (f (ch.record q)).step = (ch.record q).step)
    (hlimit : (f (ch.record q)).limit = (ch.record q).limit) : (ch.setRecord q f).settings = ch.settings := by
  cases q with
  | u =>
    have hstep' : (f ch.u).step = ch.u.step := hstep
    have hlimit' : (f ch.u).limit = ch.u.limit := hlimit
    simp only [Channel.settings, Channel.setRecord, hstep', hlimit']
    rfl
  | i =>
    have hstep' : (f ch.i).step = ch.i.step := hstep
    have hlimit' : (f ch.i).limit = ch.i.limit := hlimit
    simp only [Channel.settings, Channel.setRecord, hstep', hlimit']
    rfl

theorem Channel.settings_takeSample (cfg : Params) (p : Int) (ch : Channel) (r : AdcInput) (code : Val) :
    (ch.takeSample cfg p r code).settings = ch.settings := by cases r <;> rfl

theorem Channel.settings_takeSnapshot (ch : Channel) (q : Quantity) :
    (ch.takeSnapshot q).settings = ch.settings := by
  unfold Channel.takeSnapshot
  split
  · rfl
  · cases q <;> rfl

theorem Channel.settings_rprogDropped (ch : Channel) : (rprogDropped ch).settings = ch.settings := by
  unfold rprogDropped
  split <;> rfl

/-! ### The settings in a tick, an abort and a trigger execution (R327) -/

theorem ScanMove.settings_eq {cfg : Params} {a b : Channel} (h : ScanMove cfg a b) :
    b.settings = a.settings := by
  cases h with
  | sample => exact Channel.settings_takeSample ..
  | snapshot => exact Channel.settings_takeSnapshot ..
  | dropRprog => exact Channel.settings_rprogDropped a
  | alarm k => exact a.settings_setProt k (fun _ => rfl) (fun _ => rfl) fun _ => rfl
  | trip k now => exact Channel.settings_latched k (turnedOff now a)
  | _ => rfl

theorem RunMove.settings_eq {cfg : Params} {a b : Channel} (h : RunMove cfg a b) :
    b.settings = a.settings := by
  cases h <;> rfl

/-- The per-channel part of a tick leaves remote programming alone or ends it (R206). -/
theorem ScanMove.rprog {cfg : Params} {a b : Channel} (h : ScanMove cfg a b) :
    b.rprog = a.rprog ∨ b.rprog = false := by
  cases h with
  | sample _ r => cases r <;> exact .inl rfl
  | snapshot q =>
    unfold Channel.takeSnapshot
    split
    · exact .inl rfl
    · cases q <;> exact .inl rfl
  | dropRprog =>
    unfold rprogDropped
    split
    · exact .inr rfl
    · exact .inl rfl
  | _ => exact .inl rfl

theorem RunMove.rprog_eq {cfg : Params} {a b : Channel} (h : RunMove cfg a b) : b.rprog = a.rprog := by
  cases h <;> rfl

/-- What a command that names no channel does to a channel: its settings stay, and only a tick ends remote
programming. -/
structure SettingsKept (i : Instr) (a b : Channel) : Prop where
  settings : b.settings = a.settings
  rprog : b.rprog = a.rprog ∨ (i = .tick ∧ b.rprog = false)

theorem SettingsKept.of_eq {i : Instr} {a b : Channel} (h : b = a) : SettingsKept i a b := by
  subst h
  exact ⟨rfl, .inl rfl⟩

theorem SettingsKept.trans {i : Instr} {a b d : Channel} (h : SettingsKept i a b) (h' : SettingsKept i b d) :
    SettingsKept i a d :=
  ⟨h'.settings.trans h.settings, h'.rprog.elim (fun heq => heq ▸ h.rprog) .inr⟩

theorem ScanMove.settingsKept {cfg : Params} {a b : Channel} (h : ScanMove cfg a b) : SettingsKept .tick a b :=
  ⟨h.settings_eq, h.rprog.imp_right fun hoff => ⟨rfl, hoff⟩⟩

theorem RunMove.settingsKept {cfg : Params} {a b : Channel} (h : RunMove cfg a b) (i : Instr) :
    SettingsKept i a b :=
  ⟨h.settings_eq, .inl h.rprog_eq⟩

theorem Reaches.settingsKept {R : Params → Channel → Channel → Prop} {i : Instr} {s t : State}
    (h : Reaches R s t) (hR : ∀ a b, R s.cfg a b → SettingsKept i a b) (c : Nat) :
    SettingsKept i (s.chan c) (t.chan c) := by
  have hmoves := h.moves c
  generalize t.chan c = b at hmoves ⊢
  induction hmoves with
  | refl => exact .of_eq rfl
  | tail _ hlast ih => exact ih.trans (hR _ _ hlast)

theorem RunTo.settingsKept {s t : State} (h : RunTo s t) (i : Instr) (c : Nat) :
    SettingsKept i (s.chan c) (t.chan c) :=
  Reaches.settingsKept h (fun _ _ hmove => hmove.settingsKept i) c

theorem listAbortAll_settingsKept (i : Instr) (s : State) (c : Nat) :
    SettingsKept i (s.chan c) ((listAbortAll s).chan c) := by
  simp only [listAbortAll, State.chan, List.getElem?_map]
  cases s.chans[c]? <;> exact ⟨rfl, .inl rfl⟩

theorem GlobalTo.settingsKept {i : Instr} {s t : State} (h : GlobalTo s i t) (c : Nat) :
    SettingsKept i (s.chan c) (t.chan c) := by
  cases h with
  | keep _ _ _ _ _ hchans => exact .of_eq (by rw [State.chan, State.chan, hchans])
  | start _ s1 _ _ _ _ hchans =>
    have hchan : s1.chan c = s.chan c := by rw [State.chan, State.chan, hchans]
    exact hchan ▸ (startImmediately_run _ s1).settingsKept i c
  | tabort | labort => exact (triggerAbort_run s.begin).settingsKept _ c
  | labortLists => exact listAbortAll_settingsKept _ s.begin c
  | tick =>
    have hscan := (scan_moves s.begin.currentPrecs s.begin).settingsKept (fun _ _ => ScanMove.settingsKept) c
    exact hscan.trans ((run_moves _ _).settingsKept .tick c)

/-! ### The writer of each setting -/

/-- The change of a channel by command `i`, setting by setting: what never changes, and for every other setting the
commands on channel `c` that change it. -/
structure SettingsBy (c : Nat) (i : Instr) (a b : Channel) : Prop where
  board : b.board = a.board
  uStep : b.u.step = a.u.step
  iStep : b.i.step = a.i.step
  uLimit : b.u.limit ≠ a.u.limit → (∃ v, i = .limv c v) ∨ ∃ x, i = .calen c x
  iLimit : b.i.limit ≠ a.i.limit → (∃ v, i = .limi c v) ∨ (∃ x, i = .calen c x) ∨ ∃ m, i = .rmode c m
  pLimit : b.pLimit ≠ a.pLimit → ∃ v, i = .limp c v
  calEn : b.calEn ≠ a.calEn → i = .calen c b.calEn
  rangeMode : b.rangeMode ≠ a.rangeMode → i = .rmode c b.rangeMode
  autoRange : b.autoRange ≠ a.autoRange → i = .rauto c b.autoRange
  sense : b.sense ≠ a.sense → i = .sense c b.sense
  rprog : b.rprog ≠ a.rprog → i = .rprog c b.rprog ∨ (i = .tick ∧ b.rprog = false)
  trigOut : b.trigOut ≠ a.trigOut → i = .tout c b.trigOut
  trigModeU : b.trigModeU ≠ a.trigModeU → i = .tmode c .u b.trigModeU
  trigModeI : b.trigModeI ≠ a.trigModeI → i = .tmode c .i b.trigModeI
  trigU : b.trigU ≠ a.trigU → ∃ v, i = .tlev c .u v
  trigI : b.trigI ≠ a.trigI → ∃ v, i = .tlev c .i v
  protState : ∀ k, (b.prot.get k).state ≠ (a.prot.get k).state →
    i = .pstate c k (b.prot.get k).state ∨ i = .pdis c
  protDelay : ∀ k, (b.prot.get k).delay ≠ (a.prot.get k).delay → ∃ v, i = .pdelay c k v
  protLevel : ∀ k, (b.prot.get k).level ≠ (a.prot.get k).level →
    (∃ v, i = .plevel c k v) ∨ (k = .ovp ∧ i = .rprog c true)
  calField : ∀ k f, (b.cal.get k).field f ≠ (a.cal.get k).field f → ∃ v, i = .calpt c k f v
  calRises : ∀ k, (b.cal.get k).present = true → (a.cal.get k).present = false → i = .calcommit c k
  calFalls : ∀ k, (b.cal.get k).present = false → (a.cal.get k).present = true →
    (∃ f v, i = .calpt c k f v) ∨ i = .calclr c k
  changedRises : b.list.changed = true → a.list.changed = false →
    (∃ r n, i = .llen c r n) ∨ (∃ r k v, i = .lset c r k v) ∨ ∃ n, i = .lcount c n
  changedFalls : b.list.changed = false → a.list.changed = true → i = .lsaved c
  bounds : b.uMin ≠ a.uMin ∨ b.uMax ≠ a.uMax ∨ b.uDef ≠ a.uDef ∨
      b.iMin ≠ a.iMin ∨ b.iMax ≠ a.iMax ∨ b.iDef ≠ a.iDef →
    (∃ x, i = .calen c x) ∨ ∃ m, i = .rmode c m
  listElem : ∀ r k, b.listRead r k ≠ a.listRead r k → ∃ v, i = .lset c r k v
  listLen : ∀ r, b.list.len.get r ≠ a.list.len.get r → ∃ n, i = .llen c r n
  listCount : b.list.count ≠ a.list.count → ∃ n, i = .lcount c n

/-- A flag that is as it was neither rises nor falls. -/
theorem flag_kept {x y : Bool} {p : Prop} (h : x = y) {v w : Bool} (hne : v ≠ w) (hx : x = v) (hy : y = w) : p :=
  absurd (hx.symm.trans (h.trans hy)) hne

theorem SettingsKept.settingsBy {i : Instr} {a b : Channel} (h : SettingsKept i a b) (c : Nat) :
    SettingsBy c i a b := by
  obtain ⟨hset, hrprog⟩ := h
  have hrating : b.rating = a.rating := congrArg Settings.toRating hset
  have hlist : b.list = a.list := congrArg Settings.list hset
  have hcal : b.cal = a.cal := congrArg Rating.cal hrating
  exact
    { board := congrArg Rating.board hrating
      uStep := congrArg Settings.uStep hset
      iStep := congrArg Settings.iStep hset
      uLimit := absurd (congrArg Settings.uLimit hset)
      iLimit := absurd (congrArg Settings.iLimit hset)
      pLimit := absurd (congrArg Settings.pLimit hset)
      calEn := absurd (congrArg Rating.calEn hrating)
      rangeMode := absurd (congrArg Rating.rangeMode hrating)
      autoRange := absurd (congrArg Settings.autoRange hset)
      sense := absurd (congrArg Settings.sense hset)
      rprog := fun hne => .inr (hrprog.resolve_left hne)
      trigOut := absurd (congrArg Settings.trigOut hset)
      trigModeU := absurd (congrArg Settings.trigModeU hset)
      trigModeI := absurd (congrArg Settings.trigModeI hset)
      trigU := absurd (congrArg Settings.trigU hset)
      trigI := absurd (congrArg Settings.trigI hset)
      protState := fun k => absurd (congrFun (congrArg Settings.protState hset) k)
      protDelay := fun k => absurd (congrFun (congrArg Settings.protDelay hset) k)
      protLevel := fun k => absurd (congrFun (congrArg Settings.protLevel hset) k)
      calField := fun k f => absurd (by rw [hcal])
      calRises := fun k => flag_kept (by rw [hcal]) nofun
      calFalls := fun k => flag_kept (by rw [hcal]) nofun
      changedRises := flag_kept (congrArg _ hlist) nofun
      changedFalls := flag_kept (congrArg _ hlist) nofun
      bounds := by
        simp only [Channel.rating, Rating.mk.injEq] at hrating
        simp only [hrating, ne_eq, not_true, or_self, false_imp_iff]
      listElem := fun r k => absurd (by rw [Channel.listRead, Channel.listRead, hlist])
      listLen := fun r => absurd (by rw [hlist])
      listCount := absurd (congrArg _ hlist) }

theorem SettingsBy.of_settings_eq (c : Nat) (i : Instr) {a b : Channel} (h : b.settings = a.settings)
    (hrprog : b.rprog = a.rprog) : SettingsBy c i a b :=
  SettingsKept.settingsBy ⟨h, .inl hrprog⟩ c

/-- The start for a command's own clauses: the channel as it was. -/
theorem SettingsBy.refl (c : Nat) (i : Instr) (a : Channel) : SettingsBy c i a a := .of_settings_eq c i rfl rfl

/-! ### What a command does to the settings of the channel it names -/

theorem CalSet.field_setField (x : CalSet) (f f' : CalField) (v : Val) :
    (x.setField f v).field f' = if f = f' then v else x.field f' := by
  cases f <;> cases f' <;> rfl

section
variable {cfg : Params} {c : Nat} {i : Instr} {a b : Channel}

/-- A calibration set written: the clauses of that set are the command's, those of the others hold. -/
theorem SettingsBy.setCal (t : ConvSet) {f : CalSet → CalSet}
    (hfield : ∀ g, (f (a.cal.get t)).field g ≠ (a.cal.get t).field g → ∃ v, i = .calpt c t g v)
    (hrises : (f (a.cal.get t)).present = true → (a.cal.get t).present = false → i = .calcommit c t)
    (hfalls : (f (a.cal.get t)).present = false → (a.cal.get t).present = true →
      (∃ g v, i = .calpt c t g v) ∨ i = .calclr c t) : SettingsBy c i a (a.setCal t f) := by
  have hsame : (a.setCal t f).cal.get t = f (a.cal.get t) := by
    rw [Channel.setCal, PerSet.get_modify, if_pos rfl]
  have hother {t' : ConvSet} (hne : t' ≠ t) : (a.setCal t f).cal.get t' = a.cal.get t' := by
    rw [Channel.setCal, PerSet.get_modify, if_neg hne.symm]
  refine { SettingsBy.refl c i a with
    calField := fun t' => ?_, calRises := fun t' => ?_, calFalls := fun t' => ?_ } <;>
    obtain rfl | hne := eq_or_ne t' t
  · exact hsame.symm ▸ hfield
  · exact fun g => absurd (by rw [hother hne])
  · exact hsame.symm ▸ hrises
  · exact flag_kept (by rw [hother hne]) nofun
  · exact hsame.symm ▸ hfalls
  · exact flag_kept (by rw [hother hne]) nofun

/-- A protection record written: its clauses are the command's, those of the other kinds hold. -/
theorem SettingsBy.setProt (k : Kind) {f : ProtRec → ProtRec}
    (hstate : (f (a.prot.get k)).state ≠ (a.prot.get k).state →
      i = .pstate c k (f (a.prot.get k)).state ∨ i = .pdis c)
    (hdelay : (f (a.prot.get k)).delay ≠ (a.prot.get k).delay → ∃ v, i = .pdelay c k v)
    (hlevel : (f (a.prot.get k)).level ≠ (a.prot.get k).level → (∃ v, i = .plevel c k v) ∨
      (k = .ovp ∧ i = .rprog c true)) : SettingsBy c i a (a.setProt k f) := by
  have hsame : (a.setProt k f).prot.get k = f (a.prot.get k) := by
    rw [Channel.setProt_prot, PerKind.get_modify, if_pos rfl]
  have hother {k' : Kind} (hne : k' ≠ k) : (a.setProt k f).prot.get k' = a.prot.get k' := by
    rw [Channel.setProt_prot, PerKind.get_modify, if_neg hne.symm]
  refine { SettingsBy.refl c i a with
    protState := fun k' => ?_, protDelay := fun k' => ?_, protLevel := fun k' => ?_ } <;>
    obtain rfl | hne := eq_or_ne k' k
  · exact hsame.symm ▸ hstate
  · exact absurd (by rw [hother hne])
  · exact hsame.symm ▸ hdelay
  · exact absurd (by rw [hother hne])
  · exact hsame.symm ▸ hlevel
  · exact absurd (by rw [hother hne])

/-- `RPROG` on: the flag, and the over-voltage level (R184). -/
theorem SettingsBy.rprogOn (a : Channel) :
    SettingsBy c (.rprog c true) a
      ((voltageApplied { a with rprog := true } a.uMin.toInt).setProt .ovp
        fun p => { p with level := a.board.uMax }) := by
  have hprot : SettingsBy c (.rprog c true) a (a.setProt .ovp fun p => { p with level := a.board.uMax }) :=
    .setProt .ovp (absurd rfl) (absurd rfl) fun _ => .inr ⟨rfl, rfl⟩
  exact { hprot with rprog := fun _ => .inl rfl }

/-- `LSET` writes its one element and marks the list changed (R284). -/
theorem SettingsBy.lset (a : Channel) (r : ListArray) (k : Nat) (v : Int) :
    SettingsBy c (.lset c r k v) a
      { a.listWrite r k (BitVec.ofInt 32 v) with
        list := { (a.listWrite r k (BitVec.ofInt 32 v)).list with changed := true } } := by
  refine { SettingsBy.refl c _ a with
    listElem := fun r' k' hne => ?_
    changedRises := fun _ _ => .inr (.inl ⟨r, k, v, rfl⟩)
    changedFalls := nofun }
  by_cases hhit : r' = r ∧ k' = k
  · obtain ⟨rfl, rfl⟩ := hhit
    exact ⟨v, rfl⟩
  · exact absurd (listWrite_read_ne a r r' k k' _ (not_and_or.mp hhit)) hne

/-- `LLEN` writes its one length and marks the list changed (R283). -/
theorem SettingsBy.llen (a : Channel) (r : ListArray) (n : Nat) :
    SettingsBy c (.llen c r n) a
      { a with list := { a.list with len := a.list.len.modify r fun _ => n, changed := true } } := by
  refine { SettingsBy.refl c _ a with
    listLen := fun r' hne => ?_
    changedRises := fun _ _ => .inl ⟨r, n, rfl⟩
    changedFalls := nofun }
  obtain rfl | hother := eq_or_ne r' r
  · exact ⟨n, rfl⟩
  · exact absurd (by rw [PerArray.get_modify, if_neg hother.symm]) hne

/-- `PDIS` switches all kinds off (R211). -/
theorem SettingsBy.pdis (a : Channel) :
    SettingsBy c (.pdis c) a { a with prot := a.prot.map fun p => { p with state := false } } :=
  { SettingsBy.refl c _ a with
    protState := fun _ _ => .inr rfl
    protDelay := fun k => absurd (by rw [PerKind.get_map])
    protLevel := fun k => absurd (by rw [PerKind.get_map]) }

/-- Each command changes the settings that its name announces, and no other. -/
theorem CmdMove.settingsBy (h : CmdMove cfg c i a b) : SettingsBy c i a b := by
  cases h with
  | fadd _ q | faddr _ q | frst _ q =>
    exact .of_settings_eq c _ (a.settings_setRecord q rfl rfl) (by cases q <;> rfl)
  | calpt _ t f v =>
    refine .setCal t (fun g hne => ?_) nofun fun _ _ => .inl ⟨f, v, rfl⟩
    obtain rfl | hother := eq_or_ne g f
    · exact ⟨v, rfl⟩
    · exact absurd ((CalSet.field_setField _ f g _).trans (if_neg hother.symm)) hne
  | calcommit _ t => exact .setCal t (fun g => absurd (by cases g <;> rfl)) (fun _ _ => rfl) nofun
  | calclr _ t => exact .setCal t (fun g => absurd (by cases g <;> rfl)) nofun fun _ _ => .inr rfl
  | calen _ x =>
    exact { SettingsBy.refl c _ a with
      uLimit := fun _ => .inr ⟨x, rfl⟩
      iLimit := fun _ => .inr (.inl ⟨x, rfl⟩)
      calEn := fun _ => rfl
      bounds := fun _ => .inl ⟨x, rfl⟩ }
  | rmode _ m =>
    exact { SettingsBy.refl c _ a with
      iLimit := fun _ => .inr (.inr ⟨m, rfl⟩)
      rangeMode := fun _ => rfl
      bounds := fun _ => .inr ⟨m, rfl⟩ }
  | rauto => exact { SettingsBy.refl c _ a with autoRange := fun _ => rfl }
  | limvKeep _ v | limvCut _ v => exact { SettingsBy.refl c _ a with uLimit := fun _ => .inl ⟨v, rfl⟩ }
  | limiKeep _ v | limiCut _ v => exact { SettingsBy.refl c _ a with iLimit := fun _ => .inl ⟨v, rfl⟩ }
  | limpKeep _ v | limpCut _ v => exact { SettingsBy.refl c _ a with pLimit := fun _ => ⟨v, rfl⟩ }
  | sense => exact { SettingsBy.refl c _ a with sense := fun _ => rfl }
  | rprogOn => exact .rprogOn a
  | rprogOff => exact { SettingsBy.refl c _ a with rprog := fun _ => .inl rfl }
  | pstate _ k => exact .setProt k (fun _ => .inl rfl) (absurd rfl) (absurd rfl)
  | pdelay _ k v => exact .setProt k (absurd rfl) (fun _ => ⟨v, rfl⟩) (absurd rfl)
  | plevel _ k v => exact .setProt k (absurd rfl) (absurd rfl) fun _ => .inl ⟨v, rfl⟩
  | pclr => exact .of_settings_eq c _ (Channel.settings_clearProtection a) rfl
  | pdis => exact .pdis a
  | tmodeU => exact { SettingsBy.refl c _ a with trigModeU := fun _ => rfl }
  | tmodeI => exact { SettingsBy.refl c _ a with trigModeI := fun _ => rfl }
  | tlevU _ v => exact { SettingsBy.refl c _ a with trigU := fun _ => ⟨v, rfl⟩ }
  | tlevI _ v => exact { SettingsBy.refl c _ a with trigI := fun _ => ⟨v, rfl⟩ }
  | tout => exact { SettingsBy.refl c _ a with trigOut := fun _ => rfl }
  | llen _ r n => exact .llen a r n
  | lset _ r k v => exact .lset a r k v
  | lcount _ n =>
    exact { SettingsBy.refl c _ a with
      listCount := fun _ => ⟨n, rfl⟩
      changedRises := fun _ _ => .inr (.inr ⟨n, rfl⟩)
      changedFalls := nofun }
  | lsaved => exact { SettingsBy.refl c _ a with changedRises := nofun, changedFalls := fun _ _ => rfl }
  | _ => exact .of_settings_eq c _ rfl rfl

end

theorem CmdTo.settingsBy {i : Instr} {c' : Nat} {s t : State} (h : CmdTo i c' s t) (c : Nat) :
    SettingsBy c i (s.chan c) (t.chan c) := by
  by_cases hc : c = c'
  · subst hc
    exact h.named.settingsBy
  · exact (SettingsKept.of_eq (h.other c hc)).settingsBy c

theorem exec_settingsBy {i : Instr} {s t : State} (h : exec i s = .next t) (c : Nat) :
    SettingsBy c i (s.chan c) (t.chan c) := by
  obtain ⟨c', hcmd⟩ | hglobal := exec_to h
  · exact hcmd.settingsBy c
  · exact (hglobal.settingsKept c).settingsBy c

/-! ### What no command writes, and the trigger's own settings (R38, R327) -/

/-- Parameters, pins, port, number of channels, and the settings of the trigger are as they were. -/
structure GlobalsKept (s t : State) : Prop where
  cfg : t.cfg = s.cfg
  pins : t.pins = s.pins
  port : t.port = s.port
  nCh : t.nCh = s.nCh
  trigDelay : t.trigDelay = s.trigDelay
  trigSource : t.trigSource = s.trigSource
  trigCont : t.trigCont = s.trigCont

theorem GlobalsKept.refl (s : State) : GlobalsKept s s := ⟨rfl, rfl, rfl, rfl, rfl, rfl, rfl⟩

theorem GlobalsKept.answer {s t : State} (h : GlobalsKept s t) (d : Val) : GlobalsKept s (t.answer d) :=
  ⟨h.cfg, h.pins, h.port, h.nCh, h.trigDelay, h.trigSource, h.trigCont⟩

theorem Frame.globalsKept {s t : State} (h : Frame s t) : GlobalsKept s t :=
  ⟨h.cfg, h.pins, h.port, h.nCh, h.trigDelay, h.trigSource, h.trigCont⟩

/-- The outcomes of a command from `s` that keeps them. -/
inductive KeepsGlobals (s : State) : Out → Prop where
  | next {t : State} (h : GlobalsKept s t) : KeepsGlobals s (.next t)
  | fault (r : Fault) : KeepsGlobals s (.fault r)

namespace KeepsGlobals

theorem of_frame {s t : State} (h : Frame s t) : KeepsGlobals s (.next t) := .next h.globalsKept

theorem refused (e : Status) (s : State) : KeepsGlobals s (.next (s.failed e)) :=
  .next ⟨rfl, rfl, rfl, rfl, rfl, rfl, rfl⟩

theorem of_begin {s : State} {o : Out} (h : KeepsGlobals s.begin o) : KeepsGlobals s o := by
  cases h with
  | next h => exact .next ⟨h.cfg, h.pins, h.port, h.nCh, h.trigDelay, h.trigSource, h.trigCont⟩
  | fault r => exact .fault r

theorem onChannel {c : Nat} {s : State} {k : State → Channel → Out}
    (h : KeepsGlobals s.begin (k s.begin (s.chan c))) : KeepsGlobals s (onChannel c s k) := by
  by_cases hc : c < s.nCh
  · rw [onChannel_of_lt hc]; exact h.of_begin
  · rw [onChannel_of_ge (Nat.not_lt.mp hc)]; exact .refused _ _

theorem require {b : Bool} {e : Status} {s : State} {k : Out} (h : KeepsGlobals s k) :
    KeepsGlobals s (require b e s k) := by
  cases b with
  | false => exact .refused e s
  | true => exact h

theorem ite {p : Prop} [Decidable p] {s : State} {o o' : Out} (h : KeepsGlobals s o) (h' : KeepsGlobals s o') :
    KeepsGlobals s (if p then o else o') := by
  split
  · exact h
  · exact h'

end KeepsGlobals

theorem execInit_keepsGlobals (s : State) : KeepsGlobals s (execInit s) :=
  have hwait : Frame s.begin { s.begin with trigState := .initiated } :=
    ⟨rfl, rfl, rfl, rfl, rfl, rfl, rfl, rfl, rfl⟩
  .of_begin (.require (.require (.of_frame ((startImmediately_frame ..).ite hwait))))

theorem execTrg_keepsGlobals (n : Nat) (b : Bool) (s : State) : KeepsGlobals s (execTrg n b s) := by
  have hhit : GlobalsKept s.begin { s.begin with trigState := .triggered, trigTime := s.pins.nowUs } :=
    ⟨rfl, rfl, rfl, rfl, rfl, rfl, rfl⟩
  have hcheck := (trigDelayCheck_frame s.currentPrecs
    { s.begin with trigState := .triggered, trigTime := s.pins.nowUs }).globalsKept
  refine .of_begin (.require (.next ?_))
  split
  · exact ⟨hcheck.cfg, hcheck.pins, hcheck.port, hcheck.nCh, hcheck.trigDelay, hcheck.trigSource, hcheck.trigCont⟩
  · exact hhit

theorem execRd_keepsGlobals (c reg : Nat) (s : State) : KeepsGlobals s (execRd c reg s) := by
  refine .ite (.require ?_) (.onChannel ?_) <;> split
  · exact .of_begin (.next ((GlobalsKept.refl s.begin).answer _))
  · exact .refused _ _
  · exact .next ((GlobalsKept.refl s.begin).answer _)
  · exact .refused _ _

/-- Every command but the three that set the trigger. -/
theorem exec_keepsGlobals {i : Instr} (hsrc : ∀ n, i ≠ .tsrc n) (hdelay : ∀ n, i ≠ .tdelay n)
    (hcont : ∀ b, i ≠ .tcont b) (s : State) : KeepsGlobals s (exec i s) := by
  have done : KeepsGlobals s.begin (.next s.begin) := .next (.refl _)
  cases i with dsimp only [exec]
  | tsrc n => exact absurd rfl (hsrc n)
  | tdelay n => exact absurd rfl (hdelay n)
  | tcont b => exact absurd rfl (hcont b)
  | fadd | faddr => exact .onChannel (.next ((Frame.upd ..).globalsKept.answer _))
  | tophys | toraw => exact .onChannel (.next ((GlobalsKept.refl _).answer _))
  | lget => exact .onChannel (.require (.next ((GlobalsKept.refl _).answer _)))
  | frst | rauto | lsaved => exact .onChannel (.of_frame (Frame.upd ..))
  | calpt | calclr => exact .onChannel (.require (.of_frame (Frame.upd ..)))
  | calcommit | llen | lcount => exact .onChannel (.require (.require (.of_frame (Frame.upd ..))))
  | lset | lstart => exact .onChannel (.require (.require (.require (.of_frame (Frame.upd ..)))))
  | pclr | tmode | tlev | tout => exact .onChannel (.of_frame (Frame.upd_emit ..))
  | pstate | pdelay | plevel | pdis => exact .onChannel (.require (.of_frame (Frame.upd_emit ..)))
  | sense => exact .onChannel (.require (.ite done (.of_frame (Frame.upd_emit ..))))
  | rprog =>
    refine .onChannel (.require (.ite done (.ite (.of_frame ?_) (.of_frame ?_))))
    · exact ((Frame.upd_emit ..).trans (applyVoltage_frame ..)).trans (Frame.upd ..)
    · exact (Frame.upd_emit ..).trans (Frame.emit ..)
  | setv => exact .onChannel (.require (.require (.of_frame (applyVoltage_frame ..))))
  | seti => exact .onChannel (.require (.require (.of_frame (applyCurrent_frame ..))))
  | rmode => exact .onChannel (.require (.of_frame ((Frame.upd ..).trans (applyCurrent_frame ..))))
  | calen =>
    refine .onChannel (.require (.require (.ite done (.of_frame ?_))))
    exact ((Frame.upd ..).trans (applyVoltage_frame ..)).trans (applyCurrent_frame ..)
  | limv =>
    exact .onChannel (.require (.of_frame
      (((Frame.upd ..).trans (applyVoltage_frame ..)).ite (Frame.upd_emit ..))))
  | limi | limp =>
    exact .onChannel (.require (.of_frame
      (((Frame.upd ..).trans (applyCurrent_frame ..)).ite (Frame.upd_emit ..))))
  | outen => exact .onChannel (.require (.of_frame (requestOutput_frame ..)))
  | init => exact execInit_keepsGlobals s
  | trg => exact execTrg_keepsGlobals ..
  | tabort => exact .of_begin (.of_frame (triggerAbort_frame _))
  | labort => exact .of_begin (.of_frame ((triggerAbort_frame _).ite (listAbortAll_frame _)))
  | tick => exact .of_begin (.ite (.of_frame (tickAll_frame _)) (.fault _))
  | rd => exact execRd_keepsGlobals ..

/-- The change of the rest of the state by a command: only the trigger's settings, each by its own command. -/
structure GlobalsBy (i : Instr) (s t : State) : Prop where
  cfg : t.cfg = s.cfg
  pins : t.pins = s.pins
  port : t.port = s.port
  nCh : t.nCh = s.nCh
  trigDelay : t.trigDelay ≠ s.trigDelay → ∃ n, i = .tdelay n
  trigSource : t.trigSource ≠ s.trigSource → ∃ n, i = .tsrc n
  trigCont : t.trigCont ≠ s.trigCont → i = .tcont t.trigCont

theorem GlobalsKept.by {s t : State} (h : GlobalsKept s t) (i : Instr) : GlobalsBy i s t :=
  ⟨h.cfg, h.pins, h.port, h.nCh, absurd h.trigDelay, absurd h.trigSource, absurd h.trigCont⟩

theorem KeepsGlobals.by {i : Instr} {s t : State} (hkeeps : KeepsGlobals s (exec i s)) (h : exec i s = .next t) :
    GlobalsBy i s t := by
  rw [h] at hkeeps
  cases hkeeps with
  | next hkept => exact hkept.by i

theorem exec_globalsBy {i : Instr} {s t : State} (h : exec i s = .next t) : GlobalsBy i s t := by
  cases i with
  | tsrc n => cases h; exact { (GlobalsKept.refl s).by _ with trigSource := fun _ => ⟨n, rfl⟩ }
  | tdelay n => cases h; exact { (GlobalsKept.refl s).by _ with trigDelay := fun _ => ⟨n, rfl⟩ }
  | tcont b => cases h; exact { (GlobalsKept.refl s).by _ with trigCont := fun _ => rfl }
  | _ => refine KeepsGlobals.by (exec_keepsGlobals ?_ ?_ ?_ s) h <;> nofun

/-- Settles O53: a command that names a channel announces what it changes in `CmdMove`; the moves of a tick, an
abort and a trigger execution keep every setting, but that a trip ends remote programming. -/
theorem writersOfTheSettings : Obligations.WritersOfTheSettings := by
  intro ins s t c hexec a b
  have hglobal := exec_globalsBy hexec
  have h : SettingsBy c ins a b := exec_settingsBy hexec c
  exact ⟨hglobal.cfg, hglobal.pins, hglobal.port, hglobal.nCh, h.board, h.uStep, h.iStep, h.uLimit, h.iLimit,
    h.pLimit, h.calEn, h.rangeMode, h.autoRange, h.sense, h.rprog, h.trigOut, h.trigModeU, h.trigModeI, h.trigU,
    h.trigI, fun k => ⟨h.protState k, h.protDelay k, h.protLevel k⟩, h.calField, h.calRises, h.calFalls, h.changedRises,
    h.changedFalls, h.bounds, h.listElem, h.listLen, h.listCount, hglobal.trigDelay, hglobal.trigSource,
    hglobal.trigCont⟩

end Sys2Proof.Machine

/-! ## Setpoints, limits and bounds in order (R24, R133, R387) -/

namespace Sys2Proof.Machine

open Sys2Proof

/-! ### Values between two registers -/

/-- An integer between two register values fits a register. -/
theorem toInt_toVal_of_mem {lo hi : Val} {v : Int} (hlo : lo.toInt ≤ v) (hhi : v ≤ hi.toInt) :
    (toVal v).toInt = v :=
  BitVec.toInt_ofInt_eq_self (by decide) (lo.le_toInt.trans hlo) (hhi.trans_lt hi.toInt_lt)

theorem toInt_toVal_clamp {lo hi : Val} (h : lo.toInt ≤ hi.toInt) (v : Int) :
    (toVal (clamp v lo.toInt hi.toInt)).toInt = clamp v lo.toInt hi.toInt :=
  toInt_toVal_of_mem (clamp_bounds v h).1 (clamp_bounds v h).2

/-- A clamped limit is inside the bounds. -/
theorem clampedLimit_mem {lo hi : Val} (h : lo.toInt ≤ hi.toInt) (v : Int) :
    lo.toInt ≤ (toVal (clamp v lo.toInt hi.toInt)).toInt ∧
    (toVal (clamp v lo.toInt hi.toInt)).toInt ≤ hi.toInt := by
  rw [toInt_toVal_clamp h]
  exact clamp_bounds v h

/-! ### One quantity in order (R24, R387) -/

/-- The limit is inside the bounds and the setpoint not above it; a setpoint below its minimum is 0. -/
structure InOrder (lo hi limit set : Val) : Prop where
  minLimit : lo.toInt ≤ limit.toInt
  limitMax : limit.toInt ≤ hi.toInt
  setLimit : set.toInt ≤ limit.toInt
  minSet : lo.toInt ≤ set.toInt ∨ set = 0

/-- A setpoint that may be applied: 0, or between the minimum and the limit. -/
def Admitted (lo limit : Val) (v : Int) : Prop := v = 0 ∨ lo.toInt ≤ v ∧ v ≤ limit.toInt

theorem admitted_clamp {lo limit : Val} (h : lo.toInt ≤ limit.toInt) (v : Int) :
    Admitted lo limit (clamp v lo.toInt limit.toInt) := .inr (clamp_bounds v h)

/-- An admitted setpoint under a limit inside bounds that are not negative. -/
theorem InOrder.of_admitted {lo hi limit : Val} {v : Int} (hlo : 0 ≤ lo.toInt)
    (hlimit : lo.toInt ≤ limit.toInt ∧ limit.toInt ≤ hi.toInt) (hv : Admitted lo limit v) :
    InOrder lo hi limit (toVal v) := by
  obtain ⟨hmin, hmax⟩ := hlimit
  obtain rfl | ⟨hge, hle⟩ := hv
  · exact ⟨hmin, hmax, hlo.trans hmin, .inr rfl⟩
  · have hread := toInt_toVal_of_mem hge hle
    exact ⟨hmin, hmax, hread.symm ▸ hle, .inl (hread.symm ▸ hge)⟩

/-- A setpoint that stays under a new limit. -/
theorem InOrder.relimit {lo hi limit set : Val} (h : InOrder lo hi limit set) {v : Int}
    (hset : set.toInt ≤ clamp v lo.toInt hi.toInt) : InOrder lo hi (toVal (clamp v lo.toInt hi.toInt)) set := by
  have hle := h.minLimit.trans h.limitMax
  obtain ⟨hmin, hmax⟩ := clampedLimit_mem hle v
  exact ⟨hmin, hmax, (toInt_toVal_clamp hle v).symm ▸ hset, h.minSet⟩

/-- A setpoint cut to a new limit. -/
theorem InOrder.cut {lo hi : Val} (hlo : 0 ≤ lo.toInt) (hle : lo.toInt ≤ hi.toInt) (v : Int) :
    InOrder lo hi (toVal (clamp v lo.toInt hi.toInt)) (toVal (clamp v lo.toInt hi.toInt)) := by
  have hread := toInt_toVal_clamp hle v
  exact .of_admitted hlo (clampedLimit_mem hle v) (.inr ⟨(clamp_bounds v hle).1, hread.ge⟩)

/-- The power limit is inside the board's range. -/
def Channel.PowerOk (ch : Channel) : Prop :=
  ch.board.pMin.toInt ≤ ch.pLimit.toInt ∧ ch.pLimit.toInt ≤ ch.board.pMax.toInt

theorem boundsOk_iff (ch : Channel) :
    ch.boundsOk ↔
      InOrder ch.uMin ch.uMax ch.u.limit ch.u.set ∧ InOrder ch.iMin ch.iMax ch.i.limit ch.i.set ∧
      ch.PowerOk := by
  refine ⟨?_, ?_⟩
  · rintro ⟨hu1, hu2, hu3, hu4, hi1, hi2, hi3, hi4, hp⟩
    exact ⟨⟨hu1, hu2, hu3, hu4⟩, ⟨hi1, hi2, hi3, hi4⟩, hp⟩
  · rintro ⟨⟨hu1, hu2, hu3, hu4⟩, ⟨hi1, hi2, hi3, hi4⟩, hp⟩
    exact ⟨hu1, hu2, hu3, hu4, hi1, hi2, hi3, hi4, hp⟩

/-! ### The effective bounds (R133) -/

section
variable {cfg : Params} {a b ch : Channel} {t : ConvSet}

theorem hwRange_congr (h : b.board = a.board) (t : ConvSet) : hwRange cfg b t = hwRange cfg a t := by
  cases t <;> simp only [hwRange, h]

/-- The validity of a set depends on its fields and on the board. -/
theorem calValid_congr (hboard : b.board = a.board)
    (hfield : ∀ f, (b.cal.get t).field f = (a.cal.get t).field f) : calValid cfg b t = calValid cfg a t := by
  have h1 : (b.cal.get t).minDac = (a.cal.get t).minDac := hfield .minDac
  have h2 : (b.cal.get t).minVal = (a.cal.get t).minVal := hfield .minVal
  have h3 : (b.cal.get t).minAdc = (a.cal.get t).minAdc := hfield .minAdc
  have h4 : (b.cal.get t).maxDac = (a.cal.get t).maxDac := hfield .maxDac
  have h5 : (b.cal.get t).maxVal = (a.cal.get t).maxVal := hfield .maxVal
  have h6 : (b.cal.get t).maxAdc = (a.cal.get t).maxAdc := hfield .maxAdc
  have h7 : (b.cal.get t).rangeMin = (a.cal.get t).rangeMin := hfield .rangeMin
  have h8 : (b.cal.get t).rangeMax = (a.cal.get t).rangeMax := hfield .rangeMax
  simp only [calValid, hwRange_congr hboard, hboard, h1, h2, h3, h4, h5, h6, h7, h8]

/-- Committing a set does not change whether it is valid. -/
theorem calValid_setCal_present (a : Channel) (t : ConvSet) :
    calValid cfg (a.setCal t fun x => { x with present := true }) t = calValid cfg a t := by
  have hget : (a.setCal t fun x => { x with present := true }).cal.get t =
      { a.cal.get t with present := true } := by
    rw [Channel.setCal, PerSet.get_modify, if_pos rfl]
  have hboard : (a.setCal t fun x => { x with present := true }).board = a.board := rfl
  refine calValid_congr hboard fun f => ?_
  rw [hget]
  cases f <;> rfl

/-- What the effective bounds rest on: the board's constraints, the low-range ceiling not below `I_MIN`, and
existing sets valid (log entry 16). -/
structure Channel.SetsOk (cfg : Params) (ch : Channel) : Prop where
  board : ch.board.ok = true
  low : ch.board.iMin.toInt ≤ cfg.iLowMax
  valid : ∀ t, (ch.cal.get t).present = true → calValid cfg ch t = true

theorem calOk_iff : ch.calOk cfg ↔ ch.SetsOk cfg ∧ recomputeBounds cfg ch = ch := by
  refine ⟨?_, ?_⟩
  · rintro ⟨hboard, hlow, hvalid, hfix⟩
    exact ⟨⟨hboard, hlow, hvalid⟩, hfix⟩
  · rintro ⟨⟨hboard, hlow, hvalid⟩, hfix⟩
    exact ⟨hboard, hlow, hvalid, hfix⟩

theorem Channel.SetsOk.of_eq (ha : a.SetsOk cfg) (hboard : b.board = a.board) (hcal : b.cal = a.cal) :
    b.SetsOk cfg where
  board := hboard ▸ ha.board
  low := hboard ▸ ha.low
  valid t hpresent := by
    rw [calValid_congr (a := a) hboard fun f => by rw [hcal]]
    exact ha.valid t (hcal ▸ hpresent)

/-- A set written leaves the others valid. -/
theorem Channel.SetsOk.setCal (ha : a.SetsOk cfg) (t : ConvSet) {f : CalSet → CalSet}
    (hf : (f (a.cal.get t)).present = true → calValid cfg (a.setCal t f) t = true) :
    (a.setCal t f).SetsOk cfg where
  board := ha.board
  low := ha.low
  valid t' hpresent := by
    obtain rfl | hne := eq_or_ne t' t
    · rw [Channel.setCal, PerSet.get_modify, if_pos rfl] at hpresent
      exact hf hpresent
    · have hget : (a.setCal t f).cal.get t' = a.cal.get t' := by
        rw [Channel.setCal, PerSet.get_modify, if_neg hne.symm]
      rw [calValid_congr (a := a) (b := a.setCal t f) rfl fun g => by rw [hget]]
      exact ha.valid t' (hget ▸ hpresent)

/-- The bounds of a channel are those of R133: minimum, maximum and default of each quantity. -/
theorem recomputeBounds_eq_self_iff :
    recomputeBounds cfg ch = ch ↔
      ch.uMin = toVal (uBounds ch).1 ∧ ch.uMax = toVal (uBounds ch).2 ∧
      ch.uDef = toVal (clamp ch.board.uDef.toInt (uBounds ch).1 (uBounds ch).2) ∧
      ch.iMin = toVal (iBounds cfg ch).1 ∧ ch.iMax = toVal (iBounds cfg ch).2 ∧
      ch.iDef = toVal (clamp ch.board.iDef.toInt (iBounds cfg ch).1 (iBounds cfg ch).2) := by
  refine ⟨fun h => ?_, ?_⟩
  · exact ⟨(congrArg Channel.uMin h).symm, (congrArg Channel.uMax h).symm, (congrArg Channel.uDef h).symm,
      (congrArg Channel.iMin h).symm, (congrArg Channel.iMax h).symm, (congrArg Channel.iDef h).symm⟩
  · rintro ⟨huMin, huMax, huDef, hiMin, hiMax, hiDef⟩
    rw [recomputeBounds, ← huMin, ← huMax, ← huDef, ← hiMin, ← hiMax, ← hiDef]

theorem boundWith_congr (hcalEn : b.calEn = a.calEn) (hcal : b.cal = a.cal) (t : ConvSet) (lo hi : Int) :
    boundWith b t lo hi = boundWith a t lo hi := by
  rw [boundWith, boundWith, Channel.calActive, Channel.calActive, hcalEn, hcal]

/-- With calibration off the sets do not matter. -/
theorem boundWith_of_off (h : ch.calEn = false) (t : ConvSet) (lo hi : Int) :
    boundWith ch t lo hi = (lo, hi) := by
  rw [boundWith, Channel.calActive, h, Bool.false_and]
  rfl

/-- The condition depends on the rating alone. -/
theorem Channel.calOk.of_rating (ha : a.calOk cfg) (h : b.rating = a.rating) : b.calOk cfg := by
  simp only [Channel.rating, Rating.mk.injEq] at h
  obtain ⟨hboard, hcalEn, hmode, hcal, huMin, huMax, huDef, hiMin, hiMax, hiDef⟩ := h
  obtain ⟨hsets, hfix⟩ := calOk_iff.mp ha
  have hu : uBounds b = uBounds a := by rw [uBounds, uBounds, boundWith_congr hcalEn hcal, hboard]
  have hi : iBounds cfg b = iBounds cfg a := by
    rw [iBounds_eq, iBounds_eq, boundWith_congr hcalEn hcal, hboard, hmode]
  refine calOk_iff.mpr ⟨hsets.of_eq hboard hcal, ?_⟩
  rw [recomputeBounds_eq_self_iff] at hfix ⊢
  rwa [hu, hi, hboard, huMin, huMax, huDef, hiMin, hiMax, hiDef]

/-- A set written with calibration off leaves the bounds alone (R130 to R132). -/
theorem Channel.calOk.setCal (ha : a.calOk cfg) (hoff : a.calEn = false) (t : ConvSet) {f : CalSet → CalSet}
    (hf : (f (a.cal.get t)).present = true → calValid cfg (a.setCal t f) t = true) :
    (a.setCal t f).calOk cfg := by
  obtain ⟨hsets, hfix⟩ := calOk_iff.mp ha
  have hoff' : (a.setCal t f).calEn = false := hoff
  refine calOk_iff.mpr ⟨hsets.setCal t hf, ?_⟩
  rw [recomputeBounds_eq_self_iff, uBounds, iBounds_eq] at hfix ⊢
  rw [boundWith_of_off hoff, boundWith_of_off hoff] at hfix
  rw [boundWith_of_off hoff', boundWith_of_off hoff']
  exact hfix

/-- Recomputed bounds are those of R133. -/
theorem Channel.SetsOk.calOk_recomputed (h : ch.SetsOk cfg) : (recomputeBounds cfg ch).calOk cfg :=
  calOk_iff.mpr ⟨h.of_eq rfl rfl, rfl⟩

/-- The bounds of both quantities are ranges of values that are not negative. -/
structure Channel.Ranges (ch : Channel) : Prop where
  uNonneg : 0 ≤ ch.uMin.toInt
  u : ch.uMin.toInt ≤ ch.uMax.toInt
  iNonneg : 0 ≤ ch.iMin.toInt
  i : ch.iMin.toInt ≤ ch.iMax.toInt

/-- A range cut by the validated range of its set, while that leaves something. -/
theorem boundWith_mem {lo hi : Int} (hle : lo ≤ hi)
    (hvalid : (ch.cal.get t).present = true →
      max lo (ch.cal.get t).rangeMin.toInt ≤ min hi (ch.cal.get t).rangeMax.toInt) :
    lo ≤ (boundWith ch t lo hi).1 ∧ (boundWith ch t lo hi).1 ≤ (boundWith ch t lo hi).2 ∧
    (boundWith ch t lo hi).2 ≤ hi := by
  unfold boundWith
  split
  next hactive =>
    have hpresent : (ch.cal.get t).present = true := (Bool.and_eq_true_iff.mp hactive).2
    exact ⟨le_max_left .., hvalid hpresent, min_le_left ..⟩
  next => exact ⟨le_rfl, hle, le_rfl⟩

theorem Channel.SetsOk.range_of_set (h : ch.SetsOk cfg) (hpresent : (ch.cal.get t).present = true) :
    max (hwRange cfg ch t).1 (ch.cal.get t).rangeMin.toInt ≤
      min (hwRange cfg ch t).2 (ch.cal.get t).rangeMax.toInt := by
  obtain ⟨-, -, -, -, -, -, hrange⟩ := (calValid_iff cfg ch t).mp (h.valid t hpresent)
  exact hrange

theorem Channel.SetsOk.uBounds_mem (h : ch.SetsOk cfg) :
    ch.board.uMin.toInt ≤ (uBounds ch).1 ∧ (uBounds ch).1 ≤ (uBounds ch).2 ∧
    (uBounds ch).2 ≤ ch.board.uMax.toInt := by
  obtain ⟨hmin, hmax⟩ := (Board.bounds_of_ok h.board).uDef
  exact boundWith_mem (hmin.trans hmax) h.range_of_set

theorem Channel.SetsOk.iBounds_mem (h : ch.SetsOk cfg) :
    ch.board.iMin.toInt ≤ (iBounds cfg ch).1 ∧ (iBounds cfg ch).1 ≤ (iBounds cfg ch).2 ∧
    (iBounds cfg ch).2 ≤ ch.board.iMax.toInt := by
  obtain ⟨hmin, hmax⟩ := (Board.bounds_of_ok h.board).iDef
  have hle := hmin.trans hmax
  rw [iBounds_eq]
  split
  · obtain ⟨hlo, hmid, hhi⟩ := boundWith_mem (ch := ch) (t := .il) (le_min hle h.low) h.range_of_set
    exact ⟨hlo, hmid, hhi.trans (min_le_left ..)⟩
  · exact boundWith_mem hle h.range_of_set

theorem Board.mins_nonneg {b : Board} (h : b.ok = true) : 0 ≤ b.uMin.toInt ∧ 0 ≤ b.iMin.toInt := by
  simp only [Board.ok, Bool.and_eq_true, decide_eq_true_eq] at h
  obtain ⟨⟨⟨⟨⟨⟨⟨⟨⟨hu, -⟩, -⟩, hi⟩, -⟩, -⟩, -⟩, -⟩, -⟩, -⟩ := h
  exact ⟨hu, hi⟩

theorem Channel.SetsOk.ranges_recomputed (h : ch.SetsOk cfg) : (recomputeBounds cfg ch).Ranges := by
  obtain ⟨hu, hi⟩ := Board.mins_nonneg h.board
  obtain ⟨hulo, hule, huhi⟩ := h.uBounds_mem
  obtain ⟨hilo, hile, hihi⟩ := h.iBounds_mem
  have huMin : (recomputeBounds cfg ch).uMin.toInt = (uBounds ch).1 :=
    toInt_toVal_of_mem hulo (hule.trans huhi)
  have huMax : (recomputeBounds cfg ch).uMax.toInt = (uBounds ch).2 :=
    toInt_toVal_of_mem (hulo.trans hule) huhi
  have hiMin : (recomputeBounds cfg ch).iMin.toInt = (iBounds cfg ch).1 :=
    toInt_toVal_of_mem hilo (hile.trans hihi)
  have hiMax : (recomputeBounds cfg ch).iMax.toInt = (iBounds cfg ch).2 :=
    toInt_toVal_of_mem (hilo.trans hile) hihi
  refine ⟨?_, ?_, ?_, ?_⟩
  · rw [huMin]; exact hu.trans hulo
  · rw [huMin, huMax]; exact hule
  · rw [hiMin]; exact hi.trans hilo
  · rw [hiMin, hiMax]; exact hile

theorem Channel.calOk.ranges (h : ch.calOk cfg) : ch.Ranges := by
  obtain ⟨hsets, hfix⟩ := calOk_iff.mp h
  exact hfix ▸ hsets.ranges_recomputed

end

/-! ### The invariant of one channel -/

/-- Bounds as R133 has them, setpoints and limits in order. -/
structure Channel.InBounds (cfg : Params) (ch : Channel) : Prop where
  cal : ch.calOk cfg
  u : InOrder ch.uMin ch.uMax ch.u.limit ch.u.set
  i : InOrder ch.iMin ch.iMax ch.i.limit ch.i.set
  power : ch.PowerOk

theorem boundsInv_iff (s : State) : BoundsInv s ↔ ∀ ch ∈ s.chans, ch.InBounds s.cfg := by
  refine forall₂_congr fun ch _ => ?_
  rw [boundsOk_iff]
  refine ⟨?_, ?_⟩
  · rintro ⟨hcal, hu, hi, hp⟩
    exact ⟨hcal, hu, hi, hp⟩
  · rintro ⟨hcal, hu, hi, hp⟩
    exact ⟨hcal, hu, hi, hp⟩

section
variable {cfg : Params} {a b : Channel}

/-- A channel of which at most the setpoints move, to admitted ones. -/
structure Driven (a b : Channel) : Prop where
  rating : b.rating = a.rating
  uLimit : b.u.limit = a.u.limit
  iLimit : b.i.limit = a.i.limit
  pLimit : b.pLimit = a.pLimit
  u : b.u.set = a.u.set ∨ ∃ v, Admitted a.uMin a.u.limit v ∧ b.u.set = toVal v
  i : b.i.set = a.i.set ∨ ∃ v, Admitted a.iMin a.i.limit v ∧ b.i.set = toVal v

theorem Driven.of_settings (h : b.settings = a.settings)
    (hu : b.u.set = a.u.set ∨ ∃ v, Admitted a.uMin a.u.limit v ∧ b.u.set = toVal v)
    (hi : b.i.set = a.i.set ∨ ∃ v, Admitted a.iMin a.i.limit v ∧ b.i.set = toVal v) : Driven a b :=
  ⟨congrArg Settings.toRating h, congrArg Settings.uLimit h, congrArg Settings.iLimit h,
    congrArg Settings.pLimit h, hu, hi⟩

theorem Channel.InBounds.drive (ha : a.InBounds cfg) (h : Driven a b) : b.InBounds cfg := by
  have hr := ha.cal.ranges
  have hrating := h.rating
  simp only [Channel.rating, Rating.mk.injEq] at hrating
  obtain ⟨hboard, -, -, -, huMin, huMax, -, hiMin, hiMax, -⟩ := hrating
  refine ⟨ha.cal.of_rating h.rating, ?_, ?_, ?_⟩
  · rw [huMin, huMax, h.uLimit]
    obtain hu | ⟨v, hv, hu⟩ := h.u
    · exact hu ▸ ha.u
    · exact hu ▸ .of_admitted hr.uNonneg ⟨ha.u.minLimit, ha.u.limitMax⟩ hv
  · rw [hiMin, hiMax, h.iLimit]
    obtain hi | ⟨v, hv, hi⟩ := h.i
    · exact hi ▸ ha.i
    · exact hi ▸ .of_admitted hr.iNonneg ⟨ha.i.minLimit, ha.i.limitMax⟩ hv
  · rw [Channel.PowerOk, hboard, h.pLimit]
    exact ha.power

/-! ### The moves of a tick and of a trigger execution (R236, R262, R291) -/

/-- Balancing applies clamped setpoints; nothing else in the per-channel part of a tick applies one. -/
theorem ScanMove.driven (h : ScanMove cfg a b) (ha : a.InBounds cfg) : Driven a b := by
  have hset := h.settings_eq
  cases h with
  | balanceU avg => exact .of_settings hset (.inr ⟨_, admitted_clamp ha.u.minLimit avg, rfl⟩) (.inl rfl)
  | balanceI now pin avg =>
    exact .of_settings hset (.inl rfl) (.inr ⟨_, admitted_clamp ha.i.minLimit avg, rfl⟩)
  | sample _ r => exact .of_settings hset (.inl (by cases r <;> rfl)) (.inl (by cases r <;> rfl))
  | snapshot q =>
    obtain ⟨hu, hi⟩ := takeSnapshot_records a q
    exact .of_settings hset (.inl (by rw [hu])) (.inl (by rw [hi]))
  | dropRprog =>
    obtain ⟨hu, hi⟩ := rprogDropped_records a
    exact .of_settings hset (.inl (by rw [hu])) (.inl (by rw [hi]))
  | _ => exact .of_settings hset (.inl rfl) (.inl rfl)

/-- A trigger execution and the list steps apply 0 or checked setpoints. -/
theorem RunMove.driven (h : RunMove cfg a b) : Driven a b := by
  have hset := h.settings_eq
  cases h with
  | setU v hv => exact .of_settings hset (.inr ⟨v, hv, rfl⟩) (.inl rfl)
  | setI _ _ v hv => exact .of_settings hset (.inl rfl) (.inr ⟨v, hv, rfl⟩)
  | _ => exact .of_settings hset (.inl rfl) (.inl rfl)

/-! ### The commands (R130 to R135, R157, R174 to R179, R184) -/

/-- `LIMP` recomputes a current that is at most the setpoint or the minimum (R179), both under the limit. -/
theorem admitted_limpCurrent (ha : a.InBounds cfg) (p : Int) : Admitted a.iMin a.i.limit (limpCurrent cfg a p) :=
  .inr ⟨le_max_left .., max_le ha.i.minLimit ((min_le_left ..).trans ha.i.setLimit)⟩

theorem powerOk_limp (ha : a.InBounds cfg) (v : Int) :
    { a with pLimit := toVal (clamp v a.board.pMin.toInt a.board.pMax.toInt) : Channel }.PowerOk :=
  clampedLimit_mem (ha.power.1.trans ha.power.2) v

/-- `CALEN`: bounds recomputed, limits clamped into them, setpoints clamped under the limits (R135). -/
theorem inBounds_calen (ha : a.InBounds cfg) (x : Bool) (now : Time) (pin : ChanPins) :
    (currentApplied cfg now pin (voltageApplied (switchCal cfg x a) (clampedU (switchCal cfg x a)))
      (clampedI (switchCal cfg x a))).InBounds cfg := by
  have hsets : { a with calEn := x : Channel }.SetsOk cfg := (calOk_iff.mp ha.cal).1.of_eq rfl rfl
  have hr := hsets.ranges_recomputed
  have hu := clampedLimit_mem hr.u a.u.limit.toInt
  have hi := clampedLimit_mem hr.i a.i.limit.toInt
  exact ⟨hsets.calOk_recomputed.of_rating rfl,
    .of_admitted hr.uNonneg hu (admitted_clamp hu.1 _), .of_admitted hr.iNonneg hi (admitted_clamp hi.1 _),
    ha.power⟩

/-- `RMODE`: the same for the current; the voltage bounds do not depend on the mode (R157). -/
theorem inBounds_rmode (ha : a.InBounds cfg) (m : RangeMode) (now : Time) (pin : ChanPins) :
    (currentApplied cfg now pin (selectMode cfg m a) (clampedI (selectMode cfg m a))).InBounds cfg := by
  obtain ⟨hsets, hfix⟩ := calOk_iff.mp ha.cal
  have hsets' : { a with rangeMode := m : Channel }.SetsOk cfg := hsets.of_eq rfl rfl
  have hr := hsets'.ranges_recomputed
  have hi := clampedLimit_mem hr.i a.i.limit.toInt
  obtain ⟨huMin, huMax, -⟩ := recomputeBounds_eq_self_iff.mp hfix
  have hu : InOrder (toVal (uBounds a).1) (toVal (uBounds a).2) a.u.limit a.u.set := huMin ▸ huMax ▸ ha.u
  exact ⟨hsets'.calOk_recomputed.of_rating rfl, hu,
    .of_admitted hr.iNonneg hi (admitted_clamp hi.1 _), ha.power⟩

theorem CmdMove.inBounds {c : Nat} {i : Instr} (h : CmdMove cfg c i a b) (ha : a.InBounds cfg) :
    b.InBounds cfg := by
  have hr := ha.cal.ranges
  cases h with
  | fadd _ q | faddr _ q | frst _ q =>
    refine ha.drive (.of_settings (a.settings_setRecord q rfl rfl) (.inl ?_) (.inl ?_)) <;> cases q <;> rfl
  | calpt _ t f v hoff => exact ⟨ha.cal.setCal hoff t nofun, ha.u, ha.i, ha.power⟩
  | calcommit _ t hoff hvalid =>
    exact ⟨ha.cal.setCal hoff t fun _ => (calValid_setCal_present a t).trans hvalid, ha.u, ha.i, ha.power⟩
  | calclr _ t hoff => exact ⟨ha.cal.setCal hoff t nofun, ha.u, ha.i, ha.power⟩
  | calen _ x now pin => exact inBounds_calen ha x now pin
  | rmode _ m now pin => exact inBounds_rmode ha m now pin
  | setv _ _ x hcheck =>
    obtain ⟨hu, -⟩ := checkPoint_ok hcheck
    exact ha.drive (.of_settings rfl (.inr ⟨x, .inr hu, rfl⟩) (.inl rfl))
  | seti _ _ x _ _ hcheck =>
    obtain ⟨-, hi, -⟩ := checkPoint_ok hcheck
    exact ha.drive (.of_settings rfl (.inl rfl) (.inr ⟨x, .inr hi, rfl⟩))
  | limvKeep _ v hle => exact ⟨ha.cal.of_rating rfl, ha.u.relimit hle, ha.i, ha.power⟩
  | limvCut _ v => exact ⟨ha.cal.of_rating rfl, .cut hr.uNonneg hr.u v, ha.i, ha.power⟩
  | limiKeep _ v hle => exact ⟨ha.cal.of_rating rfl, ha.u, ha.i.relimit hle, ha.power⟩
  | limiCut _ v => exact ⟨ha.cal.of_rating rfl, ha.u, .cut hr.iNonneg hr.i v, ha.power⟩
  | limpKeep _ v => exact ⟨ha.cal.of_rating rfl, ha.u, ha.i, powerOk_limp ha v⟩
  | limpCut _ v =>
    have hi (p : Int) := InOrder.of_admitted hr.iNonneg ⟨ha.i.minLimit, ha.i.limitMax⟩ (admitted_limpCurrent ha p)
    exact ⟨ha.cal.of_rating rfl, ha.u, hi _, powerOk_limp ha v⟩
  | rprogOn =>
    have hmin : Admitted a.uMin a.u.limit a.uMin.toInt := .inr ⟨le_rfl, ha.u.minLimit⟩
    exact ha.drive ⟨rfl, rfl, rfl, rfl, .inr ⟨_, hmin, rfl⟩, .inl rfl⟩
  | _ => exact ha.drive ⟨rfl, rfl, rfl, rfl, .inl rfl, .inl rfl⟩

end

/-! ### Parameters, boards and the number of channels (R5 to R7) -/

theorem exec_boards {i : Instr} {s t : State} (h : exec i s = .next t) :
    t.chans.map Channel.board = s.chans.map Channel.board := by
  have hnCh : t.nCh = s.nCh := (exec_globalsBy h).nCh
  refine List.ext_getElem (by rw [List.length_map, List.length_map]; exact hnCh) fun c hc hc' => ?_
  rw [List.length_map] at hc hc'
  rw [List.getElem_map, List.getElem_map, ← State.chan_eq_getElem hc, ← State.chan_eq_getElem hc']
  exact (exec_settingsBy h c).board

/-- A step runs a command on the channels as they are, or leaves them. -/
theorem step_next {s t : State} (h : step s = .next t) :
    (t.cfg = s.cfg ∧ t.chans = s.chans) ∨
    ∃ i s1, s1.cfg = s.cfg ∧ s1.chans = s.chans ∧ exec i s1 = .next t := by
  cases hport : s.port with
  | nil =>
    rw [step_of_port_nil hport] at h
    cases h
    exact .inl ⟨rfl, rfl⟩
  | cons req rest =>
    rw [step_of_port_cons hport] at h
    cases hdec : decode req.word with
    | error e =>
      rw [runWord_of_decode_error hdec] at h
      cases h
      exact .inl ⟨rfl, rfl⟩
    | ok i =>
      rw [runWord_of_decode_ok hdec] at h
      exact .inr ⟨i, s.accept req rest, rfl, rfl, h⟩

theorem step_configured {s t : State} (h : step s = .next t) (hs : s.configured) : t.configured := by
  unfold State.configured at hs ⊢
  obtain ⟨hcfg, hchans⟩ | ⟨i, s1, hcfg, hchans, hexec⟩ := step_next h
  · rwa [hcfg, hchans]
  · rwa [(exec_globalsBy hexec).cfg, exec_boards hexec, hcfg, hchans]

/-- Settles O59: a setpoint is applied clamped, checked or as 0, a limit is clamped into bounds that are ranges,
and the bounds are recomputed wherever what they rest on changes; boards and parameters have no writer. -/
theorem everyStepKeepsTheBounds : Obligations.EveryStepKeepsTheBounds := by
  intro s t hstep
  refine ⟨fun hs => ?_, step_configured hstep⟩
  rw [boundsInv_iff] at hs ⊢
  obtain ⟨hcfg, ht⟩ := step_all (P := fun cfg ch => ch.InBounds cfg) (fun _ _ _ _ _ => CmdMove.inBounds)
    (fun _ _ _ h ha => ha.drive (h.driven ha)) (fun _ _ _ h ha => ha.drive h.driven) hstep hs
  exact hcfg ▸ ht

end Sys2Proof.Machine
